-- ==== Sys2Proof/Word.lean ====
section
/-! DEFINITION. The word types of the block: bytes, operand registers and bit cursors. -/

namespace Sys2Proof

/-- A byte (00_scope R8). -/
abbrev Byte := BitVec 8

/-- An operand register: `ADDR_W` = 32 bits (10_state R20; the width is log 4's). -/
abbrev Word := BitVec 32

/-- A bit cursor: `ADDR_W + 3` = 35 bits (10_state R23, R25). -/
abbrev Cursor := BitVec 35

/-- `2^ADDR_W`, the number of bytes of `MEM` (20_memory R68). -/
abbrev addrSpace : Nat := 4294967296

end Sys2Proof
end

