-- ==== Sys2Proof/Machine/Types.lean ====
section
/-! DEFINITION. The data the block is made of: fault causes, tokens, the table memories of 10_state R36 to R44, and
the sorted key-value lists that hold memory and the hash arrays. -/

namespace Sys2Proof

/-- The 25 fault causes (60_exceptions R401), in the order of its table. -/
inductive Cause where
  | endOfInput
  | huffEmptySlot
  | repeatOverflow
  | invalidLitLenSymbol
  | invalidDistanceSymbol
  | invalidBlockType
  | storedLenMismatch
  | zlibFcheck
  | zlibMethod
  | zlibPresetDict
  | invalidFilterType
  | distanceTooFar
  | zlibTooSmall
  | repeatWithoutPrevious
  | huffTreeMalformed
  | crcMismatch
  | adlerMismatch
  | noEndCode
  | outputOverflow
  | sizeOverflow
  | badArg
  | illegalCommand
  | regionError
  | encodeZeroLength
  | treeNotValid
  deriving DecidableEq, Repr

/-- A `raise Cause(info)` met while reading a stream, with the value `bp` then has (00_scope R12). -/
structure Stop where
  cause : Cause
  info : Nat
  bp : Nat
  deriving DecidableEq, Repr

/-- The tree slots the engine builds for itself (10_state R36). -/
inductive Slot where
  | ll
  | d
  | cl
  deriving DecidableEq, Repr

/-- A fault met by the compressor, or by a tree build: the cause, its info, and for a build that failed the slot it
was to fill (41_huffman R150). -/
structure Failure where
  cause : Cause
  info : Nat
  slot : Option Slot
  deriving DecidableEq, Repr

/-- One LZ77 token (42_lz77 R190). The bounds on a match are `Token.ok`'s. -/
inductive Token where
  | lit (b : Byte)
  | copy (len dist : Nat)
  deriving DecidableEq, Repr

/-- One tree slot (10_state R37). An entry of `tab` is `none` for `EMPTY`. -/
structure Tree where
  n : Nat
  maxBits : Nat
  len : List Nat
  code : List Nat
  tab : List (Option Nat)
  valid : Bool
  deriving DecidableEq, Repr, Inhabited

/-- Sparse arrays: key and value pairs with strictly rising keys. What an unlisted key holds is the array's own
reset value (42_lz77 R195), so an array that has just been reset is the empty list. -/
abbrev Sparse := List (Nat × Nat)

/-- The hash index (10_state R40). `head`, `val` and `headz` list only entries other than -1; an unlisted `chain w`
or `chainz w` is `w` ("no previous"), an unlisted `zeros w` is 0. -/
structure HashIndex where
  head : Sparse
  chain : Sparse
  val : Sparse
  headz : Sparse
  chainz : Sparse
  zeros : Sparse
  deriving DecidableEq, Repr, Inhabited

/-- A Package-Merge chain: `NONE`, or a node `(weight, index, tail)` (41_huffman R175). -/
inductive Chain where
  | none
  | node (weight index : Nat) (tail : Chain)
  deriving DecidableEq, Repr, Inhabited

/-- A leaf of Package-Merge (41_huffman R173). -/
structure Leaf where
  weight : Nat
  symbol : Nat
  deriving DecidableEq, Repr, Inhabited

/-- The Package-Merge store (10_state R43). The arena's nodes are the chains' own. -/
structure Bpm where
  leaves : List Leaf
  chains0 : List Chain
  chains1 : List Chain
  deriving DecidableEq, Repr, Inhabited

/-- The filter line store (10_state R44); `prev` is `none` for the first scanline. -/
structure Lines where
  cur : List Byte
  prev : Option (List Byte)
  att : List (List Byte)
  deriving DecidableEq, Repr, Inhabited

/-- The working memories: tree slots `LL`, `D`, `CL`, `HASH`, `TOK`, `FREQ_*`, `BPM`, `LINES`, `ADLER`, `CRC`
(10_state R36, R40 to R44) and the matcher's hidden variables (R46). Nothing of it is readable by the host. -/
structure Work where
  ll : Tree
  d : Tree
  cl : Tree
  hash : HashIndex
  tok : List Token
  freqLL : List Nat
  freqD : List Nat
  freqCL : List Nat
  bpm : Bpm
  lines : Lines
  adlerS1 : Nat
  adlerS2 : Nat
  crcR : Word
  numZeros : Nat
  lazy : Bool
  lazyLength : Nat
  lazyOffset : Nat
  deriving DecidableEq, Repr, Inhabited

/-- `T.VALID <- 0` for a slot, if one is named: what a failed build leaves (41_huffman R150, 10_state R37). -/
def Work.invalidate (w : Work) (slot : Option Slot) : Work :=
  match slot with
  | none => w
  | some .ll => { w with ll := { w.ll with valid := false } }
  | some .d => { w with d := { w.d with valid := false } }
  | some .cl => { w with cl := { w.cl with valid := false } }

/-! ## Sorted key-value lists -/

/-- The value listed for a key. -/
def getKey {α : Type} : List (Nat × α) → Nat → Option α
  | [], _ => none
  | (k', v) :: rest, k => if k = k' then some v else if k < k' then none else getKey rest k

/-- List a value for a key, keeping the keys rising. -/
def putKey {α : Type} : List (Nat × α) → Nat → α → List (Nat × α)
  | [], k, v => [(k, v)]
  | (k', v') :: rest, k, v =>
    if k = k' then (k, v) :: rest
    else if k < k' then (k, v) :: (k', v') :: rest
    else (k', v') :: putKey rest k v

/-- Remove a key. -/
def dropKey {α : Type} : List (Nat × α) → Nat → List (Nat × α)
  | [], _ => []
  | (k', v') :: rest, k =>
    if k = k' then rest else if k < k' then (k', v') :: rest else (k', v') :: dropKey rest k

end Sys2Proof
end

