-- ==== Sys2Proof/Config.lean ====
section
/-! DEFINITION. What an implementation fixes (the parameters of 00_scope R6) and the free values: opaque constants,
about whose values nothing can be proved. -/

namespace Sys2Proof

/-- `MATCHER` (00_scope R6, 42_lz77 R192). -/
inductive Matcher where
  | any
  | reference
  deriving DecidableEq, Repr

/-- `EMPTY_SLOT_POLICY` (00_scope R6, 41_huffman R162). -/
inductive EmptySlot where
  | fault
  | symbol0
  deriving DecidableEq, Repr

/-- `ADLER_POS` (00_scope R6, 45_zlib_adler R306). -/
inductive AdlerPos where
  | afterStream
  | last4
  deriving DecidableEq, Repr

/-- `ENTROPY_FN` (00_scope R6, 46_filter R341): the exact function, or an approximation this model leaves open. -/
inductive EntropyFn where
  | exact
  | approximate
  deriving DecidableEq, Repr

/-- The parameters of 00_scope R6 that vary in this model; `ADDR_W`, the alphabet sizes and `ERRCODE` are fixed at
their defaults (R7; log 4). `memHoles` lists (base, length) of the address ranges where `MEM_VALID` is false
(20_memory R68; log 18). No step changes a configuration. -/
structure Config where
  window : Nat
  hashNumValues : Nat
  niceMatch : Nat
  lazy : Bool
  maxChain : Nat
  blockSize : Nat
  matcher : Matcher
  emptySlot : EmptySlot
  adlerPos : AdlerPos
  entropyFn : EntropyFn
  memHoles : List (Nat × Nat)
  deriving DecidableEq, Repr

/-- The defaults of 00_scope R6. -/
def Config.default : Config where
  window := 32768
  hashNumValues := 65536
  niceMatch := 128
  lazy := true
  maxChain := 32768
  blockSize := 65535
  matcher := .any
  emptySlot := .fault
  adlerPos := .afterStream
  entropyFn := .exact
  memHoles := []

/-- The constraints between parameters (00_scope R7). -/
abbrev Config.ok (c : Config) : Prop :=
  2 ^ c.window.log2 = c.window ∧ c.window ≤ 32768 ∧ 2 ^ c.hashNumValues.log2 = c.hashNumValues ∧
    1 ≤ c.blockSize ∧ c.blockSize ≤ 65535

/-- Free value (log 7): after a fault, whether a byte of the output region keeps the value the command wrote there
(60_exceptions R404, 93 U1). Arguments: the counter, the address. -/
opaque Config.faultKeeps : Nat → Nat → Bool

/-- Free value (log 8): the working memories after a fault or a reset (93 U2). -/
opaque Config.freeWork : Nat → Work

/-- Free value (log 8): the fields of tree slot `U` while `VALID = 0` (41_huffman R150, 93 U2). -/
opaque Config.freeTree : Nat → Tree

/-- Free value (log 10): what a host read returns that the spec leaves unspecified while `BUSY = 1` (93 U7, U8). -/
opaque Config.freeRead : Nat → Cursor

/-- Free value (log 12): the token sequence proposed for a block under `MATCHER = any` (93 U4). Arguments: the
counter, the number of the call within the command, the data, the block's start and end. Only a valid sequence is used. -/
opaque Config.freeTokens : Nat → Nat → List Byte → Nat → Nat → List Token

/-- Free value (log 13): the approximate entropy of a candidate line (93 U5). -/
opaque Config.approxEntropy : List Byte → Nat

end Sys2Proof
end

