-- ==== Sys2Proof/Syntax.lean ====
section
/-! DEFINITION. The instruction set: one constructor per row of spec/opcode_table.json, in the table's order.
The 14 host commands carry no operand (they stand in the operand registers, 30_encoding R91). A stream element
carries the fields its format gives it (30_encoding R93 to R106); bytes that a format copies or sums (`d`, `D`) stay
in the input region, as memory operands. -/

namespace Sys2Proof

/-- One instruction of either instruction set (30_encoding R90, R111). -/
inductive Instr where
  /-- `NOP` (48_commands R383). -/
  | nop
  /-- `CLRERR` (48_commands R384). -/
  | clrerr
  /-- `INFLATE` (48_commands R376). -/
  | inflate
  /-- `ZLIBD` (48_commands R377). -/
  | zlibd
  /-- `DEFLATE` (48_commands R378). -/
  | deflate
  /-- `ZLIBC` (48_commands R379). -/
  | zlibc
  /-- `UNFILTER` (48_commands R380). -/
  | unfilter
  /-- `FILTER` (48_commands R381). -/
  | filter
  /-- `CRC32` (48_commands R382). -/
  | crc32
  /-- `CRCCHK` (48_commands R385). -/
  | crcchk
  /-- `ADLER32` (48_commands R389). -/
  | adler32
  /-- `HBL` (48_commands R386). -/
  | hbl
  /-- `HBF` (48_commands R387). -/
  | hbf
  /-- `HDEC` (48_commands R388). -/
  | hdec
  /-- `BLOCK.STORED`: header of a stored block; `final` is BFINAL (30_encoding R93, R94). -/
  | blockStored (final : Bool)
  /-- `BLOCK.FIXED`: header of a fixed-Huffman block. -/
  | blockFixed (final : Bool)
  /-- `BLOCK.DYNAMIC`: header of a dynamic-Huffman block. -/
  | blockDynamic (final : Bool)
  /-- `BLOCK.ILLEGAL`: BTYPE = 3, not a block type (43_inflate R222). -/
  | blockIllegal (final : Bool)
  /-- `STORED`: length words of a stored block; the data follow in the input region (30_encoding R95). -/
  | stored (len nlen : BitVec 16)
  /-- `LIT`: literal/length symbols 0 to 255 (30_encoding R97). -/
  | lit (b : Byte)
  /-- `END`: literal/length symbol 256. -/
  | endOfBlock
  /-- `LEN.257`: length symbol 257. -/
  | len257
  /-- `LEN.258`: length symbol 258. -/
  | len258
  /-- `LEN.259`: length symbol 259. -/
  | len259
  /-- `LEN.260`: length symbol 260. -/
  | len260
  /-- `LEN.261`: length symbol 261. -/
  | len261
  /-- `LEN.262`: length symbol 262. -/
  | len262
  /-- `LEN.263`: length symbol 263. -/
  | len263
  /-- `LEN.264`: length symbol 264. -/
  | len264
  /-- `LEN.265`: length symbol 265, 1 extra bit. -/
  | len265 (extra : BitVec 1)
  /-- `LEN.266`: length symbol 266, 1 extra bit. -/
  | len266 (extra : BitVec 1)
  /-- `LEN.267`: length symbol 267, 1 extra bit. -/
  | len267 (extra : BitVec 1)
  /-- `LEN.268`: length symbol 268, 1 extra bit. -/
  | len268 (extra : BitVec 1)
  /-- `LEN.269`: length symbol 269, 2 extra bits. -/
  | len269 (extra : BitVec 2)
  /-- `LEN.270`: length symbol 270, 2 extra bits. -/
  | len270 (extra : BitVec 2)
  /-- `LEN.271`: length symbol 271, 2 extra bits. -/
  | len271 (extra : BitVec 2)
  /-- `LEN.272`: length symbol 272, 2 extra bits. -/
  | len272 (extra : BitVec 2)
  /-- `LEN.273`: length symbol 273, 3 extra bits. -/
  | len273 (extra : BitVec 3)
  /-- `LEN.274`: length symbol 274, 3 extra bits. -/
  | len274 (extra : BitVec 3)
  /-- `LEN.275`: length symbol 275, 3 extra bits. -/
  | len275 (extra : BitVec 3)
  /-- `LEN.276`: length symbol 276, 3 extra bits. -/
  | len276 (extra : BitVec 3)
  /-- `LEN.277`: length symbol 277, 4 extra bits. -/
  | len277 (extra : BitVec 4)
  /-- `LEN.278`: length symbol 278, 4 extra bits. -/
  | len278 (extra : BitVec 4)
  /-- `LEN.279`: length symbol 279, 4 extra bits. -/
  | len279 (extra : BitVec 4)
  /-- `LEN.280`: length symbol 280, 4 extra bits. -/
  | len280 (extra : BitVec 4)
  /-- `LEN.281`: length symbol 281, 5 extra bits. -/
  | len281 (extra : BitVec 5)
  /-- `LEN.282`: length symbol 282, 5 extra bits. -/
  | len282 (extra : BitVec 5)
  /-- `LEN.283`: length symbol 283, 5 extra bits. -/
  | len283 (extra : BitVec 5)
  /-- `LEN.284`: length symbol 284, 5 extra bits. -/
  | len284 (extra : BitVec 5)
  /-- `LEN.285`: length symbol 285. -/
  | len285
  /-- `LLRESERVED.286`: must never be decoded (43_inflate R241). -/
  | llReserved286
  /-- `LLRESERVED.287`: must never be decoded (43_inflate R241). -/
  | llReserved287
  /-- `DIST.0`: distance symbol 0. -/
  | dist0
  /-- `DIST.1`: distance symbol 1. -/
  | dist1
  /-- `DIST.2`: distance symbol 2. -/
  | dist2
  /-- `DIST.3`: distance symbol 3. -/
  | dist3
  /-- `DIST.4`: distance symbol 4, 1 extra bit. -/
  | dist4 (extra : BitVec 1)
  /-- `DIST.5`: distance symbol 5, 1 extra bit. -/
  | dist5 (extra : BitVec 1)
  /-- `DIST.6`: distance symbol 6, 2 extra bits. -/
  | dist6 (extra : BitVec 2)
  /-- `DIST.7`: distance symbol 7, 2 extra bits. -/
  | dist7 (extra : BitVec 2)
  /-- `DIST.8`: distance symbol 8, 3 extra bits. -/
  | dist8 (extra : BitVec 3)
  /-- `DIST.9`: distance symbol 9, 3 extra bits. -/
  | dist9 (extra : BitVec 3)
  /-- `DIST.10`: distance symbol 10, 4 extra bits. -/
  | dist10 (extra : BitVec 4)
  /-- `DIST.11`: distance symbol 11, 4 extra bits. -/
  | dist11 (extra : BitVec 4)
  /-- `DIST.12`: distance symbol 12, 5 extra bits. -/
  | dist12 (extra : BitVec 5)
  /-- `DIST.13`: distance symbol 13, 5 extra bits. -/
  | dist13 (extra : BitVec 5)
  /-- `DIST.14`: distance symbol 14, 6 extra bits. -/
  | dist14 (extra : BitVec 6)
  /-- `DIST.15`: distance symbol 15, 6 extra bits. -/
  | dist15 (extra : BitVec 6)
  /-- `DIST.16`: distance symbol 16, 7 extra bits. -/
  | dist16 (extra : BitVec 7)
  /-- `DIST.17`: distance symbol 17, 7 extra bits. -/
  | dist17 (extra : BitVec 7)
  /-- `DIST.18`: distance symbol 18, 8 extra bits. -/
  | dist18 (extra : BitVec 8)
  /-- `DIST.19`: distance symbol 19, 8 extra bits. -/
  | dist19 (extra : BitVec 8)
  /-- `DIST.20`: distance symbol 20, 9 extra bits. -/
  | dist20 (extra : BitVec 9)
  /-- `DIST.21`: distance symbol 21, 9 extra bits. -/
  | dist21 (extra : BitVec 9)
  /-- `DIST.22`: distance symbol 22, 10 extra bits. -/
  | dist22 (extra : BitVec 10)
  /-- `DIST.23`: distance symbol 23, 10 extra bits. -/
  | dist23 (extra : BitVec 10)
  /-- `DIST.24`: distance symbol 24, 11 extra bits. -/
  | dist24 (extra : BitVec 11)
  /-- `DIST.25`: distance symbol 25, 11 extra bits. -/
  | dist25 (extra : BitVec 11)
  /-- `DIST.26`: distance symbol 26, 12 extra bits. -/
  | dist26 (extra : BitVec 12)
  /-- `DIST.27`: distance symbol 27, 12 extra bits. -/
  | dist27 (extra : BitVec 12)
  /-- `DIST.28`: distance symbol 28, 13 extra bits. -/
  | dist28 (extra : BitVec 13)
  /-- `DIST.29`: distance symbol 29, 13 extra bits. -/
  | dist29 (extra : BitVec 13)
  /-- `DRESERVED.30`: must never be decoded (43_inflate R239). -/
  | dReserved30
  /-- `DRESERVED.31`: must never be decoded (43_inflate R239). -/
  | dReserved31
  /-- `CL.0-15`: the next code length (43_inflate R231). -/
  | clLen (len : BitVec 4)
  /-- `CL.16`: repeat the previous length 3 + rep times (43_inflate R232). -/
  | cl16 (rep : BitVec 2)
  /-- `CL.17`: 3 + rep zero lengths. -/
  | cl17 (rep : BitVec 3)
  /-- `CL.18`: 11 + rep zero lengths. -/
  | cl18 (rep : BitVec 7)
  /-- `DYNHDR`: the three count fields as sent and the HCLEN 3-bit lengths in `CLCL_ORDER` order (30_encoding R101). -/
  | dynhdr (hlit hdist : BitVec 5) (hclen : BitVec 4) (clens : List (BitVec 3))
  /-- `ZHDR`: the two bytes of a zlib header (30_encoding R103). -/
  | zhdr (cmf flg : Byte)
  /-- `ZTRAILER`: the stored Adler32 (30_encoding R104). -/
  | ztrailer (adler : Word)
  /-- `FT.NONE`: filter type 0 (30_encoding R105). -/
  | ftNone
  /-- `FT.SUB`: filter type 1. -/
  | ftSub
  /-- `FT.UP`: filter type 2. -/
  | ftUp
  /-- `FT.AVERAGE`: filter type 3. -/
  | ftAverage
  /-- `FT.PAETH`: filter type 4. -/
  | ftPaeth
  /-- `FT.ILLEGAL`: a type byte 5 to 255 (46_filter R322). -/
  | ftIllegal (t : Byte)
  /-- `CHUNK`: length, type and stored CRC32 of a chunk record (30_encoding R106). -/
  | chunk (len typ crc : Word)
  deriving DecidableEq, Repr

end Sys2Proof
end

