-- ==== Sys2Proof/WellFormed.lean ====
section
/-! DEFINITION. What a term of `Instr` must satisfy beyond the widths of its fields to be an instruction of the
opcode table. -/

namespace Sys2Proof

/-- A dynamic header sends exactly HCLEN = field + 4 code-length-code lengths (30_encoding R99, R101); the illegal
filter-type byte is 5 to 255 (30_encoding R105). Every other row is well-formed for all values of its fields. -/
def Instr.wellFormed : Instr → Bool
  | .dynhdr _ _ hclen clens => clens.length == hclen.toNat + 4
  | .ftIllegal t => decide (5 ≤ t.toNat)
  | _ => true

end Sys2Proof
end

