-- ==== Sys2Proof/Decode.lean ====
section
/-! DEFINITION. The decoder and the encoder: the constant tables (10_state R39), the bit reader (40_bitio R130 to R134),
`DecodeSymbol` (41_huffman R160), the fixed trees (10_state R38), decoding of a command word and of a stream element in
its context, and the encoder written from the same layouts (30_encoding). -/

namespace Sys2Proof

/-! ## Constant tables (10_state R39) -/

/-- `LENGTH_BASE`. -/
def lengthBase : List Nat :=
  [3, 4, 5, 6, 7, 8, 9, 10, 11, 13, 15, 17, 19, 23, 27] ++
    [31, 35, 43, 51, 59, 67, 83, 99, 115, 131, 163, 195, 227, 258]

/-- `LENGTH_EXTRA`. -/
def lengthExtra : List Nat :=
  [0, 0, 0, 0, 0, 0, 0, 0, 1, 1, 1, 1, 2, 2, 2] ++ [2, 3, 3, 3, 3, 4, 4, 4, 4, 5, 5, 5, 5, 0]

/-- `DIST_BASE`. -/
def distBase : List Nat :=
  [1, 2, 3, 4, 5, 7, 9, 13, 17, 25, 33, 49, 65, 97, 129] ++
    [193, 257, 385, 513, 769, 1025, 1537, 2049, 3073, 4097, 6145, 8193, 12289, 16385, 24577]

/-- `DIST_EXTRA`. -/
def distExtra : List Nat :=
  [0, 0, 0, 0, 1, 1, 2, 2, 3, 3, 4, 4, 5, 5, 6] ++ [6, 7, 7, 8, 8, 9, 9, 10, 10, 11, 11, 12, 12, 13, 13]

/-- `CLCL_ORDER`. -/
def clclOrder : List Nat := [16, 17, 18, 0, 8, 7, 9, 6, 10, 5, 11, 4, 12, 3, 13, 2, 14, 1, 15]

/-! ## Bits and bytes -/

/-- The input region as the reader sees it: `IN[i]` and `x[SLEN]` (40_bitio R130). -/
structure Source where
  byte : Nat → Byte
  len : Nat

/-- `NBITS` (40_bitio R130). -/
def Source.nbits (src : Source) : Nat := 8 * src.len

/-- Stream bit `k` is bit `k mod 8` of byte `k div 8` (20_memory R60). -/
def Source.bit (src : Source) (k : Nat) : Bool := (src.byte (k / 8)).getLsbD (k % 8)

/-- The unsigned field of `n` bits at bit `k`, least significant bit first (20_memory R61, 40_bitio R132). -/
def Source.field (src : Source) : (k n : Nat) → Nat
  | _, 0 => 0
  | k, n + 1 => (src.bit k).toNat + 2 * src.field (k + 1) n

/-- `le16` (00_scope R11). -/
def le16 (b0 b1 : Byte) : Nat := b0.toNat + 256 * b1.toNat

/-- `le32` (00_scope R11). -/
def le32 (b0 b1 b2 b3 : Byte) : Nat :=
  b0.toNat + 256 * b1.toNat + 65536 * b2.toNat + 16777216 * b3.toNat

/-- `be32` (00_scope R11). -/
def be32 (b0 b1 b2 b3 : Byte) : Nat := le32 b3 b2 b1 b0

/-- `be32bytes` (00_scope R11). -/
def be32bytes (v : Nat) : List Byte :=
  [BitVec.ofNat 8 (v / 16777216), BitVec.ofNat 8 (v / 65536), BitVec.ofNat 8 (v / 256), BitVec.ofNat 8 v]

/-- The stream-order bits of an unsigned field: `WriteBits(v, n)` (40_bitio R136). -/
def fieldBits (n v : Nat) : List Bool := (List.range n).map (v.testBit ·)

/-- The stream-order bits of a Huffman code of length `n`: `WriteCode(c, n)` (40_bitio R136). -/
def codeBits (n c : Nat) : List Bool := (List.range n).map fun i => c.testBit (n - 1 - i)

/-- The stream-order bits of bytes (20_memory R60). -/
def bytesBits (bs : List Byte) : List Bool := bs.flatMap fun b => fieldBits 8 b.toNat

/-- The bytes that hold a bit sequence; unused high bits of the last one are 0 (40_bitio R135). -/
def packBits (bits : List Bool) : List Byte :=
  let a := bits.toArray
  (List.range ((bits.length + 7) / 8)).map fun k => BitVec.ofFnLE fun i : Fin 8 => a.getD (8 * k + i.val) false

/-- The region that holds given bytes and nothing else. -/
def Source.ofBytes (bs : List Byte) : Source := ⟨fun i => bs.getD i 0, bs.length⟩

/-! ## Reader operations -/

/-- `EndOfInput(bp)`: the check that a read needs no bit at or beyond `NBITS` (40_bitio R131, R132). -/
def endOfInput (bp : Nat) : Stop := ⟨.endOfInput, bp, bp⟩

/-- `ReadBits(n)`: the whole field is checked before any bit is consumed (40_bitio R132). -/
def readBits (src : Source) (n bp : Nat) : Except Stop (Nat × Nat) :=
  if bp + n ≤ src.nbits then .ok (src.field bp n, bp + n) else .error (endOfInput bp)

/-- `AlignRead()` (40_bitio R133). -/
def alignRead (bp : Nat) : Nat := (bp + 7) / 8 * 8

/-- Entry `k` of the 2-D decode table (41_huffman R155); beyond the table nothing is filled. -/
def Tree.entry (t : Tree) (k : Nat) : Option Nat := t.tab.getD k none

/-- The loop of `DecodeSymbol` (41_huffman R160) with `left` bits of input left: one `ReadBit` a turn. -/
def walkTree (policy : EmptySlot) (src : Source) (t : Tree) : (left node bp : Nat) → Except Stop (Nat × Nat)
  | 0, _, bp => .error (endOfInput bp)
  | left + 1, node, bp =>
    match t.entry (2 * node + (src.bit bp).toNat) with
    | none =>
      match policy with
      | .fault => .error ⟨.huffEmptySlot, bp + 1, bp + 1⟩
      | .symbol0 => .ok (0, bp + 1)
    | some v => if v < t.n then .ok (v, bp + 1) else walkTree policy src t left (v - t.n) (bp + 1)

/-- `DecodeSymbol(T)` at `bp` (41_huffman R160, R162): the symbol and the cursor after it. -/
def decodeSymbol (policy : EmptySlot) (src : Source) (t : Tree) (bp : Nat) : Except Stop (Nat × Nat) :=
  walkTree policy src t (src.nbits - bp) 0 bp

/-! ## The fixed trees (10_state R38) -/

/-- `FIXLL`. Its table is what `BuildFromLengths` gives for its lengths (its codes: `fixLL_codes` in Laws; codes looked up in
it: Tests). -/
def fixLL : Tree where
  n := 288
  maxBits := 15
  len := List.replicate 144 8 ++ List.replicate 112 9 ++ List.replicate 24 7 ++ List.replicate 8 8
  code := (List.range 144).map (0x30 + ·) ++ (List.range 112).map (0x190 + ·) ++ List.range 24 ++
    (List.range 8).map (0xC0 + ·)
  tab := (
    [289, 370, 290, 307, 546, 291, 561, 292, 293, 300, 294, 297, 295, 296, 0, 1, 2, 3, 298, 299, 4, 5, 6, 7] ++
    [301, 304, 302, 303, 8, 9, 10, 11, 305, 306, 12, 13, 14, 15, 308, 339, 309, 324, 310, 317, 311, 314, 312, 313] ++
    [16, 17, 18, 19, 315, 316, 20, 21, 22, 23, 318, 321, 319, 320, 24, 25, 26, 27, 322, 323, 28, 29, 30, 31] ++
    [325, 332, 326, 329, 327, 328, 32, 33, 34, 35, 330, 331, 36, 37, 38, 39, 333, 336, 334, 335, 40, 41, 42, 43] ++
    [337, 338, 44, 45, 46, 47, 340, 355, 341, 348, 342, 345, 343, 344, 48, 49, 50, 51, 346, 347, 52, 53, 54, 55] ++
    [349, 352, 350, 351, 56, 57, 58, 59, 353, 354, 60, 61, 62, 63, 356, 363, 357, 360, 358, 359, 64, 65, 66, 67] ++
    [361, 362, 68, 69, 70, 71, 364, 367, 365, 366, 72, 73, 74, 75, 368, 369, 76, 77, 78, 79, 371, 434, 372, 403] ++
    [373, 388, 374, 381, 375, 378, 376, 377, 80, 81, 82, 83, 379, 380, 84, 85, 86, 87, 382, 385, 383, 384, 88, 89] ++
    [90, 91, 386, 387, 92, 93, 94, 95, 389, 396, 390, 393, 391, 392, 96, 97, 98, 99, 394, 395, 100, 101, 102, 103] ++
    [397, 400, 398, 399, 104, 105, 106, 107, 401, 402, 108, 109, 110, 111, 404, 419, 405, 412, 406, 409, 407, 408, 112, 113] ++
    [114, 115, 410, 411, 116, 117, 118, 119, 413, 416, 414, 415, 120, 121, 122, 123, 417, 418, 124, 125, 126, 127, 420, 427] ++
    [421, 424, 422, 423, 128, 129, 130, 131, 425, 426, 132, 133, 134, 135, 428, 431, 429, 430, 136, 137, 138, 139, 432, 433] ++
    [140, 141, 142, 143, 435, 483, 436, 452, 568, 437, 438, 445, 439, 442, 440, 441, 144, 145, 146, 147, 443, 444, 148, 149] ++
    [150, 151, 446, 449, 447, 448, 152, 153, 154, 155, 450, 451, 156, 157, 158, 159, 453, 468, 454, 461, 455, 458, 456, 457] ++
    [160, 161, 162, 163, 459, 460, 164, 165, 166, 167, 462, 465, 463, 464, 168, 169, 170, 171, 466, 467, 172, 173, 174, 175] ++
    [469, 476, 470, 473, 471, 472, 176, 177, 178, 179, 474, 475, 180, 181, 182, 183, 477, 480, 478, 479, 184, 185, 186, 187] ++
    [481, 482, 188, 189, 190, 191, 484, 515, 485, 500, 486, 493, 487, 490, 488, 489, 192, 193, 194, 195, 491, 492, 196, 197] ++
    [198, 199, 494, 497, 495, 496, 200, 201, 202, 203, 498, 499, 204, 205, 206, 207, 501, 508, 502, 505, 503, 504, 208, 209] ++
    [210, 211, 506, 507, 212, 213, 214, 215, 509, 512, 510, 511, 216, 217, 218, 219, 513, 514, 220, 221, 222, 223, 516, 531] ++
    [517, 524, 518, 521, 519, 520, 224, 225, 226, 227, 522, 523, 228, 229, 230, 231, 525, 528, 526, 527, 232, 233, 234, 235] ++
    [529, 530, 236, 237, 238, 239, 532, 539, 533, 536, 534, 535, 240, 241, 242, 243, 537, 538, 244, 245, 246, 247, 540, 543] ++
    [541, 542, 248, 249, 250, 251, 544, 545, 252, 253, 254, 255, 547, 554, 548, 551, 549, 550, 256, 257, 258, 259, 552, 553] ++
    [260, 261, 262, 263, 555, 558, 556, 557, 264, 265, 266, 267, 559, 560, 268, 269, 270, 271, 562, 565, 563, 564, 272, 273] ++
    [274, 275, 566, 567, 276, 277, 278, 279, 569, 572, 570, 571, 280, 281, 282, 283, 573, 574, 284, 285, 286, 287]
    ).map some ++ [none, none]
  valid := true

/-- `FIXD`. -/
def fixD : Tree where
  n := 32
  maxBits := 15
  len := List.replicate 32 5
  code := List.range 32
  tab := (
    [33, 48, 34, 41, 35, 38, 36, 37, 0, 1, 2, 3, 39, 40, 4, 5, 6, 7, 42, 45, 43, 44, 8, 9] ++
    [10, 11, 46, 47, 12, 13, 14, 15, 49, 56, 50, 53, 51, 52, 16, 17, 18, 19, 54, 55, 20, 21, 22, 23] ++
    [57, 60, 58, 59, 24, 25, 26, 27, 61, 62, 28, 29, 30, 31]
    ).map some ++ [none, none]
  valid := true

/-! ## Decoding -/

/-- The command a word written to `csr[CMD]` encodes; `none` is an illegal command (30_encoding R91, R92). -/
def decodeCommand (w : Word) : Option Instr :=
  match w.toNat with
  | 0x00 => some .nop
  | 0x01 => some .clrerr
  | 0x10 => some .inflate
  | 0x11 => some .zlibd
  | 0x12 => some .deflate
  | 0x13 => some .zlibc
  | 0x20 => some .unfilter
  | 0x21 => some .filter
  | 0x30 => some .crc32
  | 0x31 => some .crcchk
  | 0x32 => some .adler32
  | 0x40 => some .hbl
  | 0x41 => some .hbf
  | 0x42 => some .hdec
  | _ => none

/-- The instruction of literal/length symbol `s` with extra value `x` (30_encoding R97); a symbol above 285 is
reserved (43_inflate R236, R241). -/
def litLenInstr (s x : Nat) : Instr :=
  if s < 256 then .lit (BitVec.ofNat 8 s) else
  match s - 256 with
  | 0 => .endOfBlock
  | 1 => .len257
  | 2 => .len258
  | 3 => .len259
  | 4 => .len260
  | 5 => .len261
  | 6 => .len262
  | 7 => .len263
  | 8 => .len264
  | 9 => .len265 (BitVec.ofNat 1 x)
  | 10 => .len266 (BitVec.ofNat 1 x)
  | 11 => .len267 (BitVec.ofNat 1 x)
  | 12 => .len268 (BitVec.ofNat 1 x)
  | 13 => .len269 (BitVec.ofNat 2 x)
  | 14 => .len270 (BitVec.ofNat 2 x)
  | 15 => .len271 (BitVec.ofNat 2 x)
  | 16 => .len272 (BitVec.ofNat 2 x)
  | 17 => .len273 (BitVec.ofNat 3 x)
  | 18 => .len274 (BitVec.ofNat 3 x)
  | 19 => .len275 (BitVec.ofNat 3 x)
  | 20 => .len276 (BitVec.ofNat 3 x)
  | 21 => .len277 (BitVec.ofNat 4 x)
  | 22 => .len278 (BitVec.ofNat 4 x)
  | 23 => .len279 (BitVec.ofNat 4 x)
  | 24 => .len280 (BitVec.ofNat 4 x)
  | 25 => .len281 (BitVec.ofNat 5 x)
  | 26 => .len282 (BitVec.ofNat 5 x)
  | 27 => .len283 (BitVec.ofNat 5 x)
  | 28 => .len284 (BitVec.ofNat 5 x)
  | 29 => .len285
  | 30 => .llReserved286
  | _ => .llReserved287

/-- The instruction of distance symbol `d` with extra value `x` (30_encoding R98); a symbol above 29 is reserved
(43_inflate R239). -/
def distInstr (d x : Nat) : Instr :=
  match d with
  | 0 => .dist0
  | 1 => .dist1
  | 2 => .dist2
  | 3 => .dist3
  | 4 => .dist4 (BitVec.ofNat 1 x)
  | 5 => .dist5 (BitVec.ofNat 1 x)
  | 6 => .dist6 (BitVec.ofNat 2 x)
  | 7 => .dist7 (BitVec.ofNat 2 x)
  | 8 => .dist8 (BitVec.ofNat 3 x)
  | 9 => .dist9 (BitVec.ofNat 3 x)
  | 10 => .dist10 (BitVec.ofNat 4 x)
  | 11 => .dist11 (BitVec.ofNat 4 x)
  | 12 => .dist12 (BitVec.ofNat 5 x)
  | 13 => .dist13 (BitVec.ofNat 5 x)
  | 14 => .dist14 (BitVec.ofNat 6 x)
  | 15 => .dist15 (BitVec.ofNat 6 x)
  | 16 => .dist16 (BitVec.ofNat 7 x)
  | 17 => .dist17 (BitVec.ofNat 7 x)
  | 18 => .dist18 (BitVec.ofNat 8 x)
  | 19 => .dist19 (BitVec.ofNat 8 x)
  | 20 => .dist20 (BitVec.ofNat 9 x)
  | 21 => .dist21 (BitVec.ofNat 9 x)
  | 22 => .dist22 (BitVec.ofNat 10 x)
  | 23 => .dist23 (BitVec.ofNat 10 x)
  | 24 => .dist24 (BitVec.ofNat 11 x)
  | 25 => .dist25 (BitVec.ofNat 11 x)
  | 26 => .dist26 (BitVec.ofNat 12 x)
  | 27 => .dist27 (BitVec.ofNat 12 x)
  | 28 => .dist28 (BitVec.ofNat 13 x)
  | 29 => .dist29 (BitVec.ofNat 13 x)
  | 30 => .dReserved30
  | _ => .dReserved31

/-- Where in a stream the reader stands: what the next element is read as. -/
inductive Ctx where
  /-- a block header (43_inflate R221) -/
  | header
  /-- the length words of a stored block (43_inflate R224, R225) -/
  | stored
  /-- the counts of a dynamic header (43_inflate R229, R230) -/
  | dynHeader
  /-- a code-length symbol in the tree `cl`; `first` when no length has been read yet (43_inflate R231, R232) -/
  | codeLen (cl : Tree) (first : Bool)
  /-- a literal/length symbol in the tree `t` (43_inflate R236) -/
  | litLen (t : Tree)
  /-- a distance symbol in the tree `t` (43_inflate R239) -/
  | dist (t : Tree)
  /-- a zlib header (45_zlib_adler R304) -/
  | zHeader
  /-- the zlib trailer (45_zlib_adler R306) -/
  | trailer (at_ : AdlerPos)
  /-- the type byte of the scanline at byte `q` (46_filter R322) -/
  | scanline (q : Nat)
  /-- a chunk record at byte 0 (47_crc32 R364) -/
  | chunk

/-- How many extra bits code-length symbol `c` has (30_encoding R102). -/
def clExtra (c : Nat) : Nat := if c = 16 then 2 else if c = 17 then 3 else if c = 18 then 7 else 0

/-- The instruction of code-length symbol `c` with repeat field `r` (30_encoding R102). -/
def clInstr (c r : Nat) : Instr :=
  if c < 16 then .clLen (BitVec.ofNat 4 c)
  else if c = 16 then .cl16 (BitVec.ofNat 2 r)
  else if c = 17 then .cl17 (BitVec.ofNat 3 r)
  else .cl18 (BitVec.ofNat 7 r)

/-- The instruction a filter-type byte selects (30_encoding R105). -/
def ftInstr (t : Byte) : Instr :=
  match t.toNat with
  | 0 => .ftNone
  | 1 => .ftSub
  | 2 => .ftUp
  | 3 => .ftAverage
  | 4 => .ftPaeth
  | _ => .ftIllegal t

/-- The byte position of the Adler32 trailer (45_zlib_adler R306). -/
def trailerPos (at_ : AdlerPos) (slen bp : Nat) : Nat :=
  match at_ with
  | .afterStream => (bp + 7) / 8
  | .last4 => slen - 4

/-- `be32` of the four bytes at `p`. -/
def Source.be32At (src : Source) (p : Nat) : Nat :=
  be32 (src.byte p) (src.byte (p + 1)) (src.byte (p + 2)) (src.byte (p + 3))

/-- Decode the element at `bp` in its context: the instruction and the cursor the instruction starts from (for the
formats whose rule says the cursor is not advanced yet, or names byte positions of its own, the unread one). A
refusal is the fault the spec names, with the cursor it leaves. -/
def decode (policy : EmptySlot) (ctx : Ctx) (src : Source) (bp : Nat) : Except Stop (Instr × Nat) :=
  match ctx with
  | .header =>
    match readBits src 3 bp with
    | .error e => .error e
    | .ok (v, bp') =>
      let final := v.testBit 0
      match v / 2 with
      | 0 => .ok (.blockStored final, bp')
      | 1 => .ok (.blockFixed final, bp')
      | 2 => .ok (.blockDynamic final, bp')
      | _ => .ok (.blockIllegal final, bp')
  | .stored =>
    let bp' := alignRead bp
    let p := bp' / 8
    if p + 4 ≤ src.len then
      .ok (.stored (BitVec.ofNat 16 (le16 (src.byte p) (src.byte (p + 1))))
        (BitVec.ofNat 16 (le16 (src.byte (p + 2)) (src.byte (p + 3)))), bp')
    else .error (endOfInput bp')
  | .dynHeader =>
    match readBits src 14 bp with
    | .error e => .error e
    | .ok (_, bp') =>
      let hclen := src.field (bp + 10) 4
      match readBits src (3 * (hclen + 4)) bp' with
      | .error e => .error e
      | .ok (_, bp'') =>
        .ok (.dynhdr (BitVec.ofNat 5 (src.field bp 5)) (BitVec.ofNat 5 (src.field (bp + 5) 5)) (BitVec.ofNat 4 hclen)
          ((List.range (hclen + 4)).map fun i => BitVec.ofNat 3 (src.field (bp' + 3 * i) 3)), bp'')
  | .codeLen cl first =>
    match decodeSymbol policy src cl bp with
    | .error e => .error e
    | .ok (c, bp') =>
      -- a repeat without a previous length faults before its extra bits are read (43_inflate R232)
      if c = 16 ∧ first then .ok (.cl16 0, bp')
      else
        match readBits src (clExtra c) bp' with
        | .error e => .error e
        | .ok (r, bp'') => .ok (clInstr c r, bp'')
  | .litLen t =>
    match decodeSymbol policy src t bp with
    | .error e => .error e
    | .ok (s, bp') =>
      match readBits src (if 257 ≤ s then lengthExtra.getD (s - 257) 0 else 0) bp' with
      | .error e => .error e
      | .ok (x, bp'') => .ok (litLenInstr s x, bp'')
  | .dist t =>
    match decodeSymbol policy src t bp with
    | .error e => .error e
    | .ok (d, bp') =>
      match readBits src (distExtra.getD d 0) bp' with
      | .error e => .error e
      | .ok (x, bp'') => .ok (distInstr d x, bp'')
  | .zHeader =>
    if src.len < 2 then .error ⟨.zlibTooSmall, 0, bp⟩ else .ok (.zhdr (src.byte 0) (src.byte 1), bp)
  | .trailer at_ =>
    let p := trailerPos at_ src.len bp
    if p + 4 ≤ src.len then .ok (.ztrailer (BitVec.ofNat 32 (src.be32At p)), bp) else .error (endOfInput bp)
  | .scanline q => .ok (ftInstr (src.byte q), bp)
  | .chunk =>
    if src.len < 12 then .error ⟨.endOfInput, 8 * src.len, bp⟩
    else
      let length := src.be32At 0
      if length > src.len - 12 then .error ⟨.endOfInput, 8 * src.len, bp⟩
      else .ok (.chunk (BitVec.ofNat 32 length) (BitVec.ofNat 32 (src.be32At 4))
        (BitVec.ofNat 32 (src.be32At (8 + length))), bp)

/-! ## Encoding -/

/-- What an element's bits depend on besides its own fields: the trees whose codes it is sent in, the bit position
it starts at (for pad bits), and the bytes its format carries (`d` of `ST` and `FT`, `D` of `CK`). -/
structure EncEnv where
  ll : Tree
  d : Tree
  cl : Tree
  bp : Nat
  data : List Byte

/-- The environment of a fixed block at a byte boundary. -/
def EncEnv.fixed : EncEnv := ⟨fixLL, fixD, fixD, 0, []⟩

/-- The code of symbol `s` in tree `t`, in stream order (41_huffman R158). -/
def Tree.codeOf (t : Tree) (s : Nat) : List Bool := codeBits (t.len.getD s 0) (t.code.getD s 0)

/-- Zero bits up to the next byte boundary (20_memory R65, 40_bitio R137). -/
def padBits (bp : Nat) : List Bool := List.replicate (alignRead bp - bp) false

/-- The bits of an extra field. -/
def extraBits {n : Nat} (x : BitVec n) : List Bool := fieldBits n x.toNat

/-- The bits of an instruction in stream order; a command word's bits least significant first (30_encoding R91 to
R106). -/
def encode (e : EncEnv) (i : Instr) : List Bool :=
  match i with
  | .nop => fieldBits 32 0x00
  | .clrerr => fieldBits 32 0x01
  | .inflate => fieldBits 32 0x10
  | .zlibd => fieldBits 32 0x11
  | .deflate => fieldBits 32 0x12
  | .zlibc => fieldBits 32 0x13
  | .unfilter => fieldBits 32 0x20
  | .filter => fieldBits 32 0x21
  | .crc32 => fieldBits 32 0x30
  | .crcchk => fieldBits 32 0x31
  | .adler32 => fieldBits 32 0x32
  | .hbl => fieldBits 32 0x40
  | .hbf => fieldBits 32 0x41
  | .hdec => fieldBits 32 0x42
  | .blockStored final => [final, false, false]
  | .blockFixed final => [final, true, false]
  | .blockDynamic final => [final, false, true]
  | .blockIllegal final => [final, true, true]
  | .stored len nlen => padBits e.bp ++ fieldBits 16 len.toNat ++ fieldBits 16 nlen.toNat ++ bytesBits e.data
  | .lit b => e.ll.codeOf b.toNat
  | .endOfBlock => e.ll.codeOf 256
  | .len257 => e.ll.codeOf 257
  | .len258 => e.ll.codeOf 258
  | .len259 => e.ll.codeOf 259
  | .len260 => e.ll.codeOf 260
  | .len261 => e.ll.codeOf 261
  | .len262 => e.ll.codeOf 262
  | .len263 => e.ll.codeOf 263
  | .len264 => e.ll.codeOf 264
  | .len265 x => e.ll.codeOf 265 ++ extraBits x
  | .len266 x => e.ll.codeOf 266 ++ extraBits x
  | .len267 x => e.ll.codeOf 267 ++ extraBits x
  | .len268 x => e.ll.codeOf 268 ++ extraBits x
  | .len269 x => e.ll.codeOf 269 ++ extraBits x
  | .len270 x => e.ll.codeOf 270 ++ extraBits x
  | .len271 x => e.ll.codeOf 271 ++ extraBits x
  | .len272 x => e.ll.codeOf 272 ++ extraBits x
  | .len273 x => e.ll.codeOf 273 ++ extraBits x
  | .len274 x => e.ll.codeOf 274 ++ extraBits x
  | .len275 x => e.ll.codeOf 275 ++ extraBits x
  | .len276 x => e.ll.codeOf 276 ++ extraBits x
  | .len277 x => e.ll.codeOf 277 ++ extraBits x
  | .len278 x => e.ll.codeOf 278 ++ extraBits x
  | .len279 x => e.ll.codeOf 279 ++ extraBits x
  | .len280 x => e.ll.codeOf 280 ++ extraBits x
  | .len281 x => e.ll.codeOf 281 ++ extraBits x
  | .len282 x => e.ll.codeOf 282 ++ extraBits x
  | .len283 x => e.ll.codeOf 283 ++ extraBits x
  | .len284 x => e.ll.codeOf 284 ++ extraBits x
  | .len285 => e.ll.codeOf 285
  | .llReserved286 => e.ll.codeOf 286
  | .llReserved287 => e.ll.codeOf 287
  | .dist0 => e.d.codeOf 0
  | .dist1 => e.d.codeOf 1
  | .dist2 => e.d.codeOf 2
  | .dist3 => e.d.codeOf 3
  | .dist4 x => e.d.codeOf 4 ++ extraBits x
  | .dist5 x => e.d.codeOf 5 ++ extraBits x
  | .dist6 x => e.d.codeOf 6 ++ extraBits x
  | .dist7 x => e.d.codeOf 7 ++ extraBits x
  | .dist8 x => e.d.codeOf 8 ++ extraBits x
  | .dist9 x => e.d.codeOf 9 ++ extraBits x
  | .dist10 x => e.d.codeOf 10 ++ extraBits x
  | .dist11 x => e.d.codeOf 11 ++ extraBits x
  | .dist12 x => e.d.codeOf 12 ++ extraBits x
  | .dist13 x => e.d.codeOf 13 ++ extraBits x
  | .dist14 x => e.d.codeOf 14 ++ extraBits x
  | .dist15 x => e.d.codeOf 15 ++ extraBits x
  | .dist16 x => e.d.codeOf 16 ++ extraBits x
  | .dist17 x => e.d.codeOf 17 ++ extraBits x
  | .dist18 x => e.d.codeOf 18 ++ extraBits x
  | .dist19 x => e.d.codeOf 19 ++ extraBits x
  | .dist20 x => e.d.codeOf 20 ++ extraBits x
  | .dist21 x => e.d.codeOf 21 ++ extraBits x
  | .dist22 x => e.d.codeOf 22 ++ extraBits x
  | .dist23 x => e.d.codeOf 23 ++ extraBits x
  | .dist24 x => e.d.codeOf 24 ++ extraBits x
  | .dist25 x => e.d.codeOf 25 ++ extraBits x
  | .dist26 x => e.d.codeOf 26 ++ extraBits x
  | .dist27 x => e.d.codeOf 27 ++ extraBits x
  | .dist28 x => e.d.codeOf 28 ++ extraBits x
  | .dist29 x => e.d.codeOf 29 ++ extraBits x
  | .dReserved30 => e.d.codeOf 30
  | .dReserved31 => e.d.codeOf 31
  | .clLen len => e.cl.codeOf len.toNat
  | .cl16 rep => e.cl.codeOf 16 ++ extraBits rep
  | .cl17 rep => e.cl.codeOf 17 ++ extraBits rep
  | .cl18 rep => e.cl.codeOf 18 ++ extraBits rep
  | .dynhdr hlit hdist hclen clens =>
    extraBits hlit ++ extraBits hdist ++ extraBits hclen ++ clens.flatMap fun l => extraBits l
  | .zhdr cmf flg => bytesBits [cmf, flg]
  | .ztrailer adler => padBits e.bp ++ bytesBits (be32bytes adler.toNat)
  | .ftNone => fieldBits 8 0 ++ bytesBits e.data
  | .ftSub => fieldBits 8 1 ++ bytesBits e.data
  | .ftUp => fieldBits 8 2 ++ bytesBits e.data
  | .ftAverage => fieldBits 8 3 ++ bytesBits e.data
  | .ftPaeth => fieldBits 8 4 ++ bytesBits e.data
  | .ftIllegal t => fieldBits 8 t.toNat
  | .chunk len typ crc =>
    bytesBits (be32bytes len.toNat ++ be32bytes typ.toNat ++ e.data ++ be32bytes crc.toNat)

/-- The command word of a command (30_encoding R91). -/
def encodeCommand (i : Instr) : Word :=
  BitVec.ofNat 32 (((encode .fixed i).take 32).foldr (fun b v => b.toNat + 2 * v) 0)

/-! ## A word of the opcode table -/

/-- The bytes of a word of `nbits` bits whose table pattern is in stream order: the pattern's leftmost bit, bit
`nbits - 1`, is the first stream bit (30_encoding R111), followed by zero bytes. -/
def streamWordBytes (nbits w : Nat) : List Byte :=
  packBits ((List.range nbits).map fun k => w.testBit (nbits - 1 - k)) ++ List.replicate 8 0

/-- How a table word without a context is read (log 20). -/
inductive WordKind where
  | command
  | filterType
  | litLen
  | dist
  | zlibHeader
  deriving DecidableEq, Repr

/-- The context in which a word of the opcode table is read: 32 bits are a command word; one byte is a filter type
when it is 0 to 4, the fixed code of distance symbol 8 or 9 when its upper five bits are that code, else a
literal/length symbol in the fixed code; two bytes are distance symbol 24 or 25 or a zlib header (log 20). -/
def wordKind (nbits w : Nat) : Option WordKind :=
  match nbits with
  | 32 => some .command
  | 8 => if w ≤ 4 then some .filterType else if w / 8 = 8 ∨ w / 8 = 9 then some .dist else some .litLen
  | 16 => if w / 2048 = 24 ∨ w / 2048 = 25 then some .dist else some .zlibHeader
  | _ => none

/-- The bytes in memory of a table word, in the order the hardware stores them. -/
def tableWordBytes (k : WordKind) (nbits w : Nat) : List Byte :=
  match k with
  | .filterType => [BitVec.ofNat 8 w] ++ List.replicate 8 0
  | .zlibHeader => [BitVec.ofNat 8 (w / 256), BitVec.ofNat 8 w] ++ List.replicate 8 0
  | _ => streamWordBytes nbits w

/-- The decoding context of a table word. -/
def tableWordCtx (k : WordKind) : Ctx :=
  match k with
  | .dist => .dist fixD
  | .filterType => .scanline 0
  | .zlibHeader => .zHeader
  | _ => .litLen fixLL

/-- The instruction the decoder reads from a word of the opcode table (log 20). -/
def decodeTableWord (nbits w : Nat) : Option Instr :=
  match wordKind nbits w with
  | none => none
  | some .command => decodeCommand (BitVec.ofNat 32 w)
  | some k =>
    match decode .fault (tableWordCtx k) (.ofBytes (tableWordBytes k nbits w)) 0 with
    | .ok (i, _) => some i
    | .error _ => none

end Sys2Proof
end

