-- ==== Sys2Proof/Machine/State.lean ====
section
/-! DEFINITION. The state of the block, its reset value, and the reasons a step can stop. -/

namespace Sys2Proof.Machine

/-- `MEM` (20_memory R68): address and byte pairs in canonical form (`Memory.wf`). -/
abbrev Memory := List Host.Cell

/-- What a byte nothing has written reads as (log 5, DESIGN CHOICE, unsafe). -/
def Memory.unlisted : Byte := 0

/-- The canonical form: addresses strictly rising, no entry equal to what an unlisted address reads as. -/
def Memory.wf : Memory → Bool
  | [] => true
  | [(_, b)] => b != Memory.unlisted
  | (a, b) :: (a', b') :: rest => b != Memory.unlisted && decide (a < a') && Memory.wf ((a', b') :: rest)

/-- The phase of the decompressor (10_state R46, 43_inflate R220). -/
inductive Phase where
  /-- before the zlib header (45_zlib_adler R303) -/
  | zHeader
  /-- before a block header -/
  | header
  /-- before the length words of a stored block -/
  | stored
  /-- before the counts of a dynamic header -/
  | dynHeader
  /-- reading the `HLIT + HDIST` code lengths, with the lengths read so far (43_inflate R231) -/
  | codeLens (hlit hdist : Nat) (lens : List Nat)
  /-- the symbol loop; `fixed` tells the current tree pair, `FIXLL`/`FIXD` or `LL`/`D` -/
  | symbols (fixed : Bool)
  /-- a length has been decoded, its distance has not (43_inflate R239) -/
  | distance (fixed : Bool) (length : Nat)
  /-- before the zlib trailer (45_zlib_adler R306) -/
  | trailer
  deriving DecidableEq, Repr

/-- The running command's hidden state (10_state R46). `STATUS.BUSY` is `engine ≠ idle` (log 15). -/
inductive Engine where
  | idle
  /-- `INFLATE`, or `ZLIBD` when `zlib` -/
  | inflate (zlib : Bool) (phase : Phase)
  /-- `UNFILTER`, before scanline `y` -/
  | unfilter (y : Nat)
  /-- `CRCCHK`, before its chunk record -/
  | chunk
  deriving DecidableEq, Repr

/-- An access of the host, in the terms of 30_encoding R109's command listing (log 3). -/
inductive HostAct where
  | writeX (i : Fin 9) (v : Word)
  | readX (i : Fin 9)
  | writeCsr (n : Nat) (v : Word)
  | readCsr (n : Nat)
  | writeMem (a : Word) (v : Byte)
  | readMem (a : Word)
  /-- the reset event (70_reset R440, R441) -/
  | reset
  /-- `WAIT`: do nothing until `BUSY = 0` -/
  | wait
  /-- do nothing for one step of the engine -/
  | tick
  deriving DecidableEq, Repr

/-- The machine. -/
structure State where
  /-- the parameters; no step changes them -/
  cfg : Config
  -- operand registers x[0..8] (10_state R20)
  src : Word
  slen : Word
  dst : Word
  dcap : Word
  dlen : Word
  arg0 : Word
  arg1 : Word
  arg2 : Word
  res0 : Word
  -- cursors (10_state R23 to R25)
  bp : Cursor
  pos : Word
  wbp : Cursor
  -- STATUS (10_state R30); BUSY and ERRF are views
  done : Bool
  bfinal : Bool
  treev : Bool
  -- the other registers of the CSR space (10_state R31, R32, R34)
  err : Word
  errInfo : Cursor
  ctrl : Word
  -- memory and table memories
  mem : Memory
  u : Tree
  work : Work
  -- the running command
  engine : Engine
  -- the model's own fields (INVENTORY): memory when the command started, the host's pending accesses, the value of
  -- its last read, the counter of free values
  saved : Memory
  host : List HostAct
  rdata : Cursor
  free : Nat
  deriving DecidableEq, Repr

/-- Why the machine can stop. -/
inductive Fault where
  /-- An access to memory the spec says does not exist. Raised by a stream element when the regions of the running
  command are not legal (20_memory R69), which no run reaches because every command checks them first, and by a host
  access to an address that is not `MEM_VALID` (20_memory R68). Safe: the machine stops. -/
  | noSuchAddress
  deriving DecidableEq, Repr

/-- What the model does not do. -/
inductive Refusal where
  /-- An instruction with no meaning yet; only `exec`'s arms raise it. Safe. -/
  | notModelled (mnemonic : String)
  /-- The host touches a byte it has handed over to a running command (20_memory R75, 93 U6: `refuse`). Raised by
  the host's memory accesses. Safe for every claim about one step; a claim about runs holds for hosts that keep the rule. -/
  | hostTouchesRegion
  deriving DecidableEq, Repr

/-- A tree slot as it is after reset: `VALID` = 0 (10_state R50); the other fields are log 6's. -/
def emptyTree : Tree := ⟨0, 0, [], [], [], false⟩

/-- The working memories after reset: unspecified in the spec (10_state R50), these values are log 6's. -/
def initialWork : Work where
  ll := emptyTree
  d := emptyTree
  cl := emptyTree
  hash := ⟨[], [], [], [], [], []⟩
  tok := []
  freqLL := []
  freqD := []
  freqCL := []
  bpm := ⟨[], [], []⟩
  lines := ⟨[], none, []⟩
  adlerS1 := 0
  adlerS2 := 0
  crcR := 0
  numZeros := 0
  lazy := false
  lazyLength := 0
  lazyOffset := 0

/-- The machine right after reset (10_state R50, 70_reset R440). -/
def State.reset : State where
  cfg := Config.default
  src := 0
  slen := 0
  dst := 0
  dcap := 0
  dlen := 0
  arg0 := 0
  arg1 := 0
  arg2 := 0
  res0 := 0
  bp := 0
  pos := 0
  wbp := 0
  done := false
  bfinal := false
  treev := false
  err := 0
  errInfo := 0
  ctrl := 0x00000004
  mem := []
  u := emptyTree
  work := initialWork
  engine := .idle
  saved := []
  host := []
  rdata := 0
  free := 0

end Sys2Proof.Machine
end

