-- ==== Sys2Proof/Machine/Flags.lean ====
section
/-! DEFINITION. The flags and fields of the CSR space: `STATUS`, `CTRL`, and the numbers of the fault causes. -/

namespace Sys2Proof.Machine

/-- `ERRCODE` (60_exceptions R401). -/
def errCode (c : Cause) : Word :=
  match c with
  | .endOfInput => 10
  | .huffEmptySlot => 11
  | .repeatOverflow => 13
  | .invalidLitLenSymbol => 16
  | .invalidDistanceSymbol => 18
  | .invalidBlockType => 20
  | .storedLenMismatch => 21
  | .zlibFcheck => 24
  | .zlibMethod => 25
  | .zlibPresetDict => 26
  | .invalidFilterType => 36
  | .distanceTooFar => 52
  | .zlibTooSmall => 53
  | .repeatWithoutPrevious => 54
  | .huffTreeMalformed => 55
  | .crcMismatch => 57
  | .adlerMismatch => 58
  | .noEndCode => 64
  | .outputOverflow => 83
  | .sizeOverflow => 92
  | .badArg => 200
  | .illegalCommand => 201
  | .regionError => 202
  | .encodeZeroLength => 203
  | .treeNotValid => 204

/-- `STATUS.BUSY`: a command is executing (10_state R30). -/
def State.busy (s : State) : Bool := s.engine != .idle

/-- `STATUS.ERRF`: 1 exactly when `ERR` is not 0 (10_state R27). -/
def State.errf (s : State) : Bool := s.err != 0

/-- The word `csr[STATUS]` reads (10_state R30). -/
def State.status (s : State) : Word :=
  BitVec.ofNat 32 (s.busy.toNat + 2 * s.done.toNat + 4 * s.errf.toNat + 8 * s.bfinal.toNat + 16 * s.treev.toNat)

/-- The word `csr[ID]` reads (10_state R33). -/
def idWord : Word := 0x41374401

/-- The defined bits of `CTRL`; the others ignore writes and read 0 (10_state R34). -/
def ctrlMask : Word := 0x00000337

/-- `CTRL.IGNORE_ADLER`. -/
def State.ignoreAdler (s : State) : Bool := s.ctrl.getLsbD 0

/-- `CTRL.IGNORE_CRC`. -/
def State.ignoreCrc (s : State) : Bool := s.ctrl.getLsbD 1

/-- `CTRL.PAL0`. -/
def State.pal0 (s : State) : Bool := s.ctrl.getLsbD 2

/-- The filter strategies (46_filter R336). -/
inductive Strategy where
  | zero
  | minSum
  | entropy
  | bruteForce
  deriving DecidableEq, Repr

/-- `CTRL.FSTRAT`. -/
def State.fstrat (s : State) : Strategy :=
  match s.ctrl.toNat / 16 % 4 with
  | 0 => .zero
  | 1 => .minSum
  | 2 => .entropy
  | _ => .bruteForce

/-- The block type choices (44_deflate R281). -/
inductive BtMode where
  | auto
  | stored
  | fixed
  | dynamic
  deriving DecidableEq, Repr

/-- `CTRL.BTMODE`. -/
def State.btmode (s : State) : BtMode :=
  match s.ctrl.toNat / 256 % 4 with
  | 0 => .auto
  | 1 => .stored
  | 2 => .fixed
  | _ => .dynamic

end Sys2Proof.Machine
end

