-- ==== Sys2Proof/Machine/Ops.lean ====
section
/-! DEFINITION. The operations every meaning is made of: memory, regions, starting and ending a command, raising a
fault (the block's only exception, 60_exceptions R402) and acknowledging it (its only return, R406), and the two
frames in which commands and stream elements run. -/

namespace Sys2Proof.Machine

/-! ## Memory (20_memory R66, R68) -/

/-- The byte at an address. -/
def Memory.read (m : Memory) (a : Nat) : Byte := (getKey m a).getD Memory.unlisted

/-- Write one byte, keeping the canonical form. -/
def Memory.write (m : Memory) (a : Nat) (b : Byte) : Memory :=
  if b = Memory.unlisted then dropKey m a else putKey m a b

/-- `MemRead(a, n)` (00_scope R11): bytes in ascending address order. -/
def Memory.readBytes (m : Memory) (a n : Nat) : List Byte := (List.range n).map fun i => m.read (a + i)

/-- `MemWrite(a, n, bs)` (00_scope R11): lowest address first. -/
def Memory.writeBytes : Memory → Nat → List Byte → Memory
  | m, _, [] => m
  | m, a, b :: bs => Memory.writeBytes (m.write a b) (a + 1) bs

/-- One byte of a faulted command's output region: it keeps the value written, or goes back to the old one. -/
def Memory.settleByte (keep : Nat → Bool) (lo hi : Nat) (old new m : Memory) (a : Nat) : Memory :=
  if lo ≤ a ∧ a < hi ∧ new.read a ≠ old.read a ∧ keep a = false then m.write a (old.read a) else m

/-- The bytes of `[lo, hi)` after a fault: each holds its value from before the command or the value the command
wrote, `keep` tells which (60_exceptions R404; log 7). -/
def Memory.settle (keep : Nat → Bool) (lo hi : Nat) (old new : Memory) : Memory :=
  ((old ++ new).map Prod.fst).foldl (Memory.settleByte keep lo hi old new) new

/-! ## Regions (20_memory R69) -/

/-- Whether two address ranges, given by base and length, meet; an empty one meets nothing. -/
def rangesMeet (a n b m : Nat) : Bool := decide (0 < n ∧ 0 < m ∧ a < b + m ∧ b < a + n)

/-- Whether a range is legal: it ends within `2^ADDR_W` and all of it is `MEM_VALID`. -/
def rangeOk (c : Config) (a n : Nat) : Bool :=
  decide (a + n ≤ addrSpace) && c.memHoles.all fun h => !rangesMeet a n h.1 h.2

/-- Whether an address is in `S = [SRC, SRC + SLEN)`. -/
abbrev State.inS (s : State) (a : Nat) : Prop := s.src.toNat ≤ a ∧ a < s.src.toNat + s.slen.toNat

/-- Whether an address is in `T = [DST, DST + DCAP)`. -/
abbrev State.inT (s : State) (a : Nat) : Prop := s.dst.toNat ≤ a ∧ a < s.dst.toNat + s.dcap.toNat

/-- The regions a command uses (48_commands R374). -/
inductive Uses where
  | s
  | st
  deriving DecidableEq, Repr

/-- The region check of a command (20_memory R69, 48_commands R370 step 5). -/
def State.regionsOk (s : State) (uses : Uses) : Bool :=
  rangeOk s.cfg s.src.toNat s.slen.toNat &&
    match uses with
    | .s => true
    | .st =>
      rangeOk s.cfg s.dst.toNat s.dcap.toNat && !rangesMeet s.src.toNat s.slen.toNat s.dst.toNat s.dcap.toNat

/-! ## The life of a command (48_commands R370, R371) -/

/-- Step 8: `BUSY <- 0`, `DONE <- 1`. -/
def State.finish (s : State) : State := { s with engine := .idle, done := true }

/-- Steps 1 and 4: `DONE <- 0` and the start actions common to all commands but `NOP` and `CLRERR`. -/
def State.start (s : State) : State := { s with done := false, dlen := 0, bp := 0, pos := 0, wbp := 0, saved := s.mem }

/-- What a `raise` records, and the end of the command (60_exceptions R402). -/
def State.recordFault (s : State) (c : Cause) (info : Nat) : State :=
  { s with
    err := if s.err = 0 then errCode c else s.err
    errInfo := if s.err = 0 then BitVec.ofNat 35 info else s.errInfo
    engine := .idle
    done := true }

/-- The working memories after a fault: unspecified (60_exceptions R404, 93 U2; log 8). -/
def State.forgetWork (s : State) : State := { s with work := Config.freeWork s.free, free := s.free + 1 }

/-- The output region after a fault (60_exceptions R404; log 7). -/
def State.settleOutput (s : State) : State :=
  { s with
    mem := Memory.settle (Config.faultKeeps s.free) s.dst.toNat (s.dst.toNat + s.dcap.toNat) s.saved s.mem
    free := s.free + 1 }

/-- `raise C(info)` in a command that uses both regions: TAKING THE EXCEPTION (60_exceptions R402, R404). -/
def State.raise (s : State) (c : Cause) (info : Nat) : State :=
  ((s.settleOutput).forgetWork).recordFault c info

/-- `raise C(info)` that leaves every byte of memory alone: in a command that uses `S` only (48_commands R374), which
has no output region (60_exceptions R404), and for `AdlerMismatch` (R405). -/
def State.raiseInput (s : State) (c : Cause) (info : Nat) : State := (s.forgetWork).recordFault c info

/-- `raise C(info)` in a command that uses these regions. -/
def State.raiseUses (s : State) (uses : Uses) (c : Cause) (info : Nat) : State :=
  match uses with
  | .s => s.raiseInput c info
  | .st => s.raise c info

/-- The regions of the running command (48_commands R374): `CRCCHK` uses `S` only. -/
def State.engineUses (s : State) : Uses :=
  match s.engine with
  | .chunk => .s
  | _ => .st

/-- A fault met while reading the stream: `bp` stays where the reader left it. -/
def State.raiseStop (s : State) (uses : Uses) (e : Stop) : State :=
  ({ s with bp := BitVec.ofNat 35 e.bp }).raiseUses uses e.cause e.info

/-- A fault of the compressor or of a tree build: a slot whose build failed is not valid (41_huffman R150). -/
def State.raiseFailure (s : State) (f : Failure) : State :=
  { s.raise f.cause f.info with work := (s.raise f.cause f.info).work.invalidate f.slot }

/-- `raise AdlerMismatch`: the one fault that leaves the output complete (60_exceptions R405). -/
def State.raiseAdler (s : State) : State := s.raiseInput .adlerMismatch s.bp.toNat

/-- A `raise` in `HBL` or `HBF`: the user slot is invalid too (60_exceptions R402); its other fields are unspecified
(41_huffman R150; log 8). -/
def State.raiseUser (s : State) (c : Cause) (info : Nat) : State :=
  ({ s with treev := false, u := { Config.freeTree s.free with valid := false } }).raise c info

/-- Acknowledging a fault: `ERR` and `ERRINFO` are cleared and nothing else (48_commands R384, 60_exceptions R406). -/
def State.clearError (s : State) : State := { s with err := 0, errInfo := 0 }

/-! ## The frames of a meaning -/

/-- What a step of the model answers. -/
abbrev Result := Host.Outcome State Fault Refusal

/-- A command other than `NOP` and `CLRERR` (48_commands R370): ignored while `BUSY = 1` (10_state R29), refused while
`ERR != 0` (R373), else the start actions (`prep`: the command's own ones), the region check (`fail`: how the command
raises `RegionError`) and the body. -/
def commandOr (s : State) (uses : Uses) (prep fail body : State → State) : Result :=
  if s.busy then .next s
  else if s.err ≠ 0 then .next s.finish
  else
    let s' := prep s.start
    if s'.regionsOk uses then .next (body s') else .next (fail s')

/-- A command other than `NOP`, `CLRERR`, `HBL` and `HBF`. -/
def command (s : State) (uses : Uses) (prep body : State → State) : Result :=
  commandOr s uses prep (fun s => s.raiseUses uses .regionError 0) body

/-- The start actions `HBL` and `HBF` add: `STATUS.TREEV <- 0`, `U.VALID <- 0` (48_commands R371). -/
def State.dropUser (s : State) : State := { s with treev := false, u := { s.u with valid := false } }

/-- `HBL` and `HBF`: every `raise` of theirs, `RegionError` too, leaves the user slot invalid (60_exceptions R402). -/
def userCommand (s : State) (body : State → State) : Result :=
  commandOr s .st State.dropUser (fun s => s.raiseUser .regionError 0) body

/-- `NOP` and `CLRERR`: no start actions, no region, accepted while `ERR != 0` (48_commands R370, R371). -/
def controlCommand (s : State) (body : State → State) : Result :=
  if s.busy then .next s else .next (body s).finish

/-- A stream element of a running command, whose regions were checked when the command started; in a state where
they are not legal (which no run reaches) the access faults. -/
def element (s : State) (uses : Uses) (body : State → State) : Result :=
  if s.regionsOk uses then .next (body s) else .fault .noSuchAddress

end Sys2Proof.Machine
end

