-- ==== Sys2Proof/Machine/Operands.lean ====
section
/-! DEFINITION. The operands of commands and elements: operand registers by number, the input region as a bit source,
writes to the output region, the decompressor's phase, the filter geometry (46_filter R320, R321) and the bit writer's
emission (40_bitio R135 to R138). -/

namespace Sys2Proof.Machine

/-! ## Operand registers by number (10_state R20) -/

/-- `x[i]`. -/
def State.readX (s : State) (i : Fin 9) : Word :=
  match i with
  | 0 => s.src
  | 1 => s.slen
  | 2 => s.dst
  | 3 => s.dcap
  | 4 => s.dlen
  | 5 => s.arg0
  | 6 => s.arg1
  | 7 => s.arg2
  | 8 => s.res0

/-- `x[i] <- v`. -/
def State.setX (s : State) (i : Fin 9) (v : Word) : State :=
  match i with
  | 0 => { s with src := v }
  | 1 => { s with slen := v }
  | 2 => { s with dst := v }
  | 3 => { s with dcap := v }
  | 4 => { s with dlen := v }
  | 5 => { s with arg0 := v }
  | 6 => { s with arg1 := v }
  | 7 => { s with arg2 := v }
  | 8 => { s with res0 := v }

/-! ## The two regions -/

/-- `IN` (00_scope R11) with its length `x[SLEN]`. -/
def State.source (s : State) : Source := ⟨fun i => s.mem.read (s.src.toNat + i), s.slen.toNat⟩

/-- `IN[i .. i + n - 1]`. -/
def State.inBytes (s : State) (i n : Nat) : List Byte := s.mem.readBytes (s.src.toNat + i) n

/-- All of `IN`. -/
def State.input (s : State) : List Byte := s.inBytes 0 s.slen.toNat

/-- `OUT[i .. i + n - 1]`. -/
def State.outBytes (s : State) (i n : Nat) : List Byte := s.mem.readBytes (s.dst.toNat + i) n

/-- `OUT[i ..] <- bs`. -/
def State.putOut (s : State) (i : Nat) (bs : List Byte) : State :=
  { s with mem := s.mem.writeBytes (s.dst.toNat + i) bs }

/-- Write bytes at the output cursor and advance it (10_state R24). -/
def State.append (s : State) (bs : List Byte) : State :=
  { s.putOut s.pos.toNat bs with pos := BitVec.ofNat 32 (s.pos.toNat + bs.length) }

/-- The back-reference copy: one byte at a time, each read after the previous one was written (43_inflate R240). -/
def State.copyMatch (dist : Nat) : Nat → State → State
  | 0, s => s
  | n + 1, s => State.copyMatch dist n (s.append (s.outBytes (s.pos.toNat - dist) 1))

/-! ## The decompressor's phase -/

/-- Whether the running decompression is `ZLIBD`'s. -/
def State.zlib (s : State) : Bool :=
  match s.engine with
  | .inflate z _ => z
  | _ => false

/-- Go to a phase. -/
def State.toPhase (s : State) (p : Phase) : State := { s with engine := .inflate s.zlib p }

/-- Whether the current tree pair is the fixed one (43_inflate R220, R227). -/
def State.fixedTrees (s : State) : Bool :=
  match s.engine with
  | .inflate _ (.symbols f) => f
  | .inflate _ (.distance f _) => f
  | _ => false

/-- The length of the match whose distance is awaited (43_inflate R239). -/
def State.pendingLength (s : State) : Nat :=
  match s.engine with
  | .inflate _ (.distance _ n) => n
  | _ => 0

/-- The current literal/length tree. -/
def State.treeLL (s : State) (fixed : Bool) : Tree := if fixed then fixLL else s.work.ll

/-- The current distance tree. -/
def State.treeD (s : State) (fixed : Bool) : Tree := if fixed then fixD else s.work.d

/-! ## Filter geometry (46_filter R320, R321) -/

/-- `bpp`. -/
def State.bpp (s : State) : Nat := s.arg2.toNat % 256

/-- `pal`. -/
def State.pal (s : State) : Bool := s.arg2.getLsbD 8

/-- `linebytes`. -/
def State.lineBytes (s : State) : Nat := (s.arg0.toNat * s.bpp + 7) / 8

/-- `bytewidth`. -/
def State.byteWidth (s : State) : Nat := max 1 (s.bpp / 8)

/-- `rawsize`. -/
def State.rawSize (s : State) : Nat := s.arg1.toNat * s.lineBytes

/-- `filtsize`. -/
def State.filtSize (s : State) : Nat := s.arg1.toNat * (s.lineBytes + 1)

/-- The argument checks of `UNFILTER` and `FILTER` in their order (46_filter R321): the fault to raise, if any.
`input` and `output` are the sizes the direction requires. -/
def State.geometryFault (s : State) (input output : Nat) : Option (Cause × Nat) :=
  if s.arg0 = 0 then some (.badArg, 5)
  else if s.bpp = 0 ∨ s.bpp > 64 ∨ s.arg2.toNat / 512 ≠ 0 then some (.badArg, 7)
  else if s.arg0.toNat * s.bpp + 7 ≥ addrSpace ∨ s.lineBytes + 1 ≥ addrSpace ∨ s.rawSize ≥ addrSpace ∨
      s.filtSize ≥ addrSpace then some (.sizeOverflow, 0)
  else if s.slen.toNat ≠ input then some (.badArg, 1)
  else if s.dcap.toNat < output then some (.outputOverflow, 0)
  else none

/-! ## The bit writer -/

/-- Emit a whole bit sequence from `wbp = 0` (40_bitio R135 to R138, 93 U16; log 14): the output bytes and the cursor.
The first bit that needs a byte at index `x[DCAP]` raises `OutputOverflow` with the cursor there. -/
def State.emit (s : State) (bits : List Bool) : Except State State :=
  if bits.length ≤ 8 * s.dcap.toNat then
    .ok { s.putOut 0 (packBits bits) with wbp := BitVec.ofNat 35 bits.length }
  else
    .error (({ s.putOut 0 (packBits (bits.take (8 * s.dcap.toNat))) with
      wbp := BitVec.ofNat 35 (8 * s.dcap.toNat) }).raise .outputOverflow s.dcap.toNat)

end Sys2Proof.Machine
end

