-- ==== Sys2Proof/Machine/Checksum.lean ====
section
/-! DEFINITION. Adler32 (45_zlib_adler R300), CRC32 (47_crc32 R360, R361), and the commands `CRC32`, `ADLER32`,
`CRCCHK` with the chunk record it reads (48_commands R382, R385, R389; 47_crc32 R364). -/

namespace Sys2Proof.Machine

/-! ## Adler32 -/

/-- One byte into `(ADLER.S1, ADLER.S2)`. -/
def adlerStep (a : Nat × Nat) (b : Byte) : Nat × Nat :=
  let s1 := (a.1 + b.toNat) % 65521
  (s1, (a.2 + s1) % 65521)

/-- `(ADLER.S1, ADLER.S2)` after a byte sequence. -/
def adler32 (bs : List Byte) : Nat × Nat := bs.foldl adlerStep (1, 0)

/-- The value of Adler32. -/
def adlerValue (a : Nat × Nat) : Nat := a.2 * 65536 + a.1

/-! ## CRC32 -/

/-- The bitwise step (47_crc32 R361). -/
def crcShift (c : Word) : Word := if c.getLsbD 0 then (c >>> 1) ^^^ 0xEDB88320 else c >>> 1

/-- `CRC_TABLE[n]`: eight applications of the step (47_crc32 R361). -/
def crcTable (n : Word) : Word := crcShift (crcShift (crcShift (crcShift (crcShift (crcShift (crcShift (crcShift n)))))))

/-- One byte into `CRC.R` (47_crc32 R360). -/
def crcStep (r : Word) (b : Byte) : Word := crcTable ((r ^^^ b.setWidth 32) &&& 0xFF) ^^^ (r >>> 8)

/-- `CRC.R` after a byte sequence. -/
def crcRegister (bs : List Byte) : Word := bs.foldl crcStep 0xFFFFFFFF

/-- `Crc32`. -/
def crc32 (bs : List Byte) : Word := crcRegister bs ^^^ 0xFFFFFFFF

/-! ## The commands -/

/-- The body of `CRC32`. -/
def crc32Body (s : State) : State :=
  ({ s with res0 := crc32 s.input, work := { s.work with crcR := crcRegister s.input } }).finish

/-- `CRC32` (48_commands R382). -/
def execCrc32 (s : State) : Result := command s .s id crc32Body

/-- The body of `ADLER32`. -/
def adler32Body (s : State) : State :=
  let a := adler32 s.input
  ({ s with res0 := BitVec.ofNat 32 (adlerValue a), work := { s.work with adlerS1 := a.1, adlerS2 := a.2 } }).finish

/-- `ADLER32` (48_commands R389). -/
def execAdler32 (s : State) : Result := command s .s id adler32Body

/-- `CRCCHK` (48_commands R385): the command starts; its chunk record is the next element. -/
def execCrcchk (s : State) : Result := command s .s id fun s => { s with engine := .chunk }

/-- The body of a chunk record (47_crc32 R364). `CRCCHK` uses `S` only, so its faults leave memory alone. -/
def chunkBody (len crc : Word) (s : State) : State :=
  if s.slen.toNat < 12 ∨ len.toNat > s.slen.toNat - 12 then s.raiseInput .endOfInput (8 * s.slen.toNat)
  else
    let covered := s.inBytes 4 (4 + len.toNat)
    let computed := crc32 covered
    let s' := { s with res0 := computed, work := { s.work with crcR := crcRegister covered } }
    if !s.ignoreCrc ∧ crc ≠ computed then s'.raiseInput .crcMismatch (8 + len.toNat) else s'.finish

/-- `CHUNK`: the type is covered by the CRC and not interpreted otherwise (30_encoding R106). -/
def execChunk (len _typ crc : Word) (s : State) : Result := element s .s (chunkBody len crc)

end Sys2Proof.Machine
end

