-- ==== Sys2Proof/Machine/Huffman.lean ====
section
/-! DEFINITION. The Huffman unit: `BuildFromLengths` (41_huffman R150 to R156), the encoding lookup (R158),
`BuildFromFrequencies` by Boundary Package-Merge (R170 to R177), and the commands `HBL`, `HBF`, `HDEC`
(48_commands R386 to R388). -/

namespace Sys2Proof.Machine

/-! ## BuildFromLengths -/

/-- `nextcode[b]` before any symbol is assigned (41_huffman R152); `blcount[0]` stays 0. -/
def firstCode (lengths : List Nat) : Nat → Nat
  | 0 => 0
  | b + 1 => 2 * (firstCode lengths b + if b = 0 then 0 else lengths.count b)

/-- Assign codes in symbol order (41_huffman R152): a code keeps its low `l` bits, and `nextcode[l]` advances. -/
def assignCodes : (lengths next : List Nat) → List Nat
  | [], _ => []
  | l :: ls, next =>
    if l = 0 then 0 :: assignCodes ls next
    else (next.getD l 0 % 2 ^ l) :: assignCodes ls (next.set l (next.getD l 0 + 1))

/-- The canonical codes of a length array (41_huffman R152). -/
def canonicalCodes (lengths : List Nat) (maxBits : Nat) : List Nat :=
  assignCodes lengths ((List.range (maxBits + 1)).map (firstCode lengths))

/-- The decode table being filled and `nodefilled` (41_huffman R154). -/
structure TableBuild where
  tab : List (Option Nat)
  filled : Nat
  deriving DecidableEq, Repr

/-- Insert one code, from its bit `left - 1` down, at `node` (41_huffman R156). An error is the symbol being
inserted: conditions (a) too many nodes, (b) an earlier code ends on this path, (c) this code ends inside an earlier one. -/
def insertCode (n symbol code : Nat) : (left node : Nat) → TableBuild → Except Nat TableBuild
  | 0, _, b => .ok b
  | left + 1, node, b =>
    if node + 2 > n then .error symbol
    else
      let k := 2 * node + (code.testBit left).toNat
      match b.tab.getD k none with
      | none =>
        if left = 0 then .ok { b with tab := b.tab.set k (some symbol) }
        else
          insertCode n symbol code left (b.filled + 1)
            { tab := b.tab.set k (some (n + (b.filled + 1))), filled := b.filled + 1 }
      | some v => if v < n ∨ left = 0 then .error symbol else insertCode n symbol code left (v - n) b

/-- Insert the coded symbols from `symbol` upward (41_huffman R156). -/
def insertCodes (n : Nat) : (symbol : Nat) → List (Nat × Nat) → TableBuild → Except Nat TableBuild
  | _, [], b => .ok b
  | symbol, (l, c) :: rest, b =>
    match insertCode n symbol c l 0 b with
    | .error e => .error e
    | .ok b' => insertCodes n (symbol + 1) rest b'

/-- `BuildFromLengths` (41_huffman R150) on a whole length array: the valid tree, or the symbol whose insertion
raises `HuffTreeMalformed`. -/
def buildFromLengths (lengths : List Nat) (maxBits : Nat) : Except Nat Tree :=
  let n := lengths.length
  let codes := canonicalCodes lengths maxBits
  match insertCodes n 0 (lengths.zip codes) ⟨List.replicate (2 * n) none, 0⟩ with
  | .error e => .error e
  | .ok b => .ok ⟨n, maxBits, lengths, codes, b.tab, true⟩

/-! ## BuildFromFrequencies -/

/-- The trimmed symbol count (41_huffman R171), from `maxCodes` down. -/
def trimCodes (freq : List Nat) (minCodes : Nat) : Nat → Nat
  | 0 => 0
  | k + 1 => if minCodes < k + 1 ∧ freq.getD k 0 = 0 then trimCodes freq minCodes k else k + 1

/-- The present symbols as leaves, in increasing symbol order (41_huffman R173). -/
def presentLeaves (freq : List Nat) (numCodes : Nat) : List Leaf :=
  ((List.range numCodes).filter fun s => freq.getD s 0 ≠ 0).map fun s => ⟨freq.getD s 0, s⟩

/-- The stable ascending sort on weight (41_huffman R174). -/
def sortLeaves (leaves : List Leaf) : List Leaf := leaves.insertionSort fun a b => a.weight ≤ b.weight

/-- A node's weight. -/
def chainWeight : Chain → Nat
  | .none => 0
  | .node w _ _ => w

/-- A node's index. -/
def chainIndex : Chain → Nat
  | .none => 0
  | .node _ i _ => i

/-- A node's tail. -/
def chainTail : Chain → Chain
  | .none => .none
  | .node _ _ t => t

/-- The two lookahead nodes of every list at the start (41_huffman R175). -/
def bpmInit (leaves : List Leaf) (maxBits : Nat) : Bpm where
  leaves := leaves
  chains0 := List.replicate maxBits (.node (leaves.getD 0 ⟨0, 0⟩).weight 1 .none)
  chains1 := List.replicate maxBits (.node (leaves.getD 1 ⟨0, 0⟩).weight 2 .none)

/-- `BPM(c, num)` (41_huffman R176). -/
def bpmStep (num : Nat) : (c : Nat) → Bpm → Bpm
  | 0, b =>
    let newer := b.chains1.getD 0 .none
    let last := chainIndex newer
    if b.leaves.length ≤ last then b
    else
      { b with
        chains0 := b.chains0.set 0 newer
        chains1 := b.chains1.set 0 (.node (b.leaves.getD last ⟨0, 0⟩).weight (last + 1) .none) }
  | c + 1, b =>
    let newer := b.chains1.getD (c + 1) .none
    let last := chainIndex newer
    let sum := chainWeight (b.chains0.getD c .none) + chainWeight (b.chains1.getD c .none)
    let b' := { b with chains0 := b.chains0.set (c + 1) newer }
    if last < b.leaves.length ∧ sum > (b.leaves.getD last ⟨0, 0⟩).weight then
      { b' with
        chains1 := b.chains1.set (c + 1) (.node (b.leaves.getD last ⟨0, 0⟩).weight (last + 1) (chainTail newer)) }
    else
      let b'' := { b' with chains1 := b.chains1.set (c + 1) (.node sum last (b.chains1.getD c .none)) }
      if num + 1 < 2 * b.leaves.length - 2 then bpmStep num c (bpmStep num c b'') else b''

/-- The main loop (41_huffman R177): `i` from 2 to `2 * numpresent - 3`. -/
def bpmRun (leaves : List Leaf) (maxBits : Nat) : Bpm :=
  (List.range (2 * leaves.length - 4)).foldl (fun b i => bpmStep (i + 2) (maxBits - 1) b) (bpmInit leaves maxBits)

/-- Length extraction (41_huffman R177): every node of the final chain adds 1 to the leaves it covers. -/
def chainLengths (leaves : List Leaf) : Chain → List Nat → List Nat
  | .none, lengths => lengths
  | .node _ i tail, lengths =>
    chainLengths leaves tail ((leaves.take i).foldl (fun l f => l.modify f.symbol (· + 1)) lengths)

/-- `CodeLengths` (41_huffman R173 to R177), with the Package-Merge store it leaves. -/
def codeLengths (freq : List Nat) (numCodes maxBits : Nat) : List Nat × Bpm :=
  let zeros := List.replicate numCodes 0
  match presentLeaves freq numCodes with
  | [] => ((zeros.set 0 1).set 1 1, ⟨[], [], []⟩)
  | [p] => ((zeros.set p.symbol 1).set (if p.symbol = 0 then 1 else 0) 1, ⟨[p], [], []⟩)
  | leaves =>
    let sorted := sortLeaves leaves
    let b := bpmRun sorted maxBits
    (chainLengths sorted (b.chains1.getD (maxBits - 1) .none) zeros, b)

/-- `BuildFromFrequencies` (41_huffman R170), its arguments already checked (R172). -/
def buildFromFrequencies (freq : List Nat) (minCodes maxCodes maxBits : Nat) : Except Nat (Tree × Bpm) :=
  let (lengths, b) := codeLengths freq (trimCodes freq minCodes maxCodes) maxBits
  match buildFromLengths lengths maxBits with
  | .error e => .error e
  | .ok t => .ok (t, b)

/-! ## The commands -/

/-- A 16-bit value, low byte first (20_memory R62). -/
def le16bytes (v : Nat) : List Byte := [BitVec.ofNat 8 v, BitVec.ofNat 8 (v / 256)]

/-- The tree image (20_memory R64, 48_commands R386): the codes, then the table with `0xFFFF` for `EMPTY`. -/
def treeImage (t : Tree) : List Byte :=
  t.code.flatMap le16bytes ++ t.tab.flatMap fun e => le16bytes (e.getD 0xFFFF)

/-- The end of `HBL` and `HBF`: slot `U`, `TREEV`, the image when there is room asked for, `DLEN` and `RES0`. -/
def State.finishUser (s : State) (t : Tree) (image : List Byte) : State :=
  let s := { s with u := t, treev := true, res0 := BitVec.ofNat 32 t.n }
  if s.dcap = 0 then s.finish
  else ({ s.putOut 0 image with dlen := BitVec.ofNat 32 image.length }).finish

/-- The body of `HBL`. -/
def hblBody (s : State) : State :=
  let n := s.slen.toNat
  if n < 1 ∨ 288 < n then s.raiseUser .badArg 1
  else if s.arg0.toNat < 1 ∨ 15 < s.arg0.toNat then s.raiseUser .badArg 5
  else
    let lengths := s.input.map BitVec.toNat
    if lengths.any fun l => s.arg0.toNat < l then s.raiseUser .badArg 0
    else if s.dcap ≠ 0 ∧ s.dcap.toNat < 6 * n then s.raiseUser .outputOverflow 0
    else
      match buildFromLengths lengths s.arg0.toNat with
      | .error e => s.raiseUser .huffTreeMalformed e
      | .ok t => s.finishUser t (treeImage t)

/-- `HBL` (48_commands R386). -/
def execHbl (s : State) : Result := userCommand s hblBody

/-- The frequency array of `HBF` (20_memory R64). -/
def State.freqInput (s : State) (n : Nat) : List Nat :=
  (List.range n).map fun i =>
    le32 (s.source.byte (4 * i)) (s.source.byte (4 * i + 1)) (s.source.byte (4 * i + 2)) (s.source.byte (4 * i + 3))

/-- The body of `HBF`. -/
def hbfBody (s : State) : State :=
  let maxBits := s.arg0.toNat
  let minCodes := s.arg1.toNat
  let maxCodes := s.arg2.toNat
  if 288 < maxCodes then s.raiseUser .badArg 7
  else if minCodes < 2 ∨ maxCodes < minCodes then s.raiseUser .badArg 6
  else if maxBits < 1 ∨ 15 < maxBits then s.raiseUser .badArg 5
  else if s.slen.toNat ≠ 4 * maxCodes then s.raiseUser .badArg 1
  else
    let freq := s.freqInput maxCodes
    let numCodes := trimCodes freq minCodes maxCodes
    if 2 ^ maxBits < numCodes then s.raiseUser .badArg 5
    else if s.dcap ≠ 0 ∧ s.dcap.toNat < 7 * numCodes then s.raiseUser .outputOverflow 0
    else
      match buildFromFrequencies freq minCodes maxCodes maxBits with
      | .error e => s.raiseUser .huffTreeMalformed e
      | .ok (t, b) =>
        ({ s with work := { s.work with bpm := b } }).finishUser t
          (t.len.map (BitVec.ofNat 8) ++ treeImage t)

/-- `HBF` (48_commands R387). -/
def execHbf (s : State) : Result := userCommand s hbfBody

/-- The body of `HDEC`. -/
def hdecBody (s : State) : State :=
  if s.treev then
    match decodeSymbol s.cfg.emptySlot s.source s.u s.arg0.toNat with
    | .error e => s.raiseStop .s e
    | .ok (symbol, bp) => ({ s with bp := BitVec.ofNat 35 bp, res0 := BitVec.ofNat 32 symbol }).finish
  else s.raiseInput .treeNotValid 0

/-- `HDEC` (48_commands R388). -/
def execHdec (s : State) : Result := command s .s id hdecBody

end Sys2Proof.Machine
end

