-- ==== Sys2Proof/Machine/Lz77.lean ====
section
/-! DEFINITION. The LZ77 matcher (42_lz77): token validity (R190 to R192) and the reference matcher (R194 to R204). -/

namespace Sys2Proof.Machine

/-! ## Tokens and validity -/

/-- The bounds on a token (42_lz77 R190); `MINMATCH` = 3, `MAXMATCH` = 258. -/
def tokenOk (window : Nat) : Token → Bool
  | .lit _ => true
  | .copy len dist => decide (3 ≤ len ∧ len ≤ 258 ∧ 1 ≤ dist ∧ dist ≤ window)

/-- Append `n` bytes, each the byte `dist` behind the end evaluated afresh (42_lz77 R191). -/
def copyBehind (dist : Nat) : Nat → List Byte → List Byte
  | 0, o => o
  | n + 1, o => copyBehind dist n (o ++ [o.getD (o.length - dist) 0])

/-- `Expand` on the growing sequence (42_lz77 R191); `none` when a match reaches before its start. -/
def expand : List Token → List Byte → Option (List Byte)
  | [], o => some o
  | .lit b :: rest, o => expand rest (o ++ [b])
  | .copy len dist :: rest, o => if dist ≤ o.length then expand rest (copyBehind dist len o) else none

/-- Validity of a token sequence for the block `data[start .. stop - 1]` (42_lz77 R192). -/
def validTokens (window : Nat) (data : List Byte) (start stop : Nat) (toks : List Token) : Bool :=
  toks.all (tokenOk window) && expand toks (data.take start) == some (data.take stop)

/-! ## The hash arrays (10_state R40, 42_lz77 R195) -/

/-- `HASH.CHAIN[w]`. -/
def chainAt (h : HashIndex) (w : Nat) : Nat := (getKey h.chain w).getD w

/-- `HASH.CHAINZ[w]`. -/
def chainzAt (h : HashIndex) (w : Nat) : Nat := (getKey h.chainz w).getD w

/-- `HASH.ZEROS[w]`. -/
def zerosAt (h : HashIndex) (w : Nat) : Nat := (getKey h.zeros w).getD 0

/-- All arrays at their values of 42_lz77 R195. -/
def freshHash : HashIndex := ⟨[], [], [], [], [], []⟩

/-- List `v` for `k`, unless `v` is what an unlisted `k` holds. -/
def setUnless (m : Sparse) (k v unlisted : Nat) : Sparse := if v = unlisted then dropKey m k else putKey m k v

/-- `UpdateChain` (42_lz77 R198). -/
def updateChain (h : HashIndex) (wpos hashval numZeros : Nat) : HashIndex where
  val := putKey h.val wpos hashval
  chain :=
    match getKey h.head hashval with
    | none => h.chain
    | some w => setUnless h.chain wpos w wpos
  head := putKey h.head hashval wpos
  zeros := setUnless h.zeros wpos numZeros 0
  chainz :=
    match getKey h.headz numZeros with
    | none => h.chainz
    | some w => setUnless h.chainz wpos w wpos
  headz := putKey h.headz numZeros wpos

/-- Un-head the current position (42_lz77 R201). -/
def unhead (h : HashIndex) (hashval numZeros : Nat) : HashIndex :=
  { h with head := dropKey h.head hashval, headz := dropKey h.headz numZeros }

/-! ## The reference matcher -/

/-- `GetHash` (42_lz77 R194). -/
def getHash (c : Config) (d : Nat → Byte) (size p : Nat) : Nat :=
  (if p + 2 < size then (d p).toNat ^^^ ((d (p + 1)).toNat <<< 4) ^^^ ((d (p + 2)).toNat <<< 8)
    else (List.range (size - p)).foldl (fun r i => r ^^^ ((d (p + i)).toNat <<< (8 * i))) 0) % c.hashNumValues

/-- Zero bytes from `q`, at most `left` (42_lz77 R197). -/
def zerosFrom (d : Nat → Byte) : (left q : Nat) → Nat
  | 0, _ => 0
  | left + 1, q => if d q = 0 then zerosFrom d left (q + 1) + 1 else 0

/-- `CountZeros` (42_lz77 R197). -/
def countZeros (d : Nat → Byte) (size p : Nat) : Nat := zerosFrom d (min size (p + 258) - p) p

/-- The zero-run length at `p` from that of the position before (42_lz77 R197). -/
def nextZeros (d : Nat → Byte) (size p hashval numZeros : Nat) : Nat :=
  if hashval = 0 then
    if numZeros = 0 then countZeros d size p
    else if p + numZeros > size ∨ d (p + numZeros - 1) ≠ 0 then numZeros - 1
    else numZeros
  else 0

/-- Compare forward from `back` and `fore`, at most `left` bytes: where `fore` stops (42_lz77 R199). -/
def compareFrom (d : Nat → Byte) : (left back fore : Nat) → Nat
  | 0, _, fore => fore
  | left + 1, back, fore => if d back = d fore then compareFrom d left (back + 1) (fore + 1) else fore

/-- What a search at one position depends on. -/
structure Search where
  c : Config
  d : Nat → Byte
  h : HashIndex
  wpos : Nat
  hashval : Nat
  numZeros : Nat
  pos : Nat
  last : Nat

/-- The distance to a window position (42_lz77 R199). -/
def Search.distance (q : Search) (hashpos : Nat) : Nat :=
  if hashpos ≤ q.wpos then q.wpos - hashpos else q.wpos + q.c.window - hashpos

/-- The length of the match `cur` back (42_lz77 R199): a common run of zeros is skipped. -/
def Search.matchLength (q : Search) (hashpos cur : Nat) : Nat :=
  let skip := if 3 ≤ q.numZeros then min (zerosAt q.h hashpos) q.numZeros else 0
  compareFrom q.d (q.last - (q.pos + skip)) (q.pos - cur + skip) (q.pos + skip) - q.pos

/-- The next window position of the walk, or the end of it (42_lz77 R200). -/
def Search.next (q : Search) (hashpos length : Nat) : Option Nat :=
  if chainAt q.h hashpos = hashpos then none
  else if 3 ≤ q.numZeros ∧ q.numZeros < length then
    let w := chainzAt q.h hashpos
    if zerosAt q.h w = q.numZeros then some w else none
  else
    let w := chainAt q.h hashpos
    if getKey q.h.val w = some q.hashval then some w else none

/-- The chain walk (42_lz77 R199) with `left` links still allowed: the longest match's length and offset. -/
def Search.walk (q : Search) : (left hashpos previous length offset : Nat) → Nat × Nat
  | 0, _, _, length, offset => (length, offset)
  | left + 1, hashpos, previous, length, offset =>
    let cur := q.distance hashpos
    if cur < previous then (length, offset)
    else
      let found := if 0 < cur then q.matchLength hashpos cur else 0
      let longer := length < found
      let best := if longer then (found, cur) else (length, offset)
      if longer ∧ min q.c.niceMatch 258 ≤ found then best
      else
        match q.next hashpos best.1 with
        | none => best
        | some w => q.walk left w cur best.1 best.2

/-- The matcher's variables (42_lz77 R196); `tok` holds the tokens in reverse order. -/
structure MatchVars where
  h : HashIndex
  numZeros : Nat
  lazy : Bool
  lazyLength : Nat
  lazyOffset : Nat
  pos : Nat
  tok : List Token
  deriving DecidableEq, Repr

/-- Visit the position `m.pos`: its hash, zero run and chain entries (42_lz77 R197, R198). -/
def visit (c : Config) (d : Nat → Byte) (size : Nat) (m : MatchVars) : MatchVars :=
  let hashval := getHash c d size m.pos
  let numZeros := nextZeros d size m.pos hashval m.numZeros
  { m with numZeros := numZeros, h := updateChain m.h (m.pos % c.window) hashval numZeros }

/-- The positions a match covers beyond its first (42_lz77 R203). -/
def cover (c : Config) (d : Nat → Byte) (size : Nat) : Nat → MatchVars → MatchVars
  | 0, m => m
  | n + 1, m => cover c d size n (visit c d size { m with pos := m.pos + 1 })

/-- Emit the token for `m.pos` and move past it (42_lz77 R202, R203, and the main loop's increment). -/
def emitToken (c : Config) (d : Nat → Byte) (size length offset : Nat) (m : MatchVars) : MatchVars :=
  if length < 3 ∨ (length = 3 ∧ 4096 < offset) then { m with tok := .lit (d m.pos) :: m.tok, pos := m.pos + 1 }
  else
    let m' := cover c d size (length - 1) { m with tok := .copy length offset :: m.tok }
    { m' with pos := m'.pos + 1 }

/-- The search at a position just visited (42_lz77 R199): the longest match's length and offset. -/
def search (c : Config) (d : Nat → Byte) (size : Nat) (m : MatchVars) : Nat × Nat :=
  let wpos := m.pos % c.window
  let q : Search := ⟨c, d, m.h, wpos, getHash c d size m.pos, m.numZeros, m.pos, min size (m.pos + 258)⟩
  q.walk c.maxChain (chainAt m.h wpos) 0 0 0

/-- What becomes of what was found: it is held back, or a token is emitted (42_lz77 R201 to R203). -/
def resolve (c : Config) (d : Nat → Byte) (size : Nat) (found : Nat × Nat) (m : MatchVars) : MatchVars :=
  if c.lazy ∧ ¬ m.lazy ∧ 3 ≤ found.1 ∧ found.1 < 258 then
    { m with lazy := true, lazyLength := found.1, lazyOffset := found.2, pos := m.pos + 1 }
  else if c.lazy ∧ m.lazy then
    if m.lazyLength + 1 < found.1 then
      emitToken c d size found.1 found.2 { m with lazy := false, tok := .lit (d (m.pos - 1)) :: m.tok }
    else
      emitToken c d size m.lazyLength m.lazyOffset
        { m with lazy := false, h := unhead m.h (getHash c d size m.pos) m.numZeros, pos := m.pos - 1 }
  else emitToken c d size found.1 found.2 m

/-- One turn of the main loop (42_lz77 R196 to R203). -/
def matchTurn (c : Config) (d : Nat → Byte) (size : Nat) (m : MatchVars) : MatchVars :=
  let m' := visit c d size m
  resolve c d size (search c d size m') m'

/-- The main loop (42_lz77 R196), with a bound on its turns: two turns advance `pos` by at least 1. -/
def matchLoop (c : Config) (d : Nat → Byte) (size : Nat) : (turns : Nat) → MatchVars → MatchVars
  | 0, m => m
  | n + 1, m => if m.pos < size then matchLoop c d size n (matchTurn c d size m) else m

/-- `LZ77(d, start, stop)` (42_lz77 R196) from a hash index. -/
def referenceMatch (c : Config) (d : Nat → Byte) (h : HashIndex) (start stop : Nat) : MatchVars :=
  matchLoop c d stop (2 * (stop - start) + 2) ⟨h, 0, false, 0, 0, start, []⟩

/-- The all-literal sequence, always valid (42_lz77 R192). -/
def literalTokens (data : List Byte) (start stop : Nat) : List Token := ((data.take stop).drop start).map .lit

/-- Under `MATCHER = any`: any valid sequence (42_lz77 R192; log 12). An empty block has only the empty one. -/
def anyTokens (c : Config) (ctr call : Nat) (data : List Byte) (start stop : Nat) : List Token :=
  if start = stop then []
  else
    let toks := Config.freeTokens ctr call data start stop
    if validTokens c.window data start stop toks then toks else literalTokens data start stop

/-- The tokens of the block `data[start .. stop - 1]` in `TOK`, with what the matcher leaves behind (42_lz77 R193). -/
def blockTokens (c : Config) (ctr call : Nat) (data : List Byte) (start stop : Nat) (w : Work) : Work :=
  match c.matcher with
  | .any => { w with tok := anyTokens c ctr call data start stop }
  | .reference =>
    let a := data.toArray
    let m := referenceMatch c (fun i => a.getD i 0) w.hash start stop
    { w with
      tok := m.tok.reverse, hash := m.h, numZeros := m.numZeros, lazy := m.lazy, lazyLength := m.lazyLength
      lazyOffset := m.lazyOffset }

end Sys2Proof.Machine
end

