-- ==== Sys2Proof/Machine/Deflate.lean ====
section
/-! DEFINITION. The compressor (44_deflate): symbols, block emission, the dynamic plan, the choice of block type, and
the commands `DEFLATE` and `ZLIBC` (48_commands R378, R379). -/

namespace Sys2Proof.Machine

/-! ## Symbols (44_deflate R263, R264) -/

/-- A token as it is sent: a literal/length symbol, and for a match its extra values and distance symbol. -/
inductive Sym where
  | lit (s : Nat)
  | copy (s lextra d dextra : Nat)
  deriving DecidableEq, Repr

/-- The largest index whose base is at most `v`, in a rising table (44_deflate R263). -/
def lastIndex (table : List Nat) (v : Nat) : Nat := (table.takeWhile (· ≤ v)).length - 1

/-- `Symbols` on one token. -/
def symbolOf : Token → Sym
  | .lit b => .lit b.toNat
  | .copy len dist =>
    let li := lastIndex lengthBase len
    let di := lastIndex distBase dist
    .copy (257 + li) (len - lengthBase.getD li 0) di (dist - distBase.getD di 0)

/-- `WriteCode(T.CODE[s], T.LEN[s])`; a symbol without a code raises `EncodeZeroLength(s)` (41_huffman R158). -/
def writeCode (t : Tree) (s : Nat) : Except Failure (List Bool) :=
  if t.len.getD s 0 = 0 then .error ⟨.encodeZeroLength, s, none⟩ else .ok (t.codeOf s)

/-- One entry of `WriteSymbols` (44_deflate R264). -/
def writeSym (tll td : Tree) (y : Sym) : Except Failure (List Bool) :=
  match y with
  | .lit s => writeCode tll s
  | .copy s lextra d dextra =>
    match writeCode tll s, writeCode td d with
    | .ok cs, .ok cd =>
      .ok (cs ++ fieldBits (lengthExtra.getD (s - 257) 0) lextra ++ cd ++ fieldBits (distExtra.getD d 0) dextra)
    | .error e, _ => .error e
    | _, .error e => .error e

/-- `WriteSymbols` and the end code (44_deflate R264, R265, R277). -/
def writeSyms (tll td : Tree) : List Sym → Except Failure (List Bool)
  | [] => writeCode tll 256
  | y :: rest =>
    match writeSym tll td y, writeSyms tll td rest with
    | .ok a, .ok b => .ok (a ++ b)
    | .error e, _ => .error e
    | _, .error e => .error e

/-- The size in bits of a symbol (44_deflate R264). -/
def symSize (tll td : Tree) : Sym → Nat
  | .lit s => tll.len.getD s 0
  | .copy s _ d _ =>
    tll.len.getD s 0 + lengthExtra.getD (s - 257) 0 + td.len.getD d 0 + distExtra.getD d 0

/-- The size of the symbols and the end code. -/
def symsSize (tll td : Tree) (syms : List Sym) : Nat := (syms.map (symSize tll td)).sum + tll.len.getD 256 0

/-! ## The dynamic plan (44_deflate R270 to R276) -/

/-- Count a symbol. -/
def countAt (counts : List Nat) (k : Nat) : List Nat := counts.modify k (· + 1)

/-- `FREQ_LL`, with the end code counted once (44_deflate R271). -/
def freqLL (syms : List Sym) : List Nat :=
  (syms.foldl (fun f y => match y with | .lit s => countAt f s | .copy s _ _ _ => countAt f s)
    (List.replicate 286 0)).set 256 1

/-- `FREQ_D` (44_deflate R271). -/
def freqD (syms : List Sym) : List Nat :=
  syms.foldl (fun f y => match y with | .lit _ => f | .copy _ _ d _ => countAt f d) (List.replicate 30 0)

/-- Run-length coding of the lengths to send (44_deflate R274); each turn consumes at least one length. -/
def runLengths : (turns : Nat) → List Nat → List (Nat × Nat)
  | 0, _ => []
  | _, [] => []
  | n + 1, v :: rest =>
    let j := (rest.takeWhile (· = v)).length
    if v = 0 ∧ 2 ≤ j then
      if j + 1 ≤ 10 then (17, j + 1 - 3) :: runLengths n (rest.drop j)
      else
        let run := min (j + 1) 138
        (18, run - 11) :: runLengths n (rest.drop (run - 1))
    else if 3 ≤ j then
      let repeats := List.replicate (j / 6) (16, 3)
      if 3 ≤ j % 6 then (v, 0) :: repeats ++ (16, j % 6 - 3) :: runLengths n (rest.drop j)
      else (v, 0) :: repeats ++ runLengths n (rest.drop (j - j % 6))
    else (v, 0) :: runLengths n rest

/-- `HCLEN` (44_deflate R276): trailing zeros dropped, at least 4 kept. -/
def trimClens (bcl : List Nat) : Nat → Nat
  | 0 => 0
  | k + 1 => if 4 < k + 1 ∧ bcl.getD k 0 = 0 then trimClens bcl k else k + 1

/-- The plan `(LL, D, HLIT, HDIST, rle, CL, HCLEN)` and the counters behind it (44_deflate R270); `HLIT` and `HDIST`
are the trees' symbol counts. -/
structure Plan where
  ll : Tree
  d : Tree
  cl : Tree
  freqCL : List Nat
  rle : List (Nat × Nat)
  bcl : List Nat
  hclen : Nat
  bpm : Bpm
  deriving DecidableEq, Repr

/-- A build for the dynamic plan; when it fails its slot is not valid (41_huffman R150). -/
def planTree (slot : Slot) (freq : List Nat) (minCodes maxCodes maxBits : Nat) : Except Failure (Tree × Bpm) :=
  match buildFromFrequencies freq minCodes maxCodes maxBits with
  | .ok r => .ok r
  | .error e => .error ⟨.huffTreeMalformed, e, some slot⟩

/-- Rules 44_deflate R271 to R276. -/
def makePlan (syms : List Sym) : Except Failure Plan :=
  match planTree .ll (freqLL syms) 257 286 15, planTree .d (freqD syms) 2 30 15 with
  | .ok (ll, _), .ok (d, _) =>
    let b := ll.len ++ d.len
    let rle := runLengths b.length b
    let freqCL := rle.foldl (fun f e => countAt f e.1) (List.replicate 19 0)
    match planTree .cl freqCL 19 19 7 with
    | .ok (cl, bpm) =>
      let bcl := clclOrder.map fun c => cl.len.getD c 0
      .ok ⟨ll, d, cl, freqCL, rle, bcl, trimClens bcl 19, bpm⟩
    | .error e => .error e
  | .error e, _ => .error e
  | _, .error e => .error e

/-- The coded lengths of a dynamic header (44_deflate R277). -/
def writeRle (cl : Tree) : List (Nat × Nat) → Except Failure (List Bool)
  | [] => .ok []
  | (c, v) :: rest =>
    match writeCode cl c, writeRle cl rest with
    | .ok a, .ok b => .ok (a ++ fieldBits (clExtra c) v ++ b)
    | .error e, _ => .error e
    | _, .error e => .error e

/-! ## Block emission -/

/-- Zero bits to the next byte boundary after bit position `k`: `(-k) mod 8`. -/
def padTo8 (k : Nat) : Nat := (8 - k % 8) % 8

/-- A stored block at `wbp` (44_deflate R262). -/
def storedBits (final : Bool) (wbp : Nat) (bs : List Byte) : List Bool :=
  [final, false, false] ++ List.replicate (padTo8 (wbp + 3)) false ++
    bytesBits (le16bytes bs.length ++ le16bytes (65535 - bs.length) ++ bs)

/-- Its size (44_deflate R262). -/
def storedSize (wbp len : Nat) : Nat := 3 + padTo8 (wbp + 3) + 32 + 8 * len

/-- A fixed block (44_deflate R265). -/
def fixedBits (final : Bool) (syms : List Sym) : Except Failure (List Bool) :=
  match writeSyms fixLL fixD syms with
  | .ok b => .ok ([final, true, false] ++ b)
  | .error e => .error e

/-- Its size (44_deflate R265). -/
def fixedSize (syms : List Sym) : Nat := 3 + symsSize fixLL fixD syms

/-- A dynamic block (44_deflate R277). -/
def dynamicBits (final : Bool) (p : Plan) (syms : List Sym) : Except Failure (List Bool) :=
  match writeRle p.cl p.rle, writeSyms p.ll p.d syms with
  | .ok r, .ok b =>
    .ok ([final, false, true] ++ fieldBits 5 (p.ll.n - 257) ++ fieldBits 5 (p.d.n - 1) ++ fieldBits 4 (p.hclen - 4) ++
      (p.bcl.take p.hclen).flatMap (fieldBits 3) ++ r ++ b)
  | .error e, _ => .error e
  | _, .error e => .error e

/-- Its size (44_deflate R277). -/
def dynamicSize (p : Plan) (syms : List Sym) : Nat :=
  3 + 14 + 3 * p.hclen + (p.rle.map fun e => p.cl.len.getD e.1 0 + clExtra e.1).sum + symsSize p.ll p.d syms

/-- The block types. -/
inductive BlockType where
  | stored
  | fixed
  | dynamic
  deriving DecidableEq, Repr

/-- The smallest size wins, on equal sizes the lower `BTYPE` (44_deflate R281). -/
def smallest (stored fixed dynamic : Nat) : BlockType :=
  if stored ≤ fixed ∧ stored ≤ dynamic then .stored else if fixed ≤ dynamic then .fixed else .dynamic

/-- What the dynamic candidate overwrites (44_deflate R282). -/
def withPlan (w : Work) (p : Plan) (syms : List Sym) : Work :=
  { w with
    ll := p.ll, d := p.d, cl := p.cl, freqLL := Machine.freqLL syms, freqD := Machine.freqD syms
    freqCL := p.freqCL, bpm := p.bpm }

/-- Choose and emit one block whose tokens are in `TOK` (44_deflate R260, R281, R282). -/
def writeBlock (mode : BtMode) (final : Bool) (wbp : Nat) (bs : List Byte) (w : Work) :
    Except Failure (List Bool × Work) :=
  let syms := w.tok.map symbolOf
  match mode with
  | .stored => .ok (storedBits final wbp bs, w)
  | .fixed =>
    match fixedBits final syms with
    | .ok b => .ok (b, w)
    | .error e => .error e
  | .dynamic =>
    match makePlan syms with
    | .error e => .error e
    | .ok p =>
      match dynamicBits final p syms with
      | .ok b => .ok (b, withPlan w p syms)
      | .error e => .error e
  | .auto =>
    match makePlan syms with
    | .error e => .error e
    | .ok p =>
      match smallest (storedSize wbp bs.length) (fixedSize syms) (dynamicSize p syms) with
      | .stored => .ok (storedBits final wbp bs, withPlan w p syms)
      | .fixed =>
        match fixedBits final syms with
        | .ok b => .ok (b, withPlan w p syms)
        | .error e => .error e
      | .dynamic =>
        match dynamicBits final p syms with
        | .ok b => .ok (b, withPlan w p syms)
        | .error e => .error e

/-! ## The pass (44_deflate R260, R261) -/

/-- The blocks from number `bi` on, `left` of them after this one's predecessors. -/
def writeBlocks (c : Config) (ctr call : Nat) (mode : BtMode) (data : List Byte) :
    (left bi wbp : Nat) → Work → Except Failure (List Bool × Work)
  | 0, _, _, w => .ok ([], w)
  | left + 1, bi, wbp, w =>
    let start := bi * c.blockSize
    let stop := min data.length (start + c.blockSize)
    let w' := blockTokens c ctr (call + bi) data start stop w
    match writeBlock mode (left == 0) wbp ((data.take stop).drop start) w' with
    | .error e => .error e
    | .ok (b, w'') =>
      match writeBlocks c ctr call mode data left (bi + 1) (wbp + b.length) w'' with
      | .error e => .error e
      | .ok (rest, w''') => .ok (b ++ rest, w''')

/-- The number of blocks (44_deflate R261). -/
def blockCount (c : Config) (n : Nat) : Nat := max 1 ((n + c.blockSize - 1) / c.blockSize)

/-- `Deflate(btmode)` at `wbp` (44_deflate R260): the bits emitted and the working memories afterwards. -/
def deflate (c : Config) (ctr call : Nat) (mode : BtMode) (data : List Byte) (wbp : Nat) (w : Work) :
    Except Failure (List Bool × Work) :=
  writeBlocks c ctr call mode data (blockCount c data.length) 0 wbp { w with hash := freshHash }

/-! ## The commands -/

/-- The end of `DEFLATE` and `ZLIBC`: emit, then `DLEN <- (wbp + 7) div 8`. -/
def State.finishStream (s : State) (bits : List Bool) (w : Work) : State :=
  match ({ s with work := w, free := s.free + 1 }).emit bits with
  | .error s' => s'
  | .ok s' => ({ s' with dlen := BitVec.ofNat 32 ((bits.length + 7) / 8) }).finish

/-- The body of `DEFLATE`. -/
def deflateBody (s : State) : State :=
  match deflate s.cfg s.free 0 s.btmode s.input 0 s.work with
  | .error e => s.raiseFailure e
  | .ok (bits, w) => s.finishStream bits w

/-- `DEFLATE` (48_commands R378). -/
def execDeflate (s : State) : Result := command s .st id deflateBody

/-- The zlib header the compressor writes (45_zlib_adler R302). -/
def zlibHeader : List Byte := [0x78, 0x01]

/-- The body of `ZLIBC` (45_zlib_adler R301): `RES0` is written after the last step that can raise. -/
def zlibcBody (s : State) : State :=
  let adler := adler32 s.input
  match deflate s.cfg s.free 0 s.btmode s.input 16 s.work with
  | .error e => s.raiseFailure e
  | .ok (bits, w) =>
    let body := bytesBits zlibHeader ++ bits
    let all := body ++ List.replicate (padTo8 body.length) false ++ bytesBits (be32bytes (adlerValue adler))
    let s' := s.finishStream all { w with adlerS1 := adler.1, adlerS2 := adler.2 }
    if all.length ≤ 8 * s.dcap.toNat then { s' with res0 := BitVec.ofNat 32 (adlerValue adler) } else s'

/-- `ZLIBC` (48_commands R379). -/
def execZlibc (s : State) : Result := command s .st id zlibcBody

end Sys2Proof.Machine
end

