-- ==== Sys2Proof/Machine/Filter.lean ====
section
/-! DEFINITION. The scanline filter engine (46_filter): predictors, the two line functions, the choice of a filter
type, the commands `UNFILTER` and `FILTER` (48_commands R380, R381), and the FT elements `UNFILTER` interprets. -/

namespace Sys2Proof.Machine

/-! ## Predictors (46_filter R323 to R325) -/

/-- `Paeth(a, b, c)` (46_filter R325). -/
def paeth (a b c : Byte) : Byte :=
  let p : Int := a.toNat + b.toNat - c.toNat
  let pa := (p - a.toNat).natAbs
  let pb := (p - b.toNat).natAbs
  let pc := (p - c.toNat).natAbs
  if pa ≤ pb ∧ pa ≤ pc then a else if pb ≤ pc then b else c

/-- `Pred(t, i)` from the neighbours (46_filter R324). -/
def predict (t : Nat) (a b c : Byte) : Byte :=
  match t with
  | 0 => 0
  | 1 => a
  | 2 => b
  | 3 => BitVec.ofNat 8 ((a.toNat + b.toNat) / 2)
  | _ => paeth a b c

/-- A neighbour `back` bytes before byte `i` of a line; 0 to the left of the first pixel (46_filter R323). -/
def leftOf (line : List Byte) (back i : Nat) : Byte := if back ≤ i then line.getD (i - back) 0 else 0

/-- `Pred(t, i)` in a scanline `cur` (unfiltered as far as it is needed) under `prev` (46_filter R323, R324). -/
def predictAt (t width : Nat) (cur prev : List Byte) (i : Nat) : Byte :=
  predict t (leftOf cur width i) (prev.getD i 0) (leftOf prev width i)

/-- The scanline above, or nothing: every byte of it reads 0 (46_filter R323). -/
def above (prev : Option (List Byte)) : List Byte := prev.getD []

/-- `FilterLine(t, cur, prev)` (46_filter R326). -/
def filterLine (t width : Nat) (cur : List Byte) (prev : Option (List Byte)) : List Byte :=
  (List.range cur.length).map fun i => cur.getD i 0 - predictAt t width cur (above prev) i

/-- Reconstruct in ascending order; `done` holds the bytes already reconstructed (46_filter R326). -/
def unfilterFrom (t width : Nat) (prev : List Byte) : List Byte → List Byte → List Byte
  | done, [] => done
  | done, f :: rest => unfilterFrom t width prev (done ++ [f + predictAt t width done prev done.length]) rest

/-- `UnfilterLine(t, filt, prev)` (46_filter R326). -/
def unfilterLine (t width : Nat) (filt : List Byte) (prev : Option (List Byte)) : List Byte :=
  unfilterFrom t width (above prev) [] filt

/-! ## UNFILTER (46_filter R322) -/

/-- The body of `UNFILTER`: the argument checks, then the scanlines, if there are any. -/
def unfilterBody (s : State) : State :=
  match s.geometryFault s.filtSize s.rawSize with
  | some (c, info) => s.raise c info
  | none =>
    let s' := { s with work := { s.work with lines := ⟨[], none, []⟩ } }
    if s.arg1 = 0 then s'.finish else { s' with engine := .unfilter 0 }

/-- `UNFILTER` (48_commands R380). -/
def execUnfilter (s : State) : Result := command s .st id unfilterBody

/-- The number of the scanline `UNFILTER` is at. -/
def State.scanline (s : State) : Nat :=
  match s.engine with
  | .unfilter y => y
  | _ => 0

/-- The byte offset of that scanline's type byte (46_filter R322). -/
def State.typeOffset (s : State) : Nat := s.scanline * (s.lineBytes + 1)

/-- Whether that scanline lies inside both regions, as the checks of 46_filter R321 ensure. -/
def State.scanlineOk (s : State) : Bool :=
  s.regionsOk .st && decide (s.typeOffset + s.lineBytes + 1 ≤ s.slen.toNat ∧
    (s.scanline + 1) * s.lineBytes ≤ s.dcap.toNat)

/-- Reconstruct one scanline with filter type `t` (46_filter R322). -/
def scanlineBody (t : Nat) (s : State) : State :=
  let y := s.scanline
  let filt := s.inBytes (s.typeOffset + 1) s.lineBytes
  let rec_ := unfilterLine t s.byteWidth filt s.work.lines.prev
  let s' := { s.putOut (y * s.lineBytes) rec_ with
    work := { s.work with lines := { s.work.lines with cur := rec_, prev := some rec_ } } }
  if y + 1 < s.arg1.toNat then { s' with engine := .unfilter (y + 1) }
  else ({ s' with dlen := BitVec.ofNat 32 s.rawSize }).finish

/-- A filtered scanline of type `t`. -/
def scanlineElement (s : State) (t : Nat) : Result :=
  if s.scanlineOk then .next (scanlineBody t s) else .fault .noSuchAddress

/-- `FT.NONE`. -/
def execFtNone (s : State) : Result := scanlineElement s 0

/-- `FT.SUB`. -/
def execFtSub (s : State) : Result := scanlineElement s 1

/-- `FT.UP`. -/
def execFtUp (s : State) : Result := scanlineElement s 2

/-- `FT.AVERAGE`. -/
def execFtAverage (s : State) : Result := scanlineElement s 3

/-- `FT.PAETH`. -/
def execFtPaeth (s : State) : Result := scanlineElement s 4

/-- `FT.ILLEGAL`: `InvalidFilterType` with the offset of the type byte (46_filter R322). -/
def execFtIllegal (_t : Byte) (s : State) : Result :=
  element s .st fun s => s.raise .invalidFilterType s.typeOffset

/-! ## The choice of a type (46_filter R337 to R343) -/

/-- The effective strategy (46_filter R337). -/
def State.strategy (s : State) : Strategy :=
  if s.fstrat = .zero ∨ (s.pal0 ∧ (s.pal ∨ s.bpp < 8)) then .zero else s.fstrat

/-- `sabs` (46_filter R340). -/
def sabs (v : Byte) : Nat := if v.toNat < 128 then v.toNat else 256 - v.toNat

/-- `Cost(MINSUM, f)` (46_filter R340). -/
def minSumCost (f : List Byte) : Nat := (f.map sabs).sum

/-- `G(f)`: the product of `cnt[v]^cnt[v]` over all bytes `v` (46_filter R341). -/
def entropyProduct (f : List Byte) : Nat :=
  ((List.range 256).map fun v => let n := f.count (BitVec.ofNat 8 v); n ^ n).prod

/-- Whether candidate `f` is strictly cheaper than `g` by the Entropy strategy: `H(f) < H(g)` exactly when
`G(f) > G(g)` (46_filter R341; log 13 for the approximation). -/
def entropyCheaper (c : Config) (f g : List Byte) : Bool :=
  match c.entropyFn with
  | .exact => decide (entropyProduct g < entropyProduct f)
  | .approximate => decide (Config.approxEntropy f < Config.approxEntropy g)

/-- One trial compression (46_filter R343): its size in bytes and the working memories it leaves. -/
def trial (c : Config) (ctr call : Nat) (f : List Byte) (w : Work) : Except Failure (Nat × Work) :=
  match deflate c ctr call .fixed f 0 w with
  | .error e => .error e
  | .ok (bits, w') => .ok ((bits.length + 7) / 8, w')

/-- The trials of the candidate lines in order. -/
def trials (c : Config) (ctr : Nat) : (call : Nat) → List (List Byte) → Work → Except Failure (List Nat × Work)
  | _, [], w => .ok ([], w)
  | call, f :: rest, w =>
    match trial c ctr call f w with
    | .error e => .error e
    | .ok (n, w') =>
      match trials c ctr (call + blockCount c f.length) rest w' with
      | .error e => .error e
      | .ok (ns, w'') => .ok (n :: ns, w'')

/-- The smallest index of a cheapest candidate: a later one replaces the best only when strictly cheaper
(46_filter R339). -/
def cheapest {α : Type} (cheaper : α → α → Bool) : List α → Nat
  | [] => 0
  | c :: rest =>
    (rest.foldl (fun (acc : Nat × Nat × α) x =>
      if cheaper x acc.2.2 then (acc.1 + 1, acc.1 + 1, x) else (acc.1 + 1, acc.2.1, acc.2.2)) (0, 0, c)).2.1

/-- The five candidate lines `ATT[0..4]` (46_filter R339). -/
def candidates (width : Nat) (cur : List Byte) (prev : Option (List Byte)) : List (List Byte) :=
  (List.range 5).map fun t => filterLine t width cur prev

/-- `ChooseType` (46_filter R338 to R343), with the working memories the candidates and trials leave. -/
def chooseType (c : Config) (ctr call : Nat) (strat : Strategy) (width : Nat) (cur : List Byte)
    (prev : Option (List Byte)) (w : Work) : Except Failure (Nat × Work) :=
  let att := candidates width cur prev
  let w' := { w with lines := { w.lines with att := att } }
  match strat with
  | .zero => .ok (0, w)
  | .minSum => .ok (cheapest (fun f g => decide (minSumCost f < minSumCost g)) att, w')
  | .entropy => .ok (cheapest (entropyCheaper c) att, w')
  | .bruteForce =>
    match trials c ctr call att w' with
    | .error e => .error e
    | .ok (sizes, w'') => .ok (cheapest (fun m n => decide (m < n)) sizes, w'')

/-! ## FILTER (46_filter R335) -/

/-- The filtered scanlines of the rows `rows`, in order; `call` numbers the trials under `MATCHER = any`. -/
def filterRows (c : Config) (ctr : Nat) (strat : Strategy) (width : Nat) :
    (call : Nat) → List (List Byte) → Option (List Byte) → Work → Except Failure (List Byte × Work)
  | _, [], _, w => .ok ([], w)
  | call, cur :: rest, prev, w =>
    match chooseType c ctr call strat width cur prev { w with lines := { w.lines with cur := cur, prev := prev } } with
    | .error e => .error e
    | .ok (t, w') =>
      match filterRows c ctr strat width (call + 5 * blockCount c cur.length) rest (some cur) w' with
      | .error e => .error e
      | .ok (bytes, w'') => .ok (BitVec.ofNat 8 t :: filterLine t width cur prev ++ bytes, w'')

/-- The scanlines of an unfiltered image. -/
def State.rows (s : State) : List (List Byte) :=
  (List.range s.arg1.toNat).map fun y => s.inBytes (y * s.lineBytes) s.lineBytes

/-- The body of `FILTER`. -/
def filterBody (s : State) : State :=
  match s.geometryFault s.rawSize s.filtSize with
  | some (c, info) => s.raise c info
  | none =>
    match filterRows s.cfg s.free s.strategy s.byteWidth 0 s.rows none s.work with
    | .error e => s.raiseFailure e
    | .ok (bytes, w) =>
      ({ s.putOut 0 bytes with work := w, free := s.free + 1, dlen := BitVec.ofNat 32 s.filtSize }).finish

/-- `FILTER` (48_commands R381). -/
def execFilter (s : State) : Result := command s .st id filterBody

end Sys2Proof.Machine
end

