-- ==== Sys2Proof/Machine/Inflate.lean ====
section
/-! DEFINITION. The decompressor (43_inflate, 45_zlib_adler R303 to R307): the commands `INFLATE` and `ZLIBD`, which
start it, and the stream elements it interprets. When an element's meaning runs, `bp` stands after what the decoder
consumed of it (Decode.lean, `decode`). -/

namespace Sys2Proof.Machine

/-! ## The commands -/

/-- The start action `INFLATE` and `ZLIBD` add: `STATUS.BFINAL <- 0` (48_commands R371). -/
def State.dropFinal (s : State) : State := { s with bfinal := false }

/-- `INFLATE` (48_commands R376): `Inflate(x[ARG0])` begins before a block header (43_inflate R220). -/
def execInflate (s : State) : Result :=
  command s .st State.dropFinal fun s =>
    { s with bp := BitVec.ofNat 35 s.arg0.toNat, engine := .inflate false .header }

/-- `ZLIBD` (48_commands R377): `ZlibDecompress()` begins before the zlib header (45_zlib_adler R303). -/
def execZlibd (s : State) : Result :=
  command s .st State.dropFinal fun s => { s with engine := .inflate true .zHeader }

/-! ## Block loop (43_inflate R220 to R223) -/

/-- The end of `Inflate`: `x[DLEN] <- pos`; `ZLIBD` goes on to verify the trailer unless `IGNORE_ADLER`
(43_inflate R220, 45_zlib_adler R306). -/
def State.endInflate (s : State) : State :=
  let s' := { s with dlen := s.pos }
  if s.zlib && !s.ignoreAdler then s'.toPhase .trailer else s'.finish

/-- The end of a block: `until BFINAL = 1`. -/
def State.endBlock (s : State) : State := if s.bfinal then s.endInflate else s.toPhase .header

/-- A header's `BFINAL` (43_inflate R221) and the phase its type leads to. -/
def State.openBlock (s : State) (final : Bool) (p : Phase) : State := ({ s with bfinal := final }).toPhase p

/-- `BLOCK.STORED` (43_inflate R224). -/
def execBlockStored (final : Bool) (s : State) : Result := element s .st fun s => s.openBlock final .stored

/-- `BLOCK.FIXED` (43_inflate R227). -/
def execBlockFixed (final : Bool) (s : State) : Result := element s .st fun s => s.openBlock final (.symbols true)

/-- `BLOCK.DYNAMIC` (43_inflate R228). -/
def execBlockDynamic (final : Bool) (s : State) : Result := element s .st fun s => s.openBlock final .dynHeader

/-- `BLOCK.ILLEGAL`: `InvalidBlockType(bp)`, after `BFINAL` has been set (43_inflate R221, R222). -/
def execBlockIllegal (final : Bool) (s : State) : Result :=
  element s .st fun s => ({ s with bfinal := final }).raise .invalidBlockType s.bp.toNat

/-! ## Stored block (43_inflate R225, R226) -/

/-- The body of a stored block; `bp` is the aligned position of `LEN`. -/
def storedBody (len nlen : BitVec 16) (s : State) : State :=
  let p := s.bp.toNat / 8
  let n := len.toNat
  if n + nlen.toNat ≠ 65535 then s.raise .storedLenMismatch s.bp.toNat
  else if p + 4 + n > s.slen.toNat then s.raise .endOfInput s.bp.toNat
  else if s.pos.toNat + n > s.dcap.toNat then s.raise .outputOverflow s.pos.toNat
  else ({ s.append (s.inBytes (p + 4) n) with bp := BitVec.ofNat 35 (8 * (p + 4 + n)) }).endBlock

/-- `STORED` (43_inflate R225, R226). -/
def execStored (len nlen : BitVec 16) (s : State) : Result := element s .st (storedBody len nlen)

/-! ## Symbols (43_inflate R236 to R241) -/

/-- `LIT` (43_inflate R237). -/
def execLit (b : Byte) (s : State) : Result :=
  element s .st fun s =>
    if s.pos.toNat + 1 > s.dcap.toNat then s.raise .outputOverflow s.pos.toNat else s.append [b]

/-- `END` (43_inflate R238). -/
def execEnd (s : State) : Result := element s .st State.endBlock

/-- A length symbol (43_inflate R239): `length <- LENGTH_BASE[k] + lextra`; its distance comes next (log 21). -/
def lenElement (s : State) (k extra : Nat) : Result :=
  element s .st fun s => s.toPhase (.distance s.fixedTrees (lengthBase.getD k 0 + extra))

/-- `LEN.257`. -/
def execLen257 (s : State) : Result := lenElement s 0 0

/-- `LEN.258`. -/
def execLen258 (s : State) : Result := lenElement s 1 0

/-- `LEN.259`. -/
def execLen259 (s : State) : Result := lenElement s 2 0

/-- `LEN.260`. -/
def execLen260 (s : State) : Result := lenElement s 3 0

/-- `LEN.261`. -/
def execLen261 (s : State) : Result := lenElement s 4 0

/-- `LEN.262`. -/
def execLen262 (s : State) : Result := lenElement s 5 0

/-- `LEN.263`. -/
def execLen263 (s : State) : Result := lenElement s 6 0

/-- `LEN.264`. -/
def execLen264 (s : State) : Result := lenElement s 7 0

/-- `LEN.265`. -/
def execLen265 (extra : BitVec 1) (s : State) : Result := lenElement s 8 extra.toNat

/-- `LEN.266`. -/
def execLen266 (extra : BitVec 1) (s : State) : Result := lenElement s 9 extra.toNat

/-- `LEN.267`. -/
def execLen267 (extra : BitVec 1) (s : State) : Result := lenElement s 10 extra.toNat

/-- `LEN.268`. -/
def execLen268 (extra : BitVec 1) (s : State) : Result := lenElement s 11 extra.toNat

/-- `LEN.269`. -/
def execLen269 (extra : BitVec 2) (s : State) : Result := lenElement s 12 extra.toNat

/-- `LEN.270`. -/
def execLen270 (extra : BitVec 2) (s : State) : Result := lenElement s 13 extra.toNat

/-- `LEN.271`. -/
def execLen271 (extra : BitVec 2) (s : State) : Result := lenElement s 14 extra.toNat

/-- `LEN.272`. -/
def execLen272 (extra : BitVec 2) (s : State) : Result := lenElement s 15 extra.toNat

/-- `LEN.273`. -/
def execLen273 (extra : BitVec 3) (s : State) : Result := lenElement s 16 extra.toNat

/-- `LEN.274`. -/
def execLen274 (extra : BitVec 3) (s : State) : Result := lenElement s 17 extra.toNat

/-- `LEN.275`. -/
def execLen275 (extra : BitVec 3) (s : State) : Result := lenElement s 18 extra.toNat

/-- `LEN.276`. -/
def execLen276 (extra : BitVec 3) (s : State) : Result := lenElement s 19 extra.toNat

/-- `LEN.277`. -/
def execLen277 (extra : BitVec 4) (s : State) : Result := lenElement s 20 extra.toNat

/-- `LEN.278`. -/
def execLen278 (extra : BitVec 4) (s : State) : Result := lenElement s 21 extra.toNat

/-- `LEN.279`. -/
def execLen279 (extra : BitVec 4) (s : State) : Result := lenElement s 22 extra.toNat

/-- `LEN.280`. -/
def execLen280 (extra : BitVec 4) (s : State) : Result := lenElement s 23 extra.toNat

/-- `LEN.281`. -/
def execLen281 (extra : BitVec 5) (s : State) : Result := lenElement s 24 extra.toNat

/-- `LEN.282`. -/
def execLen282 (extra : BitVec 5) (s : State) : Result := lenElement s 25 extra.toNat

/-- `LEN.283`. -/
def execLen283 (extra : BitVec 5) (s : State) : Result := lenElement s 26 extra.toNat

/-- `LEN.284`. -/
def execLen284 (extra : BitVec 5) (s : State) : Result := lenElement s 27 extra.toNat

/-- `LEN.285`. -/
def execLen285 (s : State) : Result := lenElement s 28 0

/-- A reserved literal/length symbol (43_inflate R241). -/
def reservedLitLen (s : State) : Result :=
  element s .st fun s => s.raise .invalidLitLenSymbol s.bp.toNat

/-- `LLRESERVED.286`. -/
def execLlReserved286 (s : State) : Result := reservedLitLen s

/-- `LLRESERVED.287`. -/
def execLlReserved287 (s : State) : Result := reservedLitLen s

/-- The match `(length, dist)` at the output cursor: the two checks of 43_inflate R239, then the copy of R240. -/
def matchBody (length dist : Nat) (s : State) : State :=
  if dist > s.pos.toNat then s.raise .distanceTooFar s.bp.toNat
  else if s.pos.toNat + length > s.dcap.toNat then s.raise .outputOverflow s.pos.toNat
  else (s.copyMatch dist length).toPhase (.symbols s.fixedTrees)

/-- A distance symbol (43_inflate R239): `dist <- DIST_BASE[d] + dextra`, for the length decoded before it. -/
def distElement (s : State) (d extra : Nat) : Result :=
  element s .st fun s => matchBody s.pendingLength (distBase.getD d 0 + extra) s

/-- `DIST.0`. -/
def execDist0 (s : State) : Result := distElement s 0 0

/-- `DIST.1`. -/
def execDist1 (s : State) : Result := distElement s 1 0

/-- `DIST.2`. -/
def execDist2 (s : State) : Result := distElement s 2 0

/-- `DIST.3`. -/
def execDist3 (s : State) : Result := distElement s 3 0

/-- `DIST.4`. -/
def execDist4 (extra : BitVec 1) (s : State) : Result := distElement s 4 extra.toNat

/-- `DIST.5`. -/
def execDist5 (extra : BitVec 1) (s : State) : Result := distElement s 5 extra.toNat

/-- `DIST.6`. -/
def execDist6 (extra : BitVec 2) (s : State) : Result := distElement s 6 extra.toNat

/-- `DIST.7`. -/
def execDist7 (extra : BitVec 2) (s : State) : Result := distElement s 7 extra.toNat

/-- `DIST.8`. -/
def execDist8 (extra : BitVec 3) (s : State) : Result := distElement s 8 extra.toNat

/-- `DIST.9`. -/
def execDist9 (extra : BitVec 3) (s : State) : Result := distElement s 9 extra.toNat

/-- `DIST.10`. -/
def execDist10 (extra : BitVec 4) (s : State) : Result := distElement s 10 extra.toNat

/-- `DIST.11`. -/
def execDist11 (extra : BitVec 4) (s : State) : Result := distElement s 11 extra.toNat

/-- `DIST.12`. -/
def execDist12 (extra : BitVec 5) (s : State) : Result := distElement s 12 extra.toNat

/-- `DIST.13`. -/
def execDist13 (extra : BitVec 5) (s : State) : Result := distElement s 13 extra.toNat

/-- `DIST.14`. -/
def execDist14 (extra : BitVec 6) (s : State) : Result := distElement s 14 extra.toNat

/-- `DIST.15`. -/
def execDist15 (extra : BitVec 6) (s : State) : Result := distElement s 15 extra.toNat

/-- `DIST.16`. -/
def execDist16 (extra : BitVec 7) (s : State) : Result := distElement s 16 extra.toNat

/-- `DIST.17`. -/
def execDist17 (extra : BitVec 7) (s : State) : Result := distElement s 17 extra.toNat

/-- `DIST.18`. -/
def execDist18 (extra : BitVec 8) (s : State) : Result := distElement s 18 extra.toNat

/-- `DIST.19`. -/
def execDist19 (extra : BitVec 8) (s : State) : Result := distElement s 19 extra.toNat

/-- `DIST.20`. -/
def execDist20 (extra : BitVec 9) (s : State) : Result := distElement s 20 extra.toNat

/-- `DIST.21`. -/
def execDist21 (extra : BitVec 9) (s : State) : Result := distElement s 21 extra.toNat

/-- `DIST.22`. -/
def execDist22 (extra : BitVec 10) (s : State) : Result := distElement s 22 extra.toNat

/-- `DIST.23`. -/
def execDist23 (extra : BitVec 10) (s : State) : Result := distElement s 23 extra.toNat

/-- `DIST.24`. -/
def execDist24 (extra : BitVec 11) (s : State) : Result := distElement s 24 extra.toNat

/-- `DIST.25`. -/
def execDist25 (extra : BitVec 11) (s : State) : Result := distElement s 25 extra.toNat

/-- `DIST.26`. -/
def execDist26 (extra : BitVec 12) (s : State) : Result := distElement s 26 extra.toNat

/-- `DIST.27`. -/
def execDist27 (extra : BitVec 12) (s : State) : Result := distElement s 27 extra.toNat

/-- `DIST.28`. -/
def execDist28 (extra : BitVec 13) (s : State) : Result := distElement s 28 extra.toNat

/-- `DIST.29`. -/
def execDist29 (extra : BitVec 13) (s : State) : Result := distElement s 29 extra.toNat

/-- A reserved distance symbol (43_inflate R239). -/
def reservedDist (s : State) : Result :=
  element s .st fun s => s.raise .invalidDistanceSymbol s.bp.toNat

/-- `DRESERVED.30`. -/
def execDReserved30 (s : State) : Result := reservedDist s

/-- `DRESERVED.31`. -/
def execDReserved31 (s : State) : Result := reservedDist s

/-! ## Dynamic header (43_inflate R229 to R233) -/

/-- The lengths of the code-length alphabet: the i-th field is the length of `CLCL_ORDER[i]` (43_inflate R230). -/
def clLengths (clens : List (BitVec 3)) : List Nat :=
  (clclOrder.zip clens).foldl (fun l e => l.set e.1 e.2.toNat) (List.replicate 19 0)

/-- `DYNHDR`: the counts, and the code-length tree (43_inflate R229, R230). -/
def execDynhdr (hlit hdist : BitVec 5) (_hclen : BitVec 4) (clens : List (BitVec 3)) (s : State) : Result :=
  element s .st fun s =>
    match buildFromLengths (clLengths clens) 7 with
    | .error e => s.raiseFailure ⟨.huffTreeMalformed, e, some .cl⟩
    | .ok t =>
      ({ s with work := { s.work with cl := t } }).toPhase (.codeLens (hlit.toNat + 257) (hdist.toNat + 1) [])

/-- The block's trees from the decoded lengths (43_inflate R233). -/
def State.buildTrees (s : State) (hlit hdist : Nat) (lens : List Nat) : State :=
  let ll := lens.take hlit ++ List.replicate (288 - hlit) 0
  let dd := (lens.drop hlit).take hdist ++ List.replicate (32 - hdist) 0
  if ll.getD 256 0 = 0 then s.raise .noEndCode s.bp.toNat
  else
    match buildFromLengths ll 15 with
    | .error e => s.raiseFailure ⟨.huffTreeMalformed, e, some .ll⟩
    | .ok tll =>
      match buildFromLengths dd 15 with
      | .error e => s.raiseFailure ⟨.huffTreeMalformed, e, some .d⟩
      | .ok td => ({ s with work := { s.work with ll := tll, d := td } }).toPhase (.symbols false)

/-- The counts and the lengths read so far (43_inflate R231). -/
def State.codeLens (s : State) : Nat × Nat × List Nat :=
  match s.engine with
  | .inflate _ (.codeLens hlit hdist lens) => (hlit, hdist, lens)
  | _ => (0, 0, [])

/-- Append `rep` lengths `v`; when all `HLIT + HDIST` are there the trees are built (43_inflate R231 to R233). -/
def State.addLengths (s : State) (rep v : Nat) : State :=
  let (hlit, hdist, lens) := s.codeLens
  let lens' := lens ++ List.replicate rep v
  if lens'.length < hlit + hdist then s.toPhase (.codeLens hlit hdist lens') else s.buildTrees hlit hdist lens'

/-- A repeat code (43_inflate R232): it must fit within the lengths still to come. -/
def State.repeatLength (s : State) (rep v : Nat) : State :=
  let (hlit, hdist, lens) := s.codeLens
  if lens.length + rep > hlit + hdist then s.raise .repeatOverflow s.bp.toNat else s.addLengths rep v

/-- `CL.0-15` (43_inflate R231). -/
def execClLen (len : BitVec 4) (s : State) : Result := element s .st fun s => s.addLengths 1 len.toNat

/-- `CL.16` (43_inflate R232). -/
def execCl16 (rep : BitVec 2) (s : State) : Result :=
  element s .st fun s =>
    match s.codeLens.2.2.getLast? with
    | none => s.raise .repeatWithoutPrevious s.bp.toNat
    | some v => s.repeatLength (3 + rep.toNat) v

/-- `CL.17` (43_inflate R232). -/
def execCl17 (rep : BitVec 3) (s : State) : Result := element s .st fun s => s.repeatLength (3 + rep.toNat) 0

/-- `CL.18` (43_inflate R232). -/
def execCl18 (rep : BitVec 7) (s : State) : Result := element s .st fun s => s.repeatLength (11 + rep.toNat) 0

/-! ## zlib framing (45_zlib_adler R303 to R307) -/

/-- The header checks in their order (45_zlib_adler R304); then `Inflate(16)`. -/
def zhdrBody (cmf flg : Byte) (s : State) : State :=
  if (cmf.toNat * 256 + flg.toNat) % 31 ≠ 0 then s.raise .zlibFcheck 0
  else if cmf.toNat % 16 ≠ 8 ∨ cmf.toNat / 16 > 7 then s.raise .zlibMethod 0
  else if flg.getLsbD 5 then s.raise .zlibPresetDict 0
  else { s with bp := 16, pos := 0, bfinal := false, engine := .inflate true .header }

/-- `ZHDR`. -/
def execZhdr (cmf flg : Byte) (s : State) : Result := element s .st (zhdrBody cmf flg)

/-- The comparison of 45_zlib_adler R306; a mismatch keeps the output (R307). -/
def ztrailerBody (stored : Word) (s : State) : State :=
  let a := adler32 (s.outBytes 0 s.pos.toNat)
  let computed : Word := BitVec.ofNat 32 (adlerValue a)
  let s' := { s with res0 := computed, work := { s.work with adlerS1 := a.1, adlerS2 := a.2 } }
  if stored ≠ computed then s'.raiseAdler
  else ({ s' with bp := BitVec.ofNat 35 (8 * (trailerPos s.cfg.adlerPos s.slen.toNat s.bp.toNat + 4)) }).finish

/-- `ZTRAILER`. -/
def execZtrailer (adler : Word) (s : State) : Result := element s .st (ztrailerBody adler)

end Sys2Proof.Machine
end

