-- ==== Sys2Proof/Machine/Fetch.lean ====
section
/-! DEFINITION. Fetching the next stream element of the running command, and placing an opcode-table word where it is
fetched. The "program" is the input region (10_state R45) and `bp` its program counter (R23). -/

namespace Sys2Proof.Machine

/-- What the engine reads next, from its phase (43_inflate R220, 46_filter R322, 47_crc32 R364). -/
def State.context (s : State) : Option Ctx :=
  match s.engine with
  | .idle => none
  | .chunk => some .chunk
  | .unfilter _ => some (.scanline s.typeOffset)
  | .inflate _ p =>
    match p with
    | .zHeader => some .zHeader
    | .header => some .header
    | .stored => some .stored
    | .dynHeader => some .dynHeader
    | .codeLens _ _ lens => some (.codeLen s.work.cl lens.isEmpty)
    | .symbols fixed => some (.litLen (s.treeLL fixed))
    | .distance fixed _ => some (.dist (s.treeD fixed))
    | .trailer => some (.trailer s.cfg.adlerPos)

/-- Whether the element at hand lies in regions that exist: those of the running command (20_memory R69). -/
def State.fetchOk (s : State) : Bool :=
  match s.engine with
  | .idle => true
  | .chunk => s.regionsOk .s
  | .unfilter _ => s.scanlineOk
  | .inflate _ _ => s.regionsOk .st

/-- What a fetch finds. -/
inductive Fetched where
  /-- no command is running -/
  | idle
  /-- memory that does not exist (no run reaches this) -/
  | absent
  /-- an instruction, and the cursor it starts from -/
  | run (i : Instr) (bp : Nat)
  /-- the element cannot be read: the fault the spec names -/
  | stop (e : Stop)
  deriving DecidableEq, Repr

/-- Fetch and decode the next element. -/
def fetch (s : State) : Fetched :=
  if s.fetchOk then
    match s.context with
    | none => .idle
    | some ctx =>
      match decode s.cfg.emptySlot ctx s.source s.bp.toNat with
      | .ok (i, bp) => .run i bp
      | .error e => .stop e
  else .absent

/-- The state an instruction runs in: `bp` moved past what the decoder consumed of it. -/
def State.advance (s : State) (bp : Nat) : State := { s with bp := BitVec.ofNat 35 bp }

/-- An element that cannot be read ends the command. A missing trailer takes back the `x[DLEN]` that `Inflate` wrote
(45_zlib_adler R306, 90_conflicts C11); before that it is 0 already (48_commands R371). -/
def State.stopFetch (s : State) (e : Stop) : State := ({ s with dlen := 0 }).raiseStop s.engineUses e

/-! ## Placing a word of the opcode table -/

/-- Place a command word: the host's next access writes it to `csr[CMD]` of an idle block. -/
def State.placeCommand (s : State) (w : Nat) : State :=
  { s with engine := .idle, host := .writeCsr 1 (BitVec.ofNat 32 w) :: s.host }

/-- Lay an element's bytes at address 0 as the input region, with an output region of 64 KiB behind it. -/
def State.placeBytes (s : State) (bs : List Byte) : State :=
  { s with
    mem := s.mem.writeBytes 0 bs, src := 0, slen := BitVec.ofNat 32 bs.length, dst := 0x10000, dcap := 0x10000, bp := 0
    host := [] }

/-- Put the engine where it fetches a table word's element next (log 20): a 1 x 1 image of 8-bit pixels for a filter
type, the symbol loop of a fixed block, a fixed block after a length symbol, or the zlib header. -/
def State.placeEngine (s : State) (k : WordKind) : State :=
  match k with
  | .command => s
  | .filterType => { s with engine := .unfilter 0, arg0 := 1, arg1 := 1, arg2 := 8 }
  | .litLen => { s with engine := .inflate false (.symbols true) }
  | .dist => { s with engine := .inflate false (.distance true 3), pos := 0x8000 }
  | .zlibHeader => { s with engine := .inflate true .zHeader }

/-- Place a word of the opcode table where it is fetched next. -/
def State.placeWord (s : State) (nbits w : Nat) : State :=
  match wordKind nbits w with
  | none => s
  | some .command => s.placeCommand w
  | some k => (s.placeBytes (tableWordBytes k nbits w)).placeEngine k

end Sys2Proof.Machine
end

