-- ==== Sys2Proof/Machine/Control.lean ====
section
/-! DEFINITION. The control commands `NOP` and `CLRERR` (48_commands R383, R384). -/

namespace Sys2Proof.Machine

/-- `NOP` (48_commands R383): steps 1 and 8 only. -/
def execNop (s : State) : Result := controlCommand s id

/-- `CLRERR` (48_commands R384). -/
def execClrerr (s : State) : Result := controlCommand s State.clearError

end Sys2Proof.Machine
end

