-- ==== Sys2Proof/Machine/Dispatch.lean ====
section
/-! DEFINITION. The dispatch: one arm per instruction, each one call of its meaning. -/

namespace Sys2Proof.Machine

def exec (i : Instr) (s : State) : Host.Outcome State Fault Refusal :=
  match i with
  | .nop => Sys2Proof.Machine.execNop s
  | .clrerr => Sys2Proof.Machine.execClrerr s
  | .inflate => Sys2Proof.Machine.execInflate s
  | .zlibd => Sys2Proof.Machine.execZlibd s
  | .deflate => Sys2Proof.Machine.execDeflate s
  | .zlibc => Sys2Proof.Machine.execZlibc s
  | .unfilter => Sys2Proof.Machine.execUnfilter s
  | .filter => Sys2Proof.Machine.execFilter s
  | .crc32 => Sys2Proof.Machine.execCrc32 s
  | .crcchk => Sys2Proof.Machine.execCrcchk s
  | .adler32 => Sys2Proof.Machine.execAdler32 s
  | .hbl => Sys2Proof.Machine.execHbl s
  | .hbf => Sys2Proof.Machine.execHbf s
  | .hdec => Sys2Proof.Machine.execHdec s
  | .blockStored final => Sys2Proof.Machine.execBlockStored final s
  | .blockFixed final => Sys2Proof.Machine.execBlockFixed final s
  | .blockDynamic final => Sys2Proof.Machine.execBlockDynamic final s
  | .blockIllegal final => Sys2Proof.Machine.execBlockIllegal final s
  | .stored len nlen => Sys2Proof.Machine.execStored len nlen s
  | .lit b => Sys2Proof.Machine.execLit b s
  | .endOfBlock => Sys2Proof.Machine.execEnd s
  | .len257 => Sys2Proof.Machine.execLen257 s
  | .len258 => Sys2Proof.Machine.execLen258 s
  | .len259 => Sys2Proof.Machine.execLen259 s
  | .len260 => Sys2Proof.Machine.execLen260 s
  | .len261 => Sys2Proof.Machine.execLen261 s
  | .len262 => Sys2Proof.Machine.execLen262 s
  | .len263 => Sys2Proof.Machine.execLen263 s
  | .len264 => Sys2Proof.Machine.execLen264 s
  | .len265 extra => Sys2Proof.Machine.execLen265 extra s
  | .len266 extra => Sys2Proof.Machine.execLen266 extra s
  | .len267 extra => Sys2Proof.Machine.execLen267 extra s
  | .len268 extra => Sys2Proof.Machine.execLen268 extra s
  | .len269 extra => Sys2Proof.Machine.execLen269 extra s
  | .len270 extra => Sys2Proof.Machine.execLen270 extra s
  | .len271 extra => Sys2Proof.Machine.execLen271 extra s
  | .len272 extra => Sys2Proof.Machine.execLen272 extra s
  | .len273 extra => Sys2Proof.Machine.execLen273 extra s
  | .len274 extra => Sys2Proof.Machine.execLen274 extra s
  | .len275 extra => Sys2Proof.Machine.execLen275 extra s
  | .len276 extra => Sys2Proof.Machine.execLen276 extra s
  | .len277 extra => Sys2Proof.Machine.execLen277 extra s
  | .len278 extra => Sys2Proof.Machine.execLen278 extra s
  | .len279 extra => Sys2Proof.Machine.execLen279 extra s
  | .len280 extra => Sys2Proof.Machine.execLen280 extra s
  | .len281 extra => Sys2Proof.Machine.execLen281 extra s
  | .len282 extra => Sys2Proof.Machine.execLen282 extra s
  | .len283 extra => Sys2Proof.Machine.execLen283 extra s
  | .len284 extra => Sys2Proof.Machine.execLen284 extra s
  | .len285 => Sys2Proof.Machine.execLen285 s
  | .llReserved286 => Sys2Proof.Machine.execLlReserved286 s
  | .llReserved287 => Sys2Proof.Machine.execLlReserved287 s
  | .dist0 => Sys2Proof.Machine.execDist0 s
  | .dist1 => Sys2Proof.Machine.execDist1 s
  | .dist2 => Sys2Proof.Machine.execDist2 s
  | .dist3 => Sys2Proof.Machine.execDist3 s
  | .dist4 extra => Sys2Proof.Machine.execDist4 extra s
  | .dist5 extra => Sys2Proof.Machine.execDist5 extra s
  | .dist6 extra => Sys2Proof.Machine.execDist6 extra s
  | .dist7 extra => Sys2Proof.Machine.execDist7 extra s
  | .dist8 extra => Sys2Proof.Machine.execDist8 extra s
  | .dist9 extra => Sys2Proof.Machine.execDist9 extra s
  | .dist10 extra => Sys2Proof.Machine.execDist10 extra s
  | .dist11 extra => Sys2Proof.Machine.execDist11 extra s
  | .dist12 extra => Sys2Proof.Machine.execDist12 extra s
  | .dist13 extra => Sys2Proof.Machine.execDist13 extra s
  | .dist14 extra => Sys2Proof.Machine.execDist14 extra s
  | .dist15 extra => Sys2Proof.Machine.execDist15 extra s
  | .dist16 extra => Sys2Proof.Machine.execDist16 extra s
  | .dist17 extra => Sys2Proof.Machine.execDist17 extra s
  | .dist18 extra => Sys2Proof.Machine.execDist18 extra s
  | .dist19 extra => Sys2Proof.Machine.execDist19 extra s
  | .dist20 extra => Sys2Proof.Machine.execDist20 extra s
  | .dist21 extra => Sys2Proof.Machine.execDist21 extra s
  | .dist22 extra => Sys2Proof.Machine.execDist22 extra s
  | .dist23 extra => Sys2Proof.Machine.execDist23 extra s
  | .dist24 extra => Sys2Proof.Machine.execDist24 extra s
  | .dist25 extra => Sys2Proof.Machine.execDist25 extra s
  | .dist26 extra => Sys2Proof.Machine.execDist26 extra s
  | .dist27 extra => Sys2Proof.Machine.execDist27 extra s
  | .dist28 extra => Sys2Proof.Machine.execDist28 extra s
  | .dist29 extra => Sys2Proof.Machine.execDist29 extra s
  | .dReserved30 => Sys2Proof.Machine.execDReserved30 s
  | .dReserved31 => Sys2Proof.Machine.execDReserved31 s
  | .clLen len => Sys2Proof.Machine.execClLen len s
  | .cl16 rep => Sys2Proof.Machine.execCl16 rep s
  | .cl17 rep => Sys2Proof.Machine.execCl17 rep s
  | .cl18 rep => Sys2Proof.Machine.execCl18 rep s
  | .dynhdr hlit hdist hclen clens => Sys2Proof.Machine.execDynhdr hlit hdist hclen clens s
  | .zhdr cmf flg => Sys2Proof.Machine.execZhdr cmf flg s
  | .ztrailer adler => Sys2Proof.Machine.execZtrailer adler s
  | .ftNone => Sys2Proof.Machine.execFtNone s
  | .ftSub => Sys2Proof.Machine.execFtSub s
  | .ftUp => Sys2Proof.Machine.execFtUp s
  | .ftAverage => Sys2Proof.Machine.execFtAverage s
  | .ftPaeth => Sys2Proof.Machine.execFtPaeth s
  | .ftIllegal t => Sys2Proof.Machine.execFtIllegal t s
  | .chunk len typ crc => Sys2Proof.Machine.execChunk len typ crc s

end Sys2Proof.Machine
end

