-- ==== Sys2Proof/Machine/HostPort.lean ====
section
/-! DEFINITION. The host's accesses (10_state R20 to R35, 48_commands R370 to R372, 70_reset R440, R441, R446). -/

namespace Sys2Proof.Machine

/-- `raise IllegalCommand(W)` (48_commands R370 step 2). While `ERR != 0` it changes nothing but `BUSY` and `DONE` (R373,
60_exceptions R402). With `ERR = 0` it leaves `x[DLEN] = 0` as every fault but `AdlerMismatch` does (60_exceptions R404),
although the start actions, which clear `x[DLEN]`, come only at step 4 (DEDUCED, log 32). -/
def State.raiseIllegal (s : State) (w : Word) : State :=
  ({ s with dlen := if s.err = 0 then 0 else s.dlen }).recordFault .illegalCommand w.toNat

/-- A write of a word to `csr[CMD]` (10_state R29): ignored while `BUSY = 1`; a word that is no command raises
`IllegalCommand`; else the command runs. -/
def State.writeCmd (s : State) (w : Word) : Result :=
  if s.busy then .next s
  else
    match decodeCommand w with
    | none => .next (s.raiseIllegal w)
    | some i => exec i s

/-- A host write of a CSR (10_state R28, R34): only `CMD` and `CTRL` take one; reserved bits of `CTRL` stay 0. -/
def State.writeCsr (s : State) (n : Nat) (v : Word) : Result :=
  if n = 1 then s.writeCmd v
  else if n = 5 ∧ !s.busy then .next { s with ctrl := v &&& ctrlMask }
  else .next s

/-- What a host read of a CSR returns when it is specified (10_state R28 to R35, 48_commands R372). -/
def State.csrValue (s : State) (n : Nat) : Cursor :=
  match n with
  | 0 => idWord.setWidth 35
  | 2 => s.status.setWidth 35
  | 3 => s.err.setWidth 35
  | 4 => s.errInfo
  | 5 => s.ctrl.setWidth 35
  | 6 => s.bp
  | 7 => s.pos.setWidth 35
  | 8 => s.wbp
  | _ => 0

/-- Whether a read of CSR `n` is unspecified while `BUSY = 1` (48_commands R372, 93 U7): `ERR`, `ERRINFO`, `BP`, `POS`,
`WBP`. -/
def csrVolatile (n : Nat) : Bool := n == 3 || n == 4 || n == 6 || n == 7 || n == 8

/-- A read the spec leaves unspecified returns a free value (log 10). -/
def State.readFree (s : State) (w : Nat) : State :=
  { s with rdata := ((Config.freeRead s.free).setWidth w).setWidth 35, free := s.free + 1 }

/-- A host read of a CSR. -/
def State.readCsr (s : State) (n : Nat) : State :=
  if s.busy && csrVolatile n then s.readFree (if n = 3 ∨ n = 7 then 32 else 35) else { s with rdata := s.csrValue n }

/-- A host read of an operand register (10_state R21, 93 U8). -/
def State.readOperand (s : State) (i : Fin 9) : State :=
  if s.busy then s.readFree 32 else { s with rdata := (s.readX i).setWidth 35 }

/-- A host write of an operand register: ignored while `BUSY = 1` (10_state R21, 48_commands R372). -/
def State.writeOperand (s : State) (i : Fin 9) (v : Word) : State := if s.busy then s else s.setX i v

/-- Whether an address is handed over to the running command: it is in one of the regions the command uses
(20_memory R75, 48_commands R372, R374; log 11). -/
def State.handedOver (s : State) (a : Nat) : Bool :=
  s.busy && (decide (s.inS a) || s.engineUses == .st && decide (s.inT a))

/-- A host write of a byte. -/
def State.writeByte (s : State) (a : Word) (v : Byte) : Result :=
  if !rangeOk s.cfg a.toNat 1 then .fault .noSuchAddress
  else if s.handedOver a.toNat then .refused .hostTouchesRegion
  else .next { s with mem := s.mem.write a.toNat v }

/-- A host read of a byte. -/
def State.readByte (s : State) (a : Word) : Result :=
  if !rangeOk s.cfg a.toNat 1 then .fault .noSuchAddress
  else if s.handedOver a.toNat then .refused .hostTouchesRegion
  else .next { s with rdata := (s.mem.read a.toNat).setWidth 35 }

/-- The working memories after reset: unspecified, but every tree slot's `VALID` is 0 (70_reset R440; log 8). -/
def resetWork (w : Work) : Work :=
  { w with ll := { w.ll with valid := false }, d := { w.d with valid := false }, cl := { w.cl with valid := false } }

/-- The reset event (10_state R50, 70_reset R440, R441): every register takes its reset value, the working memories and
slot `U`'s fields are unspecified (log 8), `MEM` is not touched; when it ends a running command that has an output region,
that region is as after a fault (log 28). The parameters and the host's side stay. -/
def State.resetEvent (s : State) : State :=
  let s' := if s.busy && s.engineUses == .st then s.settleOutput else s
  { State.reset with
    cfg := s'.cfg, mem := s'.mem, saved := s'.saved, work := resetWork (Config.freeWork s'.free)
    u := { Config.freeTree s'.free with valid := false }
    host := s'.host, rdata := s'.rdata, free := s'.free + 1 }

/-- One host access. `wait` and `tick` are no accesses; `step` handles them while `BUSY = 1`. -/
def hostAct (a : HostAct) (s : State) : Result :=
  match a with
  | .writeX i v => .next (s.writeOperand i v)
  | .readX i => .next (s.readOperand i)
  | .writeCsr n v => s.writeCsr n v
  | .readCsr n => .next (s.readCsr n)
  | .writeMem a v => s.writeByte a v
  | .readMem a => s.readByte a
  | .reset => .next s.resetEvent
  | .wait => .next s
  | .tick => .next s

end Sys2Proof.Machine
end

