-- ==== Sys2Proof/Machine/Step.lean ====
section
/-! DEFINITION. One step of the machine: a host access, or one stream element of the running command. -/

namespace Sys2Proof.Machine

/-- The engine's step: fetch the next element of the running command and run it. -/
def engineStep (s : State) : Result :=
  match fetch s with
  | .idle => .next s
  | .absent => .fault .noSuchAddress
  | .run i bp => exec i (s.advance bp)
  | .stop e => .next (s.stopFetch e)

/-- One step (log 2, 3). The host's next access comes first; `wait` lets the engine run until `BUSY = 0`, `tick` lets it
run one element; with no access pending the engine runs, and an idle block stays as it is. -/
def step (s : State) : Host.Outcome State Fault Refusal :=
  match s.host with
  | [] => engineStep s
  | .wait :: rest => if s.busy then engineStep s else .next { s with host := rest }
  | .tick :: rest => engineStep { s with host := rest }
  | a :: rest => hostAct a { s with host := rest }

/-- `s` with a word of the opcode table placed where `step` fetches its next instruction (log 2, 20). -/
def State.withFetchWord (s : State) (nbits w : Nat) : State := s.placeWord nbits w

end Sys2Proof.Machine
end

