-- ==== Sys2Proof/Safety.lean ====
section
/-! DEFINITION. What claims are stated in: the machine's invariant, readiness for a command, an address that exists,
a bit sequence lying in a region, canonical codes and decision nodes, filters and blocks as the spec writes them, a tree
made by the tree builder, and the split of the instruction set into commands
and stream elements. -/

namespace Sys2Proof.Machine

/-- `MEM_VALID` (20_memory R68): the address is inside `2^ADDR_W` and in none of the holes. -/
def memValid (c : Config) (a : Nat) : Prop := a < addrSpace ∧ ∀ h ∈ c.memHoles, ¬ (h.1 ≤ a ∧ a < h.1 + h.2)

/-- What the running command relies on: its regions were found legal when it started (20_memory R69), `UNFILTER`'s
geometry passed its checks (46_filter R321), and the output cursor is within the capacity (10_state R24). -/
def State.engineOk (s : State) : Prop :=
  match s.engine with
  | .idle => True
  | .chunk => s.regionsOk .s = true
  | .unfilter y =>
    s.regionsOk .st = true ∧ y < s.arg1.toNat ∧ s.slen.toNat = s.filtSize ∧ s.rawSize ≤ s.dcap.toNat
  | .inflate _ _ => s.regionsOk .st = true ∧ s.pos.toNat ≤ s.dcap.toNat

/-- The invariant of the machine. -/
structure State.Inv (s : State) : Prop where
  /-- memory keeps its canonical form -/
  mem : s.mem.wf = true
  saved : s.saved.wf = true
  /-- reserved bits of `CTRL` are 0 (10_state R34) -/
  ctrl : s.ctrl &&& ctrlMask = s.ctrl
  /-- `TREEV` says that slot `U` holds a valid tree (10_state R30) -/
  treev : s.treev = s.u.valid
  /-- `ERR` is 0 or a code of 60_exceptions R401, and `ERRINFO` is 0 with it (10_state R31, R32) -/
  err : s.err = 0 ∨ ∃ c, s.err = errCode c
  errInfo : s.err = 0 → s.errInfo = 0
  /-- a command runs only with no fault pending, and `DONE` is then 0 (48_commands R370, R373) -/
  running : s.busy = true → s.err = 0 ∧ s.done = false
  engine : s.engineOk

/-- The block will start the next command it is given (48_commands R370, R373). -/
def State.ready (s : State) : Prop := s.busy = false ∧ s.err = 0

/-- The commands other than `NOP` and `CLRERR`, with the regions they use (48_commands R374). -/
def commandUses : Instr → Option Uses
  | .inflate | .zlibd | .deflate | .zlibc | .unfilter | .filter | .hbl | .hbf => some .st
  | .crc32 | .crcchk | .adler32 | .hdec => some .s
  | _ => none

/-- The filtered scanlines with a legal type byte (30_encoding R105). -/
def isScanline : Instr → Bool
  | .ftNone | .ftSub | .ftUp | .ftAverage | .ftPaeth => true
  | _ => false

/-- The instructions that use no output region: `NOP`, `CLRERR`, the commands that use `S` only and the chunk record
of `CRCCHK` (48_commands R374). -/
def usesInputOnly : Instr → Bool
  | .nop | .clrerr | .crc32 | .crcchk | .adler32 | .hdec | .chunk _ _ _ => true
  | _ => false

/-- The 14 commands (30_encoding R92). -/
def isCommand (i : Instr) : Bool :=
  match i with
  | .nop | .clrerr => true
  | i => (commandUses i).isSome

/-- A distance symbol that stands for distance `d` (43_inflate R239, R240): the two checks in their order, then the
copy of the match whose length was decoded before it. -/
def distanceMeans (i : Instr) (d : Nat) (s : State) : Prop :=
  (d ≤ s.pos.toNat → s.pos.toNat + s.pendingLength ≤ s.dcap.toNat →
    exec i s = .next ((State.copyMatch d s.pendingLength s).toPhase (.symbols s.fixedTrees))) ∧
  (s.pos.toNat < d → exec i s = .next (s.raise .distanceTooFar s.bp.toNat)) ∧
  (d ≤ s.pos.toNat → s.dcap.toNat < s.pos.toNat + s.pendingLength →
    exec i s = .next (s.raise .outputOverflow s.pos.toNat))

/-- A state right after the start actions of a command that is run (48_commands R371): only `DONE`, `DLEN` and the
cursors have changed, and the model has noted the memory the command starts from. -/
def State.started (s : State) : State :=
  { s with done := false, dlen := 0, bp := 0, pos := 0, wbp := 0, saved := s.mem }

/-! ## Filters, as 46_filter writes them -/

/-- `Pred` of filter type `t` from the neighbours left, above and upper left (46_filter R324, R325). -/
def predictor (t : Nat) (a b c : Int) : Int :=
  if t = 0 then 0
  else if t = 1 then a
  else if t = 2 then b
  else if t = 3 then (a + b) / 2
  else if |a + b - c - a| ≤ |a + b - c - b| ∧ |a + b - c - a| ≤ |a + b - c - c| then a
  else if |a + b - c - b| ≤ |a + b - c - c| then b
  else c

/-- The prediction of byte `i` from the unfiltered line and the one above it (46_filter R323): what lies left of the
first pixel counts as 0, and so does a line above that does not exist. -/
def predicted (t width : Nat) (line : List Byte) (prev : Option (List Byte)) (i : Nat) : Int :=
  let left (l : List Byte) : Int := if width ≤ i then ((l.getD (i - width) 0).toNat : Int) else 0
  predictor t (left line) ((((prev.getD []).getD i 0).toNat : Nat) : Int) (left (prev.getD []))

/-- Type `t` is the smallest of the five with the smallest cost (46_filter R339). -/
def firstMinimum {α : Type} [LE α] [LT α] (cost : Nat → α) (t : Nat) : Prop :=
  t ≤ 4 ∧ ∀ k, k ≤ 4 → cost t ≤ cost k ∧ (k < t → cost t < cost k)

/-! ## Trees, as 41_huffman describes them -/

/-- The canonical code of symbol `s` in closed form (41_huffman R152, R153): every shorter code takes `2^(l - k)` codes
of length `l`, then the symbols of length `l` follow in their order; the low `l` bits are kept. -/
def canonicalCode (lengths : List Nat) (s : Nat) : Nat :=
  let l := lengths.getD s 0
  (((lengths.filter fun k => k ≠ 0 ∧ k < l).map fun k => 2 ^ (l - k)).sum + (lengths.take s).count l) % 2 ^ l

/-- That code as bits, most significant first. -/
def canonicalBits (lengths : List Nat) (s : Nat) : List Bool := codeBits (lengths.getD s 0) (canonicalCode lengths s)

/-- The Kraft sum (41_huffman R153) in units of `2^(-maxBits)`. -/
def kraftSum (lengths : List Nat) (maxBits : Nat) : Nat :=
  ((lengths.filter (· ≠ 0)).map fun l => 2 ^ (maxBits - l)).sum

/-- The decision nodes that the codes of the first `k` symbols need, in the order they come up: the distinct proper
prefixes of the codes (41_huffman R156, R157). -/
def decisionNodes (lengths : List Nat) (k : Nat) : List (List Bool) :=
  ((List.range k).flatMap fun s => (List.range (lengths.getD s 0)).map fun j => (canonicalBits lengths s).take j).foldl
    (fun ps p => if p ∈ ps then ps else ps ++ [p]) []

/-- Symbol `s` is where the insertion fails, if no earlier one is (41_huffman R156): (a) too many decision nodes, (b) an
earlier code is a prefix of this one, (c) or this one of an earlier one. -/
def cannotInsert (lengths : List Nat) (s : Nat) : Prop :=
  lengths.getD s 0 ≠ 0 ∧
    (lengths.length - 1 < (decisionNodes lengths (s + 1)).length ∨
      ∃ r, r < s ∧ lengths.getD r 0 ≠ 0 ∧
        (canonicalBits lengths r <+: canonicalBits lengths s ∨ canonicalBits lengths s <+: canonicalBits lengths r))

/-! ## Blocks, as 44_deflate writes them -/

/-- What a token is sent as in a tree pair (44_deflate R264). -/
def symbolBits (tll td : Tree) : Sym → List Bool
  | .lit s => tll.codeOf s
  | .copy s lextra d dextra =>
    tll.codeOf s ++ fieldBits (lengthExtra.getD (s - 257) 0) lextra ++ td.codeOf d ++
      fieldBits (distExtra.getD d 0) dextra

/-- The literal/length symbol of an entry (44_deflate R263). -/
def symLL : Sym → Nat
  | .lit s => s
  | .copy s _ _ _ => s

/-- The distance symbol of an entry, if it is a match. -/
def symD : Sym → Option Nat
  | .lit _ => none
  | .copy _ _ d _ => some d

/-- The lengths a decoder makes of coded lengths, after `lens` (43_inflate R231, R232). -/
def expandRle : List (Nat × Nat) → List Nat → List Nat
  | [], lens => lens
  | (c, v) :: rest, lens =>
    expandRle rest (lens ++
      if c = 16 then List.replicate (3 + v) (lens.getLast?.getD 0)
      else if c = 17 then List.replicate (3 + v) 0
      else if c = 18 then List.replicate (11 + v) 0
      else [c])

/-- The working memories as a compression pass has them before its block `n` (44_deflate R260): the hash index reset
at the start and carried from block to block. -/
def beforeBlock (c : Config) (ctr call : Nat) (data : List Byte) (w : Work) (n : Nat) : Work :=
  (List.range n).foldl
    (fun w bi => blockTokens c ctr (call + bi) data (bi * c.blockSize)
      (min data.length (bi * c.blockSize + c.blockSize)) w)
    { w with hash := freshHash }

/-- The literal/length symbol an instruction is (30_encoding R97). -/
def litLenSymbol : Instr → Option Nat
  | .lit b => some b.toNat
  | .endOfBlock => some 256
  | .len257 => some 257
  | .len258 => some 258
  | .len259 => some 259
  | .len260 => some 260
  | .len261 => some 261
  | .len262 => some 262
  | .len263 => some 263
  | .len264 => some 264
  | .len265 _ => some 265
  | .len266 _ => some 266
  | .len267 _ => some 267
  | .len268 _ => some 268
  | .len269 _ => some 269
  | .len270 _ => some 270
  | .len271 _ => some 271
  | .len272 _ => some 272
  | .len273 _ => some 273
  | .len274 _ => some 274
  | .len275 _ => some 275
  | .len276 _ => some 276
  | .len277 _ => some 277
  | .len278 _ => some 278
  | .len279 _ => some 279
  | .len280 _ => some 280
  | .len281 _ => some 281
  | .len282 _ => some 282
  | .len283 _ => some 283
  | .len284 _ => some 284
  | .len285 => some 285
  | .llReserved286 => some 286
  | .llReserved287 => some 287
  | _ => none

/-- The distance symbol an instruction is (30_encoding R98). -/
def distSymbol : Instr → Option Nat
  | .dist0 => some 0
  | .dist1 => some 1
  | .dist2 => some 2
  | .dist3 => some 3
  | .dist4 _ => some 4
  | .dist5 _ => some 5
  | .dist6 _ => some 6
  | .dist7 _ => some 7
  | .dist8 _ => some 8
  | .dist9 _ => some 9
  | .dist10 _ => some 10
  | .dist11 _ => some 11
  | .dist12 _ => some 12
  | .dist13 _ => some 13
  | .dist14 _ => some 14
  | .dist15 _ => some 15
  | .dist16 _ => some 16
  | .dist17 _ => some 17
  | .dist18 _ => some 18
  | .dist19 _ => some 19
  | .dist20 _ => some 20
  | .dist21 _ => some 21
  | .dist22 _ => some 22
  | .dist23 _ => some 23
  | .dist24 _ => some 24
  | .dist25 _ => some 25
  | .dist26 _ => some 26
  | .dist27 _ => some 27
  | .dist28 _ => some 28
  | .dist29 _ => some 29
  | .dReserved30 => some 30
  | .dReserved31 => some 31
  | _ => none

/-- The code-length symbol an instruction is (30_encoding R102). -/
def codeLenSymbol : Instr → Option Nat
  | .clLen len => some len.toNat
  | .cl16 _ => some 16
  | .cl17 _ => some 17
  | .cl18 _ => some 18
  | _ => none

end Sys2Proof.Machine

namespace Sys2Proof

/-- The bits of a sequence stand in a region from bit `k` on. -/
def Source.holds (src : Source) (k : Nat) (bits : List Bool) : Prop :=
  k + bits.length ≤ src.nbits ∧ ∀ j, j < bits.length → src.bit (k + j) = bits.getD j false

/-- A tree slot after a successful `BuildFromLengths` (41_huffman R150). -/
def Tree.built (t : Tree) : Prop := ∃ lengths maxBits, Machine.buildFromLengths lengths maxBits = .ok t

/-- Symbol `s` has a code in `t` (10_state R37). -/
def Tree.coded (t : Tree) (s : Nat) : Prop := t.len.getD s 0 ≠ 0

end Sys2Proof
end

