-- ==== Sys2Proof/Certificates/Slice0/Obligations.lean ====
section
/-! DEFINITION. The statements for the provers, in the order of the spec's files. Where a premise asks for a canonical
memory (`wf`) it is because a read after a write is only defined on one; `ResetInv` and `StepKeepsInv` say that every
run has one. -/

open Sys2Proof Sys2Proof.Machine

/-! ## Reset and the machine as a whole -/

/-- 10_state R50: what the spec gives a value after reset. -/
def Obligations.ResetState : Prop :=
  (∀ i, State.reset.readX i = 0) ∧ State.reset.bp = 0 ∧ State.reset.pos = 0 ∧ State.reset.wbp = 0 ∧
    State.reset.csrValue 0 = 0x41374401 ∧ State.reset.status = 0 ∧ State.reset.err = 0 ∧ State.reset.errInfo = 0 ∧
    State.reset.ctrl = 0x00000004 ∧ State.reset.u.valid = false ∧ State.reset.work.ll.valid = false ∧
    State.reset.work.d.valid = false ∧ State.reset.work.cl.valid = false ∧ State.reset.busy = false

/-- The invariant of the machine holds after reset. -/
def Obligations.ResetInv : Prop := State.reset.Inv

/-- 70_reset R440, R441: the reset event, whenever it comes. Only bytes of the output region of a command it
interrupts can change; `CRCCHK` has none (48_commands R374). -/
def Obligations.ResetEventResets : Prop :=
  ∀ s : State, ∃ t, hostAct .reset s = .next t ∧
    (∀ i, t.readX i = 0) ∧ t.bp = 0 ∧ t.pos = 0 ∧ t.wbp = 0 ∧ t.status = 0 ∧ t.err = 0 ∧ t.errInfo = 0 ∧
    t.ctrl = 0x00000004 ∧ t.u.valid = false ∧ t.work.ll.valid = false ∧ t.work.d.valid = false ∧
    t.work.cl.valid = false ∧ t.busy = false ∧
    (s.busy = false ∨ s.engine = .chunk → t.mem = s.mem) ∧
    (s.mem.wf = true → ∀ a, (¬ s.inT a → t.mem.read a = s.mem.read a) ∧
      (t.mem.read a = s.mem.read a ∨ t.mem.read a = s.saved.read a))

/-- Every step keeps the invariant, in every state that has it: canonical memory, reserved `CTRL` bits 0 (R34),
`TREEV` true to slot `U` (R30), `ERR` 0 or a code with `ERRINFO` 0 beside 0 (R31, R32), a command running only with no
fault pending (R373) and inside legal regions (R69), the output cursor within the capacity (R24). -/
def Obligations.StepKeepsInv : Prop := ∀ s t : State, s.Inv → step s = .next t → t.Inv

/-- 60_exceptions R408: the running command never touches memory that does not exist. -/
def Obligations.EngineNeverFaults : Prop := ∀ s : State, s.Inv → ∃ t, engineStep s = .next t

/-- 20_memory R70, 60_exceptions R404: no instruction, faulting or not, changes a byte outside the output region; one
that uses `S` only (48_commands R374) changes no byte at all, nor does a running `CRCCHK`, whatever its element is. -/
def Obligations.OutsideOutputUnchanged : Prop :=
  (∀ (i : Instr) (s t : State), s.mem.wf = true → exec i s = .next t →
    ∀ a, ¬ s.inT a → t.mem.read a = s.mem.read a) ∧
  (∀ (i : Instr) (s t : State), usesInputOnly i = true → exec i s = .next t → t.mem = s.mem) ∧
  (∀ s t : State, s.engine = .chunk → engineStep s = .next t → t.mem = s.mem)

/-- 10_state R21: no instruction changes an operand register that the host writes; nor `CTRL`, the parameters, or the
host's side. -/
def Obligations.OperandsKept : Prop :=
  ∀ (i : Instr) (s t : State), exec i s = .next t →
    t.src = s.src ∧ t.slen = s.slen ∧ t.dst = s.dst ∧ t.dcap = s.dcap ∧ t.arg0 = s.arg0 ∧ t.arg1 = s.arg1 ∧
    t.arg2 = s.arg2 ∧ t.ctrl = s.ctrl ∧ t.cfg = s.cfg ∧ t.host = s.host ∧ t.rdata = s.rdata

/-- 10_state R31: the first fault's code and info stay until `CLRERR`. -/
def Obligations.FirstFaultKept : Prop :=
  ∀ (i : Instr) (s t : State), i ≠ .clrerr → s.err ≠ 0 → exec i s = .next t → t.err = s.err ∧ t.errInfo = s.errInfo

/-- 48_commands R388: no instruction but `HBL` and `HBF` touches slot `U` or `TREEV`. -/
def Obligations.UserSlotKept : Prop :=
  ∀ (i : Instr) (s t : State), i ≠ .hbl → i ≠ .hbf → exec i s = .next t → t.u = s.u ∧ t.treev = s.treev

/-- Every command answers a next state, in every state; every stream element does when its regions are legal. -/
def Obligations.EveryInstructionAnswers : Prop :=
  (∀ (i : Instr) (s : State), isCommand i = true → ∃ t, exec i s = .next t) ∧
  (∀ (i : Instr) (s : State), isCommand i = false → s.regionsOk .st = true →
    (isScanline i = true → s.scanlineOk = true) → ∃ t, exec i s = .next t)

/-! ## The life of a command -/

/-- 48_commands R383. -/
def Obligations.NopCompletes : Prop :=
  ∀ s : State, s.busy = false → exec .nop s = .next { s with done := true }

/-- 48_commands R384. -/
def Obligations.ClrerrCompletes : Prop :=
  ∀ s : State, s.busy = false → exec .clrerr s = .next { s with err := 0, errInfo := 0, done := true }

/-- 48_commands R373: while `ERR` is not 0 a command other than `NOP` and `CLRERR` only ends, and an illegal word does
too. -/
def Obligations.RefusedWhileErr : Prop :=
  (∀ (i : Instr) (s : State), (commandUses i).isSome = true → s.busy = false → s.err ≠ 0 →
    exec i s = .next { s with done := true }) ∧
  (∀ (w : Word) (s : State), decodeCommand w = none → s.busy = false → s.err ≠ 0 →
    s.writeCsr 1 w = .next { s with done := true })

/-- 10_state R29: a write of a command word starts the command it encodes while `BUSY = 0` and is ignored while
`BUSY = 1`; `CMD` reads 0. -/
def Obligations.CommandWriteStarts : Prop :=
  (∀ (w : Word) (i : Instr) (s : State), s.busy = false → decodeCommand w = some i → s.writeCsr 1 w = exec i s) ∧
  (∀ (w : Word) (s : State), s.busy = true → s.writeCsr 1 w = .next s) ∧ (∀ s : State, (s.readCsr 1).rdata = 0)

/-- 30_encoding R108, 48_commands R370: a word that is no command raises `IllegalCommand` with itself as info; `DLEN` is
0 after it as after every fault but `AdlerMismatch` (log 32, the model's reading of 60_exceptions R404). -/
def Obligations.IllegalWordFaults : Prop :=
  (∀ w : Word, decodeCommand w = none ↔ w ∉ [0x00, 0x01, 0x10, 0x11, 0x12, 0x13, 0x20, 0x21, 0x30, 0x31, 0x32, 0x40,
    0x41, 0x42]) ∧
  (∀ (w : Word) (s : State), decodeCommand w = none → s.ready →
    s.writeCsr 1 w = .next { s with err := 201, errInfo := w.setWidth 35, done := true, dlen := 0 })

/-- 20_memory R69: what makes regions legal, for commands that use both and for commands that use `S` only, and that
a command whose regions are not legal ends in `RegionError` with nothing read or written. -/
def Obligations.RegionCheck : Prop :=
  (∀ s : State, s.regionsOk .s = true ↔
    s.src.toNat + s.slen.toNat ≤ addrSpace ∧ ∀ a, s.inS a → memValid s.cfg a) ∧
  (∀ s : State, s.regionsOk .st = true ↔
    s.src.toNat + s.slen.toNat ≤ addrSpace ∧ s.dst.toNat + s.dcap.toNat ≤ addrSpace ∧
      (∀ a, ¬ (s.inS a ∧ s.inT a)) ∧ ∀ a, s.inS a ∨ s.inT a → memValid s.cfg a) ∧
  (∀ (i : Instr) (u : Uses) (s : State), commandUses i = some u → s.ready → s.regionsOk u = false →
    ∃ t, exec i s = .next t ∧ t.err = 202 ∧ t.errInfo = 0 ∧ t.busy = false ∧ t.done = true ∧ t.dlen = 0 ∧
      t.res0 = s.res0 ∧ t.bp = 0 ∧ t.pos = 0 ∧ t.wbp = 0 ∧
      (s.mem.wf = true → ∀ a, t.mem.read a = s.mem.read a))

/-! ## Faults -/

/-- 60_exceptions R401: the table's numbers. -/
def Obligations.FaultCodes : Prop :=
  errCode .endOfInput = 10 ∧ errCode .huffEmptySlot = 11 ∧ errCode .repeatOverflow = 13 ∧
    errCode .invalidLitLenSymbol = 16 ∧ errCode .invalidDistanceSymbol = 18 ∧ errCode .invalidBlockType = 20 ∧
    errCode .storedLenMismatch = 21 ∧ errCode .zlibFcheck = 24 ∧ errCode .zlibMethod = 25 ∧
    errCode .zlibPresetDict = 26 ∧ errCode .invalidFilterType = 36 ∧ errCode .distanceTooFar = 52 ∧
    errCode .zlibTooSmall = 53 ∧ errCode .repeatWithoutPrevious = 54 ∧ errCode .huffTreeMalformed = 55 ∧
    errCode .crcMismatch = 57 ∧ errCode .adlerMismatch = 58 ∧ errCode .noEndCode = 64 ∧
    errCode .outputOverflow = 83 ∧ errCode .sizeOverflow = 92 ∧ errCode .badArg = 200 ∧
    errCode .illegalCommand = 201 ∧ errCode .regionError = 202 ∧ errCode .encodeZeroLength = 203 ∧
    errCode .treeNotValid = 204

/-- 60_exceptions R402: what a raise records, and that no other register changes; in `HBL` and `HBF` the user slot is
invalid too, and so is the slot of a build that failed (41_huffman R150). A raise of `IllegalCommand` (`recordFault`
alone), of `AdlerMismatch` and in a command that uses `S` only (`raiseInput`) record the same and leave memory alone. -/
def Obligations.RaiseRecords : Prop :=
  (∀ (s : State) (c : Cause) (info : Nat), s.recordFault c info =
    { s with
      err := if s.err = 0 then errCode c else s.err
      errInfo := if s.err = 0 then BitVec.ofNat 35 info else s.errInfo
      engine := .idle, done := true }) ∧
  (∀ (s : State) (c : Cause) (info : Nat), s.raiseInput c info =
    { s with
      err := if s.err = 0 then errCode c else s.err
      errInfo := if s.err = 0 then BitVec.ofNat 35 info else s.errInfo
      engine := .idle, done := true, work := (s.raiseInput c info).work, free := (s.raiseInput c info).free }) ∧
  (∀ s : State, s.raiseAdler = s.raiseInput .adlerMismatch s.bp.toNat) ∧
  (∀ (s : State) (f : Failure),
    s.raiseFailure f = { s.raise f.cause f.info with work := (s.raiseFailure f).work } ∧
    (f.slot = some .ll → (s.raiseFailure f).work.ll.valid = false) ∧
    (f.slot = some .d → (s.raiseFailure f).work.d.valid = false) ∧
    (f.slot = some .cl → (s.raiseFailure f).work.cl.valid = false)) ∧
  (∀ (s : State) (c : Cause) (info : Nat), s.raise c info =
    { s with
      err := if s.err = 0 then errCode c else s.err
      errInfo := if s.err = 0 then BitVec.ofNat 35 info else s.errInfo
      engine := .idle, done := true
      mem := (s.raise c info).mem, work := (s.raise c info).work, free := (s.raise c info).free }) ∧
  (∀ (s : State) (c : Cause) (info : Nat), s.raiseUser c info =
    { s with
      err := if s.err = 0 then errCode c else s.err
      errInfo := if s.err = 0 then BitVec.ofNat 35 info else s.errInfo
      engine := .idle, done := true, treev := false, u := (s.raiseUser c info).u
      mem := (s.raiseUser c info).mem, work := (s.raiseUser c info).work, free := (s.raiseUser c info).free } ∧
    (s.raiseUser c info).u.valid = false)

/-- 60_exceptions R404: after a raise each byte of the output region holds its value from before the command or the
value the command wrote, and no other byte changes. -/
def Obligations.RaiseMemory : Prop :=
  ∀ (s : State) (c : Cause) (info a : Nat), s.mem.wf = true →
    (¬ s.inT a → (s.raise c info).mem.read a = s.mem.read a) ∧
    ((s.raise c info).mem.read a = s.mem.read a ∨ (s.raise c info).mem.read a = s.saved.read a)

/-! ## Bits and trees -/

/-- 40_bitio R139: bits written at a position stand there; a field written and read back is itself; the code of a
coded symbol of any tree the builder accepts decodes to the symbol and takes exactly its length. -/
def Obligations.WrittenBitsReadBack : Prop :=
  (∀ before bits after : List Bool,
    (Source.ofBytes (packBits (before ++ bits ++ after))).holds before.length bits) ∧
  (∀ (src : Source) (n v k : Nat), v < 2 ^ n → src.holds k (fieldBits n v) → readBits src n k = .ok (v, k + n)) ∧
  (∀ (t : Tree) (p : EmptySlot) (src : Source) (s k : Nat), t.built → t.coded s → src.holds k (t.codeOf s) →
    decodeSymbol p src t k = .ok (s, k + t.len.getD s 0))

/-- 48_commands R386, 20_memory R64: the argument checks of `HBL` in their order, a length set that builds no tree,
and a successful build; the image is written when `DCAP` is not 0; what stands where in the image. 41_huffman R152 to
R156: the tree that a length set builds: its codes are the canonical ones (`canonicalCode`, in closed form), and its
table has, node by node, the symbol, the next node or nothing; and the symbol at which a build fails (`cannotInsert`).
Two parts are what the spec itself derives from these rules: the order of the codes (R153) and which length sets build
(R157). -/
def Obligations.HblBuilds : Prop :=
  (∀ s : State, s.ready → s.regionsOk .st = true →
    (s.slen.toNat < 1 ∨ 288 < s.slen.toNat → exec .hbl s = .next (s.started.raiseUser .badArg 1)) ∧
    (1 ≤ s.slen.toNat → s.slen.toNat ≤ 288 →
      (s.arg0.toNat < 1 ∨ 15 < s.arg0.toNat → exec .hbl s = .next (s.started.raiseUser .badArg 5)) ∧
      (1 ≤ s.arg0.toNat → s.arg0.toNat ≤ 15 →
        ((∃ b ∈ s.input, s.arg0.toNat < b.toNat) → exec .hbl s = .next (s.started.raiseUser .badArg 0)) ∧
        ((∀ b ∈ s.input, b.toNat ≤ s.arg0.toNat) →
          (s.dcap ≠ 0 → s.dcap.toNat < 6 * s.slen.toNat →
            exec .hbl s = .next (s.started.raiseUser .outputOverflow 0)) ∧
          (s.dcap = 0 ∨ 6 * s.slen.toNat ≤ s.dcap.toNat → ∀ e,
            buildFromLengths (s.input.map BitVec.toNat) s.arg0.toNat = .error e →
            exec .hbl s = .next (s.started.raiseUser .huffTreeMalformed e)))))) ∧
  (∀ (s : State) (t : Tree), s.ready → s.regionsOk .st = true → s.mem.wf = true →
    1 ≤ s.slen.toNat → s.slen.toNat ≤ 288 → 1 ≤ s.arg0.toNat → s.arg0.toNat ≤ 15 →
    (∀ b ∈ s.input, b.toNat ≤ s.arg0.toNat) → (s.dcap = 0 ∨ 6 * s.slen.toNat ≤ s.dcap.toNat) →
    buildFromLengths (s.input.map BitVec.toNat) s.arg0.toNat = .ok t →
    ∃ m, exec .hbl s = .next { s.started with
        done := true, u := t, treev := true, res0 := s.slen, mem := m
        dlen := if s.dcap = 0 then 0 else BitVec.ofNat 32 (6 * s.slen.toNat) } ∧
      (treeImage t).length = 6 * s.slen.toNat ∧
      ∀ a, m.read a = if s.dcap ≠ 0 ∧ s.dst.toNat ≤ a ∧ a < s.dst.toNat + 6 * s.slen.toNat
        then (treeImage t).getD (a - s.dst.toNat) 0 else s.mem.read a) ∧
  (∀ t : Tree, t.built → (treeImage t).length = 6 * t.n ∧
    (∀ k, k < t.n → (treeImage t).getD (2 * k) 0 = BitVec.ofNat 8 (t.code.getD k 0) ∧
      (treeImage t).getD (2 * k + 1) 0 = BitVec.ofNat 8 (t.code.getD k 0 / 256)) ∧
    (∀ k, k < 2 * t.n →
      (treeImage t).getD (2 * t.n + 2 * k) 0 = BitVec.ofNat 8 ((t.tab.getD k none).getD 0xFFFF) ∧
      (treeImage t).getD (2 * t.n + 2 * k + 1) 0 = BitVec.ofNat 8 ((t.tab.getD k none).getD 0xFFFF / 256))) ∧
  (∀ (lengths : List Nat) (maxBits : Nat), (∀ l ∈ lengths, l ≤ maxBits) →
    (∀ e, buildFromLengths lengths maxBits = .error e ↔
      e < lengths.length ∧ cannotInsert lengths e ∧ ∀ r, r < e → ¬ cannotInsert lengths r) ∧
    ((∃ t, buildFromLengths lengths maxBits = .ok t) ↔
      kraftSum lengths maxBits ≤ 2 ^ maxBits ∧
        (decisionNodes lengths lengths.length).length ≤ lengths.length - 1)) ∧
  (∀ (lengths : List Nat) (maxBits : Nat) (t : Tree), (∀ l ∈ lengths, l ≤ maxBits) →
    buildFromLengths lengths maxBits = .ok t →
    let nodes := decisionNodes lengths lengths.length
    t.n = lengths.length ∧ t.maxBits = maxBits ∧ t.len = lengths ∧ t.valid = true ∧
      t.code = (List.range lengths.length).map (canonicalCode lengths) ∧ t.tab.length = 2 * lengths.length ∧
      (∀ s r, s < t.n → r < t.n → t.coded s → t.coded r →
        t.len.getD s 0 < t.len.getD r 0 ∨ t.len.getD s 0 = t.len.getD r 0 ∧ s < r →
        t.code.getD s 0 < t.code.getD r 0 / 2 ^ (t.len.getD r 0 - t.len.getD s 0)) ∧
      (∀ (i : Nat) (p : List Bool) (x : Bool), nodes[i]? = some p →
        (∀ s, s < t.n → canonicalBits lengths s = p ++ [x] → t.entry (2 * i + x.toNat) = some s) ∧
        (∀ j, nodes[j]? = some (p ++ [x]) → t.entry (2 * i + x.toNat) = some (t.n + j)) ∧
        ((∀ s, s < t.n → canonicalBits lengths s ≠ p ++ [x]) → p ++ [x] ∉ nodes →
          t.entry (2 * i + x.toNat) = none)) ∧
      ∀ k, 2 * nodes.length ≤ k → t.entry k = none)

/-- 48_commands R387: the argument checks of `HBF` in their order, and a successful build: the lengths, then the tree
image. 41_huffman R171, R173, 60_exceptions R407: the trimmed symbol count; two one-bit codes when fewer than two
symbols are present; past the checks the build never fails. With two or more present, what the spec itself derives
from R174 to R177 (R178): exactly the present symbols are coded, within the limit, with Kraft sum 1, at the least
weighted length of all lengths within the limit whose Kraft sum is at most 1 (which every prefix code has). -/
def Obligations.HbfBuilds : Prop :=
  (∀ s : State, s.ready → s.regionsOk .st = true →
    (288 < s.arg2.toNat → exec .hbf s = .next (s.started.raiseUser .badArg 7)) ∧
    (s.arg2.toNat ≤ 288 →
      (s.arg1.toNat < 2 ∨ s.arg2.toNat < s.arg1.toNat → exec .hbf s = .next (s.started.raiseUser .badArg 6)) ∧
      (2 ≤ s.arg1.toNat → s.arg1.toNat ≤ s.arg2.toNat →
        (s.arg0.toNat < 1 ∨ 15 < s.arg0.toNat → exec .hbf s = .next (s.started.raiseUser .badArg 5)) ∧
        (1 ≤ s.arg0.toNat → s.arg0.toNat ≤ 15 →
          (s.slen.toNat ≠ 4 * s.arg2.toNat → exec .hbf s = .next (s.started.raiseUser .badArg 1)) ∧
          (s.slen.toNat = 4 * s.arg2.toNat →
            (2 ^ s.arg0.toNat < trimCodes (s.freqInput s.arg2.toNat) s.arg1.toNat s.arg2.toNat →
              exec .hbf s = .next (s.started.raiseUser .badArg 5)) ∧
            (trimCodes (s.freqInput s.arg2.toNat) s.arg1.toNat s.arg2.toNat ≤ 2 ^ s.arg0.toNat → s.dcap ≠ 0 →
              s.dcap.toNat < 7 * trimCodes (s.freqInput s.arg2.toNat) s.arg1.toNat s.arg2.toNat →
              exec .hbf s = .next (s.started.raiseUser .outputOverflow 0))))))) ∧
  (∀ (s : State) (t : Tree) (b : Bpm), s.ready → s.regionsOk .st = true → s.mem.wf = true →
    s.arg2.toNat ≤ 288 → 2 ≤ s.arg1.toNat → s.arg1.toNat ≤ s.arg2.toNat → 1 ≤ s.arg0.toNat → s.arg0.toNat ≤ 15 →
    s.slen.toNat = 4 * s.arg2.toNat →
    trimCodes (s.freqInput s.arg2.toNat) s.arg1.toNat s.arg2.toNat ≤ 2 ^ s.arg0.toNat →
    (s.dcap = 0 ∨ 7 * trimCodes (s.freqInput s.arg2.toNat) s.arg1.toNat s.arg2.toNat ≤ s.dcap.toNat) →
    buildFromFrequencies (s.freqInput s.arg2.toNat) s.arg1.toNat s.arg2.toNat s.arg0.toNat = .ok (t, b) →
    ∃ m, exec .hbf s = .next { s.started with
        done := true, u := t, treev := true, res0 := BitVec.ofNat 32 t.n, mem := m, work := { s.work with bpm := b }
        dlen := if s.dcap = 0 then 0 else BitVec.ofNat 32 (7 * t.n) } ∧
      t.n = trimCodes (s.freqInput s.arg2.toNat) s.arg1.toNat s.arg2.toNat ∧
      ∀ a, m.read a = if s.dcap ≠ 0 ∧ s.dst.toNat ≤ a ∧ a < s.dst.toNat + 7 * t.n
        then (t.len.map (BitVec.ofNat 8) ++ treeImage t).getD (a - s.dst.toNat) 0 else s.mem.read a) ∧
  (∀ (freq : List Nat) (minCodes maxCodes maxBits : Nat), 2 ≤ minCodes → minCodes ≤ maxCodes → 1 ≤ maxBits →
    let m := trimCodes freq minCodes maxCodes
    let present := (List.range m).filter fun s => freq.getD s 0 ≠ 0
    (minCodes ≤ m ∧ m ≤ maxCodes ∧ (m = minCodes ∨ freq.getD (m - 1) 0 ≠ 0) ∧
      ∀ s, m ≤ s → s < maxCodes → freq.getD s 0 = 0) ∧
    (m ≤ 2 ^ maxBits → ∃ t b, buildFromFrequencies freq minCodes maxCodes maxBits = .ok (t, b) ∧
      buildFromLengths t.len maxBits = .ok t ∧ t.len.length = m ∧
      (∀ l ∈ t.len, l ≤ maxBits) ∧ kraftSum t.len maxBits = 2 ^ maxBits ∧
      (present = [] → t.len = [1, 1] ++ List.replicate (m - 2) 0) ∧
      (∀ p, present = [p] → ∀ s, s < m →
        t.len.getD s 0 = if s = p ∨ s = (if p = 0 then 1 else 0) then 1 else 0) ∧
      (2 ≤ present.length →
        (∀ s, s < m → (freq.getD s 0 = 0 → t.len.getD s 0 = 0) ∧
          (freq.getD s 0 ≠ 0 → 1 ≤ t.len.getD s 0 ∧ t.len.getD s 0 ≤ maxBits)) ∧
        ∀ l : Nat → Nat, (∀ s ∈ present, l s ≤ maxBits) →
          (present.map fun s => 2 ^ (maxBits - l s)).sum ≤ 2 ^ maxBits →
          (present.map fun s => freq.getD s 0 * t.len.getD s 0).sum ≤ (present.map fun s => freq.getD s 0 * l s).sum)))

/-- 48_commands R388: `HDEC` decodes one symbol with slot `U`; without a tree it raises `TreeNotValid`; a read past
the end or an empty slot ends it with `bp` where the reader stopped. -/
def Obligations.HdecDecodes : Prop :=
  ∀ s : State, s.ready → s.regionsOk .s = true →
    (s.treev = false → exec .hdec s = .next (s.started.raiseInput .treeNotValid 0)) ∧
    (∀ symbol k, s.treev = true →
      decodeSymbol s.cfg.emptySlot s.source s.u s.arg0.toNat = .ok (symbol, k) →
      exec .hdec s = .next
        { s.started with done := true, bp := BitVec.ofNat 35 k, res0 := BitVec.ofNat 32 symbol }) ∧
    (∀ e : Stop, s.treev = true → decodeSymbol s.cfg.emptySlot s.source s.u s.arg0.toNat = .error e →
      exec .hdec s = .next (({ s.started with bp := BitVec.ofNat 35 e.bp }).raiseInput e.cause e.info))

/-! ## Decompression -/

/-- 48_commands R376, R377: `INFLATE` starts before a block header at bit `ARG0`, `ZLIBD` before the zlib header;
the elements of the stream are steps of their own (log 1, the model's choice). -/
def Obligations.DecompressionStarts : Prop :=
  ∀ s : State, s.ready → s.regionsOk .st = true →
    exec .inflate s = .next { s.started with
      bfinal := false, bp := s.arg0.setWidth 35, engine := .inflate false .header } ∧
    exec .zlibd s = .next { s.started with bfinal := false, engine := .inflate true .zHeader }

/-- 43_inflate R221, R222, R227, R228: a block header sets `BFINAL` and leads to its block's phase; type 3 faults. -/
def Obligations.BlockHeaders : Prop :=
  ∀ (final : Bool) (s : State), s.regionsOk .st = true →
    exec (.blockStored final) s = .next { s with bfinal := final, engine := .inflate s.zlib .stored } ∧
    exec (.blockFixed final) s = .next { s with bfinal := final, engine := .inflate s.zlib (.symbols true) } ∧
    exec (.blockDynamic final) s = .next { s with bfinal := final, engine := .inflate s.zlib .dynHeader } ∧
    exec (.blockIllegal final) s = .next (({ s with bfinal := final }).raise .invalidBlockType s.bp.toNat)

/-- 43_inflate R225, R226: a stored block is copied whole, after its checks in their order, or not at all. -/
def Obligations.StoredBlockCopies : Prop :=
  ∀ (len nlen : BitVec 16) (s : State), s.regionsOk .st = true → s.mem.wf = true →
    (len.toNat + nlen.toNat ≠ 65535 →
      exec (.stored len nlen) s = .next (s.raise .storedLenMismatch s.bp.toNat)) ∧
    (len.toNat + nlen.toNat = 65535 →
      (s.slen.toNat < s.bp.toNat / 8 + 4 + len.toNat →
        exec (.stored len nlen) s = .next (s.raise .endOfInput s.bp.toNat)) ∧
      (s.bp.toNat / 8 + 4 + len.toNat ≤ s.slen.toNat →
        (s.dcap.toNat < s.pos.toNat + len.toNat →
          exec (.stored len nlen) s = .next (s.raise .outputOverflow s.pos.toNat)) ∧
        (s.pos.toNat + len.toNat ≤ s.dcap.toNat →
          ∃ m, exec (.stored len nlen) s = .next (State.endBlock { s with
              mem := m, pos := BitVec.ofNat 32 (s.pos.toNat + len.toNat)
              bp := BitVec.ofNat 35 (8 * (s.bp.toNat / 8 + 4 + len.toNat)) }) ∧
            ∀ a, m.read a =
              if s.dst.toNat + s.pos.toNat ≤ a ∧ a < s.dst.toNat + s.pos.toNat + len.toNat
              then s.mem.read (s.src.toNat + (s.bp.toNat / 8 + 4) + (a - (s.dst.toNat + s.pos.toNat)))
              else s.mem.read a)))

/-- 43_inflate R237: a literal is one byte at the output cursor, or `OutputOverflow`. -/
def Obligations.LiteralWrites : Prop :=
  ∀ (b : Byte) (s : State), s.regionsOk .st = true → s.mem.wf = true →
    (s.dcap.toNat < s.pos.toNat + 1 → exec (.lit b) s = .next (s.raise .outputOverflow s.pos.toNat)) ∧
    (s.pos.toNat + 1 ≤ s.dcap.toNat → ∃ m,
      exec (.lit b) s = .next { s with mem := m, pos := BitVec.ofNat 32 (s.pos.toNat + 1) } ∧
      ∀ a, m.read a = if a = s.dst.toNat + s.pos.toNat then b else s.mem.read a)

/-- 43_inflate R220, R238, 45_zlib_adler R306: the end code ends the block, and after the last block the stream; only
`ZLIBD` with `IGNORE_ADLER = 0` goes on to the trailer. -/
def Obligations.EndOfBlock : Prop :=
  ∀ s : State, s.regionsOk .st = true → exec .endOfBlock s = .next s.endBlock ∧
    (s.bfinal = false → s.endBlock = { s with engine := .inflate s.zlib .header }) ∧
    (s.bfinal = true → (s.zlib = false ∨ s.ignoreAdler = true) →
      s.endBlock = { s with dlen := s.pos, engine := .idle, done := true }) ∧
    (s.bfinal = true → s.zlib = true → s.ignoreAdler = false →
      s.endBlock = { s with dlen := s.pos, engine := .inflate true .trailer })

/-- 43_inflate R239, R241, 10_state R39: the length of each length symbol, with the bases written out from the spec's
table; the two reserved symbols fault. The distance comes next, as a step of its own (log 21, the model's choice). -/
def Obligations.LengthSymbols : Prop :=
  ∀ s : State, s.regionsOk .st = true →
    exec .len257 s = .next (s.toPhase (.distance s.fixedTrees 3)) ∧
    exec .len258 s = .next (s.toPhase (.distance s.fixedTrees 4)) ∧
    exec .len259 s = .next (s.toPhase (.distance s.fixedTrees 5)) ∧
    exec .len260 s = .next (s.toPhase (.distance s.fixedTrees 6)) ∧
    exec .len261 s = .next (s.toPhase (.distance s.fixedTrees 7)) ∧
    exec .len262 s = .next (s.toPhase (.distance s.fixedTrees 8)) ∧
    exec .len263 s = .next (s.toPhase (.distance s.fixedTrees 9)) ∧
    exec .len264 s = .next (s.toPhase (.distance s.fixedTrees 10)) ∧
    (∀ x, exec (.len265 x) s = .next (s.toPhase (.distance s.fixedTrees (11 + x.toNat)))) ∧
    (∀ x, exec (.len266 x) s = .next (s.toPhase (.distance s.fixedTrees (13 + x.toNat)))) ∧
    (∀ x, exec (.len267 x) s = .next (s.toPhase (.distance s.fixedTrees (15 + x.toNat)))) ∧
    (∀ x, exec (.len268 x) s = .next (s.toPhase (.distance s.fixedTrees (17 + x.toNat)))) ∧
    (∀ x, exec (.len269 x) s = .next (s.toPhase (.distance s.fixedTrees (19 + x.toNat)))) ∧
    (∀ x, exec (.len270 x) s = .next (s.toPhase (.distance s.fixedTrees (23 + x.toNat)))) ∧
    (∀ x, exec (.len271 x) s = .next (s.toPhase (.distance s.fixedTrees (27 + x.toNat)))) ∧
    (∀ x, exec (.len272 x) s = .next (s.toPhase (.distance s.fixedTrees (31 + x.toNat)))) ∧
    (∀ x, exec (.len273 x) s = .next (s.toPhase (.distance s.fixedTrees (35 + x.toNat)))) ∧
    (∀ x, exec (.len274 x) s = .next (s.toPhase (.distance s.fixedTrees (43 + x.toNat)))) ∧
    (∀ x, exec (.len275 x) s = .next (s.toPhase (.distance s.fixedTrees (51 + x.toNat)))) ∧
    (∀ x, exec (.len276 x) s = .next (s.toPhase (.distance s.fixedTrees (59 + x.toNat)))) ∧
    (∀ x, exec (.len277 x) s = .next (s.toPhase (.distance s.fixedTrees (67 + x.toNat)))) ∧
    (∀ x, exec (.len278 x) s = .next (s.toPhase (.distance s.fixedTrees (83 + x.toNat)))) ∧
    (∀ x, exec (.len279 x) s = .next (s.toPhase (.distance s.fixedTrees (99 + x.toNat)))) ∧
    (∀ x, exec (.len280 x) s = .next (s.toPhase (.distance s.fixedTrees (115 + x.toNat)))) ∧
    (∀ x, exec (.len281 x) s = .next (s.toPhase (.distance s.fixedTrees (131 + x.toNat)))) ∧
    (∀ x, exec (.len282 x) s = .next (s.toPhase (.distance s.fixedTrees (163 + x.toNat)))) ∧
    (∀ x, exec (.len283 x) s = .next (s.toPhase (.distance s.fixedTrees (195 + x.toNat)))) ∧
    (∀ x, exec (.len284 x) s = .next (s.toPhase (.distance s.fixedTrees (227 + x.toNat)))) ∧
    exec .len285 s = .next (s.toPhase (.distance s.fixedTrees 258)) ∧
    exec .llReserved286 s = .next (s.raise .invalidLitLenSymbol s.bp.toNat) ∧
    exec .llReserved287 s = .next (s.raise .invalidLitLenSymbol s.bp.toNat)

/-- 43_inflate R239, 10_state R39: the distance of each distance symbol, with the bases written out from the spec's
table, its checks in their order and its copy (`distanceMeans`); the two reserved symbols fault. The length is the
pending one (log 21, the model's choice). -/
def Obligations.DistanceSymbols : Prop :=
  ∀ s : State, s.regionsOk .st = true →
    distanceMeans .dist0 1 s ∧ distanceMeans .dist1 2 s ∧ distanceMeans .dist2 3 s ∧ distanceMeans .dist3 4 s ∧
    (∀ x, distanceMeans (.dist4 x) (5 + x.toNat) s) ∧ (∀ x, distanceMeans (.dist5 x) (7 + x.toNat) s) ∧
    (∀ x, distanceMeans (.dist6 x) (9 + x.toNat) s) ∧ (∀ x, distanceMeans (.dist7 x) (13 + x.toNat) s) ∧
    (∀ x, distanceMeans (.dist8 x) (17 + x.toNat) s) ∧ (∀ x, distanceMeans (.dist9 x) (25 + x.toNat) s) ∧
    (∀ x, distanceMeans (.dist10 x) (33 + x.toNat) s) ∧ (∀ x, distanceMeans (.dist11 x) (49 + x.toNat) s) ∧
    (∀ x, distanceMeans (.dist12 x) (65 + x.toNat) s) ∧ (∀ x, distanceMeans (.dist13 x) (97 + x.toNat) s) ∧
    (∀ x, distanceMeans (.dist14 x) (129 + x.toNat) s) ∧ (∀ x, distanceMeans (.dist15 x) (193 + x.toNat) s) ∧
    (∀ x, distanceMeans (.dist16 x) (257 + x.toNat) s) ∧ (∀ x, distanceMeans (.dist17 x) (385 + x.toNat) s) ∧
    (∀ x, distanceMeans (.dist18 x) (513 + x.toNat) s) ∧ (∀ x, distanceMeans (.dist19 x) (769 + x.toNat) s) ∧
    (∀ x, distanceMeans (.dist20 x) (1025 + x.toNat) s) ∧ (∀ x, distanceMeans (.dist21 x) (1537 + x.toNat) s) ∧
    (∀ x, distanceMeans (.dist22 x) (2049 + x.toNat) s) ∧ (∀ x, distanceMeans (.dist23 x) (3073 + x.toNat) s) ∧
    (∀ x, distanceMeans (.dist24 x) (4097 + x.toNat) s) ∧ (∀ x, distanceMeans (.dist25 x) (6145 + x.toNat) s) ∧
    (∀ x, distanceMeans (.dist26 x) (8193 + x.toNat) s) ∧ (∀ x, distanceMeans (.dist27 x) (12289 + x.toNat) s) ∧
    (∀ x, distanceMeans (.dist28 x) (16385 + x.toNat) s) ∧ (∀ x, distanceMeans (.dist29 x) (24577 + x.toNat) s) ∧
    exec .dReserved30 s = .next (s.raise .invalidDistanceSymbol s.bp.toNat) ∧
    exec .dReserved31 s = .next (s.raise .invalidDistanceSymbol s.bp.toNat)

/-- 43_inflate R240: the copy, with overlap: the last `dist` bytes of the output are repeated; the cursor advances by
the length, and nothing else changes. -/
def Obligations.MatchCopyRepeats : Prop :=
  ∀ (dist n : Nat) (s : State), s.mem.wf = true → 1 ≤ dist → dist ≤ s.pos.toNat → s.pos.toNat + n ≤ s.dcap.toNat →
    ∃ m, State.copyMatch dist n s = { s with mem := m, pos := BitVec.ofNat 32 (s.pos.toNat + n) } ∧
      ∀ a, m.read a =
        if s.dst.toNat + s.pos.toNat ≤ a ∧ a < s.dst.toNat + s.pos.toNat + n
        then s.mem.read (s.dst.toNat + s.pos.toNat - dist + (a - (s.dst.toNat + s.pos.toNat)) % dist)
        else s.mem.read a

/-- 43_inflate R231, R232: a code-length symbol that does not fill the `HLIT + HDIST` lengths, and the two faults of a
repeat. -/
def Obligations.CodeLengthSymbols : Prop :=
  ∀ (z : Bool) (hlit hdist : Nat) (lens : List Nat) (s : State), s.regionsOk .st = true →
    s.engine = .inflate z (.codeLens hlit hdist lens) →
    (∀ l, lens.length + 1 < hlit + hdist → exec (.clLen l) s = .next
      { s with engine := .inflate z (.codeLens hlit hdist (lens ++ [l.toNat])) }) ∧
    (∀ r v, lens.getLast? = some v → lens.length + (3 + r.toNat) < hlit + hdist → exec (.cl16 r) s = .next
      { s with engine := .inflate z (.codeLens hlit hdist (lens ++ List.replicate (3 + r.toNat) v)) }) ∧
    (∀ r, lens.length + (3 + r.toNat) < hlit + hdist → exec (.cl17 r) s = .next
      { s with engine := .inflate z (.codeLens hlit hdist (lens ++ List.replicate (3 + r.toNat) 0)) }) ∧
    (∀ r, lens.length + (11 + r.toNat) < hlit + hdist → exec (.cl18 r) s = .next
      { s with engine := .inflate z (.codeLens hlit hdist (lens ++ List.replicate (11 + r.toNat) 0)) }) ∧
    (∀ r, lens = [] → exec (.cl16 r) s = .next (s.raise .repeatWithoutPrevious s.bp.toNat)) ∧
    (∀ r, lens ≠ [] → hlit + hdist < lens.length + (3 + r.toNat) →
      exec (.cl16 r) s = .next (s.raise .repeatOverflow s.bp.toNat)) ∧
    (∀ r, hlit + hdist < lens.length + (3 + r.toNat) →
      exec (.cl17 r) s = .next (s.raise .repeatOverflow s.bp.toNat)) ∧
    (∀ r, hlit + hdist < lens.length + (11 + r.toNat) →
      exec (.cl18 r) s = .next (s.raise .repeatOverflow s.bp.toNat))

/-- 43_inflate R233: the symbol that fills the lengths builds the block's trees, over 288 and 32 symbols; no end code,
or a length set that builds no tree, faults. -/
def Obligations.LastCodeLengthBuildsTrees : Prop :=
  (∀ (z : Bool) (hlit hdist : Nat) (lens : List Nat) (s : State), s.regionsOk .st = true →
    s.engine = .inflate z (.codeLens hlit hdist lens) →
    (∀ l, lens.length + 1 = hlit + hdist →
      exec (.clLen l) s = .next (s.buildTrees hlit hdist (lens ++ [l.toNat]))) ∧
    (∀ r v, lens.getLast? = some v → lens.length + (3 + r.toNat) = hlit + hdist →
      exec (.cl16 r) s = .next (s.buildTrees hlit hdist (lens ++ List.replicate (3 + r.toNat) v))) ∧
    (∀ r, lens.length + (3 + r.toNat) = hlit + hdist →
      exec (.cl17 r) s = .next (s.buildTrees hlit hdist (lens ++ List.replicate (3 + r.toNat) 0))) ∧
    (∀ r, lens.length + (11 + r.toNat) = hlit + hdist →
      exec (.cl18 r) s = .next (s.buildTrees hlit hdist (lens ++ List.replicate (11 + r.toNat) 0)))) ∧
  (∀ (hlit hdist : Nat) (lens ll dd : List Nat) (s : State), lens.length = hlit + hdist → hlit ≤ 288 → hdist ≤ 32 →
    ll.length = 288 → dd.length = 32 →
    (∀ k, k < 288 → ll.getD k 0 = if k < hlit then lens.getD k 0 else 0) →
    (∀ k, k < 32 → dd.getD k 0 = if k < hdist then lens.getD (hlit + k) 0 else 0) →
    (ll.getD 256 0 = 0 → s.buildTrees hlit hdist lens = s.raise .noEndCode s.bp.toNat) ∧
    (ll.getD 256 0 ≠ 0 →
      (∀ e, buildFromLengths ll 15 = .error e →
        s.buildTrees hlit hdist lens = s.raiseFailure ⟨.huffTreeMalformed, e, some .ll⟩) ∧
      (∀ tll e, buildFromLengths ll 15 = .ok tll → buildFromLengths dd 15 = .error e →
        s.buildTrees hlit hdist lens = s.raiseFailure ⟨.huffTreeMalformed, e, some .d⟩) ∧
      (∀ tll td, buildFromLengths ll 15 = .ok tll → buildFromLengths dd 15 = .ok td →
        s.buildTrees hlit hdist lens =
          { s with work := { s.work with ll := tll, d := td }, engine := .inflate s.zlib (.symbols false) })))

/-- 43_inflate R229, R230: a dynamic header's counts and its code-length tree; the i-th 3-bit field is the length of
`CLCL_ORDER[i]`, the others are 0. -/
def Obligations.DynamicHeader : Prop :=
  ∀ (hlit hdist : BitVec 5) (hclen : BitVec 4) (clens : List (BitVec 3)) (s : State), s.regionsOk .st = true →
    (∀ e, buildFromLengths (clLengths clens) 7 = .error e →
      exec (.dynhdr hlit hdist hclen clens) s = .next (s.raiseFailure ⟨.huffTreeMalformed, e, some .cl⟩)) ∧
    (∀ t, buildFromLengths (clLengths clens) 7 = .ok t →
      exec (.dynhdr hlit hdist hclen clens) s = .next { s with
        work := { s.work with cl := t }
        engine := .inflate s.zlib (.codeLens (hlit.toNat + 257) (hdist.toNat + 1) []) }) ∧
    (clLengths clens).length = 19 ∧
    (∀ i, i < 19 → (clLengths clens).getD (clclOrder.getD i 0) 0 = (clens.getD i 0).toNat)

/-! ## zlib framing -/

/-- 45_zlib_adler R304: the header checks in their order, the decoder's first. -/
def Obligations.ZlibHeaderChecks : Prop :=
  (∀ (p : EmptySlot) (src : Source) (bp : Nat),
    (src.len < 2 → decode p .zHeader src bp = .error ⟨.zlibTooSmall, 0, bp⟩) ∧
    (2 ≤ src.len → decode p .zHeader src bp = .ok (.zhdr (src.byte 0) (src.byte 1), bp))) ∧
  (∀ (cmf flg : Byte) (s : State), s.regionsOk .st = true →
    ((cmf.toNat * 256 + flg.toNat) % 31 ≠ 0 → exec (.zhdr cmf flg) s = .next (s.raise .zlibFcheck 0)) ∧
    ((cmf.toNat * 256 + flg.toNat) % 31 = 0 →
      (cmf.extractLsb' 0 4 ≠ 8 ∨ 7 < cmf.extractLsb' 4 4 →
        exec (.zhdr cmf flg) s = .next (s.raise .zlibMethod 0)) ∧
      (cmf.extractLsb' 0 4 = 8 → cmf.extractLsb' 4 4 ≤ 7 →
        (flg.extractLsb' 5 1 = 1 → exec (.zhdr cmf flg) s = .next (s.raise .zlibPresetDict 0)) ∧
        (flg.extractLsb' 5 1 = 0 → exec (.zhdr cmf flg) s = .next
          { s with bp := 16, pos := 0, bfinal := false, engine := .inflate true .header }))))

/-- 45_zlib_adler R306, R307: the trailer is compared with the Adler32 of the output; a match ends the command after
the trailer, a mismatch records `AdlerMismatch` and keeps `DLEN` and every byte of memory; a missing trailer takes
`DLEN` back. -/
def Obligations.ZlibTrailer : Prop :=
  (∀ (stored : Word) (s : State), s.regionsOk .st = true →
    (stored.toNat = adlerValue (adler32 (s.outBytes 0 s.pos.toNat)) → ∃ w,
      exec (.ztrailer stored) s = .next { s with
        work := w, res0 := stored, engine := .idle, done := true
        bp := BitVec.ofNat 35 (8 * (trailerPos s.cfg.adlerPos s.slen.toNat s.bp.toNat + 4)) }) ∧
    (stored.toNat ≠ adlerValue (adler32 (s.outBytes 0 s.pos.toNat)) → s.err = 0 → ∃ w,
      exec (.ztrailer stored) s = .next { s with
        work := w, res0 := BitVec.ofNat 32 (adlerValue (adler32 (s.outBytes 0 s.pos.toNat))), engine := .idle
        done := true, err := 58, errInfo := s.bp, free := s.free + 1 })) ∧
  (∀ (p : EmptySlot) (at_ : AdlerPos) (src : Source) (bp : Nat), src.len < trailerPos at_ src.len bp + 4 →
    decode p (.trailer at_) src bp = .error ⟨.endOfInput, bp, bp⟩) ∧
  (∀ (e : Stop) (s : State), (s.stopFetch e).dlen = 0)

/-! ## Filters -/

/-- 46_filter R321, R322: the argument checks of both filter commands in their order; with a good geometry `UNFILTER`
starts before scanline 0 with no previous scanline (that each scanline is a step of its own is log 1, the model's
choice), or ends at once when there are no scanlines. -/
def Obligations.GeometryChecks : Prop :=
  (∀ (i : Instr) (s : State), (i = .unfilter ∨ i = .filter) → s.ready → s.regionsOk .st = true →
    let bpp := s.arg2.toNat % 256
    let line := (s.arg0.toNat * bpp + 7) / 8
    let raw := s.arg1.toNat * line
    let filt := s.arg1.toNat * (line + 1)
    (s.arg0.toNat = 0 → exec i s = .next (s.started.raise .badArg 5)) ∧
    (s.arg0.toNat ≠ 0 →
      (bpp = 0 ∨ 64 < bpp ∨ s.arg2.toNat / 512 ≠ 0 → exec i s = .next (s.started.raise .badArg 7)) ∧
      (bpp ≠ 0 → bpp ≤ 64 → s.arg2.toNat / 512 = 0 →
        (2 ^ 32 - 1 < s.arg0.toNat * bpp + 7 ∨ 2 ^ 32 - 1 < line + 1 ∨ 2 ^ 32 - 1 < raw ∨ 2 ^ 32 - 1 < filt →
          exec i s = .next (s.started.raise .sizeOverflow 0)) ∧
        (s.arg0.toNat * bpp + 7 ≤ 2 ^ 32 - 1 → line + 1 ≤ 2 ^ 32 - 1 → raw ≤ 2 ^ 32 - 1 → filt ≤ 2 ^ 32 - 1 →
          (s.slen.toNat ≠ (if i = .unfilter then filt else raw) →
            exec i s = .next (s.started.raise .badArg 1)) ∧
          (s.slen.toNat = (if i = .unfilter then filt else raw) →
            s.dcap.toNat < (if i = .unfilter then raw else filt) →
            exec i s = .next (s.started.raise .outputOverflow 0)))))) ∧
  (∀ s : State, s.ready → s.regionsOk .st = true → s.geometryFault s.filtSize s.rawSize = none →
    (s.arg1 ≠ 0 → exec .unfilter s = .next { s.started with
      work := { s.work with lines := ⟨[], none, []⟩ }, engine := .unfilter 0 }) ∧
    (s.arg1 = 0 → exec .unfilter s = .next { s.started with
      work := { s.work with lines := ⟨[], none, []⟩ }, done := true }))

/-- 46_filter R322 to R326: each of the five filter types reconstructs its scanline from the one before it, byte by
byte (`predicted` writes R323 to R325 out), and writes it to its place; the last one ends the command; a type byte above
4 faults with its offset. That a scanline is a step of its own is log 1, the model's choice. -/
def Obligations.ScanlinesReconstruct : Prop :=
  (∀ (s : State), s.scanlineOk = true → s.mem.wf = true →
    ∀ (i : Instr) (f : Nat), (i, f) ∈ [(Instr.ftNone, 0), (.ftSub, 1), (.ftUp, 2), (.ftAverage, 3), (.ftPaeth, 4)] →
    let y := s.scanline
    let line := unfilterLine f s.byteWidth (s.inBytes (y * (s.lineBytes + 1) + 1) s.lineBytes) s.work.lines.prev
    ∃ m, line.length = s.lineBytes ∧
      (∀ k, k < s.lineBytes → ((line.getD k 0).toNat : Int) =
        (((s.mem.read (s.src.toNat + (y * (s.lineBytes + 1) + 1 + k))).toNat : Int) +
          predicted f (max 1 (s.arg2.toNat % 256 / 8)) line s.work.lines.prev k) % 256) ∧
      (y + 1 < s.arg1.toNat → exec i s = .next { s with
        mem := m, work := { s.work with lines := { s.work.lines with cur := line, prev := some line } }
        engine := .unfilter (y + 1) }) ∧
      (s.arg1.toNat ≤ y + 1 → exec i s = .next { s with
        mem := m, work := { s.work with lines := { s.work.lines with cur := line, prev := some line } }
        engine := .idle, done := true, dlen := BitVec.ofNat 32 s.rawSize }) ∧
      ∀ a, m.read a = if s.dst.toNat + y * s.lineBytes ≤ a ∧ a < s.dst.toNat + y * s.lineBytes + s.lineBytes
        then line.getD (a - (s.dst.toNat + y * s.lineBytes)) 0 else s.mem.read a) ∧
  (∀ (t : Byte) (s : State), s.regionsOk .st = true →
    exec (.ftIllegal t) s = .next (s.raise .invalidFilterType (s.scanline * (s.lineBytes + 1))))

/-- 46_filter R327: unfiltering what filtering made gives the line back, for every type, width, line and line above. -/
def Obligations.UnfilterUndoesFilter : Prop :=
  ∀ (t width : Nat) (cur : List Byte) (prev : Option (List Byte)), t ≤ 4 → 1 ≤ width →
    unfilterLine t width (filterLine t width cur prev) prev = cur

/-- 46_filter R335, R337, R338: `FILTER` with strategy `ZERO` puts a type byte 0 before each scanline and copies it. -/
def Obligations.FilterZeroCopies : Prop :=
  ∀ s : State, s.ready → s.regionsOk .st = true → s.mem.wf = true →
    s.geometryFault s.rawSize s.filtSize = none → s.strategy = .zero →
    ∃ m w, exec .filter s = .next { s.started with
        mem := m, work := w, free := s.free + 1, done := true, dlen := BitVec.ofNat 32 s.filtSize } ∧
      (∀ y, y < s.arg1.toNat →
        m.read (s.dst.toNat + y * (s.lineBytes + 1)) = 0 ∧
        ∀ j, j < s.lineBytes → m.read (s.dst.toNat + (y * (s.lineBytes + 1) + 1 + j)) =
          s.mem.read (s.src.toNat + (y * s.lineBytes + j))) ∧
      ∀ a, a < s.dst.toNat ∨ s.dst.toNat + s.filtSize ≤ a → m.read a = s.mem.read a

/-- 46_filter R335, R326: `FILTER`, whatever the strategy: before each scanline stands the type that `ChooseType` gives
for it and the raw scanline above it (its `call` numbers the trials, log 12), then the scanline filtered with that type,
byte by byte; nothing else is written. -/
def Obligations.FilterWritesChosenTypes : Prop :=
  ∀ s : State, s.ready → s.regionsOk .st = true → s.mem.wf = true →
    s.geometryFault s.rawSize s.filtSize = none →
    let row (y : Nat) : List Byte := s.mem.readBytes (s.src.toNat + y * s.lineBytes) s.lineBytes
    let prev (y : Nat) : Option (List Byte) := if y = 0 then none else some (row (y - 1))
    ∃ (m : Memory) (w : Work) (types : Nat → Nat),
      exec .filter s = .next { s.started with
        mem := m, work := w, free := s.free + 1, done := true, dlen := BitVec.ofNat 32 s.filtSize } ∧
      (∀ y, y < s.arg1.toNat →
        types y ≤ 4 ∧
        (∃ w₁ w₂, chooseType s.cfg s.free (y * (5 * blockCount s.cfg s.lineBytes)) s.strategy s.byteWidth (row y)
          (prev y) w₁ = .ok (types y, w₂)) ∧
        (m.read (s.dst.toNat + y * (s.lineBytes + 1))).toNat = types y ∧
        ∀ k, k < s.lineBytes → ((m.read (s.dst.toNat + (y * (s.lineBytes + 1) + 1 + k))).toNat : Int) =
          ((((row y).getD k 0).toNat : Int) -
            predicted (types y) (max 1 (s.arg2.toNat % 256 / 8)) (row y) (prev y) k) % 256) ∧
      ∀ a, a < s.dst.toNat ∨ s.dst.toNat + s.filtSize ≤ a → m.read a = s.mem.read a

/-- 46_filter R338 to R343: what `ChooseType` is for each strategy. `ZERO` takes type 0; the others take the first of
the five filtered lines with the smallest cost: the sum of the bytes' absolute values as signed bytes; the Shannon
entropy of the bytes as a real number (or the free approximation, log 13); the size in bytes of a trial compression
with fixed blocks. -/
def Obligations.ChooseTypeIsFirstMinimum : Prop :=
  ∀ (c : Config) (ctr call width : Nat) (cur : List Byte) (prev : Option (List Byte)) (w : Work),
    let line (t : Nat) : List Byte := filterLine t width cur prev
    let entropy (f : List Byte) : ℝ := ((List.range 256).map fun v =>
      let n := f.count (BitVec.ofNat 8 v)
      if n = 0 then (0 : ℝ) else ((n : ℝ) / f.length) * Real.logb 2 ((f.length : ℝ) / n)).sum
    chooseType c ctr call .zero width cur prev w = .ok (0, w) ∧
    (∃ t w', chooseType c ctr call .minSum width cur prev w = .ok (t, w') ∧
      firstMinimum (fun k => ((line k).map fun b => b.toInt.natAbs).sum) t) ∧
    (∃ t w', chooseType c ctr call .entropy width cur prev w = .ok (t, w') ∧
      (c.entropyFn = .exact → firstMinimum (fun k => entropy (line k)) t) ∧
      (c.entropyFn = .approximate → firstMinimum (fun k => Config.approxEntropy (line k)) t)) ∧
    (∃ t w', chooseType c ctr call .bruteForce width cur prev w = .ok (t, w') ∧
      ∃ size : Nat → Nat, firstMinimum size t ∧
        ∀ k, k ≤ 4 → ∃ w₁ bits w₂,
          deflate c ctr (call + k * blockCount c cur.length) .fixed (line k) 0 w₁ = .ok (bits, w₂) ∧
          size k = (bits.length + 7) / 8)

/-! ## Compression -/

/-- 44_deflate R261, R262: `DEFLATE` in mode `STORED` on an input of one block: the header byte, `LEN`, `NLEN` and the
data. -/
def Obligations.DeflateStores : Prop :=
  ∀ s : State, s.ready → s.regionsOk .st = true → s.mem.wf = true → s.btmode = .stored →
    1 ≤ s.cfg.blockSize → s.slen.toNat ≤ s.cfg.blockSize → s.slen.toNat ≤ 65535 →
    s.slen.toNat + 5 ≤ s.dcap.toNat →
    ∃ m w, exec .deflate s = .next { s.started with
        mem := m, work := w, free := s.free + 1, done := true, dlen := BitVec.ofNat 32 (s.slen.toNat + 5)
        wbp := BitVec.ofNat 35 (8 * (s.slen.toNat + 5)) } ∧
      ∀ a, m.read a = if s.dst.toNat ≤ a ∧ a < s.dst.toNat + (s.slen.toNat + 5)
        then (([1] ++ le16bytes s.slen.toNat ++ le16bytes (65535 - s.slen.toNat) ++ s.input :
          List Byte)).getD (a - s.dst.toNat) 0
        else s.mem.read a

/-- 44_deflate R283, 48_commands R378: whatever the mode, `DEFLATE` writes the bits its blocks are made of, or raises
`OutputOverflow` at the first bit that needs a byte beyond the capacity. 60_exceptions R407: the pass itself never
fails. 44_deflate R260, R261: it is the blocks of `BLOCKSIZE` consecutive bytes in order, one of an empty input, each
written behind the previous one, final only the last, with the tokens that `TokensAreValid` speaks of. 44_deflate
R281: in mode `AUTO` a block is the shortest of the three the forced modes give, on equal lengths the lower `BTYPE`.
44_deflate R263 to R265: how tokens become symbols, and a fixed block. 44_deflate R270 to R277: a dynamic block: its
trees are built from the symbols' counts, and the coded lengths it sends expand to the trees' lengths. -/
def Obligations.DeflateEmits : Prop :=
  (∀ (s : State) (bits : List Bool) (w : Work), s.ready → s.regionsOk .st = true → s.mem.wf = true →
    deflate s.cfg s.free 0 s.btmode s.input 0 s.work = .ok (bits, w) →
    (bits.length ≤ 8 * s.dcap.toNat → ∃ m, exec .deflate s = .next { s.started with
        mem := m, work := w, free := s.free + 1, done := true, dlen := BitVec.ofNat 32 ((bits.length + 7) / 8)
        wbp := BitVec.ofNat 35 bits.length } ∧
      ∀ a, m.read a = if s.dst.toNat ≤ a ∧ a < s.dst.toNat + (bits.length + 7) / 8
        then (packBits bits).getD (a - s.dst.toNat) 0 else s.mem.read a) ∧
    (8 * s.dcap.toNat < bits.length → ∃ t, exec .deflate s = .next t ∧ t.err = 83 ∧
      t.errInfo.toNat = s.dcap.toNat ∧ t.dlen = 0 ∧ t.wbp.toNat = 8 * s.dcap.toNat ∧ t.busy = false ∧ t.done = true)) ∧
  (∀ (c : Config) (ctr call : Nat) (mode : BtMode) (data : List Byte) (k : Nat) (w : Work),
    ∃ bits w', deflate c ctr call mode data k w = .ok (bits, w')) ∧
  (∀ (c : Config) (ctr call : Nat) (mode : BtMode) (data : List Byte) (k : Nat) (w w' : Work) (bits : List Bool),
    deflate c ctr call mode data k w = .ok (bits, w') →
    let count := max 1 ((data.length + c.blockSize - 1) / c.blockSize)
    let start (n : Nat) := n * c.blockSize
    let stop (n : Nat) := min data.length (start n + c.blockSize)
    let piece (n : Nat) := (data.take (stop n)).drop (start n)
    ∃ (block : Nat → List Bool) (work : Nat → Work), bits = (List.range count).flatMap block ∧
      work 0 = { w with hash := freshHash } ∧ work count = w' ∧
      (∀ n, n < count →
        let tokens := blockTokens c ctr (call + n) data (start n) (stop n) (work n)
        writeBlock mode (n + 1 == count) (k + ((List.range n).flatMap block).length) (piece n) tokens =
          .ok (block n, work (n + 1)) ∧
        tokens.tok = (blockTokens c ctr (call + n) data (start n) (stop n) (beforeBlock c ctr call data w n)).tok) ∧
      (1 ≤ c.blockSize → data = (List.range count).flatMap piece)) ∧
  (∀ (final : Bool) (k : Nat) (bs : List Byte) (w w₀ w₁ w₂ : Work) (b₀ b₁ b₂ : List Bool),
    writeBlock .stored final k bs w = .ok (b₀, w₀) → writeBlock .fixed final k bs w = .ok (b₁, w₁) →
    writeBlock .dynamic final k bs w = .ok (b₂, w₂) →
    ∃ w', writeBlock .auto final k bs w = .ok
      (if b₀.length ≤ b₁.length ∧ b₀.length ≤ b₂.length then b₀
        else if b₁.length ≤ b₂.length then b₁ else b₂, w')) ∧
  (∀ len dist : Nat, 3 ≤ len → len ≤ 258 → 1 ≤ dist → dist ≤ 32768 → ∃ s lextra d dextra,
    symbolOf (.copy len dist) = .copy s lextra d dextra ∧
    257 ≤ s ∧ s ≤ 285 ∧ lengthBase.getD (s - 257) 0 + lextra = len ∧
    lextra < 2 ^ lengthExtra.getD (s - 257) 0 ∧ (s < 285 → len < lengthBase.getD (s - 257 + 1) 0) ∧
    d ≤ 29 ∧ distBase.getD d 0 + dextra = dist ∧ dextra < 2 ^ distExtra.getD d 0 ∧
    (d < 29 → dist < distBase.getD (d + 1) 0)) ∧
  (∀ (final : Bool) (k : Nat) (bs : List Byte) (w : Work), writeBlock .fixed final k bs w = .ok
    ([final, true, false] ++ (w.tok.map symbolOf).flatMap (symbolBits fixLL fixD) ++ fixLL.codeOf 256, w)) ∧
  (∀ (final : Bool) (k : Nat) (bs : List Byte) (w w' : Work) (bits : List Bool),
    writeBlock .dynamic final k bs w = .ok (bits, w') →
    let syms := w.tok.map symbolOf
    ∃ (ll d cl : Tree) (rle : List (Nat × Nat)) (hclen : Nat) (b₁ b₂ b₃ : Bpm),
      let bcl (i : Nat) : Nat := cl.len.getD (clclOrder.getD i 0) 0
      bits = [final, false, true] ++ fieldBits 5 (ll.n - 257) ++ fieldBits 5 (d.n - 1) ++ fieldBits 4 (hclen - 4) ++
        (List.range hclen).flatMap (fun i => fieldBits 3 (bcl i)) ++
        rle.flatMap (fun e => cl.codeOf e.1 ++ fieldBits (clExtra e.1) e.2) ++
        syms.flatMap (symbolBits ll d) ++ ll.codeOf 256 ∧
      buildFromFrequencies ((List.range 286).map fun s => if s = 256 then 1 else syms.countP fun y => symLL y = s)
        257 286 15 = .ok (ll, b₁) ∧
      buildFromFrequencies ((List.range 30).map fun s => syms.countP fun y => symD y = some s) 2 30 15 = .ok (d, b₂) ∧
      buildFromFrequencies ((List.range 19).map fun c => rle.countP fun e => e.1 = c) 19 19 7 = .ok (cl, b₃) ∧
      257 ≤ ll.n ∧ ll.n ≤ 286 ∧ 2 ≤ d.n ∧ d.n ≤ 30 ∧
      expandRle rle [] = ll.len ++ d.len ∧ (∀ v, rle.head? ≠ some (16, v)) ∧
      (∀ e ∈ rle, e.1 ≤ 18 ∧ e.2 < 2 ^ clExtra e.1) ∧
      4 ≤ hclen ∧ hclen ≤ 19 ∧ (∀ i, hclen ≤ i → i < 19 → bcl i = 0) ∧ (hclen = 4 ∨ bcl (hclen - 1) ≠ 0))

/-- 45_zlib_adler R301, R302: `ZLIBC` in mode `STORED` on an input of one block: the header, the stored block, the
Adler32 of the input, most significant byte first, which is also in `RES0`. Whatever the mode: the header, the bits of
the blocks packed behind it, the Adler32; or `OutputOverflow` with `RES0` unchanged. -/
def Obligations.ZlibcWrites : Prop :=
  (∀ s : State, s.ready → s.regionsOk .st = true → s.mem.wf = true → s.btmode = .stored →
    1 ≤ s.cfg.blockSize → s.slen.toNat ≤ s.cfg.blockSize → s.slen.toNat ≤ 65535 →
    s.slen.toNat + 11 ≤ s.dcap.toNat →
    ∃ m w, exec .zlibc s = .next { s.started with
        mem := m, work := w, free := s.free + 1, done := true, dlen := BitVec.ofNat 32 (s.slen.toNat + 11)
        wbp := BitVec.ofNat 35 (8 * (s.slen.toNat + 11)), res0 := BitVec.ofNat 32 (adlerValue (adler32 s.input)) } ∧
      ∀ a, m.read a = if s.dst.toNat ≤ a ∧ a < s.dst.toNat + (s.slen.toNat + 11)
        then (([0x78, 0x01, 1] ++ le16bytes s.slen.toNat ++ le16bytes (65535 - s.slen.toNat) ++ s.input ++
          be32bytes (adlerValue (adler32 s.input)) : List Byte)).getD (a - s.dst.toNat) 0
        else s.mem.read a) ∧
  (∀ (s : State) (bits : List Bool) (w : Work), s.ready → s.regionsOk .st = true → s.mem.wf = true →
    deflate s.cfg s.free 0 s.btmode s.input 16 s.work = .ok (bits, w) →
    let size := (16 + bits.length + 7) / 8 + 4
    (size ≤ s.dcap.toNat → ∃ m w', exec .zlibc s = .next { s.started with
        mem := m, work := w', free := s.free + 1, done := true, dlen := BitVec.ofNat 32 size
        wbp := BitVec.ofNat 35 (8 * size), res0 := BitVec.ofNat 32 (adlerValue (adler32 s.input)) } ∧
      ∀ a, m.read a = if s.dst.toNat ≤ a ∧ a < s.dst.toNat + size
        then (packBits (bytesBits [0x78, 0x01] ++ bits) ++
          be32bytes (adlerValue (adler32 s.input))).getD (a - s.dst.toNat) 0
        else s.mem.read a) ∧
    (s.dcap.toNat < size → ∃ t, exec .zlibc s = .next t ∧ t.err = 83 ∧ t.errInfo.toNat = s.dcap.toNat ∧
      t.dlen = 0 ∧ t.res0 = s.res0 ∧ t.wbp.toNat = 8 * s.dcap.toNat ∧ t.busy = false ∧ t.done = true))

/-- 42_lz77 R192: the tokens of a block are a valid sequence: under `MATCHER = any` whatever is proposed (log 12), and
under `MATCHER = reference` (42_lz77 R205) in every block of a compression pass. -/
def Obligations.TokensAreValid : Prop :=
  (∀ (c : Config) (ctr call : Nat) (data : List Byte) (start stop : Nat), start ≤ stop → stop ≤ data.length →
    validTokens c.window data start stop (anyTokens c ctr call data start stop) = true) ∧
  (∀ (c : Config) (ctr call : Nat) (data : List Byte) (w : Work) (n : Nat), c.ok → c.matcher = .reference →
    n < blockCount c data.length →
    let stop := min data.length (n * c.blockSize + c.blockSize)
    validTokens c.window data (n * c.blockSize) stop
      (blockTokens c ctr (call + n) data (n * c.blockSize) stop (beforeBlock c ctr call data w n)).tok = true)

/-! ## Checksums -/

/-- 48_commands R382. -/
def Obligations.Crc32Completes : Prop :=
  ∀ s : State, s.ready → s.regionsOk .s = true → exec .crc32 s = .next { s.started with
    done := true, res0 := crc32 s.input, work := { s.work with crcR := crcRegister s.input } }

/-- 48_commands R389. -/
def Obligations.Adler32Completes : Prop :=
  ∀ s : State, s.ready → s.regionsOk .s = true → exec .adler32 s = .next { s.started with
    done := true, res0 := BitVec.ofNat 32 (adlerValue (adler32 s.input))
    work := { s.work with adlerS1 := (adler32 s.input).1, adlerS2 := (adler32 s.input).2 } }

/-- 45_zlib_adler R300: the two sums with the reduction deferred to the end; both stay below 65521, so the value is a
32-bit one. -/
def Obligations.AdlerIsTheDeferredSum : Prop :=
  ∀ bs : List Byte,
    (adler32 bs).1 = (1 + (bs.map BitVec.toNat).sum) % 65521 ∧
    (adler32 bs).2 = ((List.range bs.length).map fun k => 1 + ((bs.take (k + 1)).map BitVec.toNat).sum).sum % 65521 ∧
    adlerValue (adler32 bs) < 2 ^ 32

/-- 47_crc32 R361: `Crc32` without its table, one byte absorbed by eight applications of the bitwise step with the
polynomial `0xEDB88320`; the check values of R362; and R365: changing any single byte changes the CRC32. -/
def Obligations.CrcDetectsOneByte : Prop :=
  (∀ bs : List Byte,
    let shift : Word → Word := fun c => if c.getLsbD 0 then (c >>> 1) ^^^ 0xEDB88320 else c >>> 1
    crc32 bs = bs.foldl (fun r b => shift^[8] (r ^^^ b.setWidth 32)) 0xFFFFFFFF ^^^ 0xFFFFFFFF) ∧
  (crc32 [] = 0 ∧ crc32 [0x31, 0x32, 0x33, 0x34, 0x35, 0x36, 0x37, 0x38, 0x39] = 0xCBF43926 ∧
    crc32 [0x61] = 0xE8B7BE43 ∧ crc32 [0x61, 0x62, 0x63] = 0x352441C2 ∧ crc32 [0x00] = 0xD202EF8D ∧
    crc32 [0x49, 0x45, 0x4E, 0x44] = 0xAE426082) ∧
  (∀ (before after : List Byte) (x y : Byte), x ≠ y → crc32 (before ++ x :: after) ≠ crc32 (before ++ y :: after))

/-- 47_crc32 R364: `CRCCHK` and the chunk record it reads: a record cut short, the comparison and what it returns. That
`CRCCHK` only starts and its record is read in a step of its own is log 1, the model's choice. `CRCCHK` uses `S` only:
its faults leave every byte of memory (`raiseInput`, spelled out in the last clause). -/
def Obligations.ChunkCheck : Prop :=
  (∀ s : State, s.ready → s.regionsOk .s = true →
    exec .crcchk s = .next { s.started with engine := .chunk }) ∧
  (∀ (p : EmptySlot) (src : Source) (bp : Nat),
    (src.len < 12 ∨ src.len - 12 < src.be32At 0 → decode p .chunk src bp = .error ⟨.endOfInput, 8 * src.len, bp⟩) ∧
    (12 ≤ src.len → src.be32At 0 ≤ src.len - 12 → decode p .chunk src bp = .ok
      (.chunk (BitVec.ofNat 32 (src.be32At 0)) (BitVec.ofNat 32 (src.be32At 4))
        (BitVec.ofNat 32 (src.be32At (8 + src.be32At 0))), bp))) ∧
  (∀ (len typ crc : Word) (s : State), s.regionsOk .s = true → 12 ≤ s.slen.toNat →
    len.toNat ≤ s.slen.toNat - 12 →
    let covered := s.inBytes 4 (4 + len.toNat)
    (s.ignoreCrc = true ∨ crc = crc32 covered → exec (.chunk len typ crc) s = .next { s with
      engine := .idle, done := true, res0 := crc32 covered, work := { s.work with crcR := crcRegister covered } }) ∧
    (s.ignoreCrc = false → crc ≠ crc32 covered → exec (.chunk len typ crc) s = .next
      (({ s with res0 := crc32 covered, work := { s.work with crcR := crcRegister covered } }).raiseInput .crcMismatch
        (8 + len.toNat)))) ∧
  (∀ (s : State) (e : Stop), s.engine = .chunk → s.stopFetch e =
    ({ s with dlen := 0, bp := BitVec.ofNat 35 e.bp }).raiseInput e.cause e.info) ∧
  (∀ (s : State) (c : Cause) (info : Nat), (s.raiseInput c info).mem = s.mem)

/-! ## Encoding -/

/-- 30_encoding R97: every literal/length instruction, with every extra value, sent in any tree that codes its symbol,
decodes to itself and takes exactly its bits. -/
def Obligations.LitLenElementsRoundTrip : Prop :=
  ∀ (i : Instr) (s : Nat) (e : EncEnv) (p : EmptySlot) (src : Source) (k : Nat), litLenSymbol i = some s →
    e.ll.built → e.ll.coded s → src.holds k (encode e i) →
    decode p (.litLen e.ll) src k = .ok (i, k + (encode e i).length)

/-- 30_encoding R98: the same for every distance instruction. -/
def Obligations.DistElementsRoundTrip : Prop :=
  ∀ (i : Instr) (s : Nat) (e : EncEnv) (p : EmptySlot) (src : Source) (k : Nat), distSymbol i = some s →
    e.d.built → e.d.coded s → src.holds k (encode e i) →
    decode p (.dist e.d) src k = .ok (i, k + (encode e i).length)

/-- 30_encoding R93, R95, R101 to R106: the other stream elements, with every operand at every value. The cursor is
the one each element's rule starts from: a stored block's `LEN` is aligned, a trailer, scanline or chunk does not move
it. -/
def Obligations.OtherElementsRoundTrip : Prop :=
  ∀ (e : EncEnv) (p : EmptySlot) (src : Source) (k : Nat),
    (∀ f, src.holds k (encode e (.blockStored f)) → decode p .header src k = .ok (.blockStored f, k + 3)) ∧
    (∀ f, src.holds k (encode e (.blockFixed f)) → decode p .header src k = .ok (.blockFixed f, k + 3)) ∧
    (∀ f, src.holds k (encode e (.blockDynamic f)) → decode p .header src k = .ok (.blockDynamic f, k + 3)) ∧
    (∀ f, src.holds k (encode e (.blockIllegal f)) → decode p .header src k = .ok (.blockIllegal f, k + 3)) ∧
    (∀ len nlen, src.holds e.bp (encode e (.stored len nlen)) →
      decode p .stored src e.bp = .ok (.stored len nlen, alignRead e.bp)) ∧
    (∀ i c first, codeLenSymbol i = some c → (c = 16 → first = false) → e.cl.built → e.cl.coded c →
      src.holds k (encode e i) → decode p (.codeLen e.cl first) src k = .ok (i, k + (encode e i).length)) ∧
    (∀ hlit hdist hclen clens, (Instr.dynhdr hlit hdist hclen clens).wellFormed = true →
      src.holds k (encode e (.dynhdr hlit hdist hclen clens)) →
      decode p .dynHeader src k = .ok (.dynhdr hlit hdist hclen clens,
        k + (encode e (.dynhdr hlit hdist hclen clens)).length)) ∧
    (∀ cmf flg, src.holds 0 (encode e (.zhdr cmf flg)) → decode p .zHeader src k = .ok (.zhdr cmf flg, k)) ∧
    (∀ a, src.holds e.bp (encode e (.ztrailer a)) →
      decode p (.trailer .afterStream) src e.bp = .ok (.ztrailer a, e.bp)) ∧
    (∀ i q, isScanline i = true → src.holds (8 * q) (encode e i) → decode p (.scanline q) src k = .ok (i, k)) ∧
    (∀ t q, (Instr.ftIllegal t).wellFormed = true → src.holds (8 * q) (encode e (.ftIllegal t)) →
      decode p (.scanline q) src k = .ok (.ftIllegal t, k)) ∧
    (∀ len typ crc, e.data.length = len.toNat → src.holds 0 (encode e (.chunk len typ crc)) →
      decode p .chunk src k = .ok (.chunk len typ crc, k))

/-- 44_deflate R262, R290: a stored block, wherever in the stream the compressor puts it, is read back: the header,
the lengths, and the data behind them. -/
def Obligations.StoredBlockReadsBack : Prop :=
  ∀ (final : Bool) (k : Nat) (bs : List Byte) (src : Source) (p : EmptySlot), bs.length ≤ 65535 →
    src.holds k (storedBits final k bs) →
    decode p .header src k = .ok (.blockStored final, k + 3) ∧
    ∃ len nlen q, decode p .stored src (k + 3) = .ok (.stored len nlen, 8 * q) ∧
      len.toNat = bs.length ∧ len.toNat + nlen.toNat = 65535 ∧ q + 4 + bs.length ≤ src.len ∧
      (k + (storedBits final k bs).length = 8 * (q + 4 + bs.length)) ∧
      ∀ j, j < bs.length → src.byte (q + 4 + j) = bs.getD j 0

/-- 30_encoding R91, R92: every command's word decodes to it; and words and streams written out from the spec's
encodings, at least one for each format of a stream element (R93, R95, R97, R98, R101 to R106), decode to the
instructions they stand for. -/
def Obligations.SampleWordsDecode : Prop :=
  (∀ i : Instr, isCommand i = true → decodeCommand (encodeCommand i) = some i) ∧
  decodeCommand 0x00000010 = some .inflate ∧ decodeCommand 0x00000110 = none ∧
  -- BLOCK final=1 type=FIXED: stream bits 1 1 0 (30_encoding R93); 0x4B of 95_test_vectors
  decode .fault .header (.ofBytes [0x4B]) 0 = .ok (.blockFixed true, 3) ∧
  decode .fault .header (.ofBytes [0x3D]) 0 = .ok (.blockDynamic true, 3) ∧
  decode .fault .header (.ofBytes [0x00]) 0 = .ok (.blockStored false, 3) ∧
  decode .fault .header (.ofBytes [0x06]) 0 = .ok (.blockIllegal false, 3) ∧
  -- CMF, FLG (30_encoding R103)
  decode .fault .zHeader (.ofBytes [0x78, 0x01]) 0 = .ok (.zhdr 0x78 0x01, 0) ∧
  -- LEN = 3, NLEN = 0xFFFC behind five pad bits (30_encoding R95)
  decode .fault .stored (.ofBytes [0xF9, 0x03, 0x00, 0xFC, 0xFF]) 3 = .ok (.stored 3 0xFFFC, 8) ∧
  -- distance symbol 4 is 00100 in the fixed code, then one extra bit (30_encoding R98)
  decode .fault (.dist fixD) (.ofBytes [0x24]) 0 = .ok (.dist4 1, 6) ∧
  -- literal 0x61 is 10010001 and the end code 0000000 in the fixed code (30_encoding R97); 95_test_vectors 2.1
  decode .fault (.litLen fixLL) (.ofBytes [0x4B, 0x04, 0x00]) 3 = .ok (.lit 0x61, 11) ∧
  decode .fault (.litLen fixLL) (.ofBytes [0x4B, 0x04, 0x00]) 11 = .ok (.endOfBlock, 18) ∧
  -- literal/length symbol 265 is 0001001, then one extra bit
  decode .fault (.litLen fixLL) (.ofBytes [0xC8]) 0 = .ok (.len265 1, 8) ∧
  -- HLIT = 264, HDIST = 3, HCLEN = 18, then 18 lengths of 3 bits (30_encoding R101): the header of 44_deflate R278
  decode .fault .dynHeader (.ofBytes [0x3D, 0xC2, 0x41, 0x11, 0x00, 0x00, 0x00, 0x82, 0xB0]) 3 =
    .ok (.dynhdr 7 2 14 [0, 4, 2, 4, 0, 0, 0, 0, 0, 0, 0, 0, 0, 2, 0, 2, 0, 3], 71) ∧
  -- the first two coded lengths behind it, in the tree of those lengths: (18, 86) as 10 and seven extra bits, 3 as 01
  -- (30_encoding R102)
  (∀ cl, buildFromLengths ([4, 3, 2, 2] ++ List.replicate 13 0 ++ [4, 2]) 7 = .ok cl →
    decode .fault (.codeLen cl true) (.ofBytes [0x3D, 0xC2, 0x41, 0x11, 0x00, 0x00, 0x00, 0x82, 0xB0, 0xAC, 0x4A]) 71 =
      .ok (.cl18 86, 80) ∧
    decode .fault (.codeLen cl false) (.ofBytes [0x3D, 0xC2, 0x41, 0x11, 0x00, 0x00, 0x00, 0x82, 0xB0, 0xAC, 0x4A]) 80 =
      .ok (.clLen 3, 82)) ∧
  -- the Adler32 of "a", most significant byte first, behind the stream or at the end of the input (30_encoding R104)
  decode .fault (.trailer .afterStream) (.ofBytes [0x78, 0x01, 0x4B, 0x04, 0x00, 0x00, 0x62, 0x00, 0x62]) 34 =
    .ok (.ztrailer 0x00620062, 34) ∧
  decode .fault (.trailer .last4) (.ofBytes [0x78, 0x01, 0x4B, 0x04, 0x00, 0x00, 0x62, 0x00, 0x62]) 34 =
    .ok (.ztrailer 0x00620062, 34) ∧
  -- a chunk record without data: LENGTH, TYPE "IEND", CRC (30_encoding R106, 47_crc32 R362)
  decode .fault .chunk (.ofBytes [0x00, 0x00, 0x00, 0x00, 0x49, 0x45, 0x4E, 0x44, 0xAE, 0x42, 0x60, 0x82]) 0 =
    .ok (.chunk 0 0x49454E44 0xAE426082, 0) ∧
  -- a filter-type byte (30_encoding R105)
  decode .fault (.scanline 0) (.ofBytes [0x04]) 0 = .ok (.ftPaeth, 0)

/-! ## The step and the host -/

/-- 10_state R23, 43_inflate R220, R244: when the bits at the cursor decode to an instruction, the step is that
instruction run with the cursor behind what was read of it; when they do not, the step ends the command in the fault
the decoder names; an idle block with nothing asked of it stays as it is. The host's next access comes first: `wait`
and `tick` let the engine run, and a write of a command word to an idle block runs that command (10_state R29). That a
step runs exactly one decoded element is log 1, that the host's accesses stand in the state and come first, with `wait`
and `tick`, is log 2 and 3: the model's choices. -/
def Obligations.StepRunsDecodedInstruction : Prop :=
  (∀ (s : State) (ctx : Ctx) (i : Instr) (k : Nat), s.fetchOk = true → s.context = some ctx →
    decode s.cfg.emptySlot ctx s.source s.bp.toNat = .ok (i, k) →
    (s.host = [] → step s = exec i { s with bp := BitVec.ofNat 35 k }) ∧
    (∀ rest, s.host = .wait :: rest → step s = exec i { s with bp := BitVec.ofNat 35 k }) ∧
    (∀ rest, s.host = .tick :: rest → step s = exec i { s with host := rest, bp := BitVec.ofNat 35 k })) ∧
  (∀ (s : State) (ctx : Ctx) (e : Stop), s.fetchOk = true → s.context = some ctx →
    decode s.cfg.emptySlot ctx s.source s.bp.toNat = .error e → s.host = [] →
    step s = .next (({ s with dlen := 0, bp := BitVec.ofNat 35 e.bp }).raiseUses s.engineUses e.cause e.info)) ∧
  (∀ s : State, s.busy = false → s.host = [] → step s = .next s) ∧
  (∀ (s : State) (w : Word) (i : Instr) (rest : List HostAct), s.host = .writeCsr 1 w :: rest → s.busy = false →
    decodeCommand w = some i → step s = exec i { s with host := rest })

/-- 10_state R21, R22, R28, R34, 48_commands R372: the host's register accesses. While `BUSY = 0` a write of an operand
register changes it alone, and one of `CTRL` its defined bits; while `BUSY = 1` both are ignored; a write of any CSR
but `CMD` and `CTRL` is always ignored. -/
def Obligations.HostRegisterAccess : Prop :=
  (∀ (s : State) (i j : Fin 9) (v : Word), s.busy = false →
    ∃ t, hostAct (.writeX i v) s = .next t ∧ t.readX j = (if j = i then v else s.readX j) ∧
      t = { s with src := t.src, slen := t.slen, dst := t.dst, dcap := t.dcap, dlen := t.dlen, arg0 := t.arg0,
                   arg1 := t.arg1, arg2 := t.arg2, res0 := t.res0 }) ∧
  (∀ (s : State) (i : Fin 9), s.busy = false →
    hostAct (.readX i) s = .next { s with rdata := (s.readX i).setWidth 35 }) ∧
  (∀ (s : State) (v : Word), s.busy = false →
    hostAct (.writeCsr 5 v) s = .next { s with ctrl := v &&& 0x00000337 }) ∧
  (∀ (s : State) (i : Fin 9) (v : Word), s.busy = true → hostAct (.writeX i v) s = .next s) ∧
  (∀ (s : State) (v : Word), s.busy = true → hostAct (.writeCsr 5 v) s = .next s) ∧
  (∀ (s : State) (n : Nat) (v : Word), n ≠ 1 → n ≠ 5 → hostAct (.writeCsr n v) s = .next s)

/-- 10_state R28, R30 to R35, 48_commands R372: what a read of each CSR returns while `BUSY = 0`, and for `ID`,
`STATUS` and `CTRL` while `BUSY = 1` too; the bits of `STATUS`. -/
def Obligations.CsrReads : Prop :=
  (∀ s : State, (s.readCsr 0).rdata = 0x41374401 ∧ (s.readCsr 2).rdata = s.status.setWidth 35 ∧
    (s.readCsr 5).rdata = s.ctrl.setWidth 35 ∧ ∀ n, 9 ≤ n → (s.readCsr n).rdata = 0) ∧
  (∀ s : State, s.busy = false →
    (s.readCsr 3).rdata = s.err.setWidth 35 ∧ (s.readCsr 4).rdata = s.errInfo ∧ (s.readCsr 6).rdata = s.bp ∧
    (s.readCsr 7).rdata = s.pos.setWidth 35 ∧ (s.readCsr 8).rdata = s.wbp) ∧
  (∀ s : State, s.status.getLsbD 0 = s.busy ∧ s.status.getLsbD 1 = s.done ∧ s.status.getLsbD 2 = (s.err != 0) ∧
    s.status.getLsbD 3 = s.bfinal ∧ s.status.getLsbD 4 = s.treev ∧ ∀ k, 5 ≤ k → s.status.getLsbD k = false)

/-- 20_memory R66, R68, R75, 48_commands R372: a host access to memory reads or changes exactly the addressed byte, when
the address exists and is not handed over to the running command; while a command runs the bytes of the regions it uses
are, and `CRCCHK` uses `S` only (48_commands R374). An access to one of them is refused, and an access to an address
that does not exist faults (log 11, 18: the model's choice). -/
def Obligations.HostMemoryAccess : Prop :=
  ∀ (s : State) (a : Word) (v : Byte),
    let handedOver : Prop := s.busy = true ∧ (s.inS a.toNat ∨ s.engine ≠ .chunk ∧ s.inT a.toNat)
    (memValid s.cfg a.toNat → ¬ handedOver →
      (∃ m, hostAct (.writeMem a v) s = .next { s with mem := m } ∧
        (s.mem.wf = true → ∀ b, m.read b = if b = a.toNat then v else s.mem.read b)) ∧
      hostAct (.readMem a) s = .next { s with rdata := (s.mem.read a.toNat).setWidth 35 }) ∧
    (memValid s.cfg a.toNat → handedOver → hostAct (.writeMem a v) s = .refused .hostTouchesRegion ∧
      hostAct (.readMem a) s = .refused .hostTouchesRegion) ∧
    (¬ memValid s.cfg a.toNat → hostAct (.writeMem a v) s = .fault .noSuchAddress ∧
      hostAct (.readMem a) s = .fault .noSuchAddress)
end

