-- ==== Sys2Proof/Laws/Huffman.lean ====
section
/-! SUPPORT. The tree builder: its codes are the canonical ones in closed form (41_huffman R152, R153), its table holds
exactly their decision nodes (R154 to R156), and which length sets build (R157). -/

namespace Sys2Proof.Machine

/-! ## Codes -/

@[simp] theorem length_codeBits (n c : Nat) : (codeBits n c).length = n := by simp [codeBits]

theorem codeBits_succ (n c : Nat) : codeBits (n + 1) c = c.testBit n :: codeBits n c := by
  simp only [codeBits, List.range_succ_eq_map, List.map_cons, List.map_map]
  congr 1
  exact List.map_congr_left fun i _ => by simp only [Function.comp]; congr 1; omega

/-- The space below a length: the first code of length `b`, closed form. -/
theorem firstCode_eq (lengths : List Nat) (b : Nat) :
    firstCode lengths b = ((lengths.filter fun k => k ≠ 0 ∧ k < b).map fun k => 2 ^ (b - k)).sum := by
  have step : ∀ (b : Nat) (ls : List Nat), ((ls.filter fun k => k ≠ 0 ∧ k < b + 1).map fun k => 2 ^ (b + 1 - k)).sum =
      2 * (((ls.filter fun k => k ≠ 0 ∧ k < b).map fun k => 2 ^ (b - k)).sum + if b = 0 then 0 else ls.count b) := by
    intro b ls
    induction ls with
    | nil => simp
    | cons k ks ih =>
      rcases Nat.lt_trichotomy k b with h | rfl | h
      · rcases Nat.eq_zero_or_pos k with rfl | h0
        · rw [List.filter_cons_of_neg (by simp), List.filter_cons_of_neg (by simp), ih,
            List.count_cons_of_ne (by omega)]
        · rw [List.filter_cons_of_pos (by simp; omega), List.filter_cons_of_pos (by simp; omega),
            List.count_cons_of_ne (by omega), List.map_cons, List.map_cons, List.sum_cons, List.sum_cons, ih,
            show b + 1 - k = (b - k) + 1 by omega, Nat.pow_succ]
          ring
      · rcases Nat.eq_zero_or_pos k with rfl | h0
        · rw [List.filter_cons_of_neg (by simp), List.filter_cons_of_neg (by simp), ih]
          simp
        · rw [List.filter_cons_of_pos (by simp; omega), List.filter_cons_of_neg (by simp), List.map_cons,
            List.sum_cons, ih, List.count_cons_self, if_neg (by omega), if_neg (by omega),
            show k + 1 - k = 1 by omega]
          ring
      · rw [List.filter_cons_of_neg (by simp; omega), List.filter_cons_of_neg (by simp; omega), ih,
          List.count_cons_of_ne (by omega)]
  induction b with
  | zero => simp [firstCode]
  | succ b ih => rw [firstCode, ih, step]

theorem canonicalCode_eq (lengths : List Nat) (s : Nat) : canonicalCode lengths s =
    (firstCode lengths (lengths.getD s 0) + (lengths.take s).count (lengths.getD s 0)) % 2 ^ lengths.getD s 0 := by
  rw [canonicalCode, firstCode_eq]

theorem assignCodes_eq {lengths : List Nat} (ls pre next : List Nat) (h : pre ++ ls = lengths)
    (hl : ∀ l ∈ ls, l < next.length)
    (hn : ∀ l, l ≠ 0 → l < next.length → next.getD l 0 = firstCode lengths l + pre.count l) :
    assignCodes ls next = (List.range ls.length).map fun i => canonicalCode lengths (pre.length + i) := by
  induction ls generalizing pre next with
  | nil => rfl
  | cons l ls ih =>
    have hget : lengths.getD pre.length 0 = l := by subst h; simp
    have htake : lengths.take pre.length = pre := by subst h; simp
    have h' : (pre ++ [l]) ++ ls = lengths := by simpa using h
    have tail : ∀ next', (∀ k ∈ ls, k < next'.length) →
        (∀ k, k ≠ 0 → k < next'.length → next'.getD k 0 = firstCode lengths k + (pre ++ [l]).count k) →
        assignCodes ls next' = (List.range ls.length).map fun i => canonicalCode lengths (pre.length + (i + 1)) := by
      intro next' h1 h2
      rw [ih (pre ++ [l]) next' h' h1 h2]
      exact List.map_congr_left fun i _ => by rw [List.length_append]; congr 1; simp; omega
    rw [List.length_cons, List.range_succ_eq_map, List.map_cons, List.map_map, assignCodes]
    split
    · rename_i h0
      subst h0
      rw [tail next (fun k hk => hl k (by simp [hk])) fun k hk hk' => by
        rw [hn k hk hk', List.count_append, List.count_singleton]; simp; omega]
      congr 1
      rw [Nat.add_zero, canonicalCode_eq, hget]
      exact (Nat.mod_one _).symm
    · rename_i h0
      have hlt := hl l (by simp)
      rw [tail (next.set l (next.getD l 0 + 1)) (fun k hk => by simpa using hl k (by simp [hk])) fun k hk hk' => by
        rw [List.length_set] at hk'
        rw [List.count_append, List.count_singleton, List.getD_eq_getElem?_getD, List.getElem?_set]
        split
        · next e => subst e; rw [Option.getD_some, hn l h0 hlt]; simp; omega
        · next e => rw [← List.getD_eq_getElem?_getD, hn k hk hk']; simp [e]]
      congr 1
      rw [Nat.add_zero, canonicalCode_eq, hget, htake, hn l h0 hlt]

theorem canonicalCodes_eq {lengths : List Nat} {maxBits : Nat} (h : ∀ l ∈ lengths, l ≤ maxBits) :
    canonicalCodes lengths maxBits = (List.range lengths.length).map (canonicalCode lengths) := by
  rw [canonicalCodes, assignCodes_eq lengths [] _ rfl (fun l hl => by simpa using Nat.lt_succ_of_le (h l hl))]
  · simp
  · intro l _ hl
    rw [List.length_map, List.length_range] at hl
    simp [List.getD_eq_getElem?_getD, hl]

@[simp] theorem length_canonicalBits (lengths : List Nat) (s : Nat) :
    (canonicalBits lengths s).length = lengths.getD s 0 := by simp [canonicalBits]

/-! ## Decision nodes -/

/-- A node, if it is new. -/
def addNode (nodes : List (List Bool)) (p : List Bool) : List (List Bool) := if p ∈ nodes then nodes else nodes ++ [p]

/-- The nodes that the code `p ++ bits` needs from node `p` down. -/
def grow (nodes : List (List Bool)) (p bits : List Bool) : List (List Bool) :=
  ((List.range bits.length).map fun j => p ++ bits.take j).foldl addNode nodes

theorem grow_nil (nodes : List (List Bool)) (p : List Bool) : grow nodes p [] = nodes := rfl

theorem addNode_of_mem {nodes : List (List Bool)} {p : List Bool} (h : p ∈ nodes) : addNode nodes p = nodes := if_pos h

theorem mem_addNode {nodes : List (List Bool)} {p q : List Bool} : q ∈ addNode nodes p ↔ q ∈ nodes ∨ q = p := by
  unfold addNode; split <;> simp_all

theorem grow_step (nodes : List (List Bool)) (p : List Bool) (x : Bool) (rest : List Bool) :
    grow nodes p (x :: rest) = grow (addNode nodes p) (p ++ [x]) rest := by
  rw [grow, List.length_cons, List.range_succ_eq_map, List.map_cons, List.map_map, List.foldl_cons]
  simp [grow, Function.comp_def]

theorem grow_cons {nodes : List (List Bool)} {p : List Bool} (h : p ∈ nodes) (x : Bool) (rest : List Bool) :
    grow nodes p (x :: rest) = grow nodes (p ++ [x]) rest := by rw [grow_step, addNode_of_mem h]

theorem grow_start (nodes : List (List Bool)) (p : List Bool) {rest : List Bool} (h : rest ≠ []) :
    grow nodes p rest = grow (addNode nodes p) p rest := by
  cases rest with
  | nil => exact absurd rfl h
  | cons x rest => rw [grow_step, grow_step, addNode_of_mem (mem_addNode.2 (.inr rfl))]

theorem mem_foldl_addNode (ps nodes : List (List Bool)) (q : List Bool) :
    q ∈ ps.foldl addNode nodes ↔ q ∈ nodes ∨ q ∈ ps := by
  induction ps generalizing nodes with
  | nil => simp
  | cons p ps ih => rw [List.foldl_cons, ih, mem_addNode]; simp [or_assoc]

theorem length_foldl_addNode (ps nodes : List (List Bool)) : nodes.length ≤ (ps.foldl addNode nodes).length := by
  induction ps generalizing nodes with
  | nil => exact Nat.le_refl _
  | cons p ps ih =>
    refine Nat.le_trans ?_ (ih _)
    unfold addNode; split <;> simp

theorem nodup_foldl_addNode (ps nodes : List (List Bool)) (h : nodes.Nodup) : (ps.foldl addNode nodes).Nodup := by
  induction ps generalizing nodes with
  | nil => exact h
  | cons p ps ih =>
    refine ih _ ?_
    unfold addNode
    split
    · exact h
    · rename_i hp
      exact List.nodup_append.2 ⟨h, by simp, fun a ha b hb => by simp at hb; subst hb; exact fun e => hp (e ▸ ha)⟩

theorem length_grow (nodes : List (List Bool)) (p bits : List Bool) : nodes.length ≤ (grow nodes p bits).length :=
  length_foldl_addNode _ _

theorem decisionNodes_zero (lengths : List Nat) : decisionNodes lengths 0 = [] := rfl

theorem decisionNodes_succ (lengths : List Nat) (k : Nat) :
    decisionNodes lengths (k + 1) = grow (decisionNodes lengths k) [] (canonicalBits lengths k) := by
  unfold decisionNodes
  rw [List.range_succ, List.flatMap_append, List.foldl_append]
  simp only [List.flatMap_cons, List.flatMap_nil, List.append_nil, grow, List.nil_append, length_canonicalBits]
  rfl

theorem mem_decisionNodes {lengths : List Nat} {k : Nat} {p : List Bool} :
    p ∈ decisionNodes lengths k ↔ ∃ s, s < k ∧ ∃ j, j < lengths.getD s 0 ∧ p = (canonicalBits lengths s).take j := by
  have := mem_foldl_addNode ((List.range k).flatMap fun s =>
    (List.range (lengths.getD s 0)).map fun j => (canonicalBits lengths s).take j) [] p
  refine this.trans ?_
  simp only [List.not_mem_nil, false_or, List.mem_flatMap, List.mem_range, List.mem_map]
  exact ⟨fun ⟨s, hs, j, hj, e⟩ => ⟨s, hs, j, hj, e.symm⟩, fun ⟨s, hs, j, hj, e⟩ => ⟨s, hs, j, hj, e.symm⟩⟩

theorem nodup_decisionNodes (lengths : List Nat) (k : Nat) : (decisionNodes lengths k).Nodup :=
  nodup_foldl_addNode _ _ List.nodup_nil

/-! ## Insertion (41_huffman R156) -/

/-- The table holds the codes `coded` with the nodes `nodes`, in the order they were made. -/
structure Holds (n : Nat) (coded : Nat → List Bool → Prop) (nodes : List (List Bool)) (b : TableBuild) : Prop where
  tab : b.tab.length = 2 * n
  filled : b.filled + 1 = nodes.length
  root : nodes[0]? = some []
  nodup : nodes.Nodup
  closed : ∀ p x, p ++ [x] ∈ nodes → p ∈ nodes
  small : ∀ s q, coded s q → s < n
  above : ∀ s q, coded s q → ∃ p x, q = p ++ [x] ∧ p ∈ nodes
  notNode : ∀ s q, coded s q → q ∉ nodes
  unique : ∀ s r q, coded s q → coded r q → s = r
  code : ∀ i p x s, nodes[i]? = some p → coded s (p ++ [x]) → b.tab.getD (2 * i + x.toNat) none = some s
  node : ∀ i p x j, nodes[i]? = some p → nodes[j]? = some (p ++ [x]) →
    b.tab.getD (2 * i + x.toNat) none = some (n + j)
  empty : ∀ i p x, nodes[i]? = some p → (∀ s, ¬ coded s (p ++ [x])) → p ++ [x] ∉ nodes →
    b.tab.getD (2 * i + x.toNat) none = none
  rest : ∀ k, 2 * nodes.length ≤ k → b.tab.getD k none = none

theorem Holds.prefix_mem {n : Nat} {coded : Nat → List Bool → Prop} {nodes : List (List Bool)} {b : TableBuild}
    (h : Holds n coded nodes b) {p q : List Bool} (hp : p ∈ nodes) (hq : q <+: p) : q ∈ nodes := by
  obtain ⟨t, rfl⟩ := hq
  induction t using List.reverseRecOn with
  | nil => simpa using hp
  | append_singleton t x ih => exact ih (h.closed _ x (by rwa [List.append_assoc]))

theorem Holds.prefix_coded {n : Nat} {coded : Nat → List Bool → Prop} {nodes : List (List Bool)} {b : TableBuild}
    (h : Holds n coded nodes b) {p q : List Bool} {s : Nat} (hq : coded s q) (hp : p <+: q) : p = q ∨ p ∈ nodes := by
  obtain ⟨r, x, rfl, hr⟩ := h.above s q hq
  rcases List.prefix_concat_iff.1 hp with e | e
  · exact .inl e
  · exact .inr (h.prefix_mem hr e)

theorem getD_set_self {α : Type} {l : List (Option α)} {k : Nat} (h : k < l.length) (v : Option α) :
    (l.set k v).getD k none = v := by simp [List.getD_eq_getElem?_getD, h]

theorem getD_set_ne {α : Type} {l : List (Option α)} {k j : Nat} (h : k ≠ j) (v : Option α) :
    (l.set k v).getD j none = l.getD j none := by simp [List.getD_eq_getElem?_getD, List.getElem?_set_ne h]

theorem slot_inj {i j : Nat} {x y : Bool} (h : 2 * i + x.toNat = 2 * j + y.toNat) : i = j ∧ x = y := by
  cases x <;> cases y <;> simp at h ⊢ <;> omega

theorem slot_lt {i m : Nat} (x : Bool) (h : i < m) : 2 * i + x.toNat < 2 * m := by cases x <;> simp <;> omega

/-- A code ends at an empty slot. -/
theorem Holds.addCode {n : Nat} {coded : Nat → List Bool → Prop} {nodes : List (List Bool)} {b : TableBuild}
    (h : Holds n coded nodes b) {node sym : Nat} {p : List Bool} {x : Bool} (hp : nodes[node]? = some p)
    (hs : sym < n) (hn : node + 2 ≤ n) (hc : ∀ s, ¬ coded s (p ++ [x])) (hN : p ++ [x] ∉ nodes) :
    Holds n (fun s q => coded s q ∨ s = sym ∧ q = p ++ [x]) nodes
      { b with tab := b.tab.set (2 * node + x.toNat) (some sym) } := by
  have hk : 2 * node + x.toNat < b.tab.length := by rw [h.tab]; exact slot_lt x (by omega)
  have other : ∀ {i q y}, nodes[i]? = some q → q ++ [y] ≠ p ++ [x] → 2 * node + x.toNat ≠ 2 * i + y.toNat := by
    intro i q y hq hne e
    obtain ⟨rfl, rfl⟩ := slot_inj e
    rw [hp] at hq
    exact hne (by rw [Option.some.inj hq])
  constructor
  · simpa using h.tab
  · exact h.filled
  · exact h.root
  · exact h.nodup
  · exact h.closed
  · rintro s q (hq | ⟨rfl, -⟩)
    · exact h.small s q hq
    · exact hs
  · rintro s q (hq | ⟨-, rfl⟩)
    · exact h.above s q hq
    · exact ⟨p, x, rfl, List.mem_of_getElem? hp⟩
  · rintro s q (hq | ⟨-, rfl⟩)
    · exact h.notNode s q hq
    · exact hN
  · rintro s r q (hq | ⟨rfl, rfl⟩) (hr | ⟨rfl, e⟩)
    · exact h.unique s r q hq hr
    · exact absurd (e ▸ hq) (hc s)
    · exact absurd hr (hc r)
    · rfl
  · rintro i q y s hq (hs' | ⟨rfl, e⟩)
    · rw [getD_set_ne (other hq fun e => hc s (e ▸ hs'))]
      exact h.code i q y s hq hs'
    · obtain ⟨rfl, rfl⟩ : q = p ∧ y = x := by simpa using List.append_inj' e rfl
      have : i = node := (List.getElem?_inj (List.getElem?_eq_some_iff.1 hq).1 h.nodup).1 (hq.trans hp.symm)
      subst this
      exact getD_set_self hk _
  · intro i q y j hq hj
    rw [getD_set_ne (other hq fun e => hN (e ▸ List.mem_of_getElem? hj))]
    exact h.node i q y j hq hj
  · intro i q y hq hc' hN'
    rw [getD_set_ne (other hq fun e => hc' sym (.inr ⟨rfl, e⟩))]
    exact h.empty i q y hq (fun s hs' => hc' s (.inl hs')) hN'
  · intro k hk'
    have : node < nodes.length := (List.getElem?_eq_some_iff.1 hp).1
    rw [getD_set_ne (by have := slot_lt x this; omega)]
    exact h.rest k hk'

/-- A new node is made at an empty slot. -/
theorem Holds.addNode {n : Nat} {coded : Nat → List Bool → Prop} {nodes : List (List Bool)} {b : TableBuild}
    (h : Holds n coded nodes b) {node : Nat} {p : List Bool} {x : Bool} (hp : nodes[node]? = some p)
    (hn : node + 2 ≤ n) (hc : ∀ s, ¬ coded s (p ++ [x])) (hN : p ++ [x] ∉ nodes) :
    Holds n coded (nodes ++ [p ++ [x]])
      { tab := b.tab.set (2 * node + x.toNat) (some (n + (b.filled + 1))), filled := b.filled + 1 } := by
  have hk : 2 * node + x.toNat < b.tab.length := by rw [h.tab]; exact slot_lt x (by omega)
  have hnode : node < nodes.length := (List.getElem?_eq_some_iff.1 hp).1
  have old : ∀ {i q}, (nodes ++ [p ++ [x]])[i]? = some q → nodes[i]? = some q ∨ i = nodes.length ∧ q = p ++ [x] := by
    intro i q hq
    rcases Nat.lt_trichotomy i nodes.length with hi | rfl | hi
    · exact .inl (by rwa [List.getElem?_append_left hi] at hq)
    · exact .inr ⟨rfl, by simpa using hq.symm⟩
    · rw [List.getElem?_eq_none (by simp; omega)] at hq
      exact absurd hq (by simp)
  have other : ∀ {i q y}, nodes[i]? = some q → q ++ [y] ≠ p ++ [x] → 2 * node + x.toNat ≠ 2 * i + y.toNat := by
    intro i q y hq hne e
    obtain ⟨rfl, rfl⟩ := slot_inj e
    rw [hp] at hq
    exact hne (by rw [Option.some.inj hq])
  have hpre : ∀ s q, coded s q → ¬ p ++ [x] <+: q := fun s q hq hpre => by
    rcases h.prefix_coded hq hpre with e | e
    · exact hc s (e ▸ hq)
    · exact hN e
  have fresh : ∀ y : Bool, 2 * node + x.toNat ≠ 2 * nodes.length + y.toNat := by
    intro y e
    have := (slot_inj e).1
    omega
  constructor
  · simpa using h.tab
  · simpa using h.filled
  · rw [List.getElem?_append_left (by have := h.filled; omega)]
    exact h.root
  · exact List.nodup_append.2 ⟨h.nodup, by simp, fun a ha c hc' => by
      simp at hc'; subst hc'; exact fun e => hN (e ▸ ha)⟩
  · intro q y hq
    rw [List.mem_append, List.mem_singleton] at hq ⊢
    rcases hq with hq | hq
    · exact .inl (h.closed q y hq)
    · obtain ⟨rfl, -⟩ : q = p ∧ y = x := by simpa using List.append_inj' hq rfl
      exact .inl (List.mem_of_getElem? hp)
  · exact h.small
  · intro s q hq
    obtain ⟨p', y, e, hp'⟩ := h.above s q hq
    exact ⟨p', y, e, List.mem_append_left _ hp'⟩
  · intro s q hq
    rw [List.mem_append, List.mem_singleton]
    rintro (hq' | rfl)
    · exact h.notNode s q hq hq'
    · exact hc s hq
  · exact h.unique
  · intro i q y s hq hs'
    rcases old hq with hq' | ⟨rfl, rfl⟩
    · rw [getD_set_ne (other hq' fun e => hc s (e ▸ hs'))]
      exact h.code i q y s hq' hs'
    · exact absurd (List.prefix_append _ _) (hpre s _ hs')
  · intro i q y j hq hj
    rcases old hq with hq' | ⟨rfl, rfl⟩
    · rcases old hj with hj' | ⟨rfl, e⟩
      · rw [getD_set_ne (other hq' fun e => hN (e ▸ List.mem_of_getElem? hj'))]
        exact h.node i q y j hq' hj'
      · obtain ⟨rfl, rfl⟩ : q = p ∧ y = x := by simpa using List.append_inj' e rfl
        have : i = node := (List.getElem?_inj (List.getElem?_eq_some_iff.1 hq').1 h.nodup).1 (hq'.trans hp.symm)
        subst this
        rw [getD_set_self hk, h.filled]
    · rcases old hj with hj' | ⟨-, e⟩
      · exact absurd (h.closed _ y (List.mem_of_getElem? hj')) hN
      · have := congrArg List.length e
        simp at this
  · intro i q y hq hc' hN'
    rw [List.mem_append, List.mem_singleton, not_or] at hN'
    rcases old hq with hq' | ⟨rfl, rfl⟩
    · rw [getD_set_ne (other hq' hN'.2)]
      exact h.empty i q y hq' hc' hN'.1
    · rw [getD_set_ne (fresh y)]
      exact h.rest _ (by omega)
  · intro k hk'
    rw [List.length_append, List.length_singleton] at hk'
    rw [getD_set_ne (by have := slot_lt x hnode; omega)]
    exact h.rest k (by omega)

theorem append_prefix_self {p q : List Bool} {x : Bool} : p <+: p ++ x :: q := List.prefix_append _ _

/-- What inserting one code does, from node `p` down: it fails when the nodes run out or the code and an earlier one
are prefixes of each other, and otherwise the table holds the code too. -/
theorem insertCode_spec {n : Nat} {coded : Nat → List Bool → Prop} {sym code : Nat} (hs : sym < n) (left : Nat) :
    ∀ {node : Nat} {b : TableBuild} {nodes : List (List Bool)} {p : List Bool}, Holds n coded nodes b →
      nodes[node]? = some p → (nodes.length ≤ n - 1 ∨ node + 1 = nodes.length) →
      match insertCode n sym code (left + 1) node b with
      | .error e => e = sym ∧ (n - 1 < (grow nodes p (codeBits (left + 1) code)).length ∨
          (∃ r q, coded r q ∧ q <+: p ++ codeBits (left + 1) code) ∨ p ++ codeBits (left + 1) code ∈ nodes)
      | .ok b' => (grow nodes p (codeBits (left + 1) code)).length ≤ n - 1 ∧
          (∀ r q, coded r q → ¬ q <+: p ++ codeBits (left + 1) code) ∧ p ++ codeBits (left + 1) code ∉ nodes ∧
          Holds n (fun s q => coded s q ∨ s = sym ∧ q = p ++ codeBits (left + 1) code)
            (grow nodes p (codeBits (left + 1) code)) b' := by
  induction left with
  | zero =>
    intro node b nodes p h hp hlen
    have hmem : p ∈ nodes := List.mem_of_getElem? hp
    have hnode : node < nodes.length := (List.getElem?_eq_some_iff.1 hp).1
    rw [codeBits_succ, show codeBits 0 code = [] from rfl, grow_cons hmem, grow_nil, insertCode]
    dsimp only
    by_cases hroom : node + 2 > n
    · rw [if_pos hroom]
      exact ⟨rfl, .inl (by omega)⟩
    rw [if_neg hroom]
    have hlen' : nodes.length ≤ n - 1 := by omega
    by_cases hc : ∃ s, coded s (p ++ [code.testBit 0])
    · obtain ⟨r, hr⟩ := hc
      rw [h.code node p _ r hp hr]
      simp only [h.small r _ hr, true_or, if_true]
      exact ⟨by simp, .inr (.inl ⟨r, _, hr, List.prefix_refl _⟩)⟩
    rw [not_exists] at hc
    by_cases hN : p ++ [code.testBit 0] ∈ nodes
    · obtain ⟨j, hj⟩ := List.getElem?_of_mem hN
      rw [h.node node p _ j hp hj]
      simp only [or_true, if_true]
      exact ⟨by simp, .inr (.inr hN)⟩
    · rw [h.empty node p _ hp hc hN]
      simp only [if_true]
      refine ⟨hlen', fun r q hq hpre => ?_, hN, h.addCode hp hs (by omega) hc hN⟩
      rcases List.prefix_concat_iff.1 hpre with e | e
      · exact hc r (e ▸ hq)
      · exact h.notNode r q hq (h.prefix_mem hmem e)
  | succ left ih =>
    intro node b nodes p h hp hlen
    have hmem : p ∈ nodes := List.mem_of_getElem? hp
    have hnode : node < nodes.length := (List.getElem?_eq_some_iff.1 hp).1
    have hne : codeBits (left + 1) code ≠ [] := fun e => by simpa using congrArg List.length e
    rw [codeBits_succ (left + 1), grow_cons hmem, insertCode]
    dsimp only
    by_cases hroom : node + 2 > n
    · rw [if_pos hroom]
      have := length_grow nodes (p ++ [code.testBit (left + 1)]) (codeBits (left + 1) code)
      exact ⟨rfl, .inl (by omega)⟩
    rw [if_neg hroom]
    have hlen' : nodes.length ≤ n - 1 := by omega
    have eq : p ++ code.testBit (left + 1) :: codeBits (left + 1) code =
        (p ++ [code.testBit (left + 1)]) ++ codeBits (left + 1) code := by simp
    rw [eq]
    by_cases hc : ∃ s, coded s (p ++ [code.testBit (left + 1)])
    · obtain ⟨r, hr⟩ := hc
      rw [h.code node p _ r hp hr]
      simp only [h.small r _ hr, true_or, if_true]
      exact ⟨by simp, .inr (.inl ⟨r, _, hr, List.prefix_append _ _⟩)⟩
    rw [not_exists] at hc
    by_cases hN : p ++ [code.testBit (left + 1)] ∈ nodes
    · obtain ⟨j, hj⟩ := List.getElem?_of_mem hN
      rw [h.node node p _ j hp hj]
      simp only [show ¬ (n + j < n ∨ left + 1 = 0) by omega, if_false, Nat.add_sub_cancel_left]
      exact ih h hj (.inl hlen')
    · rw [h.empty node p _ hp hc hN]
      simp only [show ¬ (left + 1 = 0) by omega, if_false]
      have h' := h.addNode hp (by omega) hc hN
      have := ih h' (node := b.filled + 1) (p := p ++ [code.testBit (left + 1)])
        (by rw [h.filled]; simp) (.inr (by rw [h.filled]; simp))
      rw [grow_start nodes _ hne, Machine.addNode, if_neg hN]
      have long : (p ++ [code.testBit (left + 1)]) ++ codeBits (left + 1) code ∈
          nodes ++ [p ++ [code.testBit (left + 1)]] ↔
          (p ++ [code.testBit (left + 1)]) ++ codeBits (left + 1) code ∈ nodes := by simp [hne]
      rw [long] at this
      exact this

/-- The nodes with the root, which always exists. -/
def withRoot (nodes : List (List Bool)) : List (List Bool) := if nodes = [] then [[]] else nodes

/-- What the insertion of the symbols below `k` has coded. -/
def codedBelow (lengths : List Nat) (k s : Nat) (q : List Bool) : Prop :=
  s < k ∧ lengths.getD s 0 ≠ 0 ∧ q = canonicalBits lengths s

theorem withRoot_grow (nodes : List (List Bool)) {bits : List Bool} (h : bits ≠ []) :
    grow (withRoot nodes) [] bits = grow nodes [] bits := by
  unfold withRoot
  split
  · rename_i e
    subst e
    rw [grow_start [] _ h]
    rfl
  · rfl

theorem mem_withRoot {lengths : List Nat} {k : Nat} {p : List Bool} (h : p ≠ []) :
    p ∈ withRoot (decisionNodes lengths k) ↔ p ∈ decisionNodes lengths k := by
  unfold withRoot
  split
  · rename_i e
    simp [e, h]
  · rfl

theorem withRoot_idem {nodes : List (List Bool)} (h : nodes ≠ []) : withRoot nodes = nodes := if_neg h

/-- What the insertion of the symbols from `k` on answers: it fails at the first that cannot be inserted, and otherwise
the table holds every code. -/
def Inserted (lengths : List Nat) (k : Nat) : Except Nat TableBuild → Prop
  | .error e => k ≤ e ∧ e < lengths.length ∧ cannotInsert lengths e ∧ ∀ r, k ≤ r → r < e → ¬ cannotInsert lengths r
  | .ok b => (∀ r, k ≤ r → r < lengths.length → ¬ cannotInsert lengths r) ∧
      (decisionNodes lengths lengths.length).length ≤ lengths.length - 1 ∧
      Holds lengths.length (codedBelow lengths lengths.length) (withRoot (decisionNodes lengths lengths.length)) b

theorem Inserted.step {lengths : List Nat} {k : Nat} (hc : ¬ cannotInsert lengths k) :
    ∀ {r : Except Nat TableBuild}, Inserted lengths (k + 1) r → Inserted lengths k r
  | .error e, ⟨a, c, d, f⟩ => ⟨by omega, c, d, fun r hr hr' => by
      rcases Nat.eq_or_lt_of_le hr with rfl | hr
      · exact hc
      · exact f r hr hr'⟩
  | .ok b, ⟨a, c⟩ => ⟨fun r hr hr' => by
      rcases Nat.eq_or_lt_of_le hr with rfl | hr
      · exact hc
      · exact a r hr hr', c⟩

theorem insertCodes_spec {lengths : List Nat} (m : Nat) :
    ∀ {k : Nat} {b : TableBuild}, k + m = lengths.length →
      Holds lengths.length (codedBelow lengths k) (withRoot (decisionNodes lengths k)) b →
      (decisionNodes lengths k).length ≤ lengths.length - 1 →
      Inserted lengths k (insertCodes lengths.length k
        ((List.range' k m).map fun s => (lengths.getD s 0, canonicalCode lengths s)) b) := by
  induction m with
  | zero =>
    intro k b hk h hlen
    obtain rfl : k = lengths.length := by omega
    exact ⟨fun r h1 h2 => absurd h2 (by omega), hlen, h⟩
  | succ m ih =>
    intro k b hk h hlen
    rw [List.range'_succ, List.map_cons, insertCodes]
    rcases Nat.eq_zero_or_pos (lengths.getD k 0) with h0 | hpos
    · have hc : ¬ cannotInsert lengths k := fun hc => hc.1 h0
      have hd : decisionNodes lengths (k + 1) = decisionNodes lengths k := by
        rw [decisionNodes_succ, show canonicalBits lengths k = [] from List.length_eq_zero_iff.1 (by rw [length_canonicalBits, h0]), grow_nil]
      have hcoded : codedBelow lengths (k + 1) = codedBelow lengths k := by
        funext s q
        refine propext ⟨fun ⟨a, c, d⟩ => ⟨?_, c, d⟩, fun ⟨a, c, d⟩ => ⟨by omega, c, d⟩⟩
        rcases Nat.lt_or_ge s k with hs | hs
        · exact hs
        · exact absurd h0 ((show s = k by omega) ▸ c)
      rw [h0, show insertCode lengths.length k (canonicalCode lengths k) 0 0 b = .ok b by rfl]
      exact .step hc (ih (by omega) (by rw [hcoded, hd]; exact h) (by rw [hd]; exact hlen))
    · obtain ⟨l, hl⟩ : ∃ l, lengths.getD k 0 = l + 1 := ⟨lengths.getD k 0 - 1, by omega⟩
      have hbits : canonicalBits lengths k = codeBits (l + 1) (canonicalCode lengths k) := by rw [canonicalBits, hl]
      have hne : canonicalBits lengths k ≠ [] := fun e => by
        have := congrArg List.length e
        rw [length_canonicalBits, hl] at this
        exact absurd this (by simp)
      have hgrow := decisionNodes_succ lengths k
      rw [← withRoot_grow _ hne] at hgrow
      have hstart : (withRoot (decisionNodes lengths k)).length ≤ lengths.length - 1 ∨
          0 + 1 = (withRoot (decisionNodes lengths k)).length := by
        unfold withRoot
        split
        · exact .inr rfl
        · exact .inl hlen
      have hspec := insertCode_spec (code := canonicalCode lengths k) (show k < lengths.length by omega) l h h.root hstart
      rw [← hl] at hspec
      rw [show codeBits (lengths.getD k 0) (canonicalCode lengths k) = canonicalBits lengths k from rfl,
        List.nil_append, ← hgrow, mem_withRoot hne] at hspec
      rcases hres : insertCode lengths.length k (canonicalCode lengths k) (lengths.getD k 0) 0 b with e | b'
      · rw [hres] at hspec
        obtain ⟨rfl, hcase⟩ := hspec
        refine ⟨Nat.le_refl _, by omega, ⟨by omega, ?_⟩, fun r a c => absurd c (by omega)⟩
        rcases hcase with hcase | ⟨r, q, ⟨a, c, rfl⟩, hq⟩ | hcase
        · exact .inl hcase
        · exact .inr ⟨r, a, c, .inl hq⟩
        · obtain ⟨r, hr, j, hj, e⟩ := mem_decisionNodes.1 hcase
          exact .inr ⟨r, hr, by omega, .inr (e ▸ List.take_prefix _ _)⟩
      · rw [hres] at hspec
        obtain ⟨hlen', hpre, hN, h'⟩ := hspec
        have hc : ¬ cannotInsert lengths k := by
          rintro ⟨-, hc | ⟨r, hr, hr0, hc | hc⟩⟩
          · omega
          · exact hpre r _ ⟨hr, hr0, rfl⟩ hc
          · rcases Nat.eq_or_lt_of_le hc.length_le with e | e
            · exact hpre r _ ⟨hr, hr0, rfl⟩ (hc.eq_of_length e ▸ List.prefix_refl _)
            · rw [length_canonicalBits lengths r] at e
              exact hN (mem_decisionNodes.2 ⟨r, hr, _, e, (List.prefix_iff_eq_take.1 hc)⟩)
        have hcoded : codedBelow lengths (k + 1) =
            fun s q => codedBelow lengths k s q ∨ s = k ∧ q = canonicalBits lengths k := by
          funext s q
          refine propext ⟨fun ⟨a, c, d⟩ => ?_, ?_⟩
          · rcases Nat.lt_or_ge s k with hs | hs
            · exact .inl ⟨hs, c, d⟩
            · obtain rfl : s = k := by omega
              exact .inr ⟨rfl, d⟩
          · rintro (⟨a, c, d⟩ | ⟨rfl, d⟩)
            · exact ⟨by omega, c, d⟩
            · exact ⟨by omega, by omega, d⟩
        have hne' : decisionNodes lengths (k + 1) ≠ [] :=
          List.ne_nil_of_mem (mem_decisionNodes.2 ⟨k, by omega, 0, hpos, rfl⟩)
        exact .step hc (ih (by omega) (by rw [hcoded, withRoot_idem hne']; exact h') hlen')

/-! ## The builder (41_huffman R150) -/

theorem Holds.start (n : Nat) (coded : Nat → List Bool → Prop) (h : ∀ s q, ¬ coded s q) :
    Holds n coded [[]] ⟨List.replicate (2 * n) none, 0⟩ := by
  have empty : ∀ k, (List.replicate (2 * n) (none : Option Nat)).getD k none = none := fun k => by
    rw [List.getD_eq_getElem?_getD, List.getElem?_replicate]
    split <;> rfl
  constructor
  · simp
  · rfl
  · rfl
  · simp
  · simp
  · exact fun s q hq => absurd hq (h s q)
  · exact fun s q hq => absurd hq (h s q)
  · exact fun s q hq => absurd hq (h s q)
  · exact fun s r q hq => absurd hq (h s q)
  · exact fun i p x s _ hq => absurd hq (h s _)
  · intro i p x j _ hj
    have := List.mem_of_getElem? hj
    simp at this
  · exact fun i p x _ _ _ => empty _
  · exact fun k _ => empty _

/-- What `BuildFromLengths` answers. -/
def Built (lengths : List Nat) (maxBits : Nat) : Except Nat Tree → Prop
  | .error e => e < lengths.length ∧ cannotInsert lengths e ∧ ∀ r, r < e → ¬ cannotInsert lengths r
  | .ok t => (∀ r, r < lengths.length → ¬ cannotInsert lengths r) ∧
      (decisionNodes lengths lengths.length).length ≤ lengths.length - 1 ∧
      ∃ b, Holds lengths.length (codedBelow lengths lengths.length)
          (withRoot (decisionNodes lengths lengths.length)) b ∧
        t = ⟨lengths.length, maxBits, lengths, (List.range lengths.length).map (canonicalCode lengths), b.tab, true⟩

theorem buildFromLengths_spec {lengths : List Nat} {maxBits : Nat} (h : ∀ l ∈ lengths, l ≤ maxBits) :
    Built lengths maxBits (buildFromLengths lengths maxBits) := by
  have hpairs : lengths.zip ((List.range lengths.length).map (canonicalCode lengths)) =
      (List.range' 0 lengths.length).map fun s => (lengths.getD s 0, canonicalCode lengths s) := by
    apply List.ext_getElem
    · simp
    · intro i h1 h2
      simp at h1
      simp [List.getElem_zip, List.getD_eq_getElem?_getD, h1]
  have hspec := insertCodes_spec (lengths := lengths) lengths.length (k := 0)
    (b := ⟨List.replicate (2 * lengths.length) none, 0⟩) (by omega)
    (Holds.start _ _ fun s q hq => absurd hq.1 (by omega)) (by rw [decisionNodes_zero]; simp)
  rw [← hpairs] at hspec
  rw [buildFromLengths, canonicalCodes_eq h]
  rcases hres : insertCodes lengths.length 0 (lengths.zip ((List.range lengths.length).map (canonicalCode lengths)))
      ⟨List.replicate (2 * lengths.length) none, 0⟩ with e | b
  · rw [hres] at hspec
    dsimp only
    exact ⟨hspec.2.1, hspec.2.2.1, fun r => hspec.2.2.2 r (by omega)⟩
  · rw [hres] at hspec
    dsimp only
    exact ⟨fun r => hspec.1 r (by omega), hspec.2.1, b, hspec.2.2, rfl⟩

/-! ## Which length sets build (41_huffman R153, R157) -/

theorem codeBits_inj {n a b : Nat} (h : codeBits n a = codeBits n b) : a % 2 ^ n = b % 2 ^ n := by
  apply Nat.eq_of_testBit_eq
  intro i
  rw [Nat.testBit_mod_two_pow, Nat.testBit_mod_two_pow]
  rcases Nat.lt_or_ge i n with hi | hi
  · have := congrArg (fun l => l[n - 1 - i]?) h
    simp only [codeBits, List.getElem?_map, List.getElem?_range (show n - 1 - i < n by omega), Option.map_some,
      Option.some.injEq] at this
    rw [show n - 1 - (n - 1 - i) = i by omega] at this
    rw [this]
  · simp [Nat.not_lt.2 hi]

theorem take_codeBits {n m : Nat} (h : m ≤ n) (c : Nat) : (codeBits n c).take m = codeBits m (c / 2 ^ (n - m)) := by
  rw [codeBits, ← List.map_take, List.take_range, Nat.min_eq_left h, codeBits]
  refine List.map_congr_left fun i hi => ?_
  rw [List.mem_range] at hi
  rw [Nat.testBit_div_two_pow]
  congr 1
  omega

/-- Codes of length `l` and the space they and all shorter ones take, in units of `2^(-maxBits)`. -/
theorem kraft_below (lengths : List Nat) (l : Nat) (h0 : l ≠ 0) (f : Nat → Nat) :
    ((lengths.filter fun k => k ≠ 0 ∧ k < l).map f).sum + lengths.count l * f l ≤
      ((lengths.filter (· ≠ 0)).map f).sum := by
  induction lengths with
  | nil => simp
  | cons k ks ih =>
    rcases Nat.eq_zero_or_pos k with rfl | hk
    · rw [List.filter_cons_of_neg (by simp), List.filter_cons_of_neg (by simp), List.count_cons_of_ne (by omega)]
      exact ih
    · rw [List.filter_cons_of_pos (p := fun x => decide (x ≠ 0)) (by simp; omega)]
      rcases Nat.lt_trichotomy k l with h | rfl | h
      · rw [List.filter_cons_of_pos (by simp; omega), List.count_cons_of_ne (by omega)]
        simp only [List.map_cons, List.sum_cons]
        omega
      · rw [List.filter_cons_of_neg (by simp), List.count_cons_self, Nat.succ_mul]
        simp only [List.map_cons, List.sum_cons]
        omega
      · rw [List.filter_cons_of_neg (by simp; omega), List.count_cons_of_ne (by omega)]
        simp only [List.map_cons, List.sum_cons]
        omega

theorem sum_map_mul (ls : List Nat) (f : Nat → Nat) (c : Nat) : (ls.map f).sum * c = (ls.map fun k => f k * c).sum := by
  induction ls with
  | nil => simp
  | cons l ls ih => simp only [List.map_cons, List.sum_cons, Nat.add_mul, ih]

/-- A code before the low bits are kept. -/
def rawCode (lengths : List Nat) (s : Nat) : Nat :=
  firstCode lengths (lengths.getD s 0) + (lengths.take s).count (lengths.getD s 0)

theorem count_take_lt {lengths : List Nat} {s : Nat} (h : s < lengths.length) :
    (lengths.take s).count (lengths.getD s 0) + 1 ≤ lengths.count (lengths.getD s 0) := by
  have hs : lengths.getD s 0 = lengths[s] := by simp [List.getD_eq_getElem?_getD, h]
  have h1 : (lengths.take (s + 1)).count (lengths.getD s 0) = (lengths.take s).count (lengths.getD s 0) + 1 := by
    rw [List.take_add_one, List.getElem?_eq_getElem h, Option.toList_some, List.count_append, hs]
    simp
  rw [← h1]
  exact (List.take_sublist _ _).count_le _

theorem rawCode_room {lengths : List Nat} {maxBits s : Nat} (h : ∀ l ∈ lengths, l ≤ maxBits) (hs : s < lengths.length)
    (h0 : lengths.getD s 0 ≠ 0) :
    (rawCode lengths s + 1) * 2 ^ (maxBits - lengths.getD s 0) ≤ kraftSum lengths maxBits := by
  have hle : lengths.getD s 0 ≤ maxBits := by
    apply h
    rw [List.getD_eq_getElem?_getD, List.getElem?_eq_getElem hs]
    exact List.getElem_mem hs
  have hb := kraft_below lengths _ h0 fun l => 2 ^ (maxBits - l)
  have hc := Nat.mul_le_mul_right (2 ^ (maxBits - lengths.getD s 0)) (count_take_lt hs)
  have hf : firstCode lengths (lengths.getD s 0) * 2 ^ (maxBits - lengths.getD s 0) =
      ((lengths.filter fun k => k ≠ 0 ∧ k < lengths.getD s 0).map fun l => 2 ^ (maxBits - l)).sum := by
    rw [firstCode_eq, sum_map_mul]
    congr 1
    refine List.map_congr_left fun k hk => ?_
    have := (List.mem_filter.1 hk).2
    simp only [decide_eq_true_eq] at this
    rw [← Nat.pow_add]
    congr 1
    omega
  rw [kraftSum, rawCode, Nat.add_assoc, Nat.add_mul, hf]
  omega

theorem canonicalCode_raw {lengths : List Nat} {maxBits s : Nat} (h : ∀ l ∈ lengths, l ≤ maxBits)
    (hk : kraftSum lengths maxBits ≤ 2 ^ maxBits) (hs : s < lengths.length) (h0 : lengths.getD s 0 ≠ 0) :
    canonicalCode lengths s = rawCode lengths s := by
  rw [canonicalCode_eq]
  refine Nat.mod_eq_of_lt ?_
  have hle : lengths.getD s 0 ≤ maxBits := by
    apply h
    rw [List.getD_eq_getElem?_getD, List.getElem?_eq_getElem hs]
    exact List.getElem_mem hs
  have := Nat.le_trans (rawCode_room h hs h0) hk
  rw [show (2 : Nat) ^ maxBits = 2 ^ lengths.getD s 0 * 2 ^ (maxBits - lengths.getD s 0) by
    rw [← Nat.pow_add]; congr 1; omega] at this
  exact Nat.lt_of_succ_le (Nat.le_of_mul_le_mul_right this (Nat.two_pow_pos _))

/-- A shorter code sorts before every longer one (41_huffman R153). -/
theorem rawCode_shorter {lengths : List Nat} {s r : Nat} (hs : s < lengths.length) (h0 : lengths.getD s 0 ≠ 0)
    (hlt : lengths.getD s 0 < lengths.getD r 0) :
    (rawCode lengths s + 1) * 2 ^ (lengths.getD r 0 - lengths.getD s 0) ≤ rawCode lengths r := by
  have hc := Nat.mul_le_mul_right (2 ^ (lengths.getD r 0 - lengths.getD s 0)) (count_take_lt hs)
  have hf : firstCode lengths (lengths.getD s 0) * 2 ^ (lengths.getD r 0 - lengths.getD s 0) =
      ((lengths.filter fun k => k ≠ 0 ∧ k < lengths.getD s 0).map fun l => 2 ^ (lengths.getD r 0 - l)).sum := by
    rw [firstCode_eq, sum_map_mul]
    congr 1
    refine List.map_congr_left fun k hk => ?_
    have := (List.mem_filter.1 hk).2
    simp only [decide_eq_true_eq] at this
    rw [← Nat.pow_add]
    congr 1
    omega
  have hb := kraft_below (lengths.filter fun k => k < lengths.getD r 0) _ h0 fun l => 2 ^ (lengths.getD r 0 - l)
  rw [List.filter_filter, List.filter_filter, List.count_filter (by simpa using hlt)] at hb
  have e1 : lengths.filter (fun a => decide (a ≠ 0 ∧ a < lengths.getD s 0) && decide (a < lengths.getD r 0)) =
      lengths.filter fun k => k ≠ 0 ∧ k < lengths.getD s 0 := by
    refine List.filter_congr fun a _ => ?_
    simp only [← Bool.decide_and]
    exact decide_eq_decide.2 ⟨fun h => h.1, fun h => ⟨h, by omega⟩⟩
  have e2 : lengths.filter (fun a => decide (a ≠ 0) && decide (a < lengths.getD r 0)) =
      lengths.filter fun k => k ≠ 0 ∧ k < lengths.getD r 0 := by
    refine List.filter_congr fun a _ => ?_
    simp only [← Bool.decide_and]
  rw [e1, e2] at hb
  rw [rawCode, rawCode, firstCode_eq lengths (lengths.getD r 0), Nat.add_assoc, Nat.add_mul, hf]
  omega

/-- Codes of one length follow in symbol order (41_huffman R153). -/
theorem rawCode_same {lengths : List Nat} {s r : Nat} (hr : r < lengths.length) (hlt : s < r)
    (he : lengths.getD s 0 = lengths.getD r 0) : rawCode lengths s < rawCode lengths r := by
  have h1 : lengths.take s = (lengths.take r).take s := by rw [List.take_take, Nat.min_eq_left (by omega)]
  have h2 : (lengths.take r).getD s 0 = lengths.getD s 0 := by
    rw [List.getD_eq_getElem?_getD, List.getElem?_take, if_pos hlt, ← List.getD_eq_getElem?_getD]
  have := count_take_lt (lengths := lengths.take r) (s := s) (by simp; omega)
  rw [← h1, h2] at this
  rw [rawCode, rawCode, ← he]
  omega

theorem not_prefix_of_lt {n m a b : Nat} (h : n ≤ m) (ha : a < 2 ^ n) (hb : b < 2 ^ m) (hne : a ≠ b / 2 ^ (m - n)) :
    ¬ codeBits n a <+: codeBits m b := by
  intro hp
  rw [List.prefix_iff_eq_take, length_codeBits, take_codeBits h] at hp
  have := codeBits_inj hp
  rw [Nat.mod_eq_of_lt ha, Nat.mod_eq_of_lt] at this
  · exact hne this
  · rw [Nat.div_lt_iff_lt_mul (Nat.two_pow_pos _), ← Nat.pow_add]
    rwa [show n + (m - n) = m by omega]

theorem canonicalCode_lt (lengths : List Nat) (s : Nat) : canonicalCode lengths s < 2 ^ lengths.getD s 0 :=
  Nat.mod_lt _ (Nat.two_pow_pos _)

/-- With a Kraft sum of at most 1 the codes are in order, and so prefix-free (41_huffman R153). -/
theorem canonicalCode_order {lengths : List Nat} {maxBits s r : Nat} (h : ∀ l ∈ lengths, l ≤ maxBits)
    (hk : kraftSum lengths maxBits ≤ 2 ^ maxBits) (hs : s < lengths.length) (hr : r < lengths.length)
    (h0 : lengths.getD s 0 ≠ 0) (h0' : lengths.getD r 0 ≠ 0)
    (hlt : lengths.getD s 0 < lengths.getD r 0 ∨ lengths.getD s 0 = lengths.getD r 0 ∧ s < r) :
    canonicalCode lengths s < canonicalCode lengths r / 2 ^ (lengths.getD r 0 - lengths.getD s 0) := by
  rw [canonicalCode_raw h hk hs h0, canonicalCode_raw h hk hr h0']
  rcases hlt with hlt | ⟨he, hlt⟩
  · exact Nat.lt_of_succ_le ((Nat.le_div_iff_mul_le (Nat.two_pow_pos _)).2 (rawCode_shorter hs h0 hlt))
  · rw [he, Nat.sub_self, Nat.pow_zero, Nat.div_one]
    exact rawCode_same hr hlt he

theorem canonical_prefixFree {lengths : List Nat} {maxBits s r : Nat} (h : ∀ l ∈ lengths, l ≤ maxBits)
    (hk : kraftSum lengths maxBits ≤ 2 ^ maxBits) (hs : s < lengths.length) (hr : r < lengths.length)
    (h0 : lengths.getD s 0 ≠ 0) (h0' : lengths.getD r 0 ≠ 0) (hne : s ≠ r) :
    ¬ canonicalBits lengths s <+: canonicalBits lengths r := by
  intro hp
  have hle := hp.length_le
  rw [length_canonicalBits, length_canonicalBits] at hle
  refine not_prefix_of_lt hle (canonicalCode_lt _ _) (canonicalCode_lt _ _) ?_ hp
  rcases Nat.lt_or_ge (lengths.getD s 0) (lengths.getD r 0) with hlt | hge
  · exact Nat.ne_of_lt (canonicalCode_order h hk hs hr h0 h0' (.inl hlt))
  · have he : lengths.getD s 0 = lengths.getD r 0 := Nat.le_antisymm hle hge
    rcases Nat.lt_or_ge s r with hlt | hge
    · exact Nat.ne_of_lt (canonicalCode_order h hk hs hr h0 h0' (.inr ⟨he, hlt⟩))
    · have := canonicalCode_order h hk hr hs h0' h0 (.inr ⟨he.symm, by omega⟩)
      rw [he, Nat.sub_self, Nat.pow_zero, Nat.div_one] at this ⊢
      exact Nat.ne_of_gt this

/-! ### The Kraft inequality -/

/-- The words of a prefix-free list behind a first bit. -/
def behind (x : Bool) (ws : List (List Bool)) : List (List Bool) :=
  ws.filterMap fun w => match w with
    | [] => none
    | y :: t => if y = x then some t else none

theorem mem_behind {x : Bool} {ws : List (List Bool)} {t : List Bool} : t ∈ behind x ws ↔ x :: t ∈ ws := by
  unfold behind
  rw [List.mem_filterMap]
  constructor
  · rintro ⟨w, hw, e⟩
    match w, hw, e with
    | y :: u, hw, e =>
      simp only [Option.ite_none_right_eq_some, Option.some.injEq] at e
      rwa [← e.1, ← e.2]
  · exact fun h => ⟨_, h, by simp⟩

theorem behind_pairwise {R S : List Bool → List Bool → Prop} (x : Bool) {ws : List (List Bool)}
    (h : ws.Pairwise R) (hRS : ∀ a b, R (x :: a) (x :: b) → S a b) : (behind x ws).Pairwise S := by
  refine List.Pairwise.filterMap _ ?_ h
  intro a b hab c hc d hd
  match a, b, hc, hd with
  | y :: a, z :: b, hc, hd =>
    simp only [Option.ite_none_right_eq_some, Option.some.injEq] at hc hd
    obtain ⟨rfl, rfl⟩ := hc
    obtain ⟨rfl, rfl⟩ := hd
    exact hRS _ _ hab

theorem sum_behind (m : Nat) (ws : List (List Bool)) (he : [] ∉ ws) : (ws.map fun w => 2 ^ (m + 1 - w.length)).sum =
    ((behind false ws).map fun w => 2 ^ (m - w.length)).sum +
      ((behind true ws).map fun w => 2 ^ (m - w.length)).sum := by
  induction ws with
  | nil => rfl
  | cons w ws ihw =>
    rw [List.mem_cons, not_or] at he
    have := ihw he.2
    match w, he.1 with
    | y :: t, _ => cases y <;> simp [behind] at this ⊢ <;> omega

theorem length_behind (ws : List (List Bool)) :
    ws.length = ws.count [] + (behind false ws).length + (behind true ws).length := by
  induction ws with
  | nil => rfl
  | cons w ws ihw =>
    match w with
    | [] => simp [behind] at ihw ⊢; omega
    | y :: t => cases y <;> simp [behind] at ihw ⊢ <;> omega

/-- Neither is a prefix of the other. -/
def apart (a b : List Bool) : Prop := ¬ a <+: b ∧ ¬ b <+: a

theorem apart_cons {x : Bool} {a b : List Bool} (h : apart (x :: a) (x :: b)) : apart a b := by
  simpa [apart] using h

theorem apart_nil {ws : List (List Bool)} (h : ws.Pairwise apart) (he : [] ∈ ws) : ws = [[]] := by
  match ws, h, he with
  | [w], _, he => simpa using he
  | w :: v :: ws, h, he =>
    rw [List.pairwise_cons] at h
    rcases List.mem_cons.1 he with rfl | he
    · exact absurd List.nil_prefix (h.1 v (by simp)).1
    · exact absurd List.nil_prefix (h.1 _ he).2

/-- The Kraft inequality: words none of which is a prefix of another do not overfill the space. -/
theorem kraft_inequality (m : Nat) (ws : List (List Bool)) (h : ws.Pairwise apart)
    (hl : ∀ w ∈ ws, w.length ≤ m) : (ws.map fun w => 2 ^ (m - w.length)).sum ≤ 2 ^ m := by
  induction m generalizing ws with
  | zero =>
    match ws, h, hl with
    | [], _, _ => simp
    | w :: ws, h, hl =>
      rw [apart_nil h (List.mem_of_mem_head? (by simpa using hl w (by simp)))]
      simp
  | succ m ih =>
    by_cases he : [] ∈ ws
    · rw [apart_nil h he]
      simp
    · have hb := fun x => ih (behind x ws) (behind_pairwise x h fun _ _ => apart_cons) fun w hw => by
        simpa using hl _ (mem_behind.1 hw)
      rw [sum_behind m ws he, Nat.pow_succ]
      have := hb false
      have := hb true
      omega

/-- A complete code of `k` words has no more than `k - 1` decision nodes (41_huffman R157). -/
theorem complete_nodes (m : Nat) (ws ps : List (List Bool)) (h : ws.Pairwise apart)
    (hl : ∀ w ∈ ws, w.length ≤ m) (hk : (ws.map fun w => 2 ^ (m - w.length)).sum = 2 ^ m) (hn : ps.Nodup)
    (hp : ∀ p ∈ ps, ∃ w ∈ ws, p <+: w ∧ p.length < w.length) : ps.length + 1 ≤ ws.length := by
  induction m generalizing ws ps with
  | zero =>
    have : ps = [] := List.eq_nil_iff_forall_not_mem.2 fun p hp' => by
      obtain ⟨w, hw, -, hlt⟩ := hp p hp'
      have := hl w hw
      omega
    subst this
    match ws, hk with
    | [], hk => simp at hk
    | w :: ws, _ => simp
  | succ m ih =>
    by_cases he : [] ∈ ws
    · have := apart_nil h he
      subst this
      have : ps = [] := List.eq_nil_iff_forall_not_mem.2 fun p hp' => by
        obtain ⟨w, hw, -, hlt⟩ := hp p hp'
        rw [List.mem_singleton.1 hw] at hlt
        simp at hlt
      subst this
      simp
    · have hb := fun x => kraft_inequality m (behind x ws) (behind_pairwise x h fun _ _ => apart_cons) fun w hw => by
        simpa using hl _ (mem_behind.1 hw)
      have hbf := hb false
      have hbt := hb true
      rw [sum_behind m ws he, Nat.pow_succ] at hk
      have step := fun x hx => ih (behind x ws) (behind x ps) (behind_pairwise x h fun _ _ => apart_cons)
        (fun w hw => by simpa using hl _ (mem_behind.1 hw)) hx
        (behind_pairwise x hn fun a b hab e => hab (by rw [e]))
        fun p hp' => by
          obtain ⟨w, hw, hpre, hlt⟩ := hp _ (mem_behind.1 hp')
          match w, hpre with
          | y :: w, hpre =>
            rw [List.cons_prefix_cons] at hpre
            obtain ⟨rfl, hpre⟩ := hpre
            exact ⟨w, mem_behind.2 hw, hpre, by simpa using hlt⟩
      have h0 := step false (by omega)
      have h1 := step true (by omega)
      rw [length_behind ws, length_behind ps]
      have := List.nodup_iff_count_le_one.1 hn []
      omega

/-- The codes of the coded symbols. -/
def codeWords (lengths : List Nat) : List (List Bool) :=
  ((List.range lengths.length).filter fun s => lengths.getD s 0 ≠ 0).map (canonicalBits lengths)

theorem mem_codeWords {lengths : List Nat} {w : List Bool} :
    w ∈ codeWords lengths ↔ ∃ s, s < lengths.length ∧ lengths.getD s 0 ≠ 0 ∧ canonicalBits lengths s = w := by
  simp [codeWords, and_assoc]

theorem lengths_eq_map (lengths : List Nat) :
    lengths = (List.range lengths.length).map fun s => lengths.getD s 0 := by
  apply List.ext_getElem
  · simp
  · intro i h1 h2
    simp [List.getD_eq_getElem?_getD, h1]

theorem kraftSum_eq (lengths : List Nat) (maxBits : Nat) :
    kraftSum lengths maxBits = ((codeWords lengths).map fun w => 2 ^ (maxBits - w.length)).sum := by
  rw [kraftSum]
  conv_lhs => rw [lengths_eq_map lengths, List.filter_map, List.map_map]
  rw [codeWords, List.map_map]
  congr 1
  refine List.map_congr_left fun s _ => ?_
  simp only [Function.comp, length_canonicalBits]

theorem getD_mem {lengths : List Nat} {s : Nat} (hs : s < lengths.length) : lengths.getD s 0 ∈ lengths := by
  rw [List.getD_eq_getElem?_getD, List.getElem?_eq_getElem hs]
  exact List.getElem_mem hs

theorem codeWords_length_le {lengths : List Nat} {maxBits : Nat} (h : ∀ l ∈ lengths, l ≤ maxBits) :
    ∀ w ∈ codeWords lengths, w.length ≤ maxBits := by
  intro w hw
  obtain ⟨s, hs, -, rfl⟩ := mem_codeWords.1 hw
  rw [length_canonicalBits]
  exact h _ (getD_mem hs)

theorem codeWords_pairwise {lengths : List Nat} (h : ∀ s r, s < r → r < lengths.length → lengths.getD s 0 ≠ 0 →
    lengths.getD r 0 ≠ 0 → apart (canonicalBits lengths s) (canonicalBits lengths r)) :
    (codeWords lengths).Pairwise apart := by
  refine List.Pairwise.map _ (fun _ _ h => h) ?_
  refine (List.Pairwise.filter _ List.pairwise_lt_range).imp_of_mem ?_
  intro s r hs hr hlt
  simp only [List.mem_filter, List.mem_range, decide_eq_true_eq] at hs hr
  exact h s r hlt hr.1 hs.2 hr.2

theorem decisionNodes_mono (lengths : List Nat) {j k : Nat} (h : j ≤ k) :
    (decisionNodes lengths j).length ≤ (decisionNodes lengths k).length := by
  induction h with
  | refl => exact Nat.le_refl _
  | step _ ih => exact Nat.le_trans ih (by rw [decisionNodes_succ]; exact length_grow _ _ _)

/-- Which length sets build (41_huffman R157). -/
theorem builds_iff {lengths : List Nat} {maxBits : Nat} (h : ∀ l ∈ lengths, l ≤ maxBits) :
    (∃ t, buildFromLengths lengths maxBits = .ok t) ↔
      kraftSum lengths maxBits ≤ 2 ^ maxBits ∧
        (decisionNodes lengths lengths.length).length ≤ lengths.length - 1 := by
  have hspec := buildFromLengths_spec h
  constructor
  · rintro ⟨t, ht⟩
    rw [ht] at hspec
    refine ⟨?_, hspec.2.1⟩
    rw [kraftSum_eq]
    refine kraft_inequality _ _ (codeWords_pairwise fun s r hlt hr hs0 hr0 => ?_) (codeWords_length_le h)
    exact ⟨fun hp => hspec.1 r hr ⟨hr0, .inr ⟨s, hlt, hs0, .inl hp⟩⟩,
      fun hp => hspec.1 r hr ⟨hr0, .inr ⟨s, hlt, hs0, .inr hp⟩⟩⟩
  · rintro ⟨hk, hn⟩
    rcases hres : buildFromLengths lengths maxBits with e | t
    · rw [hres] at hspec
      obtain ⟨he, ⟨he0, hc | ⟨r, hr, hr0, hc | hc⟩⟩, -⟩ := hspec
      · have := decisionNodes_mono lengths (show e + 1 ≤ lengths.length by omega)
        omega
      · exact absurd hc (canonical_prefixFree h hk (by omega) he hr0 he0 (by omega))
      · exact absurd hc (canonical_prefixFree h hk he (by omega) he0 hr0 (by omega))
    · exact ⟨t, rfl⟩

/-- Every complete length set builds (41_huffman R157). -/
theorem complete_builds {lengths : List Nat} {maxBits : Nat} (h : ∀ l ∈ lengths, l ≤ maxBits)
    (hk : kraftSum lengths maxBits = 2 ^ maxBits) : ∃ t, buildFromLengths lengths maxBits = .ok t := by
  refine (builds_iff h).2 ⟨Nat.le_of_eq hk, ?_⟩
  have := complete_nodes maxBits (codeWords lengths) (decisionNodes lengths lengths.length)
    (codeWords_pairwise fun s r hlt hr hs0 hr0 =>
      ⟨canonical_prefixFree h (Nat.le_of_eq hk) (by omega) hr hs0 hr0 (by omega),
        canonical_prefixFree h (Nat.le_of_eq hk) hr (by omega) hr0 hs0 (by omega)⟩)
    (codeWords_length_le h) (by rw [← kraftSum_eq, hk]) (nodup_decisionNodes _ _) fun p hp => by
      obtain ⟨s, hs, j, hj, rfl⟩ := mem_decisionNodes.1 hp
      exact ⟨_, mem_codeWords.2 ⟨s, hs, by omega, rfl⟩, List.take_prefix _ _, by
        rw [List.length_take, length_canonicalBits]; omega⟩
  have hle : (codeWords lengths).length ≤ lengths.length := by
    rw [codeWords, List.length_map]
    exact Nat.le_trans (List.length_filter_le _ _) (by simp)
  omega

end Sys2Proof.Machine
end

