-- ==== Sys2Proof/Laws/PackageMerge.lean ====
section
/-! SUPPORT. Boundary Package-Merge (41_huffman R174 to R177): the final chain is a real one, so the lengths are a
complete set within the limit (R178) and the build never fails. -/

namespace Sys2Proof

open Machine

/-! ## One step -/

@[simp] theorem chainWeight_node (w i : Nat) (t : Chain) : chainWeight (.node w i t) = w := rfl
@[simp] theorem chainIndex_node (w i : Nat) (t : Chain) : chainIndex (.node w i t) = i := rfl
@[simp] theorem chainTail_node (w i : Nat) (t : Chain) : chainTail (.node w i t) = t := rfl

/-- The weight of a leaf. -/
def leafWeight (leaves : List Leaf) (i : Nat) : Nat := (leaves.getD i ⟨0, 0⟩).weight

/-- The two lookahead nodes of a list. -/
def Bpm.old (b : Bpm) (c : Nat) : Chain := b.chains0.getD c .none
def Bpm.new (b : Bpm) (c : Nat) : Chain := b.chains1.getD c .none

/-- The weight of the package that a list offers to the next. -/
def Bpm.offer (b : Bpm) (c : Nat) : Nat := chainWeight (b.old c) + chainWeight (b.new c)

/-- A list moves on to a new node. -/
def Bpm.push (b : Bpm) (c : Nat) (ch : Chain) : Bpm :=
  { b with chains0 := b.chains0.set c (b.new c), chains1 := b.chains1.set c ch }

/-- The next node of a list above list `c`: a leaf, or a package where the leaves are heavier or used up. -/
def takesLeaf (b : Bpm) (c : Nat) : Prop :=
  chainIndex (b.new (c + 1)) < b.leaves.length ∧ b.offer c > leafWeight b.leaves (chainIndex (b.new (c + 1)))

theorem bpmStep_zero (num : Nat) (b : Bpm) : bpmStep num 0 b =
    if b.leaves.length ≤ chainIndex (b.new 0) then b
    else b.push 0 (.node (leafWeight b.leaves (chainIndex (b.new 0))) (chainIndex (b.new 0) + 1) .none) := rfl

theorem bpmStep_leaf (num c : Nat) {b : Bpm} (h : takesLeaf b c) : bpmStep num (c + 1) b =
    b.push (c + 1) (.node (leafWeight b.leaves (chainIndex (b.new (c + 1)))) (chainIndex (b.new (c + 1)) + 1)
      (chainTail (b.new (c + 1)))) := by
  rw [bpmStep]
  exact if_pos h

theorem bpmStep_package {num c : Nat} {b : Bpm} (h : ¬ takesLeaf b c) : bpmStep num (c + 1) b =
    let b' := b.push (c + 1) (.node (b.offer c) (chainIndex (b.new (c + 1))) (b.new c))
    if num + 1 < 2 * b.leaves.length - 2 then bpmStep num c (bpmStep num c b') else b' := by
  rw [bpmStep]
  exact if_neg h

@[simp] theorem Bpm.push_leaves (b : Bpm) (c : Nat) (ch : Chain) : (b.push c ch).leaves = b.leaves := rfl

theorem Bpm.push_old {b : Bpm} {c : Nat} (h : c < b.chains0.length) (ch : Chain) : (b.push c ch).old c = b.new c := by
  simp [Bpm.push, Bpm.old, List.getD_eq_getElem?_getD, h]

theorem Bpm.push_new {b : Bpm} {c : Nat} (h : c < b.chains1.length) (ch : Chain) : (b.push c ch).new c = ch := by
  simp [Bpm.push, Bpm.new, List.getD_eq_getElem?_getD, h]

theorem Bpm.push_old_ne (b : Bpm) {c j : Nat} (h : j ≠ c) (ch : Chain) : (b.push c ch).old j = b.old j := by
  simp [Bpm.push, Bpm.old, List.getD_eq_getElem?_getD, List.getElem?_set_ne (Ne.symm h)]

theorem Bpm.push_new_ne (b : Bpm) {c j : Nat} (h : j ≠ c) (ch : Chain) : (b.push c ch).new j = b.new j := by
  simp [Bpm.push, Bpm.new, List.getD_eq_getElem?_getD, List.getElem?_set_ne (Ne.symm h)]

theorem Bpm.push_offer_ne (b : Bpm) {c j : Nat} (h : j ≠ c) (ch : Chain) : (b.push c ch).offer j = b.offer j := by
  rw [Bpm.offer, b.push_old_ne h, b.push_new_ne h, Bpm.offer]

/-- Two stores with the same leaves and sizes, that differ in lists up to `c` only. -/
structure SameAbove (c : Nat) (b b' : Bpm) : Prop where
  leaves : b'.leaves = b.leaves
  size0 : b'.chains0.length = b.chains0.length
  size1 : b'.chains1.length = b.chains1.length
  old : ∀ j, c < j → b'.old j = b.old j
  new : ∀ j, c < j → b'.new j = b.new j

theorem SameAbove.refl (c : Nat) (b : Bpm) : SameAbove c b b := ⟨rfl, rfl, rfl, fun _ _ => rfl, fun _ _ => rfl⟩

theorem SameAbove.trans {c : Nat} {b b' b'' : Bpm} (h : SameAbove c b b') (h' : SameAbove c b' b'') :
    SameAbove c b b'' :=
  ⟨h'.leaves.trans h.leaves, h'.size0.trans h.size0, h'.size1.trans h.size1,
    fun j hj => (h'.old j hj).trans (h.old j hj), fun j hj => (h'.new j hj).trans (h.new j hj)⟩

theorem SameAbove.weaken {c d : Nat} {b b' : Bpm} (h : SameAbove c b b') (hcd : c ≤ d) : SameAbove d b b' :=
  ⟨h.leaves, h.size0, h.size1, fun j hj => h.old j (by omega), fun j hj => h.new j (by omega)⟩

theorem Bpm.push_sameAbove (b : Bpm) (c : Nat) (ch : Chain) : SameAbove c b (b.push c ch) :=
  ⟨rfl, by simp [Bpm.push], by simp [Bpm.push], fun j hj => b.push_old_ne (by omega) ch,
    fun j hj => b.push_new_ne (by omega) ch⟩

/-- A step changes no list above the one it advances. -/
theorem bpmStep_sameAbove (num c : Nat) (b : Bpm) : SameAbove c b (bpmStep num c b) := by
  induction c generalizing b with
  | zero =>
    rw [bpmStep_zero]
    split
    · exact .refl _ _
    · exact b.push_sameAbove _ _
  | succ c ih =>
    by_cases h : takesLeaf b c
    · rw [bpmStep_leaf num c h]
      exact b.push_sameAbove _ _
    · rw [bpmStep_package h]
      dsimp only
      split
      · exact (b.push_sameAbove _ _).trans (((ih _).trans (ih _)).weaken (by omega))
      · exact b.push_sameAbove _ _

/-- How many items list `c` has. -/
def supply (n : Nat) : Nat → Nat
  | 0 => n
  | c + 1 => n + supply n c / 2

/-! ## The lists as Package-Merge defines them -/

/-- How many leaves and packages are among the first `m` items of the list over one with item weights `q`: a leaf comes
first when it is lighter than the next package. -/
def mergeState (w : Nat → Nat) (n : Nat) (q : Nat → Nat) : Nat → Nat × Nat
  | 0 => (0, 0)
  | m + 1 =>
    let s := mergeState w n q m
    if s.1 < n ∧ w s.1 < q (2 * s.2) + q (2 * s.2 + 1) then (s.1 + 1, s.2) else (s.1, s.2 + 1)

/-- The weight of item `m`. -/
def mergeItem (w : Nat → Nat) (n : Nat) (q : Nat → Nat) (m : Nat) : Nat :=
  let s := mergeState w n q m
  if s.1 < n ∧ w s.1 < q (2 * s.2) + q (2 * s.2 + 1) then w s.1 else q (2 * s.2) + q (2 * s.2 + 1)

/-- The item weights of list `c`. -/
def items (w : Nat → Nat) (n : Nat) : Nat → Nat → Nat
  | 0 => w
  | c + 1 => mergeItem w n (items w n c)

/-- How many leaves are among the first `m` items of list `c`. -/
def leavesIn (w : Nat → Nat) (n : Nat) : Nat → Nat → Nat
  | 0, m => min m n
  | c + 1, m => (mergeState w n (items w n c) m).1

section Merge

variable {w q : Nat → Nat} {n : Nat}

/-- What the merge has taken so far: all of it is in order. -/
structure MergeInv (w q : Nat → Nat) (n m : Nat) (s : Nat × Nat) : Prop where
  total : s.1 + s.2 = m
  bound : s.1 ≤ n
  sum : ∑ x ∈ Finset.range m, mergeItem w n q x = ∑ x ∈ Finset.range s.1, w x + ∑ x ∈ Finset.range (2 * s.2), q x
  packages : s.1 < n → ∀ k, k < s.2 → q (2 * k) + q (2 * k + 1) ≤ w s.1
  leaves : ∀ x, x < s.1 → w x ≤ q (2 * s.2) + q (2 * s.2 + 1)

theorem mergeState_inv (hw : Monotone w) (hq : Monotone q) (m : Nat) : MergeInv w q n m (mergeState w n q m) := by
  induction m with
  | zero => exact ⟨rfl, Nat.zero_le _, rfl, fun _ k hk => absurd hk (by simp [mergeState]), fun x hx => absurd hx (by simp [mergeState])⟩
  | succ m ih =>
    obtain ⟨h1, h2, h3, h4, h5⟩ := ih
    rw [mergeState]
    by_cases h : (mergeState w n q m).1 < n ∧
        w (mergeState w n q m).1 < q (2 * (mergeState w n q m).2) + q (2 * (mergeState w n q m).2 + 1)
    · rw [if_pos h]
      refine ⟨by dsimp only; omega, h.1, ?_, fun hlt k hk => ?_, fun x hx => ?_⟩
      · rw [Finset.sum_range_succ, h3, mergeItem]
        dsimp only
        rw [if_pos h, Finset.sum_range_succ]
        omega
      · exact Nat.le_trans (h4 h.1 k hk) (hw (by dsimp only; omega))
      · rcases Nat.eq_or_lt_of_le (Nat.le_of_lt_succ hx) with rfl | hx
        · exact Nat.le_of_lt h.2
        · exact h5 x hx
    · rw [if_neg h]
      refine ⟨by dsimp only; omega, h2, ?_, fun hlt k hk => ?_, fun x hx => ?_⟩
      · rw [Finset.sum_range_succ, h3, mergeItem]
        dsimp only
        rw [if_neg h, show 2 * ((mergeState w n q m).2 + 1) = 2 * (mergeState w n q m).2 + 1 + 1 by omega,
          Finset.sum_range_succ, Finset.sum_range_succ]
        omega
      · dsimp only at hlt hk ⊢
        rcases Nat.eq_or_lt_of_le (Nat.le_of_lt_succ hk) with rfl | hk
        · omega
        · exact h4 hlt k hk
      · refine Nat.le_trans (h5 x hx) ?_
        have := hq (show 2 * (mergeState w n q m).2 ≤ 2 * ((mergeState w n q m).2 + 1) by omega)
        have := hq (show 2 * (mergeState w n q m).2 + 1 ≤ 2 * ((mergeState w n q m).2 + 1) + 1 by omega)
        dsimp only
        omega

theorem mergeItem_monotone (hw : Monotone w) (hq : Monotone q) : Monotone (mergeItem w n q) := by
  refine monotone_nat_of_le_succ fun m => ?_
  have hinv := mergeState_inv (n := n) hw hq m
  obtain ⟨-, -, -, h4, h5⟩ := mergeState_inv (n := n) hw hq (m + 1)
  rw [mergeItem, mergeItem]
  revert h4 h5
  rw [mergeState]
  by_cases h : (mergeState w n q m).1 < n ∧
      w (mergeState w n q m).1 < q (2 * (mergeState w n q m).2) + q (2 * (mergeState w n q m).2 + 1)
  · rw [if_pos h, if_pos h]
    intro h4 h5
    split
    · exact hw (by dsimp only; omega)
    · exact h5 _ (by dsimp only; omega)
  · rw [if_neg h, if_neg h]
    intro h4 h5
    split
    · rename_i h'
      exact h4 h'.1 _ (by dsimp only; omega)
    · have := hq (show 2 * (mergeState w n q m).2 ≤ 2 * ((mergeState w n q m).2 + 1) by omega)
      have := hq (show 2 * (mergeState w n q m).2 + 1 ≤ 2 * ((mergeState w n q m).2 + 1) + 1 by omega)
      dsimp only
      omega

/-- The first `m` items weigh no more than any `i` leaves and `k` packages from the front with `i + k = m`. -/
theorem merge_min (hw : Monotone w) (hq : Monotone q) {m i k : Nat} (hi : i ≤ n) (hm : i + k = m) :
    ∑ x ∈ Finset.range m, mergeItem w n q x ≤ ∑ x ∈ Finset.range i, w x + ∑ x ∈ Finset.range (2 * k), q x := by
  obtain ⟨h1, h2, h3, h4, h5⟩ := mergeState_inv (n := n) hw hq m
  rw [h3]
  generalize mergeState w n q m = s at *
  obtain ⟨i', k'⟩ := s
  dsimp only at *
  rcases Nat.lt_or_ge i' i with hlt | hge
  · -- more leaves, fewer packages
    obtain ⟨d, rfl⟩ := Nat.exists_eq_add_of_le (Nat.le_of_lt hlt)
    obtain rfl : k' = k + d := by omega
    have hsplit : ∀ d, (∀ j, j < k + d → q (2 * j) + q (2 * j + 1) ≤ w i') →
        ∑ x ∈ Finset.range (2 * (k + d)), q x ≤ ∑ x ∈ Finset.range (2 * k), q x + d * w i' := by
      intro d
      induction d with
      | zero => simp
      | succ d ih =>
        intro h
        rw [show 2 * (k + (d + 1)) = 2 * (k + d) + 1 + 1 by omega, Finset.sum_range_succ, Finset.sum_range_succ]
        have := ih fun j hj => h j (by omega)
        have := h (k + d) (by omega)
        rw [Nat.add_mul]
        omega
    have := hsplit d (h4 (by omega))
    rw [Finset.sum_range_add]
    have hle : d * w i' ≤ ∑ x ∈ Finset.range d, w (i' + x) := by
      have := Finset.card_nsmul_le_sum (Finset.range d) (fun x => w (i' + x)) (w i') fun x _ => hw (by omega)
      simpa using this
    omega
  · obtain ⟨d, rfl⟩ := Nat.exists_eq_add_of_le hge
    obtain rfl : k = k' + d := by omega
    have hsplit : ∀ d, d * (q (2 * k') + q (2 * k' + 1)) + ∑ x ∈ Finset.range (2 * k'), q x ≤
        ∑ x ∈ Finset.range (2 * (k' + d)), q x := by
      intro d
      induction d with
      | zero => simp
      | succ d ih =>
        rw [show 2 * (k' + (d + 1)) = 2 * (k' + d) + 1 + 1 by omega, Finset.sum_range_succ, Finset.sum_range_succ]
        have := hq (show 2 * k' ≤ 2 * (k' + d) by omega)
        have := hq (show 2 * k' + 1 ≤ 2 * (k' + d) + 1 by omega)
        rw [Nat.add_mul]
        omega
    have := hsplit d
    rw [Finset.sum_range_add]
    have hle : ∑ x ∈ Finset.range d, w (i + x) ≤ d * (q (2 * k') + q (2 * k' + 1)) := by
      have := Finset.sum_le_card_nsmul (Finset.range d) (fun x => w (i + x)) (q (2 * k') + q (2 * k' + 1)) fun x hx =>
        h5 _ (by have := Finset.mem_range.1 hx; omega)
      simpa using this
    omega

theorem items_monotone (hw : Monotone w) (c : Nat) : Monotone (items w n c) := by
  induction c with
  | zero => exact hw
  | succ c ih => exact mergeItem_monotone hw ih

/-- Any `k` leaves weigh no less than the `k` lightest. -/
theorem lightest_leaves (hw : Monotone w) (n : Nat) (p : Nat → Prop) [DecidablePred p] :
    ∑ x ∈ Finset.range ((Finset.range n).filter p).card, w x ≤ ∑ x ∈ (Finset.range n).filter p, w x := by
  induction n with
  | zero => simp
  | succ n ih =>
    rw [Finset.range_add_one, Finset.filter_insert]
    split
    · rw [Finset.card_insert_of_notMem (by simp), Finset.sum_insert (by simp), Finset.sum_range_succ]
      have : ((Finset.range n).filter p).card ≤ n := by
        simpa using Finset.card_filter_le (Finset.range n) p
      have := hw this
      omega
    · exact ih

/-- The first `m` items of a list weigh no more than any lengths that leave as little of the space. -/
theorem items_min (hw : Monotone w) (c : Nat) : ∀ {m : Nat} (l : Nat → Nat), (∀ j, l j ≤ c + 1) →
    (∑ j ∈ Finset.range n, 2 ^ (c + 1 - l j)) + m * 2 ^ c ≤ n * 2 ^ (c + 1) →
    ∑ x ∈ Finset.range m, items w n c x ≤ ∑ j ∈ Finset.range n, w j * l j := by
  -- the leaves with a length, and the lengths less one
  have count : ∀ l : Nat → Nat, ∑ j ∈ Finset.range n, w j * l j =
      ∑ j ∈ (Finset.range n).filter (fun j => l j ≠ 0), w j + ∑ j ∈ Finset.range n, w j * (l j - 1) := by
    intro l
    rw [Finset.sum_filter, ← Finset.sum_add_distrib]
    refine Finset.sum_congr rfl fun j _ => ?_
    split
    · rename_i h
      obtain ⟨v, hv⟩ : ∃ v, l j = v + 1 := ⟨l j - 1, by omega⟩
      rw [hv, Nat.add_sub_cancel]
      ring
    · rename_i h
      simp [show l j = 0 by omega]
  have room : ∀ (c : Nat) (l : Nat → Nat), (∀ j, l j ≤ c + 1) → ∑ j ∈ Finset.range n, 2 ^ (c + 1 - l j) =
      ∑ j ∈ Finset.range n, 2 ^ (c - (l j - 1)) + (n - ((Finset.range n).filter (fun j => l j ≠ 0)).card) * 2 ^ c := by
    intro c l hl
    have hcard : n - ((Finset.range n).filter (fun j => l j ≠ 0)).card =
        ((Finset.range n).filter (fun j => ¬ l j ≠ 0)).card := by
      have := Finset.card_filter_add_card_filter_not (s := Finset.range n) (fun j => l j ≠ 0)
      rw [Finset.card_range] at this
      omega
    rw [hcard, ← smul_eq_mul, ← Finset.sum_const, Finset.sum_filter, ← Finset.sum_add_distrib]
    refine Finset.sum_congr rfl fun j _ => ?_
    have := hl j
    split
    · rename_i h
      rw [show l j = 0 by simpa using h, show c + 1 - 0 = c + 1 by omega, show c - (0 - 1) = c by omega, Nat.pow_succ]
      omega
    · rename_i h
      rw [Nat.add_zero]
      congr 1
      omega
  induction c with
  | zero =>
    intro m l hl h
    have hroom := room 0 l hl
    have hl' : ∀ j, l j - 1 = 0 := fun j => by have := hl j; omega
    rw [hroom] at h
    simp only [Nat.zero_sub, Nat.pow_zero, Finset.sum_const, Finset.card_range, smul_eq_mul, Nat.mul_one] at h
    rw [count l]
    refine Nat.le_trans ?_ (Nat.le_trans (lightest_leaves hw n _) (Nat.le_add_right _ _))
    refine Finset.sum_le_sum_of_subset (Finset.range_subset_range.2 ?_)
    have : ((Finset.range n).filter (fun j => l j ≠ 0)).card ≤ n := by
      simpa using Finset.card_filter_le (Finset.range n) fun j => l j ≠ 0
    omega
  | succ c ih =>
    intro m l hl h
    have hcard : ((Finset.range n).filter (fun j => l j ≠ 0)).card ≤ n := by
      simpa using Finset.card_filter_le (Finset.range n) fun j => l j ≠ 0
    have hroom := room (c + 1) l hl
    have hlight := lightest_leaves hw n fun j => l j ≠ 0
    rw [count l]
    set i := ((Finset.range n).filter (fun j => l j ≠ 0)).card with hi
    rcases Nat.lt_or_ge i m with hlt | hge
    · have hq := ih (m := 2 * (m - i)) (fun j => l j - 1) (fun j => by have := hl j; omega) (by
        have e1 : 2 * (m - i) * 2 ^ c = (m - i) * 2 ^ (c + 1) := by rw [Nat.pow_succ]; ring
        have e2 : (n - i) * 2 ^ (c + 1) + m * 2 ^ (c + 1) = (m - i) * 2 ^ (c + 1) + n * 2 ^ (c + 1) := by
          rw [← Nat.add_mul, ← Nat.add_mul]; congr 1; omega
        have e3 : n * 2 ^ (c + 1 + 1) = n * 2 ^ (c + 1) + n * 2 ^ (c + 1) := by rw [Nat.pow_succ]; ring
        rw [e1]
        omega)
      have := merge_min (q := items w n c) hw (items_monotone hw c) hcard (show i + (m - i) = m by omega)
      rw [items]
      omega
    · have := merge_min (q := items w n c) hw (items_monotone hw c) (i := m) (k := 0) (show m ≤ n by omega) rfl
      have hsub : ∑ x ∈ Finset.range m, w x ≤ ∑ x ∈ Finset.range i, w x :=
        Finset.sum_le_sum_of_subset (Finset.range_subset_range.2 hge)
      rw [items]
      simp only [Nat.mul_zero, Nat.add_zero, Finset.range_zero, Finset.sum_empty] at this
      omega

/-- The first two items of every list are the two lightest leaves. -/
theorem items_start (hpos : ∀ x, 0 < w x) (hn : 2 ≤ n) (c : Nat) :
    items w n c 0 = w 0 ∧ items w n c 1 = w 1 ∧ leavesIn w n c 2 = 2 := by
  induction c with
  | zero => exact ⟨rfl, rfl, by simp [leavesIn, hn]⟩
  | succ c ih =>
    obtain ⟨h0, h1, -⟩ := ih
    have hp0 := hpos 0
    have hp1 := hpos 1
    have c0 : (0 < n ∧ w 0 < w 0 + w 1) := ⟨by omega, by omega⟩
    have c1 : (1 < n ∧ w 1 < w 0 + w 1) := ⟨by omega, by omega⟩
    have s1 : mergeState w n (items w n c) 1 = (1, 0) := by simp [mergeState, h0, h1, c0]
    refine ⟨?_, ?_, ?_⟩
    · simp [items, mergeItem, mergeState, h0, h1, c0]
    · simp [items, mergeItem, s1, h0, h1, c1]
    · rw [leavesIn, mergeState, s1]
      simp [h0, h1, c1]

theorem items_pos (hpos : ∀ x, 0 < w x) (c : Nat) : ∀ m, 0 < items w n c m := by
  induction c with
  | zero => exact hpos
  | succ c ih =>
    intro m
    rw [items, mergeItem]
    split
    · exact hpos _
    · exact Nat.add_pos_left (ih _) _

/-- While leaves are left a list takes only packages that the list below has; what lies beyond its items is no lighter
than any leaf. -/
theorem items_supply (hw : Monotone w) (hpos : ∀ x, 0 < w x) (c : Nat) :
    (∀ m, supply n c ≤ m → w (n - 1) ≤ items w n c m) ∧
    ∀ m, (mergeState w n (items w n c) m).1 < n → (mergeState w n (items w n c) m).2 ≤ supply n c / 2 := by
  have packages : ∀ c, (∀ m, supply n c ≤ m → w (n - 1) ≤ items w n c m) →
      ∀ m, (mergeState w n (items w n c) m).1 < n → (mergeState w n (items w n c) m).2 ≤ supply n c / 2 := by
    intro c hc m
    induction m with
    | zero => intro _; simp [mergeState]
    | succ m ih =>
      rw [mergeState]
      split
      · rename_i h
        exact fun _ => ih h.1
      · rename_i h
        intro hlt
        dsimp only at hlt ⊢
        have hle : items w n c (2 * (mergeState w n (items w n c) m).2) +
            items w n c (2 * (mergeState w n (items w n c) m).2 + 1) ≤ w (n - 1) :=
          Nat.le_trans (Nat.le_of_not_lt fun h' => h ⟨hlt, h'⟩) (hw (by omega))
        have h0 := items_pos (n := n) hpos c (2 * (mergeState w n (items w n c) m).2)
        by_contra hgt
        have := hc (2 * (mergeState w n (items w n c) m).2 + 1) (by omega)
        omega
  induction c with
  | zero => exact ⟨fun m hm => hw (by rw [supply] at hm; omega), packages 0 fun m hm => hw (by rw [supply] at hm; omega)⟩
  | succ c ih =>
    have hc : ∀ m, supply n (c + 1) ≤ m → w (n - 1) ≤ items w n (c + 1) m := by
      intro m hm
      obtain ⟨h1, h2, -, -, h5⟩ := mergeState_inv (n := n) hw (items_monotone (n := n) hw c) m
      have hlast : (mergeState w n (items w n c) m).1 = n := by
        by_contra hne
        have := ih.2 m (by omega)
        rw [supply] at hm
        omega
      rw [items, mergeItem, if_neg (by omega)]
      rcases Nat.eq_zero_or_pos n with rfl | hn
      · rw [supply] at hm
        have h0 := ih.1 (2 * (mergeState w 0 (items w 0 c) m).2 + 1) (by omega)
        omega
      · exact h5 _ (by omega)
    exact ⟨hc, packages (c + 1) hc⟩

end Merge

/-- The leaves' weights in order; beyond the last leaf its own. -/
def rankWeight (leaves : List Leaf) (i : Nat) : Nat := leafWeight leaves (min i (leaves.length - 1))

/-- Leaves as `CodeLengths` sorts them: at least two, ascending, none of weight 0. -/
structure SortedLeaves (leaves : List Leaf) : Prop where
  two : 2 ≤ leaves.length
  order : ∀ i j, i ≤ j → j < leaves.length → leafWeight leaves i ≤ leafWeight leaves j
  pos : ∀ i, i < leaves.length → 0 < leafWeight leaves i

theorem rankWeight_leaf {leaves : List Leaf} {i : Nat} (h : i < leaves.length) :
    rankWeight leaves i = leafWeight leaves i := by rw [rankWeight, Nat.min_eq_left (by omega)]

theorem SortedLeaves.monotone {leaves : List Leaf} (h : SortedLeaves leaves) : Monotone (rankWeight leaves) := by
  intro i j hij
  have := h.two
  exact h.order _ _ (by omega) (by omega)

theorem SortedLeaves.rank_pos {leaves : List Leaf} (h : SortedLeaves leaves) (i : Nat) : 0 < rankWeight leaves i := by
  have := h.two
  exact h.pos _ (by omega)

/-! ## Chains -/

/-- A chain that is item number `m` of list `c`: as many leaves as the first `m` items have, and for the other items
packages of two items each of the list below, the last of which is the tail. -/
def realChain (w : Nat → Nat) (n : Nat) : (c m : Nat) → Chain → Prop
  | _, _, .none => False
  | 0, m, .node _ i t => i = m ∧ m ≤ n ∧ t = .none
  | c + 1, m, .node _ i t => i = leavesIn w n (c + 1) m ∧ i ≤ n ∧ i ≤ m ∧
      (m = i ∧ t = .none ∨ i < m ∧ realChain w n c (2 * (m - i)) t ∧ chainIndex t ≤ i)

/-- What holds of every list: its nodes are in order, and its leaves are the lightest ones. -/
structure ListInv (leaves : List Leaf) (b : Bpm) (c : Nat) : Prop where
  order : chainWeight (b.old c) ≤ chainWeight (b.new c)
  pos : 0 < chainWeight (b.old c)
  two : 1 ≤ chainIndex (b.new c)
  bound : chainIndex (b.new c) ≤ leaves.length
  used : leafWeight leaves (chainIndex (b.new c) - 1) ≤ chainWeight (b.new c)
  next : chainIndex (b.new c) < leaves.length → chainWeight (b.new c) ≤ leafWeight leaves (chainIndex (b.new c))

/-- What holds of list `c + 1` over list `c`, `p` counting the items of each so far. -/
structure LinkInv (leaves : List Leaf) (b : Bpm) (p : Nat → Nat) (c : Nat) : Prop where
  offer : chainWeight (b.new (c + 1)) ≤ b.offer c
  index : chainIndex (b.new (c + 1)) ≤ p (c + 1)
  below : p c = 2 * (p (c + 1) - chainIndex (b.new (c + 1))) + 2
  packages : chainIndex (b.new (c + 1)) < leaves.length →
    p (c + 1) - chainIndex (b.new (c + 1)) ≤ supply leaves.length c / 2

/-- The newest node of list `c` is its item number `m`, and the older one the item before. -/
structure RealItem (leaves : List Leaf) (b : Bpm) (c m : Nat) : Prop where
  chain : realChain (rankWeight leaves) leaves.length c m (b.new c)
  new : chainWeight (b.new c) = items (rankWeight leaves) leaves.length c (m - 1)
  old : chainWeight (b.old c) = items (rankWeight leaves) leaves.length c (m - 2)

theorem RealItem.congr {leaves : List Leaf} {b b' : Bpm} {c m : Nat} (h : RealItem leaves b c m)
    (h0 : b'.old c = b.old c) (h1 : b'.new c = b.new c) : RealItem leaves b' c m :=
  ⟨by rw [h1]; exact h.chain, by rw [h1]; exact h.new, by rw [h0]; exact h.old⟩

/-- The invariant of lists 0 to `top`. -/
structure BpmInv (leaves : List Leaf) (top : Nat) (p : Nat → Nat) (b : Bpm) : Prop where
  leaves_eq : b.leaves = leaves
  size0 : top < b.chains0.length
  size1 : top < b.chains1.length
  list : ∀ c, c ≤ top → ListInv leaves b c
  link : ∀ c, c < top → LinkInv leaves b p c
  real : ∀ c, c ≤ top → p c ≤ supply leaves.length c → RealItem leaves b c (p c)
  bottom : chainIndex (b.new 0) = min (p 0) leaves.length

/-- When the package offered is not a real one, a list with leaves left takes a leaf. -/
theorem real_of_package {leaves : List Leaf} (hl : SortedLeaves leaves) {c : Nat} {p : Nat → Nat} {b : Bpm}
    (h : BpmInv leaves (c + 1) p b) (ht : ¬ takesLeaf b c) (hi : chainIndex (b.new (c + 1)) < leaves.length) :
    p c ≤ supply leaves.length c := by
  have hle : b.offer c ≤ leafWeight leaves (chainIndex (b.new (c + 1))) := by
    have : ¬ b.offer c > leafWeight leaves (chainIndex (b.new (c + 1))) := fun hgt =>
      ht ⟨by rw [h.leaves_eq]; exact hi, by rw [h.leaves_eq]; exact hgt⟩
    omega
  have hL := h.list c (by omega)
  have hlast : chainIndex (b.new c) < leaves.length := by
    rcases Nat.lt_or_ge (chainIndex (b.new c)) leaves.length with hlt | hge
    · exact hlt
    · have h1 := hL.used
      have h2 := hL.pos
      have h3 := hl.order (chainIndex (b.new (c + 1))) (chainIndex (b.new c) - 1) (by have := hL.bound; omega)
        (by have := hL.bound; have := hl.two; omega)
      have : b.offer c = chainWeight (b.old c) + chainWeight (b.new c) := rfl
      omega
  cases c with
  | zero =>
    have := h.bottom
    rw [supply]
    omega
  | succ c =>
    have hk := h.link c (by omega)
    have := hk.packages hlast
    have := hk.index
    rw [supply]
    omega

theorem tail_index {leaves : List Leaf} (hl : SortedLeaves leaves) {c : Nat} {p : Nat → Nat} {b : Bpm}
    (h : BpmInv leaves (c + 1) p b) (ht : ¬ takesLeaf b c) : chainIndex (b.new c) ≤ chainIndex (b.new (c + 1)) := by
  have hL := h.list c (by omega)
  rcases Nat.lt_or_ge (chainIndex (b.new (c + 1))) leaves.length with hlt | hge
  · have hle : b.offer c ≤ leafWeight leaves (chainIndex (b.new (c + 1))) := by
      have : ¬ b.offer c > leafWeight leaves (chainIndex (b.new (c + 1))) := fun hgt =>
        ht ⟨by rw [h.leaves_eq]; exact hlt, by rw [h.leaves_eq]; exact hgt⟩
      omega
    rcases Nat.lt_or_ge (chainIndex (b.new (c + 1))) (chainIndex (b.new c)) with hlt' | hge'
    · have h1 := hL.used
      have h2 := hL.pos
      have h3 := hl.order (chainIndex (b.new (c + 1))) (chainIndex (b.new c) - 1) (by omega)
        (by have := hL.bound; omega)
      have : b.offer c = chainWeight (b.old c) + chainWeight (b.new c) := rfl
      omega
    · exact hge'
  · exact Nat.le_trans hL.bound hge

theorem node_eta {w : Nat → Nat} {n c m : Nat} {ch : Chain} (h : realChain w n c m ch) :
    ch = .node (chainWeight ch) (chainIndex ch) (chainTail ch) := by
  cases ch with
  | none => cases c <;> exact h.elim
  | node w i t => rfl

theorem realChain_index {w : Nat → Nat} {n c m : Nat} {ch : Chain} (h : realChain w n (c + 1) m ch) :
    chainIndex ch = (mergeState w n (items w n c) m).1 := by
  cases ch with
  | none => exact h.elim
  | node w i t => exact h.1

/-- A list takes its next node as Package-Merge does. -/
theorem takesLeaf_iff {leaves : List Leaf} (hl : SortedLeaves leaves) {c : Nat} {p : Nat → Nat} {b : Bpm}
    (h : BpmInv leaves (c + 1) p b) (hs : p (c + 1) + 1 ≤ supply leaves.length (c + 1)) :
    let s := mergeState (rankWeight leaves) leaves.length (items (rankWeight leaves) leaves.length c) (p (c + 1))
    let pair := items (rankWeight leaves) leaves.length c (2 * s.2) +
      items (rankWeight leaves) leaves.length c (2 * s.2 + 1)
    s = (chainIndex (b.new (c + 1)), p (c + 1) - chainIndex (b.new (c + 1))) ∧
      (takesLeaf b c ↔ s.1 < leaves.length ∧ rankWeight leaves s.1 < pair) ∧
      (¬ takesLeaf b c → p c ≤ supply leaves.length c ∧ b.offer c = pair) := by
  intro s pair
  have hidx : chainIndex (b.new (c + 1)) = s.1 := realChain_index (h.real (c + 1) (Nat.le_refl _) (by omega)).chain
  have htotal : s.1 + s.2 = p (c + 1) :=
    (mergeState_inv hl.monotone (items_monotone hl.monotone c) (p (c + 1))).total
  have hk := h.link c (by omega)
  have hbelow := hk.below
  have hpc : p c = 2 * s.2 + 2 := by omega
  have hoffer : p c ≤ supply leaves.length c → b.offer c = pair := by
    intro hle
    have hr := h.real c (by omega) hle
    rw [Bpm.offer, hr.new, hr.old, hpc]
    rfl
  have htake : takesLeaf b c ↔ s.1 < leaves.length ∧ b.offer c > leafWeight leaves s.1 := by
    rw [takesLeaf, h.leaves_eq, hidx]
  have hfull : s.1 < leaves.length ∨ p c ≤ supply leaves.length c := by
    rw [supply] at hs
    have := (h.list (c + 1) (Nat.le_refl _)).bound
    omega
  refine ⟨by rw [hidx, ← htotal, Nat.add_sub_cancel_left], ?_, fun ht => ?_⟩
  · rw [htake]
    refine and_congr_right fun hlt => ?_
    rw [rankWeight_leaf hlt]
    by_cases hle : p c ≤ supply leaves.length c
    · rw [hoffer hle]
    · refine iff_of_true ?_ ?_
      · by_contra hgt
        exact hle (real_of_package hl h (fun ht => hgt (htake.1 ht).2) (by omega))
      · have h1 := (items_supply (n := leaves.length) hl.monotone hl.rank_pos c).1 (2 * s.2 + 1) (by omega)
        have h2 := items_pos (n := leaves.length) hl.rank_pos c (2 * s.2)
        have h3 := hl.monotone (show s.1 ≤ leaves.length - 1 by omega)
        rw [rankWeight_leaf hlt] at h3
        show leafWeight leaves s.1 < _ + _
        omega
  · have hle : p c ≤ supply leaves.length c := by
      rcases hfull with hlt | hle
      · exact real_of_package hl h ht (by omega)
      · exact hle
    exact ⟨hle, hoffer hle⟩

/-- What a step puts in front of list `c`, whatever it does below: the next item. -/
theorem bpmStep_real {leaves : List Leaf} (hl : SortedLeaves leaves) (num : Nat) {c : Nat} {p : Nat → Nat} {b : Bpm}
    (h : BpmInv leaves c p b) (hs : p c + 1 ≤ supply leaves.length c) :
    RealItem leaves (bpmStep num c b) c (p c + 1) := by
  have hreal := h.real c (Nat.le_refl c) (by omega)
  cases c with
  | zero =>
    rw [supply] at hs
    have hi := h.bottom
    rw [Nat.min_eq_left (by omega)] at hi
    rw [bpmStep_zero, if_neg (by rw [h.leaves_eq]; omega)]
    constructor <;> simp only [Bpm.push_new h.size1, Bpm.push_old h.size0, hi, h.leaves_eq]
    · exact ⟨rfl, hs, rfl⟩
    · exact (rankWeight_leaf (by omega)).symm
    · exact hreal.new
  | succ c =>
    classical
    have hk := h.link c (by omega)
    obtain ⟨hstate, hiff, hpack⟩ := takesLeaf_iff hl h hs
    rw [hstate] at hiff hpack
    dsimp only at hiff hpack
    have hnext : mergeState (rankWeight leaves) leaves.length (items (rankWeight leaves) leaves.length c) (p (c + 1) + 1) =
        if takesLeaf b c then (chainIndex (b.new (c + 1)) + 1, p (c + 1) - chainIndex (b.new (c + 1)))
        else (chainIndex (b.new (c + 1)), p (c + 1) - chainIndex (b.new (c + 1)) + 1) := by
      rw [mergeState, hstate]
      by_cases ht : takesLeaf b c
      · rw [if_pos ht]; exact if_pos (hiff.1 ht)
      · rw [if_neg ht]; exact if_neg fun h' => ht (hiff.2 h')
    have hitem : items (rankWeight leaves) leaves.length (c + 1) (p (c + 1)) =
        if takesLeaf b c then leafWeight leaves (chainIndex (b.new (c + 1))) else b.offer c := by
      rw [items, mergeItem, hstate]
      dsimp only
      by_cases ht : takesLeaf b c
      · rw [if_pos ht, if_pos (hiff.1 ht), rankWeight_leaf (hiff.1 ht).1]
      · rw [if_neg ht, if_neg fun h' => ht (hiff.2 h'), (hpack ht).2]
    by_cases ht : takesLeaf b c
    · rw [if_pos ht] at hnext hitem
      rw [bpmStep_leaf num c ht]
      refine ⟨?_, ?_, by rw [Bpm.push_old h.size0]; exact hreal.new⟩ <;> rw [Bpm.push_new h.size1, h.leaves_eq]
      swap
      · exact hitem.symm
      have hchain := hreal.chain
      rw [node_eta hchain] at hchain
      obtain ⟨-, h1, h2, h3⟩ := hchain
      refine ⟨by rw [leavesIn, hnext], (hiff.1 ht).1, by omega, ?_⟩
      rcases h3 with ⟨h3, h4⟩ | ⟨h3, h4, h5⟩
      · exact .inl ⟨by omega, h4⟩
      · exact .inr ⟨by omega, by
          rwa [show p (c + 1) + 1 - (chainIndex (b.new (c + 1)) + 1) = p (c + 1) - chainIndex (b.new (c + 1)) by omega],
          by omega⟩
    · rw [if_neg ht] at hnext hitem
      have hstep : (bpmStep num (c + 1) b).new (c + 1) =
          .node (b.offer c) (chainIndex (b.new (c + 1))) (b.new c) ∧ (bpmStep num (c + 1) b).old (c + 1) = b.new (c + 1) := by
        rw [bpmStep_package ht]
        dsimp only
        split
        · have hsame := (bpmStep_sameAbove num c (b.push (c + 1) (.node (b.offer c) (chainIndex (b.new (c + 1)))
            (b.new c)))).trans (bpmStep_sameAbove num c _)
          rw [hsame.new _ (by omega), hsame.old _ (by omega), Bpm.push_new h.size1, Bpm.push_old h.size0]
          exact ⟨rfl, rfl⟩
        · rw [Bpm.push_new h.size1, Bpm.push_old h.size0]
          exact ⟨rfl, rfl⟩
      refine ⟨?_, by rw [hstep.1]; exact hitem.symm, by rw [hstep.2]; exact hreal.new⟩
      rw [hstep.1]
      have hbelow := hk.below
      have hidx := hk.index
      refine ⟨by rw [leavesIn, hnext], (h.list (c + 1) (by omega)).bound, by omega,
        .inr ⟨by omega, ?_, tail_index hl h ht⟩⟩
      rw [show 2 * (p (c + 1) + 1 - chainIndex (b.new (c + 1))) = p c by omega]
      exact (h.real c (by omega) (hpack ht).1).chain

/-- A list that moves on to a heavier node keeps its invariant. -/
theorem ListInv.push {leaves : List Leaf} {b : Bpm} {c w i : Nat} {t : Chain} (h : ListInv leaves b c)
    (h0 : c < b.chains0.length) (h1 : c < b.chains1.length) (hw : chainWeight (b.new c) ≤ w) (hi : 1 ≤ i)
    (hn : i ≤ leaves.length) (hu : leafWeight leaves (i - 1) ≤ w) (hx : i < leaves.length → w ≤ leafWeight leaves i) :
    ListInv leaves (b.push c (.node w i t)) c := by
  have e0 := Bpm.push_old h0 (.node w i t)
  have e1 := Bpm.push_new h1 (.node w i t)
  constructor <;> simp only [e0, e1, chainWeight_node, chainIndex_node]
  · exact hw
  · exact Nat.lt_of_lt_of_le h.pos h.order
  · exact hi
  · exact hn
  · exact hu
  · exact hx

theorem ListInv.congr {leaves : List Leaf} {b b' : Bpm} {c : Nat} (h : ListInv leaves b c) (h0 : b'.old c = b.old c)
    (h1 : b'.new c = b.new c) : ListInv leaves b' c := by
  constructor <;> simp only [h0, h1]
  · exact h.order
  · exact h.pos
  · exact h.two
  · exact h.bound
  · exact h.used
  · exact h.next

theorem LinkInv.congr {leaves : List Leaf} {b b' : Bpm} {p p' : Nat → Nat} {c : Nat} (h : LinkInv leaves b p c)
    (h0 : b'.old c = b.old c) (h1 : b'.new c = b.new c) (h2 : b'.new (c + 1) = b.new (c + 1)) (hp : p' c = p c)
    (hp' : p' (c + 1) = p (c + 1)) : LinkInv leaves b' p' c := by
  have : b'.offer c = b.offer c := by rw [Bpm.offer, h0, h1, Bpm.offer]
  constructor <;> simp only [this, h2, hp, hp']
  · exact h.offer
  · exact h.index
  · exact h.below
  · exact h.packages

/-- The invariant speaks of the lists up to `top` only. -/
theorem BpmInv.congr {leaves : List Leaf} {top top' : Nat} {p p' : Nat → Nat} {b b' : Bpm}
    (h : BpmInv leaves top p b) (ht : top' ≤ top) (hleaves : b'.leaves = b.leaves)
    (hs0 : b'.chains0.length = b.chains0.length) (hs1 : b'.chains1.length = b.chains1.length)
    (h0 : ∀ c, c ≤ top' → b'.old c = b.old c) (h1 : ∀ c, c ≤ top' → b'.new c = b.new c)
    (hp : ∀ c, c ≤ top' → p' c = p c) : BpmInv leaves top' p' b' where
  leaves_eq := hleaves.trans h.leaves_eq
  size0 := by rw [hs0]; exact Nat.lt_of_le_of_lt ht h.size0
  size1 := by rw [hs1]; exact Nat.lt_of_le_of_lt ht h.size1
  list c hc := (h.list c (by omega)).congr (h0 c hc) (h1 c hc)
  link c hc := (h.link c (by omega)).congr (h0 c (by omega)) (h1 c (by omega)) (h1 _ (by omega)) (hp c (by omega))
    (hp _ (by omega))
  real c hc := by rw [hp c hc]; exact fun hs => (h.real c (by omega) hs).congr (h0 c hc) (h1 c hc)
  bottom := by rw [hp 0 (by omega), h1 0 (by omega)]; exact h.bottom

/-- A step that may go down advances its list by one item and keeps the invariant; what the list offers grows. -/
theorem bpmStep_inv {leaves : List Leaf} (hl : SortedLeaves leaves) {num : Nat} (hnum : num + 1 < 2 * leaves.length - 2)
    (c : Nat) : ∀ {p : Nat → Nat} {b : Bpm}, BpmInv leaves c p b →
      ∃ p', p' c = p c + 1 ∧ BpmInv leaves c p' (bpmStep num c b) ∧ b.offer c ≤ (bpmStep num c b).offer c := by
  induction c with
  | zero =>
    intro p b h
    have hL := h.list 0 (Nat.le_refl 0)
    have hreal := bpmStep_real hl num h
    refine ⟨fun _ => p 0 + 1, rfl, ?_⟩
    rw [bpmStep_zero, h.leaves_eq] at hreal ⊢
    by_cases hge : leaves.length ≤ chainIndex (b.new 0)
    · rw [if_pos hge] at hreal ⊢
      refine ⟨⟨h.leaves_eq, h.size0, h.size1, h.list, fun c hc => absurd hc (by omega), ?_, ?_⟩, Nat.le_refl _⟩
      · intro c hc hs
        obtain rfl : c = 0 := by omega
        exact hreal hs
      · have := h.bottom
        have := hL.bound
        omega
    · rw [if_neg hge] at hreal ⊢
      have hn := hL.next (by omega)
      refine ⟨⟨h.leaves_eq, ?_, ?_, ?_, fun c hc => absurd hc (by omega), ?_, ?_⟩, ?_⟩
      · simpa [Bpm.push] using h.size0
      · simpa [Bpm.push] using h.size1
      · intro c hc
        obtain rfl : c = 0 := by omega
        refine hL.push h.size0 h.size1 hn (by omega) (by omega) (by simp) fun hlt' => hl.order _ _ (by omega) hlt'
      · intro c hc hs
        obtain rfl : c = 0 := by omega
        exact hreal hs
      · rw [Bpm.push_new h.size1]
        have := h.bottom
        simp only [chainIndex_node]
        omega
      · rw [Bpm.offer, Bpm.offer, Bpm.push_old h.size0, Bpm.push_new h.size1]
        have := hL.order
        simp only [chainWeight_node]
        omega
  | succ c ih =>
    intro p b h
    have hL := h.list (c + 1) (Nat.le_refl _)
    have hk := h.link c (by omega)
    have hreal := bpmStep_real hl num h
    have hbelow := hk.below
    have hidx := hk.index
    by_cases ht : takesLeaf b c
    · have hlt : chainIndex (b.new (c + 1)) < leaves.length := by rw [← h.leaves_eq]; exact ht.1
      have hgt : b.offer c > leafWeight leaves (chainIndex (b.new (c + 1))) := by rw [← h.leaves_eq]; exact ht.2
      rw [bpmStep_leaf num c ht, h.leaves_eq] at hreal ⊢
      refine ⟨fun j => if j = c + 1 then p j + 1 else p j, if_pos rfl, ⟨h.leaves_eq, ?_, ?_, ?_, ?_, ?_, ?_⟩, ?_⟩
      · simpa [Bpm.push] using h.size0
      · simpa [Bpm.push] using h.size1
      · intro j hj
        rcases Nat.eq_or_lt_of_le hj with rfl | hj
        · exact hL.push h.size0 h.size1 (hL.next hlt) (by omega) hlt (by simp) fun hlt' => hl.order _ _ (by omega) hlt'
        · exact (h.list j (by omega)).congr (b.push_old_ne (by omega) _) (b.push_new_ne (by omega) _)
      · intro j hj
        rcases Nat.eq_or_lt_of_le (Nat.le_of_lt_succ hj) with rfl | hj
        · constructor <;> simp only [b.push_offer_ne (show j ≠ j + 1 by omega), Bpm.push_new h.size1, chainWeight_node,
            chainIndex_node, if_true, show j ≠ j + 1 by omega, if_false]
          · omega
          · omega
          · omega
          · intro hlt'
            have := hk.packages hlt
            omega
        · exact (h.link j (by omega)).congr (b.push_old_ne (by omega) _) (b.push_new_ne (by omega) _)
            (b.push_new_ne (by omega) _) (if_neg (by omega)) (if_neg (by omega))
      · intro j hj
        rcases Nat.eq_or_lt_of_le hj with rfl | hj
        · simpa using hreal
        · rw [if_neg (by omega)]
          exact fun hs => (h.real j (by omega) hs).congr (b.push_old_ne (by omega) _) (b.push_new_ne (by omega) _)
      · rw [if_neg (by omega), b.push_new_ne (by omega)]
        exact h.bottom
      · rw [Bpm.offer, Bpm.offer, Bpm.push_old h.size0, Bpm.push_new h.size1]
        have := hL.order
        have := hL.next hlt
        simp only [chainWeight_node]
        omega
    · have hreal' := hreal
      rw [bpmStep_package ht, h.leaves_eq] at hreal ⊢
      dsimp only at hreal ⊢
      rw [if_pos hnum] at hreal ⊢
      -- the list moves on, then the list below by two items
      have hmid : BpmInv leaves c p (b.push (c + 1) (.node (b.offer c) (chainIndex (b.new (c + 1))) (b.new c))) :=
        h.congr (by omega) rfl (by simp [Bpm.push]) (by simp [Bpm.push]) (fun j hj => b.push_old_ne (by omega) _)
          (fun j hj => b.push_new_ne (by omega) _) fun _ _ => rfl
      obtain ⟨p₁, hp₁, h₁, ho₁⟩ := ih hmid
      obtain ⟨p₂, hp₂, h₂, ho₂⟩ := ih h₁
      have hsame := (bpmStep_sameAbove num c
        (b.push (c + 1) (.node (b.offer c) (chainIndex (b.new (c + 1))) (b.new c)))).trans (bpmStep_sameAbove num c _)
      generalize bpmStep num c (bpmStep num c
        (b.push (c + 1) (.node (b.offer c) (chainIndex (b.new (c + 1))) (b.new c)))) = b₂ at *
      have hnew : b₂.new (c + 1) = .node (b.offer c) (chainIndex (b.new (c + 1))) (b.new c) := by
        rw [hsame.new _ (by omega), Bpm.push_new h.size1]
      have hold : b₂.old (c + 1) = b.new (c + 1) := by rw [hsame.old _ (by omega), Bpm.push_old h.size0]
      have hoff : b.offer c ≤ b₂.offer c := by
        rw [b.push_offer_ne (by omega)] at ho₁
        omega
      have hpack : chainIndex (b.new (c + 1)) < leaves.length → b.offer c ≤ leafWeight leaves (chainIndex (b.new (c + 1))) := by
        intro hlt
        have : ¬ b.offer c > leafWeight leaves (chainIndex (b.new (c + 1))) := fun hgt =>
          ht ⟨by rw [h.leaves_eq]; exact hlt, by rw [h.leaves_eq]; exact hgt⟩
        omega
      refine ⟨fun j => if j = c + 1 then p j + 1 else p₂ j, if_pos rfl, ⟨h₂.leaves_eq, ?_, ?_, ?_, ?_, ?_, ?_⟩, ?_⟩
      · rw [hsame.size0]
        simpa [Bpm.push] using h.size0
      · rw [hsame.size1]
        simpa [Bpm.push] using h.size1
      · intro j hj
        rcases Nat.eq_or_lt_of_le hj with rfl | hj
        · refine (hL.push h.size0 h.size1 hk.offer hL.two hL.bound (Nat.le_trans hL.used hk.offer) hpack).congr ?_
            (hsame.new _ (by omega))
          exact hsame.old _ (by omega)
        · exact h₂.list j (by omega)
      · intro j hj
        rcases Nat.eq_or_lt_of_le (Nat.le_of_lt_succ hj) with rfl | hj
        · constructor <;> simp only [hnew, chainWeight_node, chainIndex_node, if_true, show j ≠ j + 1 by omega, if_false]
          · exact hoff
          · omega
          · omega
          · intro hlt
            have := real_of_package hl h ht hlt
            omega
        · exact (h₂.link j (by omega)).congr rfl rfl rfl (if_neg (by omega)) (if_neg (by omega))
      · intro j hj
        rcases Nat.eq_or_lt_of_le hj with rfl | hj
        · simpa using hreal
        · rw [if_neg (by omega)]
          exact h₂.real j (by omega)
      · rw [if_neg (by omega)]
        exact h₂.bottom
      · rw [Bpm.offer, Bpm.offer, hold, hnew]
        have := hL.order
        have := hk.offer
        simp only [chainWeight_node]
        omega

/-! ## The main loop (41_huffman R177) -/

theorem bpmInit_inv {leaves : List Leaf} (hl : SortedLeaves leaves) {maxBits : Nat} (hm : 1 ≤ maxBits) :
    BpmInv leaves (maxBits - 1) (fun _ => 2) (bpmInit leaves maxBits) := by
  have h0 : ∀ c, c ≤ maxBits - 1 → (bpmInit leaves maxBits).old c = .node (leafWeight leaves 0) 1 .none := fun c hc => by
    simp [bpmInit, Bpm.old, leafWeight, List.getD_eq_getElem?_getD, show c < maxBits by omega]
  have h1 : ∀ c, c ≤ maxBits - 1 → (bpmInit leaves maxBits).new c = .node (leafWeight leaves 1) 2 .none := fun c hc => by
    simp [bpmInit, Bpm.new, leafWeight, List.getD_eq_getElem?_getD, show c < maxBits by omega]
  have htwo := hl.two
  constructor
  · rfl
  · simp [bpmInit]; omega
  · simp [bpmInit]; omega
  · intro c hc
    constructor <;> simp only [h0 c hc, h1 c hc, chainWeight_node, chainIndex_node]
    · exact hl.order 0 1 (by omega) (by omega)
    · exact hl.pos 0 (by omega)
    · omega
    · exact htwo
    · exact Nat.le_refl _
    · exact fun h => hl.order 1 2 (by omega) h
  · intro c hc
    have ho : (bpmInit leaves maxBits).offer c = leafWeight leaves 0 + leafWeight leaves 1 := by
      rw [Bpm.offer, h0 c (by omega), h1 c (by omega)]; rfl
    constructor <;> simp only [h1 (c + 1) (by omega), ho, chainWeight_node, chainIndex_node] <;> omega
  · intro c hc _
    obtain ⟨e0, e1, e2⟩ := items_start (n := leaves.length) hl.rank_pos htwo c
    refine ⟨?_, ?_, ?_⟩ <;> simp only [h0 c hc, h1 c hc]
    · cases c with
      | zero => exact ⟨rfl, htwo, rfl⟩
      | succ c => exact ⟨e2.symm, htwo, Nat.le_refl 2, .inl ⟨rfl, rfl⟩⟩
    · exact ((rankWeight_leaf htwo).symm.trans e1.symm)
    · exact ((rankWeight_leaf (by omega)).symm.trans e0.symm)
  · rw [h1 0 (by omega)]
    simp only [chainIndex_node]
    omega

theorem bpmRun_inv {leaves : List Leaf} (hl : SortedLeaves leaves) {maxBits : Nat} (hm : 1 ≤ maxBits) (k : Nat)
    (hk : k + 5 ≤ 2 * leaves.length) : ∃ p, p (maxBits - 1) = k + 2 ∧
      BpmInv leaves (maxBits - 1) p
        ((List.range k).foldl (fun b i => bpmStep (i + 2) (maxBits - 1) b) (bpmInit leaves maxBits)) := by
  induction k with
  | zero => exact ⟨_, rfl, bpmInit_inv hl hm⟩
  | succ k ih =>
    obtain ⟨p, hp, h⟩ := ih (by omega)
    obtain ⟨p', hp', h', -⟩ := bpmStep_inv hl (num := k + 2) (by omega) _ h
    exact ⟨p', by omega, by rw [List.range_succ, List.foldl_append]; exact h'⟩

/-- With room for the codes no list runs out of items. -/
theorem supply_enough {n c : Nat} (h : n ≤ 2 ^ (c + 1)) : 2 * n ≤ supply n c + 2 := by
  have key : ∀ c, 2 * n * 2 ^ c < n + (supply n c + 1) * 2 ^ c := by
    intro c
    induction c with
    | zero => simp only [supply, Nat.pow_zero, Nat.mul_one]; omega
    | succ c ih =>
      have hpos := Nat.two_pow_pos c
      have h2 : (supply n c - 1) * 2 ^ c ≤ supply n c / 2 * 2 * 2 ^ c := Nat.mul_le_mul_right _ (by omega)
      have h3 : (supply n c + 1) * 2 ^ c ≤ (supply n c - 1) * 2 ^ c + 2 * 2 ^ c := by
        rw [← Nat.add_mul]; exact Nat.mul_le_mul_right _ (by omega)
      rw [supply, Nat.pow_succ]
      nlinarith
  have hkey := key c
  rw [Nat.pow_succ] at h
  by_contra hlt
  have : (supply n c + 3) * 2 ^ c ≤ 2 * n * 2 ^ c := Nat.mul_le_mul_right _ (by omega)
  nlinarith

/-- The final chain is item `2 n - 2` of the last list. -/
theorem bpmRun_real {leaves : List Leaf} (hl : SortedLeaves leaves) {maxBits : Nat} (hm : 1 ≤ maxBits)
    (hroom : leaves.length ≤ 2 ^ maxBits) :
    realChain (rankWeight leaves) leaves.length (maxBits - 1) (2 * leaves.length - 2) ((bpmRun leaves maxBits).new (maxBits - 1)) := by
  have hs := supply_enough (n := leaves.length) (c := maxBits - 1) (by rwa [show maxBits - 1 + 1 = maxBits by omega])
  have htwo := hl.two
  rcases Nat.eq_or_lt_of_le htwo with he | hlt
  · have := ((bpmInit_inv hl hm).real (maxBits - 1) (Nat.le_refl _) (by omega)).chain
    rw [bpmRun, show 2 * leaves.length - 4 = 0 by omega, show 2 * leaves.length - 2 = 2 by omega]
    exact this
  · obtain ⟨p, hp, h⟩ := bpmRun_inv hl hm (2 * leaves.length - 5) (by omega)
    have := (bpmStep_real hl (2 * leaves.length - 5 + 2) h (by omega)).chain
    rw [bpmRun, show 2 * leaves.length - 4 = (2 * leaves.length - 5) + 1 by omega, List.range_succ, List.foldl_append]
    rw [hp, show 2 * leaves.length - 5 + 2 + 1 = 2 * leaves.length - 2 by omega] at this
    exact this

/-! ## Lengths -/

/-- How many nodes of a chain cover leaf `j`. -/
def cover : Chain → Nat → Nat
  | .none, _ => 0
  | .node _ i t, j => (if j < i then 1 else 0) + cover t j

theorem sum_from {n i : Nat} (h : i ≤ n) (k : Nat) :
    ∑ j ∈ Finset.range n, (if j < i then 0 else k) = (n - i) * k := by
  obtain ⟨d, rfl⟩ := Nat.exists_eq_add_of_le h
  rw [Finset.sum_range_add, Nat.add_sub_cancel_left,
    Finset.sum_eq_zero fun j hj => if_pos (Finset.mem_range.1 hj), Nat.zero_add,
    Finset.sum_congr rfl fun j _ => if_neg (show ¬ i + j < i by omega)]
  simp

theorem cover_term {c i j v : Nat} (hv : v ≤ c) (hj : v ≠ 0 → j < i) :
    2 ^ (c + 1 - ((if j < i then 1 else 0) + v)) = 2 ^ (c - v) + if j < i then 0 else 2 ^ c := by
  split
  · congr 1; omega
  · obtain rfl : v = 0 := by by_contra h; exact absurd (hj h) (by assumption)
    rw [show c + 1 - (0 + 0) = c + 1 by omega, Nat.sub_zero, Nat.pow_succ]
    omega

/-- The Kraft sum of a real chain: item `m` of list `c` leaves `n - m / 2` of the space. -/
theorem realChain_cover {w : Nat → Nat} {n : Nat} (c : Nat) : ∀ {m : Nat} {ch : Chain}, realChain w n c m ch →
    (∑ j ∈ Finset.range n, 2 ^ (c + 1 - cover ch j)) + m * 2 ^ c = n * 2 ^ (c + 1) ∧
      ∀ j, cover ch j ≤ c + 1 ∧ (cover ch j ≠ 0 → j < chainIndex ch) := by
  induction c with
  | zero =>
    intro m ch h
    match ch, h with
    | .node w i t, h =>
      obtain ⟨rfl, hm, rfl⟩ := h
      refine ⟨?_, fun j => ?_⟩
      · simp only [cover]
        rw [Finset.sum_congr rfl fun j _ => cover_term (Nat.zero_le 0) (fun h => absurd rfl h), Finset.sum_add_distrib,
          sum_from hm]
        simp
        omega
      · simp only [cover, chainIndex_node]
        split <;> simp_all
  | succ c ih =>
    intro m ch h
    match ch, h with
    | .node w i t, ⟨_, hn, hm, hcase⟩ =>
      have hpow : 2 ^ (c + 1 + 1) = 2 * 2 ^ (c + 1) := by rw [Nat.pow_succ]; ring
      rcases hcase with ⟨rfl, rfl⟩ | ⟨hlt, hr, hidx⟩
      · refine ⟨?_, fun j => ?_⟩
        · simp only [cover]
          rw [Finset.sum_congr rfl fun j _ => cover_term (Nat.zero_le _) (fun h => absurd rfl h),
            Finset.sum_add_distrib, sum_from hn, hpow]
          simp only [Nat.sub_zero, Finset.sum_const, Finset.card_range, smul_eq_mul]
          rw [← Nat.add_mul, ← Nat.add_mul, show n + (n - m) + m = n * 2 by omega]
          ring
        · simp only [cover, chainIndex_node]
          split
          · exact ⟨by omega, fun _ => by assumption⟩
          · exact ⟨by omega, fun h => absurd rfl h⟩
      · obtain ⟨hsum, hc⟩ := ih hr
        refine ⟨?_, fun j => ?_⟩
        · simp only [cover]
          rw [Finset.sum_congr rfl fun j _ => cover_term (hc j).1 fun h => Nat.lt_of_lt_of_le ((hc j).2 h) hidx,
            Finset.sum_add_distrib, sum_from hn, hpow]
          have h2 : 2 * (m - i) * 2 ^ c = (m - i) * 2 ^ (c + 1) := by rw [Nat.pow_succ]; ring
          rw [h2] at hsum
          have h3 : (n - i) * 2 ^ (c + 1) + m * 2 ^ (c + 1) = (m - i) * 2 ^ (c + 1) + n * 2 ^ (c + 1) := by
            rw [← Nat.add_mul, ← Nat.add_mul]; congr 1; omega
          rw [Nat.add_assoc, h3, ← Nat.add_assoc, hsum]
          ring
        · simp only [cover, chainIndex_node]
          have := hc j
          split
          · exact ⟨by omega, fun _ => by assumption⟩
          · exact ⟨by omega, fun h => by have := this.2 (by omega); omega⟩

/-- What a real chain costs: the items it stands for. -/
theorem realChain_cost {w : Nat → Nat} {n : Nat} (hw : Monotone w) (c : Nat) : ∀ {m : Nat} {ch : Chain},
    realChain w n c m ch →
      ∑ j ∈ Finset.range n, w j * cover ch j = ∑ x ∈ Finset.range m, items w n c x := by
  have leaves : ∀ {i : Nat} {t : Chain} {v : Nat}, i ≤ n → ∑ j ∈ Finset.range n, w j * cover (.node v i t) j =
      ∑ j ∈ Finset.range i, w j + ∑ j ∈ Finset.range n, w j * cover t j := by
    intro i t v hi
    simp only [cover, Nat.mul_add, Finset.sum_add_distrib]
    congr 1
    rw [← Finset.sum_subset (Finset.range_subset_range.2 hi) fun j _ hj => by
      rw [Finset.mem_range] at hj
      simp [hj]]
    exact Finset.sum_congr rfl fun j hj => by rw [if_pos (Finset.mem_range.1 hj), Nat.mul_one]
  have none : ∑ j ∈ Finset.range n, w j * cover .none j = 0 := Finset.sum_eq_zero fun _ _ => Nat.mul_zero _
  induction c with
  | zero =>
    intro m ch h
    match ch, h with
    | .node v i t, h =>
      obtain ⟨rfl, hm, rfl⟩ := h
      rw [leaves hm, none, Nat.add_zero]
      rfl
  | succ c ih =>
    intro m ch h
    match ch, h with
    | .node v i t, ⟨he, hn, hm, hcase⟩ =>
      have hinv := mergeState_inv (n := n) hw (items_monotone (n := n) hw c) m
      have htotal := hinv.total
      rw [leavesIn] at he
      rw [leaves hn, items, hinv.sum, ← he]
      congr 1
      rcases hcase with ⟨rfl, rfl⟩ | ⟨hlt, hr, -⟩
      · rw [none, show (mergeState w n (items w n c) m).2 = 0 by omega]
        rfl
      · rw [ih hr, show 2 * (m - i) = 2 * (mergeState w n (items w n c) m).2 by omega]

theorem length_foldl_modify (fs : List Leaf) (lengths : List Nat) :
    (fs.foldl (fun l f => l.modify f.symbol (· + 1)) lengths).length = lengths.length := by
  induction fs generalizing lengths with
  | nil => rfl
  | cons f fs ih => rw [List.foldl_cons, ih, List.length_modify]

theorem getD_foldl_modify (fs : List Leaf) (lengths : List Nat) {s : Nat} (hs : s < lengths.length) :
    (fs.foldl (fun l f => l.modify f.symbol (· + 1)) lengths).getD s 0 =
      lengths.getD s 0 + (fs.map Leaf.symbol).count s := by
  induction fs generalizing lengths with
  | nil => simp
  | cons f fs ih =>
    rw [List.foldl_cons, ih _ (by rwa [List.length_modify]), List.map_cons, List.count_cons, List.getD_eq_getElem?_getD,
      List.getElem?_modify, List.getD_eq_getElem?_getD]
    rw [List.getElem?_eq_getElem hs]
    simp only [Option.map_eq_map, Option.map_some, Option.getD_some, beq_iff_eq]
    split <;> omega

theorem length_chainLengths (leaves : List Leaf) (ch : Chain) (lengths : List Nat) :
    (chainLengths leaves ch lengths).length = lengths.length := by
  induction ch generalizing lengths with
  | none => rfl
  | node w i t ih => rw [chainLengths, ih, length_foldl_modify]

theorem count_take_symbol {symbols : List Nat} (hn : symbols.Nodup) {j : Nat} (hj : j < symbols.length) (i : Nat) :
    (symbols.take i).count symbols[j] = if j < i then 1 else 0 := by
  split
  · rename_i h
    refine List.count_eq_one_of_mem (hn.sublist (List.take_sublist _ _)) ?_
    exact List.mem_take_iff_getElem.2 ⟨j, by omega, rfl⟩
  · rename_i h
    refine List.count_eq_zero_of_not_mem fun hm => ?_
    obtain ⟨k, hk, e⟩ := List.mem_take_iff_getElem.1 hm
    have := (List.Nodup.getElem_inj_iff hn).1 e
    omega

/-- The length of a present symbol is how many nodes cover its leaf. -/
theorem getD_chainLengths_present {leaves : List Leaf} (hn : (leaves.map Leaf.symbol).Nodup) {j : Nat}
    (hj : j < leaves.length) (ch : Chain) (lengths : List Nat) (hs : leaves[j].symbol < lengths.length) :
    (chainLengths leaves ch lengths).getD leaves[j].symbol 0 = lengths.getD leaves[j].symbol 0 + cover ch j := by
  induction ch generalizing lengths with
  | none => rfl
  | node w i t ih =>
    rw [chainLengths, ih _ (by rwa [length_foldl_modify]), getD_foldl_modify _ _ hs, List.map_take]
    have := count_take_symbol hn (j := j) (by simpa using hj) i
    rw [List.getElem_map] at this
    rw [this, cover]
    omega

theorem getD_chainLengths_absent {leaves : List Leaf} {s : Nat} (ch : Chain) (lengths : List Nat)
    (hs : s < lengths.length) (ha : s ∉ leaves.map Leaf.symbol) :
    (chainLengths leaves ch lengths).getD s 0 = lengths.getD s 0 := by
  induction ch generalizing lengths with
  | none => rfl
  | node w i t ih =>
    rw [chainLengths, ih _ (by rwa [length_foldl_modify]), getD_foldl_modify _ _ hs,
      List.count_eq_zero_of_not_mem fun h => ha (List.mem_map.2 ?_)]
    · rfl
    · obtain ⟨f, hf, e⟩ := List.mem_map.1 h
      exact ⟨f, List.mem_of_mem_take hf, e⟩

/-! ## The sorted leaves (41_huffman R173, R174) -/

theorem mem_presentLeaves {freq : List Nat} {m : Nat} {f : Leaf} :
    f ∈ presentLeaves freq m ↔ f.symbol < m ∧ freq.getD f.symbol 0 ≠ 0 ∧ f.weight = freq.getD f.symbol 0 := by
  simp only [presentLeaves, List.mem_map, List.mem_filter, List.mem_range, decide_eq_true_eq]
  constructor
  · rintro ⟨s, ⟨h1, h2⟩, rfl⟩
    exact ⟨h1, h2, rfl⟩
  · rintro ⟨h1, h2, h3⟩
    exact ⟨f.symbol, ⟨h1, h2⟩, by cases f; simp_all⟩

theorem presentLeaves_symbols (freq : List Nat) (m : Nat) : (presentLeaves freq m).map Leaf.symbol =
    (List.range m).filter fun s => freq.getD s 0 ≠ 0 := by
  rw [presentLeaves, List.map_map]
  exact List.map_id'' (fun _ => rfl) _

theorem sortLeaves_perm (leaves : List Leaf) : (sortLeaves leaves).Perm leaves := List.perm_insertionSort _ _

theorem sorted_sortLeaves {leaves : List Leaf} (h2 : 2 ≤ leaves.length) (hpos : ∀ f ∈ leaves, 0 < f.weight) :
    SortedLeaves (sortLeaves leaves) := by
  have hlen : (sortLeaves leaves).length = leaves.length := (sortLeaves_perm leaves).length_eq
  have hget : ∀ {i}, (hi : i < (sortLeaves leaves).length) →
      leafWeight (sortLeaves leaves) i = (sortLeaves leaves)[i].weight := fun hi => by
    simp [leafWeight, List.getD_eq_getElem?_getD, hi]
  refine ⟨by omega, fun i j hij hj => ?_, fun i hi => ?_⟩
  · rw [hget hj, hget (by omega)]
    rcases Nat.eq_or_lt_of_le hij with rfl | hlt
    · exact Nat.le_refl _
    · have : (sortLeaves leaves).Pairwise fun a b => a.weight ≤ b.weight := by
        have : Std.Total fun a b : Leaf => a.weight ≤ b.weight := ⟨fun a b => Nat.le_total _ _⟩
        have : IsTrans Leaf fun a b => a.weight ≤ b.weight := ⟨fun a b c => Nat.le_trans⟩
        exact List.pairwise_insertionSort _ _
      exact List.pairwise_iff_getElem.1 this i j (by omega) hj hlt
  · rw [hget hi]
    exact hpos _ ((sortLeaves_perm leaves).mem_iff.1 (List.getElem_mem hi))

/-! ## `CodeLengths` (41_huffman R178) -/

/-- A length set that is complete within a limit. -/
structure Complete (lengths : List Nat) (maxBits : Nat) : Prop where
  bound : ∀ l ∈ lengths, l ≤ maxBits
  kraft : kraftSum lengths maxBits = 2 ^ maxBits

theorem kraftSum_symbols (lengths : List Nat) (maxBits : Nat) : kraftSum lengths maxBits =
    (((List.range lengths.length).filter fun s => lengths.getD s 0 ≠ 0).map
      fun s => 2 ^ (maxBits - lengths.getD s 0)).sum := by
  rw [kraftSum]
  conv_lhs => rw [lengths_eq_map lengths, List.filter_map, List.map_map]
  rfl

theorem bound_of_getD {lengths : List Nat} {k : Nat} (h : ∀ s, s < lengths.length → lengths.getD s 0 ≤ k) :
    ∀ l ∈ lengths, l ≤ k := by
  intro l hl
  obtain ⟨i, hi, rfl⟩ := List.mem_iff_getElem.1 hl
  simpa [List.getD_eq_getElem?_getD, hi] using h i hi

/-- A sum over the present symbols, taken over the leaves. -/
theorem sum_present (freq : List Nat) (m : Nat) (f : Nat → Nat) :
    (((List.range m).filter fun s => freq.getD s 0 ≠ 0).map f).sum =
      ∑ j ∈ Finset.range (sortLeaves (presentLeaves freq m)).length,
        f ((sortLeaves (presentLeaves freq m)).getD j ⟨0, 0⟩).symbol := by
  rw [← presentLeaves_symbols, ← (((sortLeaves_perm _).map Leaf.symbol).map f).sum_eq, List.map_map, Finset.sum_range,
    ← List.sum_ofFn]
  congr 1
  apply List.ext_getElem
  · simp
  · intro j h1 h2
    simp at h1
    simp [List.getD_eq_getElem?_getD]

/-- What Package-Merge makes of two or more present symbols: a complete set within the limit, of least weight. -/
theorem packageMerge_spec {freq : List Nat} {m maxBits : Nat} (hm : 1 ≤ maxBits) (hroom : m ≤ 2 ^ maxBits)
    (h2 : 2 ≤ (presentLeaves freq m).length) :
    let sorted := sortLeaves (presentLeaves freq m)
    let lengths := chainLengths sorted ((bpmRun sorted maxBits).new (maxBits - 1)) (List.replicate m 0)
    let present := (List.range m).filter fun s => freq.getD s 0 ≠ 0
    lengths.length = m ∧ Complete lengths maxBits ∧
      (∀ s, s < m → (freq.getD s 0 = 0 → lengths.getD s 0 = 0) ∧
        (freq.getD s 0 ≠ 0 → 1 ≤ lengths.getD s 0 ∧ lengths.getD s 0 ≤ maxBits)) ∧
      ∀ l : Nat → Nat, (∀ s ∈ present, l s ≤ maxBits) → (present.map fun s => 2 ^ (maxBits - l s)).sum ≤ 2 ^ maxBits →
        (present.map fun s => freq.getD s 0 * lengths.getD s 0).sum ≤ (present.map fun s => freq.getD s 0 * l s).sum := by
  intro sorted lengths present
  have hperm : sorted.Perm (presentLeaves freq m) := sortLeaves_perm _
  have hsym : (sorted.map Leaf.symbol).Perm ((List.range m).filter fun s => freq.getD s 0 ≠ 0) := by
    rw [← presentLeaves_symbols]; exact hperm.map _
  have hnodup : (sorted.map Leaf.symbol).Nodup := hsym.nodup_iff.2 (List.nodup_range.filter _)
  have hl : SortedLeaves sorted := sorted_sortLeaves h2 fun f hf => by
    have := mem_presentLeaves.1 hf
    omega
  have hcount : sorted.length ≤ m := by
    have := hsym.length_eq
    rw [List.length_map] at this
    rw [this]
    exact Nat.le_trans (List.length_filter_le _ _) (by simp)
  have hreal := bpmRun_real hl hm (Nat.le_trans hcount hroom)
  obtain ⟨hsum, hcov⟩ := realChain_cover _ hreal
  rw [show maxBits - 1 + 1 = maxBits by omega] at hsum hcov
  have htwo := hl.two
  have hsum' : ∑ j ∈ Finset.range sorted.length,
      2 ^ (maxBits - cover ((bpmRun sorted maxBits).new (maxBits - 1)) j) = 2 ^ maxBits := by
    have e1 : (2 * sorted.length - 2) * 2 ^ (maxBits - 1) = (sorted.length - 1) * 2 ^ maxBits := by
      obtain ⟨k, rfl⟩ : ∃ k, maxBits = k + 1 := ⟨maxBits - 1, by omega⟩
      rw [show k + 1 - 1 = k by omega, Nat.pow_succ, show 2 * sorted.length - 2 = (sorted.length - 1) * 2 by omega]
      ring
    have e2 : sorted.length * 2 ^ maxBits = 2 ^ maxBits + (sorted.length - 1) * 2 ^ maxBits := by
      obtain ⟨k, hk⟩ : ∃ k, sorted.length = k + 1 := ⟨sorted.length - 1, by omega⟩
      rw [hk, Nat.add_sub_cancel]
      ring
    omega
  have hcov1 : ∀ j, j < sorted.length → 1 ≤ cover ((bpmRun sorted maxBits).new (maxBits - 1)) j := by
    intro j hj
    by_contra h0
    obtain ⟨k, hk, hne⟩ : ∃ k, k < sorted.length ∧ k ≠ j := by
      rcases Nat.eq_zero_or_pos j with rfl | hp
      · exact ⟨1, by omega, by omega⟩
      · exact ⟨0, by omega, by omega⟩
    have hlt := Finset.sum_lt_sum_of_subset (f := fun j => 2 ^ (maxBits - cover ((bpmRun sorted maxBits).new (maxBits - 1)) j))
      (s := {j}) (t := Finset.range sorted.length) (by simpa using hj) (Finset.mem_range.2 hk) (by simpa using hne)
      (Nat.two_pow_pos _) fun _ _ _ => Nat.zero_le _
    rw [hsum', Finset.sum_singleton, show cover ((bpmRun sorted maxBits).new (maxBits - 1)) j = 0 by omega] at hlt
    exact absurd hlt (by simp)
  have hlen : lengths.length = m := by simp [lengths, length_chainLengths]
  have habsent : ∀ s, s < m → freq.getD s 0 = 0 → lengths.getD s 0 = 0 := by
    intro s hs h0
    refine (getD_chainLengths_absent _ _ (by simpa using hs) fun h => ?_).trans (by
      simp [List.getD_eq_getElem?_getD, hs])
    have := (List.mem_filter.1 (hsym.mem_iff.1 h)).2
    simp only [decide_eq_true_eq] at this
    exact this h0
  have hleaf : ∀ j, (hj : j < sorted.length) →
      lengths.getD sorted[j].symbol 0 = cover ((bpmRun sorted maxBits).new (maxBits - 1)) j := by
    intro j hj
    have hs : sorted[j].symbol < m := (mem_presentLeaves.1 (hperm.mem_iff.1 (List.getElem_mem hj))).1
    refine (getD_chainLengths_present hnodup hj _ _ (by simpa using hs)).trans ?_
    simp [List.getD_eq_getElem?_getD, hs]
  have hpresent : ∀ s, s < m → freq.getD s 0 ≠ 0 → 1 ≤ lengths.getD s 0 ∧ lengths.getD s 0 ≤ maxBits := by
    intro s hs h0
    have hmem : s ∈ sorted.map Leaf.symbol := hsym.mem_iff.2 (List.mem_filter.2 ⟨List.mem_range.2 hs, by simpa using h0⟩)
    obtain ⟨f, hf, rfl⟩ := List.mem_map.1 hmem
    obtain ⟨j, hj, rfl⟩ := List.mem_iff_getElem.1 hf
    rw [hleaf j hj]
    exact ⟨hcov1 j hj, (hcov j).1⟩
  have hget : ∀ j, j < sorted.length → lengths.getD (sorted.getD j ⟨0, 0⟩).symbol 0 =
      cover ((bpmRun sorted maxBits).new (maxBits - 1)) j := fun j hj => by
    rw [List.getD_eq_getElem?_getD (l := sorted), List.getElem?_eq_getElem hj, Option.getD_some, hleaf j hj]
  refine ⟨hlen, ⟨bound_of_getD fun s hs => ?_, ?_⟩, fun s hs => ⟨habsent s hs, hpresent s hs⟩, fun l hbound hl' => ?_⟩
  · rw [hlen] at hs
    by_cases h0 : freq.getD s 0 = 0
    · rw [habsent s hs h0]; omega
    · exact (hpresent s hs h0).2
  · rw [kraftSum_symbols, hlen]
    have hfilter : ((List.range m).filter fun s => lengths.getD s 0 ≠ 0) =
        (List.range m).filter fun s => freq.getD s 0 ≠ 0 := by
      refine List.filter_congr fun s hs => decide_eq_decide.2 ?_
      rw [List.mem_range] at hs
      constructor
      · exact fun h h0 => h (habsent s hs h0)
      · exact fun h => by have := (hpresent s hs h).1; omega
    rw [hfilter, sum_present, ← hsum']
    exact Finset.sum_congr rfl fun j hj => by rw [hget j (Finset.mem_range.1 hj)]
  · -- the chain costs the least that lengths as short can
    have hsymbol : ∀ j, j < sorted.length → (sorted.getD j ⟨0, 0⟩) ∈ presentLeaves freq m := fun j hj => by
      rw [List.getD_eq_getElem?_getD, List.getElem?_eq_getElem hj]
      exact hperm.mem_iff.1 (List.getElem_mem hj)
    have hfreq : ∀ j, j < sorted.length → freq.getD (sorted.getD j ⟨0, 0⟩).symbol 0 = rankWeight sorted j := fun j hj => by
      rw [rankWeight_leaf hj, leafWeight, (mem_presentLeaves.1 (hsymbol j hj)).2.2]
    rw [sum_present] at hl'
    rw [sum_present, sum_present]
    have hmin := items_min hl.monotone (n := sorted.length) (maxBits - 1) (m := 2 * sorted.length - 2)
      (fun j => if j < sorted.length then l (sorted.getD j ⟨0, 0⟩).symbol else 0) (fun j => by
        rw [show maxBits - 1 + 1 = maxBits by omega]
        split
        · rename_i hj
          have := mem_presentLeaves.1 (hsymbol j hj)
          exact hbound _ (List.mem_filter.2 ⟨List.mem_range.2 this.1, by simpa using this.2.1⟩)
        · exact Nat.zero_le _) (by
        rw [show maxBits - 1 + 1 = maxBits by omega, ← hsum]
        refine Nat.add_le_add_right ?_ _
        rw [hsum']
        refine Nat.le_trans (Nat.le_of_eq (Finset.sum_congr rfl fun j hj => ?_)) hl'
        rw [if_pos (Finset.mem_range.1 hj)])
    rw [← realChain_cost hl.monotone _ hreal] at hmin
    refine Nat.le_trans (Nat.le_of_eq (Finset.sum_congr rfl fun j hj => ?_))
      (Nat.le_trans hmin (Nat.le_of_eq (Finset.sum_congr rfl fun j hj => ?_)))
    · rw [hget j (Finset.mem_range.1 hj), hfreq j (Finset.mem_range.1 hj)]
    · rw [if_pos (Finset.mem_range.1 hj), hfreq j (Finset.mem_range.1 hj)]

/-! ## `BuildFromFrequencies` (41_huffman R170 to R178) -/

/-- The trimmed symbol count (41_huffman R171). -/
theorem trimCodes_spec (freq : List Nat) {minCodes maxCodes : Nat} (h : minCodes ≤ maxCodes) :
    minCodes ≤ trimCodes freq minCodes maxCodes ∧ trimCodes freq minCodes maxCodes ≤ maxCodes ∧
      (trimCodes freq minCodes maxCodes = minCodes ∨ freq.getD (trimCodes freq minCodes maxCodes - 1) 0 ≠ 0) ∧
      ∀ s, trimCodes freq minCodes maxCodes ≤ s → s < maxCodes → freq.getD s 0 = 0 := by
  induction maxCodes with
  | zero => exact ⟨h, Nat.le_refl _, .inl (Nat.le_zero.1 h).symm, fun s _ hs => absurd hs (by omega)⟩
  | succ k ih =>
    rw [trimCodes]
    split
    · rename_i hc
      obtain ⟨h1, h2, h3, h4⟩ := ih (by omega)
      refine ⟨h1, by omega, h3, fun s hs hs' => ?_⟩
      rcases Nat.eq_or_lt_of_le (Nat.le_of_lt_succ hs') with rfl | hs'
      · exact hc.2
      · exact h4 s hs hs'
    · rename_i hc
      refine ⟨h, Nat.le_refl _, ?_, fun s hs hs' => absurd hs' (by omega)⟩
      by_cases h0 : freq.getD k 0 = 0
      · exact .inl (by omega)
      · exact .inr h0

/-- What the code lengths of `freq` are: two codes of one bit when fewer than two symbols are present, and otherwise a
complete set within the limit, of least weight, that codes exactly the present symbols (41_huffman R173, R178). -/
structure CodeLengthsOf (freq : List Nat) (m maxBits : Nat) (lengths : List Nat) : Prop where
  length : lengths.length = m
  complete : Complete lengths maxBits
  none : (List.range m).filter (fun s => freq.getD s 0 ≠ 0) = [] → lengths = [1, 1] ++ List.replicate (m - 2) 0
  one : ∀ p, (List.range m).filter (fun s => freq.getD s 0 ≠ 0) = [p] → ∀ s, s < m →
    lengths.getD s 0 = if s = p ∨ s = (if p = 0 then 1 else 0) then 1 else 0
  many : 2 ≤ ((List.range m).filter fun s => freq.getD s 0 ≠ 0).length →
    (∀ s, s < m → (freq.getD s 0 = 0 → lengths.getD s 0 = 0) ∧
      (freq.getD s 0 ≠ 0 → 1 ≤ lengths.getD s 0 ∧ lengths.getD s 0 ≤ maxBits)) ∧
    let present := (List.range m).filter fun s => freq.getD s 0 ≠ 0
    ∀ l : Nat → Nat, (∀ s ∈ present, l s ≤ maxBits) → (present.map fun s => 2 ^ (maxBits - l s)).sum ≤ 2 ^ maxBits →
      (present.map fun s => freq.getD s 0 * lengths.getD s 0).sum ≤ (present.map fun s => freq.getD s 0 * l s).sum

theorem getD_twoCodes {m p q s : Nat} (hs : s < m) :
    (((List.replicate m 0).set p 1).set q 1).getD s 0 = if s = p ∨ s = q then 1 else 0 := by
  rw [List.getD_eq_getElem?_getD, List.getElem?_set, List.getElem?_set]
  simp only [List.length_set, List.length_replicate, List.getElem?_replicate, hs, if_true]
  by_cases h1 : q = s
  · simp [h1, hs]
  · by_cases h2 : p = s
    · simp [h1, h2, hs, Ne.symm h1]
    · simp [h1, h2, Ne.symm h1, Ne.symm h2]

theorem twoCodes_complete {m p q maxBits : Nat} (hp : p < m) (hq : q < m) (hne : p ≠ q) (hm : 1 ≤ maxBits) :
    Complete (((List.replicate m 0).set p 1).set q 1) maxBits := by
  have hlen : (((List.replicate m 0).set p 1).set q 1).length = m := by simp
  constructor
  · refine bound_of_getD fun s hs => ?_
    rw [getD_twoCodes (hlen ▸ hs)]
    split <;> omega
  · rw [kraftSum_symbols, hlen]
    have hperm : ((List.range m).filter fun s => (((List.replicate m 0).set p 1).set q 1).getD s 0 ≠ 0).Perm [p, q] := by
      refine (List.perm_ext_iff_of_nodup (List.nodup_range.filter _) (by simpa using hne)).2 fun s => ?_
      simp only [List.mem_filter, List.mem_range, decide_eq_true_eq, List.mem_cons, List.not_mem_nil, or_false]
      constructor
      · rintro ⟨hs, h⟩
        rw [getD_twoCodes hs] at h
        by_contra hno
        exact h (if_neg hno)
      · intro h
        have hs : s < m := by omega
        exact ⟨hs, by rw [getD_twoCodes hs, if_pos h]; omega⟩
    rw [(hperm.map _).sum_eq]
    simp only [List.map_cons, List.map_nil, List.sum_cons, List.sum_nil]
    rw [getD_twoCodes hp, getD_twoCodes hq, if_pos (.inl rfl), if_pos (.inr rfl), Nat.add_zero]
    obtain ⟨k, rfl⟩ : ∃ k, maxBits = k + 1 := ⟨maxBits - 1, by omega⟩
    rw [Nat.add_sub_cancel, Nat.pow_succ]
    omega

theorem codeLengths_spec {freq : List Nat} {m maxBits : Nat} (hm : 2 ≤ m) (hbits : 1 ≤ maxBits)
    (hroom : m ≤ 2 ^ maxBits) : CodeLengthsOf freq m maxBits (codeLengths freq m maxBits).1 := by
  have hsymbols := presentLeaves_symbols freq m
  rw [codeLengths]
  dsimp only
  match hleaves : presentLeaves freq m with
  | [] =>
    rw [hleaves] at hsymbols
    have hnone : (List.range m).filter (fun s => freq.getD s 0 ≠ 0) = [] := hsymbols.symm
    refine ⟨by simp, twoCodes_complete (by omega) (by omega) (by omega) hbits, fun _ => ?_, fun p hp => ?_, fun h => ?_⟩
    · obtain ⟨k, rfl⟩ := Nat.exists_eq_add_of_le' hm
      rfl
    · rw [hnone] at hp; exact absurd hp (by simp)
    · rw [hnone] at h; exact absurd h (by simp)
  | [p] =>
    rw [hleaves] at hsymbols
    have hone : (List.range m).filter (fun s => freq.getD s 0 ≠ 0) = [p.symbol] := hsymbols.symm
    have hp : p.symbol < m := (mem_presentLeaves.1 (hleaves ▸ List.mem_singleton_self p)).1
    have hq : (if p.symbol = 0 then 1 else 0) < m := by split <;> omega
    have hne : p.symbol ≠ if p.symbol = 0 then 1 else 0 := by split <;> omega
    refine ⟨by simp, twoCodes_complete hp hq hne hbits, fun h => ?_, fun p' hp' s hs => ?_, fun h => ?_⟩
    · rw [hone] at h; exact absurd h (by simp)
    · rw [hone] at hp'
      obtain rfl : p.symbol = p' := by simpa using hp'
      exact getD_twoCodes hs
    · rw [hone] at h; exact absurd h (by simp)
  | a :: b :: rest =>
    have hlen : ((List.range m).filter fun s => freq.getD s 0 ≠ 0).length = (presentLeaves freq m).length := by
      rw [← hsymbols, List.length_map]
    rw [hleaves] at hlen
    have hspec := packageMerge_spec (freq := freq) hbits hroom (by rw [hleaves]; simp)
    rw [hleaves] at hspec
    obtain ⟨h1, h2, h3, h4⟩ := hspec
    refine ⟨h1, h2, fun h => ?_, fun p hp => ?_, fun _ => ⟨h3, h4⟩⟩
    · rw [h] at hlen; exact absurd hlen (by simp)
    · rw [hp] at hlen; exact absurd hlen (by simp)

/-- The build from frequencies never fails, and its lengths are those of the frequencies (41_huffman R178). -/
theorem buildFromFrequencies_spec {freq : List Nat} {minCodes maxCodes maxBits : Nat} (h2 : 2 ≤ minCodes)
    (h : minCodes ≤ maxCodes) (hbits : 1 ≤ maxBits) (hroom : trimCodes freq minCodes maxCodes ≤ 2 ^ maxBits) :
    ∃ t b, buildFromFrequencies freq minCodes maxCodes maxBits = .ok (t, b) ∧
      buildFromLengths t.len maxBits = .ok t ∧ t.n = trimCodes freq minCodes maxCodes ∧
      CodeLengthsOf freq (trimCodes freq minCodes maxCodes) maxBits t.len := by
  have hspec := codeLengths_spec (freq := freq) (Nat.le_trans h2 (trimCodes_spec freq h).1) hbits hroom
  obtain ⟨t, ht⟩ := complete_builds hspec.complete.bound hspec.complete.kraft
  have hb := buildFromLengths_spec hspec.complete.bound
  rw [ht] at hb
  obtain ⟨-, -, b, -, htree⟩ := hb
  have hlen : t.len = (codeLengths freq (trimCodes freq minCodes maxCodes) maxBits).1 := by rw [htree]
  refine ⟨t, (codeLengths freq (trimCodes freq minCodes maxCodes) maxBits).2, ?_, by rw [hlen, ht], ?_, by rw [hlen]; exact hspec⟩
  · rw [buildFromFrequencies]
    simp only [ht]
  · rw [htree]
    exact hspec.length

end Sys2Proof
end

