-- ==== Sys2Proof/Laws/Deflate.lean ====
section
/-! SUPPORT. The compressor: the trees of a dynamic plan code every symbol they are used for (44_deflate R271 to R277,
41_huffman R178), so a block of valid tokens is always written; the pass is its blocks in order (44_deflate R260). -/

namespace Sys2Proof.Machine

/-! ## Counts -/

theorem getD_countAt {counts : List Nat} {k : Nat} (j : Nat) (hk : k < counts.length) :
    (countAt counts k).getD j 0 = counts.getD j 0 + if k = j then 1 else 0 := by
  rw [countAt, List.getD_eq_getElem?_getD, List.getElem?_modify, List.getD_eq_getElem?_getD]
  split
  · rename_i h
    subst h
    simp [List.getElem?_eq_getElem hk]
  · simp

/-- Counting by a key: what a fold of `countAt` holds. -/
theorem getD_foldl_count {α : Type} (key : α → Option Nat) (ys : List α) (counts : List Nat) (j : Nat)
    (h : ∀ y ∈ ys, ∀ k, key y = some k → k < counts.length) :
    (ys.foldl (fun f y => match key y with | some k => countAt f k | none => f) counts).getD j 0 =
      counts.getD j 0 + ys.countP fun y => key y = some j := by
  induction ys generalizing counts with
  | nil => simp
  | cons y ys ih =>
    rw [List.foldl_cons, List.countP_cons]
    cases hy : key y with
    | none =>
      dsimp only
      rw [ih counts fun y' hy' => h y' (by simp [hy'])]
      simp
    | some k =>
      dsimp only
      have hk := h y (by simp) k hy
      rw [ih _ fun y' hy' k' hk' => by
        have := h y' (by simp [hy']) k' hk'
        rw [countAt, List.length_modify]
        exact this, getD_countAt j hk]
      simp only [Option.some.injEq, decide_eq_true_eq]
      omega

theorem getD_replicate_zero (n j : Nat) : (List.replicate n 0).getD j 0 = 0 := by
  rw [List.getD_eq_getElem?_getD, List.getElem?_replicate]
  split <;> rfl

/-- `FREQ_LL` counts the literal/length symbols, and the end code once (44_deflate R271). -/
theorem getD_freqLL {syms : List Sym} (h : ∀ y ∈ syms, symLL y < 286) (s : Nat) :
    (freqLL syms).getD s 0 = if s = 256 then 1 else syms.countP fun y => symLL y = s := by
  have hfold : freqLL syms = (syms.foldl (fun f y => countAt f (symLL y)) (List.replicate 286 0)).set 256 1 := by
    rw [freqLL]
    congr 2
    funext f y
    cases y <;> rfl
  have hcount := getD_foldl_count (fun y => some (symLL y)) syms (List.replicate 286 0) s fun y hy k hk => by
    rw [List.length_replicate]
    exact (Option.some.inj hk) ▸ h y hy
  have hlen : ∀ (ys : List Sym) (f : List Nat), (ys.foldl (fun f y => countAt f (symLL y)) f).length = f.length := by
    intro ys
    induction ys with
    | nil => exact fun _ => rfl
    | cons y ys ih => intro f; rw [List.foldl_cons, ih, countAt, List.length_modify]
  dsimp only at hcount
  rw [hfold, List.getD_eq_getElem?_getD, List.getElem?_set]
  split
  · rename_i e
    rw [if_pos (by rw [hlen, List.length_replicate]; omega), if_pos e.symm]
    rfl
  · rename_i e
    rw [← List.getD_eq_getElem?_getD, hcount, getD_replicate_zero, if_neg fun h => e h.symm]
    simp

/-- `FREQ_D` counts the distance symbols (44_deflate R271). -/
theorem getD_freqD {syms : List Sym} (h : ∀ y ∈ syms, ∀ d, symD y = some d → d < 30) (d : Nat) :
    (freqD syms).getD d 0 = syms.countP fun y => symD y = some d := by
  have hfold : freqD syms = syms.foldl (fun f y => match symD y with | some k => countAt f k | none => f)
      (List.replicate 30 0) := by
    rw [freqD]
    congr 1
    funext f y
    cases y <;> rfl
  rw [hfold, getD_foldl_count symD syms (List.replicate 30 0) d fun y hy k hk => by
      rw [List.length_replicate]; exact h y hy k hk,
    getD_replicate_zero, Nat.zero_add]

/-! ## Plans -/

/-- A build from frequencies codes every symbol that occurs (41_huffman R178). -/
theorem buildFromFrequencies_codes {freq : List Nat} {minCodes maxCodes maxBits : Nat} (h2 : 2 ≤ minCodes)
    (h : minCodes ≤ maxCodes) (hbits : 1 ≤ maxBits) (hroom : maxCodes ≤ 2 ^ maxBits) :
    ∃ t b, buildFromFrequencies freq minCodes maxCodes maxBits = .ok (t, b) ∧ (∀ l ∈ t.len, l ≤ maxBits) ∧
      ∀ s, s < maxCodes → freq.getD s 0 ≠ 0 → t.len.getD s 0 ≠ 0 := by
  obtain ⟨hmin, hmax, -, htrim⟩ := trimCodes_spec freq h
  obtain ⟨t, b, hb, -, -, hcl⟩ := buildFromFrequencies_spec h2 h hbits (Nat.le_trans hmax hroom)
  refine ⟨t, b, hb, hcl.complete.bound, fun s hs h0 => ?_⟩
  have hsm : s < trimCodes freq minCodes maxCodes := by
    by_contra hge
    exact h0 (htrim s (by omega) hs)
  have hmem : s ∈ (List.range (trimCodes freq minCodes maxCodes)).filter fun s => freq.getD s 0 ≠ 0 :=
    List.mem_filter.2 ⟨List.mem_range.2 hsm, by simpa using h0⟩
  match hp : (List.range (trimCodes freq minCodes maxCodes)).filter fun s => freq.getD s 0 ≠ 0 with
  | [] => rw [hp] at hmem; exact absurd hmem (by simp)
  | [p] =>
    rw [hp, List.mem_singleton] at hmem
    rw [hcl.one p hp s hsm, if_pos (.inl hmem)]
    omega
  | a :: b :: rest =>
    have := ((hcl.many (by rw [hp]; simp)).1 s hsm).2 h0
    omega

theorem writeCode_ok {t : Tree} {s : Nat} (h : t.len.getD s 0 ≠ 0) : writeCode t s = .ok (t.codeOf s) := if_neg h

/-- The two trees of a block code an entry. -/
def codesSym (tll td : Tree) (y : Sym) : Prop :=
  tll.len.getD (symLL y) 0 ≠ 0 ∧ ∀ d, symD y = some d → td.len.getD d 0 ≠ 0

theorem writeSym_ok {tll td : Tree} {y : Sym} (h : codesSym tll td y) : writeSym tll td y = .ok (symbolBits tll td y) := by
  cases y with
  | lit s => exact writeCode_ok h.1
  | copy s lextra d dextra =>
    rw [writeSym, writeCode_ok (s := s) h.1, writeCode_ok (h.2 d rfl)]
    rfl

theorem writeSyms_ok {tll td : Tree} (syms : List Sym) (hend : tll.len.getD 256 0 ≠ 0)
    (h : ∀ y ∈ syms, codesSym tll td y) :
    writeSyms tll td syms = .ok (syms.flatMap (symbolBits tll td) ++ tll.codeOf 256) := by
  induction syms with
  | nil => simp [writeSyms, writeCode_ok hend]
  | cons y ys ih =>
    rw [writeSyms, writeSym_ok (h y (by simp)), ih fun y' hy' => h y' (by simp [hy'])]
    simp

theorem writeRle_ok {cl : Tree} (rle : List (Nat × Nat)) (h : ∀ e ∈ rle, cl.len.getD e.1 0 ≠ 0) :
    writeRle cl rle = .ok (rle.flatMap fun e => cl.codeOf e.1 ++ fieldBits (clExtra e.1) e.2) := by
  induction rle with
  | nil => rfl
  | cons e es ih =>
    rw [writeRle, writeCode_ok (h e (by simp)), ih fun e' he' => h e' (by simp [he'])]
    simp

/-- The run-length coding uses the 19 code-length symbols (44_deflate R274). -/
theorem runLengths_codes (turns : Nat) (ls : List Nat) (h : ∀ l ∈ ls, l ≤ 15) :
    ∀ e ∈ runLengths turns ls, e.1 < 19 := by
  induction turns generalizing ls with
  | zero => intro e he; simp [runLengths] at he
  | succ n ih =>
    match ls with
    | [] => intro e he; simp [runLengths] at he
    | v :: rest =>
      have hv : v ≤ 15 := h v (by simp)
      have hrest : ∀ k, ∀ l ∈ rest.drop k, l ≤ 15 := fun k l hl => h l (by simp [List.mem_of_mem_drop hl])
      intro e he
      rw [runLengths] at he
      dsimp only at he
      split at he
      · split at he
        · rcases List.mem_cons.1 he with rfl | he
          · simp
          · exact ih _ (hrest _) e he
        · rcases List.mem_cons.1 he with rfl | he
          · simp
          · exact ih _ (hrest _) e he
      · split at he
        · have hrep : ∀ k, e ∈ List.replicate k ((16 : Nat), 3) → e.1 < 19 := fun k hk => by
            rw [(List.mem_replicate.1 hk).2]; simp
          split at he
          · simp only [List.mem_append, List.mem_cons] at he
            rcases he with (rfl | he) | rfl | he
            · dsimp only; omega
            · exact hrep _ he
            · simp
            · exact ih _ (hrest _) e he
          · simp only [List.mem_append, List.mem_cons] at he
            rcases he with (rfl | he) | he
            · dsimp only; omega
            · exact hrep _ he
            · exact ih _ (hrest _) e he
        · rcases List.mem_cons.1 he with rfl | he
          · dsimp only; omega
          · exact ih _ (by simpa using hrest 0) e he

/-- Symbols within their alphabets (44_deflate R263). -/
def inAlphabets (y : Sym) : Prop := symLL y < 286 ∧ symLL y ≠ 256 ∧ ∀ d, symD y = some d → d < 30

/-- The plan of a block never fails, and its trees code all that the block sends (41_huffman R178). -/
theorem makePlan_ok {syms : List Sym} (h : ∀ y ∈ syms, inAlphabets y) :
    ∃ p, makePlan syms = .ok p ∧ p.ll.len.getD 256 0 ≠ 0 ∧ (∀ y ∈ syms, codesSym p.ll p.d y) ∧
      ∀ e ∈ p.rle, p.cl.len.getD e.1 0 ≠ 0 := by
  obtain ⟨ll, b₁, hll, hbll, hcll⟩ := buildFromFrequencies_codes (freq := freqLL syms) (minCodes := 257) (maxCodes := 286)
    (maxBits := 15) (by omega) (by omega) (by omega) (by omega)
  obtain ⟨d, b₂, hd, hbd, hcd⟩ := buildFromFrequencies_codes (freq := freqD syms) (minCodes := 2) (maxCodes := 30)
    (maxBits := 15) (by omega) (by omega) (by omega) (by omega)
  have hrle := runLengths_codes (ll.len ++ d.len).length (ll.len ++ d.len) fun l hl => by
    rcases List.mem_append.1 hl with hl | hl
    · exact hbll l hl
    · exact hbd l hl
  generalize hr : runLengths (ll.len ++ d.len).length (ll.len ++ d.len) = rle at hrle
  obtain ⟨cl, b₃, hcl, -, hccl⟩ := buildFromFrequencies_codes
    (freq := rle.foldl (fun f e => countAt f e.1) (List.replicate 19 0)) (minCodes := 19) (maxCodes := 19)
    (maxBits := 7) (by omega) (by omega) (by omega) (by omega)
  have hcount := fun j => getD_foldl_count (fun e : Nat × Nat => some e.1) rle (List.replicate 19 0) j
    fun e he k hk => by simpa using (Option.some.inj hk) ▸ hrle e he
  refine ⟨_, by rw [makePlan, planTree, planTree, hll, hd]; simp only [hr, planTree, hcl]; rfl, ?_, fun y hy => ?_, fun e he => ?_⟩
  · exact hcll 256 (by omega) (by rw [getD_freqLL (fun y hy => (h y hy).1)]; simp)
  · obtain ⟨h1, h2, h3⟩ := h y hy
    refine ⟨hcll _ h1 ?_, fun d' hd' => hcd d' (h3 d' hd') ?_⟩
    · rw [getD_freqLL (fun y hy => (h y hy).1), if_neg h2]
      exact Nat.ne_of_gt (List.countP_pos_iff.2 ⟨y, hy, by simp⟩)
    · rw [getD_freqD (fun y hy => (h y hy).2.2)]
      exact Nat.ne_of_gt (List.countP_pos_iff.2 ⟨y, hy, by simpa using hd'⟩)
  · refine hccl _ (hrle e he) ?_
    have := hcount e.1
    dsimp only at this ⊢
    rw [this]
    exact Nat.ne_of_gt (Nat.add_pos_right _ (List.countP_pos_iff.2 ⟨e, he, by simp⟩))

/-! ## Symbols of valid tokens -/

theorem lastIndex_lt (table : List Nat) {v : Nat} (h : 0 < table.length) : lastIndex table v < table.length := by
  have := (List.takeWhile_sublist (· ≤ v) (l := table)).length_le
  rw [lastIndex]
  omega

theorem symbolOf_inAlphabets (t : Token) : inAlphabets (symbolOf t) := by
  cases t with
  | lit b =>
    have := b.isLt
    refine ⟨?_, ?_, fun d hd => ?_⟩
    · simp only [symbolOf, symLL]; omega
    · simp only [symbolOf, symLL]; omega
    · simp [symbolOf, symD] at hd
  | copy len dist =>
    have h1 := lastIndex_lt lengthBase (v := len) (by decide)
    have h2 := lastIndex_lt distBase (v := dist) (by decide)
    rw [show lengthBase.length = 29 by rfl] at h1
    rw [show distBase.length = 30 by rfl] at h2
    refine ⟨?_, ?_, fun d hd => ?_⟩
    · simp only [symbolOf, symLL]; omega
    · simp only [symbolOf, symLL]; omega
    · simp only [symbolOf, symD, Option.some.injEq] at hd
      omega

/-! ## Blocks and the pass -/

theorem fixed_codes {y : Sym} (h : inAlphabets y) : codesSym fixLL fixD y := by
  have hll : ∀ s : Fin 286, fixLL.len.getD s.val 0 ≠ 0 := by decide +kernel
  have hd : ∀ d : Fin 30, fixD.len.getD d.val 0 ≠ 0 := by decide +kernel
  exact ⟨hll ⟨_, h.1⟩, fun d hd' => hd ⟨d, h.2.2 d hd'⟩⟩

theorem fixedBits_ok (final : Bool) {syms : List Sym} (h : ∀ y ∈ syms, inAlphabets y) : fixedBits final syms =
    .ok ([final, true, false] ++ (syms.flatMap (symbolBits fixLL fixD) ++ fixLL.codeOf 256)) := by
  rw [fixedBits, writeSyms_ok syms (by decide +kernel) fun y hy => fixed_codes (h y hy)]

/-- A block is always written, and writing it leaves the hash arrays alone. -/
theorem writeBlock_ok (mode : BtMode) (final : Bool) (k : Nat) (bs : List Byte) (w : Work) :
    ∃ bits w', writeBlock mode final k bs w = .ok (bits, w') ∧ w'.hash = w.hash := by
  have hsyms : ∀ y ∈ w.tok.map symbolOf, inAlphabets y := fun y hy => by
    obtain ⟨t, -, rfl⟩ := List.mem_map.1 hy
    exact symbolOf_inAlphabets t
  obtain ⟨p, hp, h1, h2, h3⟩ := makePlan_ok hsyms
  have hdyn : ∃ bits, dynamicBits final p (w.tok.map symbolOf) = .ok bits := by
    rw [dynamicBits, writeRle_ok _ h3, writeSyms_ok _ h1 h2]
    exact ⟨_, rfl⟩
  obtain ⟨db, hdb⟩ := hdyn
  unfold writeBlock
  cases mode with
  | stored => exact ⟨_, _, rfl, rfl⟩
  | fixed => simp only [fixedBits_ok final hsyms]; exact ⟨_, _, rfl, rfl⟩
  | dynamic => simp only [hp, hdb]; exact ⟨_, _, rfl, rfl⟩
  | auto =>
    simp only [hp]
    cases smallest (storedSize k bs.length) (fixedSize (w.tok.map symbolOf)) (dynamicSize p (w.tok.map symbolOf)) with
    | stored => exact ⟨_, _, rfl, rfl⟩
    | fixed => simp only [fixedBits_ok final hsyms]; exact ⟨_, _, rfl, rfl⟩
    | dynamic => simp only [hdb]; exact ⟨_, _, rfl, rfl⟩

/-- A compression pass never fails (60_exceptions R407). -/
theorem deflate_ok (c : Config) (ctr call : Nat) (mode : BtMode) (data : List Byte) (k : Nat) (w : Work) :
    ∃ bits w', deflate c ctr call mode data k w = .ok (bits, w') := by
  have blocks : ∀ left bi k w, ∃ bits w', writeBlocks c ctr call mode data left bi k w = .ok (bits, w') := by
    intro left
    induction left with
    | zero => exact fun _ _ w => ⟨[], w, rfl⟩
    | succ left ih =>
      intro bi k w
      rw [writeBlocks]
      obtain ⟨b, w', hb, -⟩ := writeBlock_ok mode (left == 0) k
        ((data.take (min data.length (bi * c.blockSize + c.blockSize))).drop (bi * c.blockSize))
        (blockTokens c ctr (call + bi) data (bi * c.blockSize) (min data.length (bi * c.blockSize + c.blockSize)) w)
      obtain ⟨b', w'', hb'⟩ := ih (bi + 1) (k + b.length) w'
      simp only [hb, hb']
      exact ⟨_, _, rfl⟩
  exact blocks _ _ _ _

/-- What a block's matcher does depends on the hash arrays only. -/
theorem blockTokens_congr (c : Config) (ctr call : Nat) (data : List Byte) (start stop : Nat) {w w' : Work}
    (h : w.hash = w'.hash) :
    (blockTokens c ctr call data start stop w).tok = (blockTokens c ctr call data start stop w').tok ∧
      (blockTokens c ctr call data start stop w).hash = (blockTokens c ctr call data start stop w').hash := by
  unfold blockTokens
  cases c.matcher
  · exact ⟨rfl, h⟩
  · rw [h]
    exact ⟨rfl, rfl⟩

/-- The blocks from number `bi` on, one behind the other. -/
theorem writeBlocks_spec (c : Config) (ctr call : Nat) (mode : BtMode) (data : List Byte) (left : Nat) :
    ∀ {bi k : Nat} {w w' : Work} {bits : List Bool},
      writeBlocks c ctr call mode data left bi k w = .ok (bits, w') →
      ∃ (block : Nat → List Bool) (work : Nat → Work), bits = (List.range left).flatMap block ∧
        work 0 = w ∧ work left = w' ∧ ∀ n, n < left →
          let stop := min data.length ((bi + n) * c.blockSize + c.blockSize)
          let tokens := blockTokens c ctr (call + (bi + n)) data ((bi + n) * c.blockSize) stop (work n)
          writeBlock mode (n + 1 == left) (k + ((List.range n).flatMap block).length)
            ((data.take stop).drop ((bi + n) * c.blockSize)) tokens = .ok (block n, work (n + 1)) ∧
          (work (n + 1)).hash = tokens.hash := by
  induction left with
  | zero =>
    intro bi k w w' bits h
    obtain ⟨rfl, rfl⟩ : [] = bits ∧ w = w' := by simpa [writeBlocks] using h
    exact ⟨fun _ => [], fun _ => w, rfl, rfl, rfl, fun n hn => absurd hn (by omega)⟩
  | succ left ih =>
    intro bi k w w' bits h
    rw [writeBlocks] at h
    obtain ⟨b, w₁, hb, hhash⟩ := writeBlock_ok mode (left == 0) k
      ((data.take (min data.length (bi * c.blockSize + c.blockSize))).drop (bi * c.blockSize))
      (blockTokens c ctr (call + bi) data (bi * c.blockSize) (min data.length (bi * c.blockSize + c.blockSize)) w)
    simp only [hb] at h
    rcases hr : writeBlocks c ctr call mode data left (bi + 1) (k + b.length) w₁ with e | ⟨rest, w₂⟩
    · simp only [hr] at h
      exact absurd h (by simp)
    · simp only [hr, Except.ok.injEq, Prod.mk.injEq] at h
      obtain ⟨rfl, rfl⟩ := h
      obtain ⟨block, work, hbits, h0, hlast, hstep⟩ := ih hr
      refine ⟨fun | 0 => b | n + 1 => block n, fun | 0 => w | n + 1 => work n, ?_, rfl, hlast, fun n hn => ?_⟩
      · rw [List.range_succ_eq_map, List.flatMap_cons, List.flatMap_map, hbits]
      · cases n with
        | zero =>
          refine ⟨?_, ?_⟩
          · simp only [h0, Nat.add_zero, List.range_zero, List.flatMap_nil, List.length_nil,
              show (0 + 1 == left + 1) = (left == 0) by simp]
            exact hb
          · simp only [h0, Nat.add_zero]
            exact hhash
        | succ n =>
          obtain ⟨h1, h2⟩ := hstep n (by omega)
          simp only [show bi + 1 + n = bi + (n + 1) by omega] at h1 h2
          refine ⟨?_, h2⟩
          rw [List.range_succ_eq_map, List.flatMap_cons, List.flatMap_map, List.length_append, ← Nat.add_assoc]
          rw [show (n + 1 + 1 == left + 1) = (n + 1 == left) by simp]
          exact h1

/-- The pieces of the blocks are the whole input (44_deflate R261). -/
theorem pieces_join {α : Type} (data : List α) (size n : Nat) :
    (List.range n).flatMap (fun i => (data.take (min data.length (i * size + size))).drop (i * size)) =
      data.take (n * size) := by
  induction n with
  | zero => simp
  | succ n ih =>
    rw [List.range_succ, List.flatMap_append, ih]
    simp only [List.flatMap_cons, List.flatMap_nil, List.append_nil]
    have : data.take (min data.length (n * size + size)) = data.take ((n + 1) * size) := by
      rw [Nat.add_mul, Nat.one_mul]
      rcases Nat.le_total data.length (n * size + size) with hle | hle
      · rw [Nat.min_eq_left hle, List.take_length, List.take_of_length_le hle]
      · rw [Nat.min_eq_right hle]
    rw [this]
    conv_rhs => rw [← List.take_append_drop (n * size) (data.take ((n + 1) * size))]
    rw [List.take_take, Nat.min_eq_left (Nat.mul_le_mul_right _ (by omega))]

end Sys2Proof.Machine
end

