-- ==== Sys2Proof/Laws/Memory.lean ====
section
/-! SUPPORT. The laws of memory: a read after a write, and that every memory operation keeps the canonical form. -/

namespace Sys2Proof

/-! ## Sorted key-value lists -/

/-- Keys strictly rising. -/
abbrev Rising {α : Type} (m : List (Nat × α)) : Prop := m.Pairwise fun x y => x.1 < y.1

theorem getKey_none_of_lt {α : Type} {m : List (Nat × α)} {k : Nat} (h : ∀ c ∈ m, k < c.1) : getKey m k = none := by
  cases m with
  | nil => rfl
  | cons c rest =>
    have := h c (by simp)
    simp [getKey, Nat.ne_of_lt this, this]

theorem mem_of_getKey {α : Type} {m : List (Nat × α)} {k : Nat} {v : α} (h : getKey m k = some v) : (k, v) ∈ m := by
  induction m with
  | nil => simp [getKey] at h
  | cons c rest ih =>
    obtain ⟨k', w⟩ := c
    simp only [getKey] at h
    split at h
    · next e => simp_all
    · split at h
      · simp at h
      · exact List.mem_cons_of_mem _ (ih h)

theorem getKey_of_mem {α : Type} {m : List (Nat × α)} (hm : Rising m) {k : Nat} {v : α} (h : (k, v) ∈ m) :
    getKey m k = some v := by
  induction m with
  | nil => simp at h
  | cons c rest ih =>
    obtain ⟨k', w⟩ := c
    replace hm := List.pairwise_cons.mp hm
    rcases List.mem_cons.mp h with e | h
    · cases e; simp [getKey]
    · have := hm.1 _ h
      simp only [getKey]
      rw [if_neg (by simp at this; omega), if_neg (by simp at this; omega)]
      exact ih hm.2 h

@[simp] theorem getKey_putKey {α : Type} (m : List (Nat × α)) (k : Nat) (v : α) (j : Nat) :
    getKey (putKey m k v) j = if j = k then some v else getKey m j := by
  induction m with
  | nil => simp only [putKey, getKey]; split <;> simp
  | cons c rest ih =>
    obtain ⟨k', w⟩ := c
    simp only [putKey]
    split
    · next e => subst e; simp only [getKey]; split <;> rfl
    · split
      · simp only [getKey]
        by_cases h : j = k
        · simp [h]
        · by_cases h' : j < k
          · have : j < k' := by omega
            simp [h, h', this, Nat.ne_of_lt this]
          · simp [h, h']
      · simp only [getKey, ih]
        by_cases h : j = k
        · subst h; rename_i h1 h2; simp [h1, h2]
        · simp [h]

theorem getKey_dropKey {α : Type} {m : List (Nat × α)} (hm : Rising m) (k j : Nat) :
    getKey (dropKey m k) j = if j = k then none else getKey m j := by
  induction m with
  | nil => simp [dropKey, getKey]
  | cons c rest ih =>
    obtain ⟨k', w⟩ := c
    replace hm := List.pairwise_cons.mp hm
    simp only [dropKey]
    split
    · next e =>
      subst e
      by_cases h : j = k
      · subst h; simp [getKey_none_of_lt hm.1]
      · simp only [getKey, h, if_false]
        split
        · next h' => exact getKey_none_of_lt fun c hc => Nat.lt_trans h' (hm.1 c hc)
        · rfl
    · split
      · by_cases h : j = k
        · subst h; rename_i h1 h2; simp [getKey, h1, h2]
        · simp [h]
      · simp only [getKey, ih hm.2]
        by_cases h : j = k
        · subst h; rename_i h1 h2; simp [h1, h2]
        · simp [h]

theorem mem_putKey {α : Type} {m : List (Nat × α)} {k : Nat} {v : α} {c : Nat × α} (h : c ∈ putKey m k v) :
    c = (k, v) ∨ c ∈ m := by
  induction m with
  | nil => simp [putKey] at h; exact .inl h
  | cons d rest ih =>
    obtain ⟨k', w⟩ := d
    simp only [putKey] at h
    split at h
    · simp at h; rcases h with h | h <;> simp [h]
    · split at h
      · simp at h; rcases h with h | h | h <;> simp [h]
      · simp at h; rcases h with h | h
        · simp [h]
        · rcases ih h with h | h <;> simp [h]

theorem mem_dropKey {α : Type} {m : List (Nat × α)} {k : Nat} {c : Nat × α} (h : c ∈ dropKey m k) : c ∈ m := by
  induction m with
  | nil => simp [dropKey] at h
  | cons d rest ih =>
    obtain ⟨k', w⟩ := d
    simp only [dropKey] at h
    split at h
    · exact List.mem_cons_of_mem _ h
    · split at h
      · exact h
      · simp at h; rcases h with h | h
        · simp [h]
        · exact List.mem_cons_of_mem _ (ih h)

theorem Rising.putKey {α : Type} {m : List (Nat × α)} (hm : Rising m) (k : Nat) (v : α) :
    Rising (Sys2Proof.putKey m k v) := by
  induction m with
  | nil => simp [Sys2Proof.putKey]
  | cons c rest ih =>
    obtain ⟨k', w⟩ := c
    have hm' := List.pairwise_cons.mp hm
    simp only [Sys2Proof.putKey]
    split
    · next e => subst e; exact List.pairwise_cons.mpr hm'
    · split
      · refine List.pairwise_cons.mpr ⟨fun d hd => ?_, hm⟩
        rcases List.mem_cons.mp hd with e | hd
        · subst e; assumption
        · exact Nat.lt_trans (by assumption) (hm'.1 d hd)
      · refine List.pairwise_cons.mpr ⟨fun d hd => ?_, ih hm'.2⟩
        rcases mem_putKey hd with e | hd
        · subst e; simp; omega
        · exact hm'.1 d hd

theorem Rising.dropKey {α : Type} {m : List (Nat × α)} (hm : Rising m) (k : Nat) :
    Rising (Sys2Proof.dropKey m k) := by
  induction m with
  | nil => simp [Sys2Proof.dropKey]
  | cons c rest ih =>
    obtain ⟨k', w⟩ := c
    have hm' := List.pairwise_cons.mp hm
    simp only [Sys2Proof.dropKey]
    split
    · exact hm'.2
    · split
      · exact hm
      · exact List.pairwise_cons.mpr ⟨fun d hd => hm'.1 d (mem_dropKey hd), ih hm'.2⟩

end Sys2Proof

namespace Sys2Proof.Machine

/-! ## Memory -/

/-- What the canonical form says: addresses strictly rising, no entry equal to what an unlisted address reads as. -/
theorem Memory.wf_iff (m : Memory) : m.wf = true ↔ Rising m ∧ ∀ c ∈ m, c.2 ≠ Memory.unlisted := by
  induction m with
  | nil => simp [Memory.wf]
  | cons c rest ih =>
    obtain ⟨a, b⟩ := c
    cases rest with
    | nil => simp [Memory.wf]
    | cons d rest =>
      obtain ⟨a', b'⟩ := d
      rw [Memory.wf, Bool.and_eq_true, Bool.and_eq_true, ih]
      simp only [Rising, List.pairwise_cons]
      simp only [bne_iff_ne, decide_eq_true_eq, List.forall_mem_cons]
      constructor
      · rintro ⟨⟨hb, ha⟩, ⟨h1, h2⟩, h3, h4⟩
        exact ⟨⟨⟨ha, fun x hx => Nat.lt_trans ha (h1 x hx)⟩, h1, h2⟩, hb, h3, h4⟩
      · rintro ⟨⟨⟨ha, _⟩, h1, h2⟩, hb, h3, h4⟩
        exact ⟨⟨hb, ha⟩, ⟨h1, h2⟩, h3, h4⟩

theorem Memory.wf_write {m : Memory} (h : m.wf = true) (a : Nat) (b : Byte) : (m.write a b).wf = true := by
  rw [Memory.wf_iff] at h ⊢
  unfold Memory.write
  split
  · exact ⟨h.1.dropKey a, fun c hc => h.2 c (mem_dropKey hc)⟩
  · refine ⟨h.1.putKey a b, fun c hc => ?_⟩
    rcases mem_putKey hc with e | hc
    · subst e; assumption
    · exact h.2 c hc

/-- A write changes exactly the addressed byte (20_memory R66). -/
theorem Memory.read_write {m : Memory} (h : m.wf = true) (a : Nat) (b : Byte) (a' : Nat) :
    (m.write a b).read a' = if a' = a then b else m.read a' := by
  have hr := ((Memory.wf_iff m).mp h).1
  unfold Memory.write Memory.read
  split
  · next e => rw [getKey_dropKey hr]; split <;> simp [e]
  · rw [getKey_putKey]; split <;> simp

theorem Memory.wf_writeBytes {m : Memory} (h : m.wf = true) (a : Nat) (bs : List Byte) :
    (m.writeBytes a bs).wf = true := by
  induction bs generalizing m a with
  | nil => exact h
  | cons b bs ih => exact ih (Memory.wf_write h a b) (a + 1)

/-- Consecutive bytes land at consecutive addresses and nothing else changes (00_scope R11). -/
theorem Memory.read_writeBytes {m : Memory} (h : m.wf = true) (a : Nat) (bs : List Byte) (a' : Nat) :
    (m.writeBytes a bs).read a' = if a ≤ a' ∧ a' < a + bs.length then bs.getD (a' - a) 0 else m.read a' := by
  induction bs generalizing m a with
  | nil => rw [if_neg (by simp)]; rfl
  | cons b bs ih =>
    rw [Memory.writeBytes, ih (Memory.wf_write h a b), Memory.read_write h]
    by_cases e : a' = a
    · subst e; simp
    · by_cases h1 : a + 1 ≤ a' ∧ a' < a + 1 + bs.length
      · have : a' - a = (a' - (a + 1)) + 1 := by omega
        rw [if_pos h1, if_pos (by simp; omega), this, List.getD_cons_succ]
      · rw [if_neg h1, if_neg e, if_neg (by simp; omega)]

@[simp] theorem Memory.length_readBytes (m : Memory) (a n : Nat) : (m.readBytes a n).length = n := by
  simp [Memory.readBytes]

@[simp] theorem Memory.getD_readBytes (m : Memory) (a n i : Nat) (h : i < n) :
    (m.readBytes a n).getD i 0 = m.read (a + i) := by
  simp [Memory.readBytes, List.getD, h]

/-! ## The output region after a fault -/

theorem Memory.wf_settleByte {keep : Nat → Bool} {lo hi : Nat} {old new m : Memory} (h : m.wf = true) (a : Nat) :
    (Memory.settleByte keep lo hi old new m a).wf = true := by
  unfold Memory.settleByte
  split
  · exact Memory.wf_write h _ _
  · exact h

theorem Memory.wf_settleList {keep : Nat → Bool} {lo hi : Nat} {old new : Memory} (as : List Nat) {m : Memory}
    (h : m.wf = true) : (as.foldl (Memory.settleByte keep lo hi old new) m).wf = true := by
  induction as generalizing m with
  | nil => exact h
  | cons a as ih => exact ih (Memory.wf_settleByte h a)

theorem Memory.wf_settle {new : Memory} (h : new.wf = true) (keep : Nat → Bool) (lo hi : Nat) (old : Memory) :
    (Memory.settle keep lo hi old new).wf = true := Memory.wf_settleList _ h

theorem Memory.read_settleList {keep : Nat → Bool} {lo hi : Nat} {old new : Memory} (as : List Nat) {m : Memory}
    (h : m.wf = true) (a : Nat) :
    (as.foldl (Memory.settleByte keep lo hi old new) m).read a =
      if a ∈ as ∧ lo ≤ a ∧ a < hi ∧ new.read a ≠ old.read a ∧ keep a = false then old.read a else m.read a := by
  induction as generalizing m with
  | nil => simp
  | cons b as ih =>
    rw [List.foldl_cons, ih (Memory.wf_settleByte h b)]
    have hb : (Memory.settleByte keep lo hi old new m b).read a =
        if a = b ∧ lo ≤ a ∧ a < hi ∧ new.read a ≠ old.read a ∧ keep a = false then old.read a else m.read a := by
      unfold Memory.settleByte
      by_cases e : a = b
      · subst e
        split
        · next h' => rw [Memory.read_write h, if_pos rfl, if_pos ⟨rfl, h'⟩]
        · next h' => rw [if_neg (fun h'' => h' h''.2)]
      · rw [if_neg (c := a = b ∧ _) (fun h'' => e h''.1)]
        split
        · rw [Memory.read_write h, if_neg e]
        · rfl
    rw [hb]
    by_cases hc : lo ≤ a ∧ a < hi ∧ new.read a ≠ old.read a ∧ keep a = false <;>
      by_cases e : a = b <;> by_cases m' : a ∈ as <;> simp [hc, e, m'] <;> simp_all

theorem Memory.read_unlisted {m : Memory} {a : Nat} (h : a ∉ m.map Prod.fst) : m.read a = Memory.unlisted := by
  unfold Memory.read
  cases e : getKey m a with
  | none => rfl
  | some v => exact absurd (List.mem_map.mpr ⟨_, mem_of_getKey e, rfl⟩) h

/-- A byte of the output region holds the old or the new value, any other byte the new one (60_exceptions R404). -/
theorem Memory.read_settle {new : Memory} (h : new.wf = true) (keep : Nat → Bool) (lo hi : Nat) (old : Memory)
    (a : Nat) :
    (Memory.settle keep lo hi old new).read a =
      if lo ≤ a ∧ a < hi ∧ keep a = false then old.read a else new.read a := by
  unfold Memory.settle
  rw [Memory.read_settleList _ h]
  by_cases hc : lo ≤ a ∧ a < hi ∧ keep a = false
  · rw [if_pos hc]
    by_cases hn : new.read a = old.read a
    · simp [hn]
    · have : a ∈ (old ++ new).map Prod.fst := by
        by_contra hmem
        rw [List.map_append, List.mem_append, not_or] at hmem
        exact hn (by rw [Memory.read_unlisted hmem.1, Memory.read_unlisted hmem.2])
      rw [if_pos ⟨this, hc.1, hc.2.1, hn, hc.2.2⟩]
  · rw [if_neg hc, if_neg (fun h' => hc ⟨h'.2.1, h'.2.2.1, h'.2.2.2.2⟩)]

/-- Equal memories are equal data: two canonical memories that read alike are the same list. -/
theorem Memory.ext_read {m m' : Memory} (h : m.wf = true) (h' : m'.wf = true) (e : ∀ a, m.read a = m'.read a) :
    m = m' := by
  rw [Memory.wf_iff] at h h'
  have sub : ∀ {m m' : Memory}, (Rising m ∧ ∀ c ∈ m, c.2 ≠ Memory.unlisted) →
      (∀ a, m.read a = m'.read a) → ∀ c ∈ m, c ∈ m' := by
    rintro m m' ⟨hr, hu⟩ e ⟨k, v⟩ hc
    have hk := e k
    unfold Memory.read at hk
    rw [getKey_of_mem hr hc] at hk
    cases hg : getKey m' k with
    | none => rw [hg] at hk; exact absurd hk (hu _ hc)
    | some w => rw [hg] at hk; simp at hk; subst hk; exact mem_of_getKey hg
  have nodup : ∀ {m : Memory}, Rising m → m.Nodup := fun hr =>
    hr.imp fun {x y} hxy hxy' => by subst hxy'; exact Nat.lt_irrefl _ hxy
  have perm : m.Perm m' := (List.perm_ext_iff_of_nodup (nodup h.1) (nodup h'.1)).mpr fun c =>
    ⟨sub h e c, sub h' (fun a => (e a).symm) c⟩
  exact perm.eq_of_pairwise (fun _ _ _ _ h1 h2 => absurd (Nat.lt_trans h1 h2) (Nat.lt_irrefl _)) h.1 h'.1

theorem State.reset_mem_wf : State.reset.mem.wf = true := rfl

end Sys2Proof.Machine
end

