-- ==== Sys2Proof/Laws/Lz77.lean ====
section
/-! SUPPORT. What the reference matcher keeps (42_lz77 R194 to R204): the hash arrays tell the truth about the positions
visited, every match it finds repeats what stands `offset` bytes before, and its main loop covers the block. -/

namespace Sys2Proof.Machine

/-! ## Expansion (42_lz77 R191) -/

theorem length_copyBehind (dist n : Nat) (o : List Byte) : (copyBehind dist n o).length = o.length + n := by
  induction n generalizing o with
  | zero => rfl
  | succ n ih => rw [copyBehind, ih]; simp; omega

theorem expand_append (xs ys : List Token) (o : List Byte) :
    expand (xs ++ ys) o = (expand xs o).bind (expand ys) := by
  induction xs generalizing o with
  | nil => rfl
  | cons t xs ih =>
    cases t with
    | lit b => exact ih _
    | copy len dist =>
      simp only [List.cons_append, expand]
      split
      · exact ih _
      · rfl

/-- `data` repeats itself over `len` bytes from `p`, `dist` back. -/
def Repeats (d : Nat → Byte) (p len dist : Nat) : Prop := ∀ i, i < len → d (p - dist + i) = d (p + i)

theorem copyBehind_take {data : List Byte} {p n dist : Nat} (h : 1 ≤ dist) (hd : dist ≤ p) (hp : p + n ≤ data.length)
    (hr : Repeats (fun i => data.getD i 0) p n dist) :
    copyBehind dist n (data.take p) = data.take (p + n) := by
  induction n generalizing p with
  | zero => rfl
  | succ n ih =>
    have h0 := hr 0 (by omega)
    have e : data.take p ++ [(data.take p).getD ((data.take p).length - dist) 0] = data.take (p + 1) := by
      have hl : (data.take p).length = p := by simp; omega
      have hx : data[p]? = some (data.getD p 0) := by
        simp [List.getD_eq_getElem?_getD, List.getElem?_eq_getElem (show p < data.length by omega)]
      rw [List.take_add_one, hx, hl]
      simp only [Option.toList_some, List.append_cancel_left_eq, List.cons.injEq, and_true]
      rw [List.getD_eq_getElem?_getD, List.getElem?_take, if_pos (by omega), ← List.getD_eq_getElem?_getD]
      exact h0
    rw [copyBehind, e, ih (by omega) (by omega)]
    · rw [show p + 1 + n = p + (n + 1) by omega]
    · intro i hi
      have := hr (i + 1) (by omega)
      rw [show p - dist + (i + 1) = p + 1 - dist + i by omega, show p + (i + 1) = p + 1 + i by omega] at this
      exact this

/-! ## Zero runs (42_lz77 R197) -/

/-- A run of `nz` zero bytes stands at `q`, inside the block and no longer than the longest match. -/
def ZeroRun (d : Nat → Byte) (size q nz : Nat) : Prop :=
  (∀ i, i < nz → d (q + i) = 0) ∧ (nz ≠ 0 → q + nz ≤ size) ∧ nz ≤ 258

/-- What `numzeros` says when position `q` is visited next: it is the run at the position before, or at `q`. -/
def ZeroRunBefore (d : Nat → Byte) (size q nz : Nat) : Prop :=
  (∀ i, i + 1 < nz → d (q + i) = 0) ∧ (nz ≠ 0 → q + nz ≤ size + 1) ∧ nz ≤ 258

theorem zerosFrom_spec (d : Nat → Byte) (left q : Nat) :
    zerosFrom d left q ≤ left ∧ ∀ i, i < zerosFrom d left q → d (q + i) = 0 := by
  induction left generalizing q with
  | zero => exact ⟨Nat.le_refl _, fun i hi => absurd hi (Nat.not_lt_zero i)⟩
  | succ left ih =>
    unfold zerosFrom
    split
    · next h0 =>
      refine ⟨by have := (ih (q + 1)).1; omega, fun i hi => ?_⟩
      cases i with
      | zero => exact h0
      | succ i =>
        rw [show q + (i + 1) = q + 1 + i by omega]
        exact (ih (q + 1)).2 i (by omega)
    · exact ⟨Nat.zero_le _, fun i hi => absurd hi (Nat.not_lt_zero i)⟩

theorem countZeros_spec (d : Nat → Byte) (size q : Nat) : ZeroRun d size q (countZeros d size q) := by
  have h := zerosFrom_spec d (min size (q + 258) - q) q
  refine ⟨h.2, fun h0 => ?_, ?_⟩
  · have := h.1; unfold countZeros at *; omega
  · have := h.1; unfold countZeros; omega

theorem ZeroRun.before_next {d : Nat → Byte} {size q nz : Nat} (h : ZeroRun d size q nz) :
    ZeroRunBefore d size (q + 1) nz :=
  ⟨fun i hi => by rw [show q + 1 + i = q + (i + 1) by omega]; exact h.1 _ hi, fun h0 => by have := h.2.1 h0; omega, h.2.2⟩

theorem ZeroRun.before_again {d : Nat → Byte} {size q nz : Nat} (h : ZeroRun d size q nz) : ZeroRunBefore d size q nz :=
  ⟨fun i hi => h.1 i (by omega), fun h0 => by have := h.2.1 h0; omega, h.2.2⟩

theorem nextZeros_spec {d : Nat → Byte} {size q nz : Nat} (h : ZeroRunBefore d size q nz) (hashval : Nat) :
    ZeroRun d size q (nextZeros d size q hashval nz) := by
  unfold nextZeros
  split
  · split
    · exact countZeros_spec d size q
    · next h0 =>
      split
      · exact ⟨fun i hi => h.1 i (by omega), fun _ => by have := h.2.1 h0; omega, by have := h.2.2; omega⟩
      · next h1 =>
        simp only [not_or, not_lt, ne_eq, not_not] at h1
        refine ⟨fun i hi => ?_, fun _ => h1.1, h.2.2⟩
        by_cases e : i + 1 < nz
        · exact h.1 i e
        · rw [show i = nz - 1 by omega, show q + (nz - 1) = q + nz - 1 by omega]; exact h1.2
  · exact ⟨fun i hi => absurd hi (Nat.not_lt_zero i), fun h0 => absurd rfl h0, Nat.zero_le _⟩

/-! ## The hash arrays -/

theorem mem_setUnless {m : Sparse} {k v u : Nat} {e : Nat × Nat} (h : e ∈ setUnless m k v u) : e = (k, v) ∨ e ∈ m := by
  unfold setUnless at h
  split at h
  · exact .inr (mem_dropKey h)
  · exact mem_putKey h

theorem Rising.setUnless {m : Sparse} (hm : Rising m) (k v u : Nat) : Rising (setUnless m k v u) := by
  unfold Machine.setUnless
  split
  · exact Rising.dropKey hm k
  · exact Rising.putKey hm k v

theorem getD_setUnless {m : Sparse} (hm : Rising m) (k v u j : Nat) :
    (getKey (setUnless m k v u) j).getD u = if j = k then v else (getKey m j).getD u := by
  unfold Machine.setUnless
  split
  · next h => rw [getKey_dropKey hm]; split <;> simp [h]
  · rw [getKey_putKey]; split <;> simp

/-- Window position `x` is the place of a position visited: the first `V` positions have been. -/
abbrev Visited (c : Config) (V x : Nat) : Prop := x < c.window ∧ x < V

/-- The hash arrays after the first `V` positions have been visited: they link visited positions only, and the zero
run recorded for the last position at each place is a zero run. -/
structure HashTrue (c : Config) (d : Nat → Byte) (V : Nat) (h : HashIndex) : Prop where
  head : ∀ e ∈ h.head, Visited c V e.2
  chain : ∀ e ∈ h.chain, Visited c V e.2
  headz : ∀ e ∈ h.headz, Visited c V e.2
  chainz : ∀ e ∈ h.chainz, Visited c V e.2
  rising : Rising h.zeros
  zeros : ∀ P, P < V → V ≤ P + c.window → ∀ i, i < zerosAt h (P % c.window) → d (P + i) = 0

theorem HashTrue.fresh (c : Config) (d : Nat → Byte) : HashTrue c d 0 freshHash where
  head := fun _ h => nomatch h
  chain := fun _ h => nomatch h
  headz := fun _ h => nomatch h
  chainz := fun _ h => nomatch h
  rising := List.Pairwise.nil
  zeros := fun P h => absurd h (Nat.not_lt_zero P)

theorem HashTrue.unhead {c : Config} {d : Nat → Byte} {V : Nat} {h : HashIndex} (H : HashTrue c d V h) (a b : Nat) :
    HashTrue c d V (unhead h a b) where
  head := fun e he => H.head e (mem_dropKey he)
  chain := H.chain
  headz := fun e he => H.headz e (mem_dropKey he)
  chainz := H.chainz
  rising := H.rising
  zeros := H.zeros

/-- Two positions within one window have different places. -/
theorem mod_window_ne {w P q : Nat} (h : P < q) (hw : q < P + w) : P % w ≠ q % w := by
  intro e
  have := (Nat.ModEq.dvd (show Nat.ModEq w P q from e) : (w : Int) ∣ q - P)
  have := Int.le_of_dvd (by omega) this
  omega

/-- Visiting the next position, or the last one again. -/
theorem HashTrue.updateChain {c : Config} {d : Nat → Byte} {size V q nz : Nat} {h : HashIndex} (hw : 0 < c.window)
    (H : HashTrue c d V h) (hq : V = q ∨ V = q + 1) (hz : ZeroRun d size q nz) (hashval : Nat) :
    HashTrue c d (q + 1) (updateChain h (q % c.window) hashval nz) := by
  have mono : ∀ x, Visited c V x → Visited c (q + 1) x := fun x hx => ⟨hx.1, by omega⟩
  have here : Visited c (q + 1) (q % c.window) := ⟨Nat.mod_lt _ hw, by have := Nat.mod_le q c.window; omega⟩
  refine ⟨fun e he => ?_, fun e he => ?_, fun e he => ?_, fun e he => ?_, Rising.setUnless H.rising _ _ _,
    fun P hP hPw i hi => ?_⟩
  · rcases mem_putKey he with rfl | he
    · exact here
    · exact mono _ (H.head e he)
  · simp only [Machine.updateChain] at he
    split at he
    · exact mono _ (H.chain e he)
    · next w hg =>
      rcases mem_setUnless he with rfl | he
      · exact mono w (H.head (hashval, w) (mem_of_getKey hg))
      · exact mono _ (H.chain e he)
  · rcases mem_putKey he with rfl | he
    · exact here
    · exact mono _ (H.headz e he)
  · simp only [Machine.updateChain] at he
    split at he
    · exact mono _ (H.chainz e he)
    · next w hg =>
      rcases mem_setUnless he with rfl | he
      · exact mono w (H.headz (nz, w) (mem_of_getKey hg))
      · exact mono _ (H.chainz e he)
  · simp only [zerosAt, Machine.updateChain, getD_setUnless H.rising] at hi
    by_cases e : P = q
    · subst e; rw [if_pos rfl] at hi; exact hz.1 i hi
    · rw [if_neg (mod_window_ne (by omega) (by omega))] at hi
      exact H.zeros P (by omega) (by omega) i hi

/-! ## Searching (42_lz77 R199, R200) -/

theorem compareFrom_spec (d : Nat → Byte) (left back fore : Nat) :
    fore ≤ compareFrom d left back fore ∧ compareFrom d left back fore ≤ fore + left ∧
      ∀ i, fore + i < compareFrom d left back fore → d (back + i) = d (fore + i) := by
  induction left generalizing back fore with
  | zero => exact ⟨Nat.le_refl _, Nat.le_refl _, fun i hi => by simp only [compareFrom] at hi; omega⟩
  | succ left ih =>
    unfold compareFrom
    split
    · next h =>
      obtain ⟨h1, h2, h3⟩ := ih (back + 1) (fore + 1)
      refine ⟨by omega, by omega, fun i hi => ?_⟩
      cases i with
      | zero => exact h
      | succ i =>
        have := h3 i (by omega)
        rw [show back + (i + 1) = back + 1 + i by omega, show fore + (i + 1) = fore + 1 + i by omega]; exact this
    · exact ⟨Nat.le_refl _, by omega, fun i hi => by omega⟩

/-- A match for position `p` of a block that ends at `size` (42_lz77 R190, R192). -/
structure Match (c : Config) (d : Nat → Byte) (size p len dist : Nat) : Prop where
  dist_pos : 1 ≤ dist
  dist_window : dist ≤ c.window
  dist_pos_le : dist ≤ p
  len_le : len ≤ 258
  inside : p + len ≤ size
  same : Repeats d p len dist

/-- What a search is made in: the position has just been visited. -/
structure Search.Ok (q : Search) (size : Nat) : Prop where
  window : 0 < q.c.window
  wpos : q.wpos = q.pos % q.c.window
  hash : HashTrue q.c q.d (q.pos + 1) q.h
  zeros : ZeroRun q.d size q.pos q.numZeros
  inside : q.pos < size
  last : q.last = min size (q.pos + 258)

theorem Search.Ok.distance {q : Search} {size : Nat} (h : q.Ok size) {x : Nat} (hx : Visited q.c (q.pos + 1) x) :
    q.distance x < q.c.window ∧ q.distance x ≤ q.pos ∧ (q.pos - q.distance x) % q.c.window = x := by
  have hmod := Nat.mod_lt q.pos h.window
  have hle := Nat.mod_le q.pos q.c.window
  have hdiv := Nat.div_add_mod q.pos q.c.window
  unfold Search.distance
  rw [h.wpos]
  split
  · next hxw =>
    refine ⟨by omega, by omega, ?_⟩
    rw [show q.pos - (q.pos % q.c.window - x) = x + q.c.window * (q.pos / q.c.window) by omega,
      Nat.add_mul_mod_self_left, Nat.mod_eq_of_lt hx.1]
  · next hxw =>
    have hbig : q.c.window ≤ q.pos := by
      by_contra hlt
      rw [Nat.mod_eq_of_lt (by omega)] at hxw
      have := hx.2; omega
    have hdpos : 1 ≤ q.pos / q.c.window := (Nat.one_le_div_iff h.window).mpr hbig
    have hmul : q.c.window * (q.pos / q.c.window) = q.c.window * (q.pos / q.c.window - 1) + q.c.window := by
      rw [← Nat.mul_succ]; congr 1; omega
    have := hx.1
    refine ⟨by omega, by omega, ?_⟩
    rw [show q.pos - (q.pos % q.c.window + q.c.window - x) = x + q.c.window * (q.pos / q.c.window - 1) by omega,
      Nat.add_mul_mod_self_left, Nat.mod_eq_of_lt hx.1]

theorem Search.Ok.matchLength {q : Search} {size : Nat} (h : q.Ok size) {x : Nat} (hx : Visited q.c (q.pos + 1) x)
    (h0 : 0 < q.distance x) : Match q.c q.d size q.pos (q.matchLength x (q.distance x)) (q.distance x) := by
  obtain ⟨hw, hp, hm⟩ := h.distance hx
  let skip := if 3 ≤ q.numZeros then min (zerosAt q.h x) q.numZeros else 0
  have hskip : skip ≤ q.numZeros ∧ ∀ i, i < skip → q.d (q.pos - q.distance x + i) = 0 := by
    by_cases h3 : 3 ≤ q.numZeros
    · have e : skip = min (zerosAt q.h x) q.numZeros := by simp [skip, h3]
      refine ⟨by omega, fun i hi => h.hash.zeros _ (by omega) (by omega) i (by rw [hm]; omega)⟩
    · have e : skip = 0 := by simp [skip, h3]
      exact ⟨by omega, fun i hi => by omega⟩
  have hlast : q.pos + skip ≤ q.last := by
    rw [h.last]
    have := h.zeros.2.2
    by_cases hz : q.numZeros = 0
    · have := h.inside; omega
    · have := h.zeros.2.1 hz; omega
  have hl := h.last
  obtain ⟨c1, c2, c3⟩ := compareFrom_spec q.d (q.last - (q.pos + skip)) (q.pos - q.distance x + skip) (q.pos + skip)
  have hM : q.matchLength x (q.distance x) =
    compareFrom q.d (q.last - (q.pos + skip)) (q.pos - q.distance x + skip) (q.pos + skip) - q.pos := rfl
  refine ⟨h0, by omega, hp, by omega, by omega, fun i hi => ?_⟩
  by_cases hi' : i < skip
  · rw [hskip.2 i hi', h.zeros.1 i (by omega)]
  · have := c3 (i - skip) (by omega)
    rw [show q.pos - q.distance x + skip + (i - skip) = q.pos - q.distance x + i by omega,
      show q.pos + skip + (i - skip) = q.pos + i by omega] at this
    exact this

theorem HashTrue.chainAt {c : Config} {d : Nat → Byte} {V : Nat} {h : HashIndex} (H : HashTrue c d V h) {x : Nat}
    (hx : Visited c V x) : Visited c V (chainAt h x) := by
  unfold Machine.chainAt
  cases e : getKey h.chain x with
  | none => exact hx
  | some v => exact H.chain _ (mem_of_getKey e)

theorem HashTrue.chainzAt {c : Config} {d : Nat → Byte} {V : Nat} {h : HashIndex} (H : HashTrue c d V h) {x : Nat}
    (hx : Visited c V x) : Visited c V (chainzAt h x) := by
  unfold Machine.chainzAt
  cases e : getKey h.chainz x with
  | none => exact hx
  | some v => exact H.chainz _ (mem_of_getKey e)

theorem Search.Ok.next {q : Search} {size : Nat} (h : q.Ok size) {x length y : Nat}
    (hx : Visited q.c (q.pos + 1) x) (hn : q.next x length = some y) : Visited q.c (q.pos + 1) y := by
  unfold Search.next at hn
  split at hn
  · cases hn
  · split at hn
    · simp only at hn
      split at hn
      · cases hn; exact h.hash.chainzAt hx
      · cases hn
    · simp only at hn
      split at hn
      · cases hn; exact h.hash.chainAt hx
      · cases hn

/-- What a search has in hand: nothing, or a match. -/
abbrev Found (c : Config) (d : Nat → Byte) (size p : Nat) (f : Nat × Nat) : Prop := f.1 = 0 ∨ Match c d size p f.1 f.2

theorem Search.Ok.walk {q : Search} {size : Nat} (h : q.Ok size) (left x previous length offset : Nat)
    (hx : Visited q.c (q.pos + 1) x) (hf : Found q.c q.d size q.pos (length, offset)) :
    Found q.c q.d size q.pos (q.walk left x previous length offset) := by
  induction left generalizing x previous length offset with
  | zero => exact hf
  | succ left ih =>
    unfold Search.walk
    simp only
    split
    · exact hf
    · generalize hlen : (if 0 < q.distance x then q.matchLength x (q.distance x) else 0) = len
      have hbest : Found q.c q.d size q.pos (if length < len then (len, q.distance x) else (length, offset)) := by
        split
        · by_cases h0 : 0 < q.distance x
          · rw [if_pos h0] at hlen; subst hlen; exact .inr (h.matchLength hx h0)
          · rw [if_neg h0] at hlen; omega
        · exact hf
      generalize (if length < len then (len, q.distance x) else (length, offset)) = best at hbest ⊢
      split
      · exact hbest
      · split
        · exact hbest
        · next y hn => exact ih y _ _ _ (h.next hx hn) hbest

/-! ## The main loop (42_lz77 R196 to R204) -/

/-- The tokens so far (in reverse order) are valid and stand for `data[start .. p - 1]`. -/
def Covers (c : Config) (data : List Byte) (start p : Nat) (tok : List Token) : Prop :=
  tok.reverse.all (tokenOk c.window) = true ∧ expand tok.reverse (data.take start) = some (data.take p)

theorem Covers.lit {c : Config} {data : List Byte} {start p : Nat} {tok : List Token} (h : Covers c data start p tok)
    (hp : p < data.length) : Covers c data start (p + 1) (.lit (data.getD p 0) :: tok) := by
  refine ⟨by rw [List.reverse_cons, List.all_append, h.1]; rfl, ?_⟩
  have hx : data[p]? = some (data.getD p 0) := by
    simp [List.getD_eq_getElem?_getD, List.getElem?_eq_getElem hp]
  rw [List.reverse_cons, expand_append, h.2, Option.bind_some]
  simp only [expand]
  rw [List.take_add_one, hx]; rfl

theorem Covers.copy {c : Config} {data : List Byte} {start p size len dist : Nat} {tok : List Token}
    (h : Covers c data start p tok) (hm : Match c (fun i => data.getD i 0) size p len dist) (h3 : 3 ≤ len)
    (hs : size ≤ data.length) : Covers c data start (p + len) (.copy len dist :: tok) := by
  have hi := hm.inside
  have hp := hm.dist_pos_le
  refine ⟨?_, ?_⟩
  · rw [List.reverse_cons, List.all_append, h.1]
    simp [tokenOk, h3, hm.len_le, hm.dist_pos, hm.dist_window]
  · rw [List.reverse_cons, expand_append, h.2, Option.bind_some]
    have hl : (data.take p).length = p := by simp; omega
    simp only [expand]
    rw [if_pos (by omega), copyBehind_take hm.dist_pos hp (by omega) hm.same]

/-- The matcher at the top of its main loop. -/
structure MatchVars.Ok (c : Config) (data : List Byte) (start size : Nat) (m : MatchVars) : Prop where
  hash : ∃ V, (V = m.pos ∨ V = m.pos + 1 ∧ m.lazy = false) ∧ HashTrue c (fun i => data.getD i 0) V m.h
  zeros : ZeroRunBefore (fun i => data.getD i 0) size m.pos m.numZeros
  inside : m.pos ≤ size
  /-- no match is held: all bytes before `pos` are covered -/
  free : m.lazy = false → Covers c data start m.pos m.tok
  /-- a match for the position before is held -/
  held : m.lazy = true → c.lazy = true ∧ 1 ≤ m.pos ∧ Covers c data start (m.pos - 1) m.tok ∧ 3 ≤ m.lazyLength ∧
    Match c (fun i => data.getD i 0) size (m.pos - 1) m.lazyLength m.lazyOffset

/-- `cover` visits positions and touches nothing but the arrays, the zero run and `pos`. -/
theorem cover_spec {c : Config} {data : List Byte} {size n V : Nat} {m : MatchVars} (hw : 0 < c.window)
    (H : HashTrue c (fun i => data.getD i 0) V m.h) (hV : V = m.pos + 1 ∨ V = m.pos + 2)
    (hz : ZeroRunBefore (fun i => data.getD i 0) size (m.pos + 1) m.numZeros) (hn : 1 ≤ n) :
    let t := cover c (fun i => data.getD i 0) size n m
    t.pos = m.pos + n ∧ t.tok = m.tok ∧ t.lazy = m.lazy ∧
      HashTrue c (fun i => data.getD i 0) (m.pos + n + 1) t.h ∧
      ZeroRunBefore (fun i => data.getD i 0) size (m.pos + n + 1) t.numZeros := by
  induction n generalizing m V with
  | zero => omega
  | succ n ih =>
    let m' := visit c (fun i => data.getD i 0) size { m with pos := m.pos + 1 }
    have hz' : ZeroRun (fun i => data.getD i 0) size (m.pos + 1) m'.numZeros := nextZeros_spec hz _
    have H' : HashTrue c (fun i => data.getD i 0) (m.pos + 2) m'.h :=
      HashTrue.updateChain hw H (by omega) hz' _
    cases n with
    | zero => exact ⟨rfl, rfl, rfl, H', hz'.before_next⟩
    | succ n =>
      obtain ⟨h1, h2, h3, h4, h5⟩ := ih (m := m') (V := m.pos + 2) H' (.inl rfl) hz'.before_next (by omega)
      have e : m'.pos = m.pos + 1 := rfl
      rw [e] at h1 h4 h5
      rw [show m.pos + 1 + (n + 1) = m.pos + (n + 1 + 1) by omega] at h1 h4 h5
      exact ⟨h1, h2, h3, h4, h5⟩

/-- Emitting the token for `pos`, whose bytes before it are covered: the matcher stands behind it. -/
theorem emitToken_ok {c : Config} {data : List Byte} {start size V length offset : Nat} {m : MatchVars}
    (hw : 0 < c.window) (hs : size ≤ data.length) (hp : m.pos < size) (hl : m.lazy = false)
    (H : HashTrue c (fun i => data.getD i 0) V m.h) (hV : V = m.pos + 1 ∨ V = m.pos + 2)
    (hz : ZeroRunBefore (fun i => data.getD i 0) size (m.pos + 1) m.numZeros)
    (ht : Covers c data start m.pos m.tok) (hf : Found c (fun i => data.getD i 0) size m.pos (length, offset)) :
    let t := emitToken c (fun i => data.getD i 0) size length offset m
    t.Ok c data start size ∧ t.lazy = false ∧ m.pos < t.pos := by
  unfold emitToken
  split
  · have hV' : V = m.pos + 1 ∨ V = m.pos + 1 + 1 ∧ m.lazy = false := hV.imp id fun e => ⟨e, hl⟩
    exact ⟨⟨⟨V, hV', H⟩, hz, by simp only; omega, fun _ => ht.lit (by omega), fun h => by simp [hl] at h⟩, hl, by simp⟩
  · next hlen =>
    simp only [not_or, not_lt] at hlen
    have hm : Match c (fun i => data.getD i 0) size m.pos length offset := by
      rcases hf with h0 | hm
      · simp only at h0; omega
      · exact hm
    obtain ⟨h1, h2, h3, h4, h5⟩ := cover_spec (n := length - 1) (m := { m with tok := .copy length offset :: m.tok })
      hw H hV hz (by omega)
    simp only at h1 h2 h3 h4 h5
    have hi := hm.inside
    simp only
    refine ⟨⟨⟨_, .inl ?_, h4⟩, ?_, ?_, fun _ => ?_, fun h => ?_⟩, ?_, ?_⟩
    · simp only [h1]
    · simp only [h1]; exact h5
    · simp only [h1]; omega
    · simp only [h1, h2]
      rw [show m.pos + (length - 1) + 1 = m.pos + length by omega]
      exact ht.copy hm (by omega) hs
    · exact Bool.noConfusion (h.symm.trans (h3.trans hl))
    · exact h3.trans hl
    · simp only [h1]; omega

/-- How much is left to do: two turns move `pos` by at least 1. -/
def MatchVars.left (size : Nat) (m : MatchVars) : Nat := 2 * (size - m.pos) + if m.lazy then 1 else 0

/-- The matcher when the position at hand has just been visited. -/
structure MatchVars.AtPos (c : Config) (data : List Byte) (start size : Nat) (m : MatchVars) : Prop where
  hash : HashTrue c (fun i => data.getD i 0) (m.pos + 1) m.h
  zeros : ZeroRun (fun i => data.getD i 0) size m.pos m.numZeros
  inside : m.pos < size
  free : m.lazy = false → Covers c data start m.pos m.tok
  held : m.lazy = true → c.lazy = true ∧ 1 ≤ m.pos ∧ Covers c data start (m.pos - 1) m.tok ∧ 3 ≤ m.lazyLength ∧
    Match c (fun i => data.getD i 0) size (m.pos - 1) m.lazyLength m.lazyOffset

theorem MatchVars.Ok.visit {c : Config} {data : List Byte} {start size : Nat} {m : MatchVars} (hw : 0 < c.window)
    (h : m.Ok c data start size) (hp : m.pos < size) :
    (visit c (fun i => data.getD i 0) size m).AtPos c data start size := by
  obtain ⟨V, hV, H⟩ := h.hash
  have hz : ZeroRun (fun i => data.getD i 0) size m.pos (Machine.visit c (fun i => data.getD i 0) size m).numZeros :=
    nextZeros_spec h.zeros _
  exact ⟨HashTrue.updateChain hw H (by omega) hz _, hz, hp, h.free, h.held⟩

theorem MatchVars.AtPos.search {c : Config} {data : List Byte} {start size : Nat} {m : MatchVars} (hw : 0 < c.window)
    (h : m.AtPos c data start size) :
    Found c (fun i => data.getD i 0) size m.pos (search c (fun i => data.getD i 0) size m) := by
  have hq : (⟨c, fun i => data.getD i 0, m.h, m.pos % c.window, getHash c (fun i => data.getD i 0) size m.pos,
      m.numZeros, m.pos, min size (m.pos + 258)⟩ : Search).Ok size := ⟨hw, rfl, h.hash, h.zeros, h.inside, rfl⟩
  have here : Visited c (m.pos + 1) (m.pos % c.window) :=
    ⟨Nat.mod_lt _ hw, by have := Nat.mod_le m.pos c.window; omega⟩
  exact hq.walk c.maxChain _ 0 0 0 (h.hash.chainAt here) (.inl rfl)

theorem MatchVars.left_of_free {size : Nat} {m : MatchVars} (h : m.lazy = false) : m.left size = 2 * (size - m.pos) := by
  simp [MatchVars.left, h]

theorem MatchVars.left_of_held {size : Nat} {m : MatchVars} (h : m.lazy = true) :
    m.left size = 2 * (size - m.pos) + 1 := by simp [MatchVars.left, h]

theorem resolve_ok {c : Config} {data : List Byte} {start size : Nat} {m : MatchVars} {found : Nat × Nat}
    (hw : 0 < c.window) (hs : size ≤ data.length) (h : m.AtPos c data start size)
    (hf : Found c (fun i => data.getD i 0) size m.pos found) :
    (resolve c (fun i => data.getD i 0) size found m).Ok c data start size ∧
      (resolve c (fun i => data.getD i 0) size found m).left size < m.left size := by
  have hp := h.inside
  unfold resolve
  split
  · next hold =>
    have hl : m.lazy = false := Bool.eq_false_iff.mpr hold.2.1
    have hm : Match c (fun i => data.getD i 0) size m.pos found.1 found.2 := by
      rcases hf with h0 | hm
      · have := hold.2.2.1; omega
      · exact hm
    have hi := hm.inside
    have h3 := hold.2.2.1
    refine ⟨⟨⟨m.pos + 1, .inl rfl, h.hash⟩, h.zeros.before_next, by show m.pos + 1 ≤ size; omega,
      fun hx => Bool.noConfusion hx, fun _ => ⟨hold.1, Nat.le_add_left _ _, h.free hl, h3, hm⟩⟩, ?_⟩
    rw [MatchVars.left_of_free hl, MatchVars.left_of_held rfl]
    show 2 * (size - (m.pos + 1)) + 1 < _
    omega
  · split
    · next hlz =>
      obtain ⟨_, h1, hc, _, hm⟩ := h.held hlz.2
      rw [MatchVars.left_of_held hlz.2]
      split
      · have hc' : Covers c data start m.pos (.lit (data.getD (m.pos - 1) 0) :: m.tok) := by
          have := hc.lit (by omega)
          rwa [show m.pos - 1 + 1 = m.pos by omega] at this
        obtain ⟨ho, hlz', hpos⟩ := emitToken_ok (c := c) (data := data) (start := start) (size := size)
          (length := found.1) (offset := found.2)
          (m := { m with lazy := false, tok := .lit (data.getD (m.pos - 1) 0) :: m.tok }) hw hs hp rfl h.hash (.inl rfl)
          h.zeros.before_next hc' hf
        refine ⟨ho, ?_⟩
        rw [MatchVars.left_of_free hlz']
        simp only at hpos
        omega
      · obtain ⟨ho, hlz', hpos⟩ := emitToken_ok (c := c) (data := data) (start := start) (size := size)
          (length := m.lazyLength) (offset := m.lazyOffset)
          (m := { m with
            lazy := false, h := unhead m.h (getHash c (fun i => data.getD i 0) size m.pos) m.numZeros
            pos := m.pos - 1 }) (V := m.pos + 1) hw hs (by show m.pos - 1 < size; omega) rfl (h.hash.unhead _ _)
          (by right; show m.pos + 1 = m.pos - 1 + 2; omega)
          (by show ZeroRunBefore _ _ (m.pos - 1 + 1) _; rw [show m.pos - 1 + 1 = m.pos by omega]; exact h.zeros.before_again)
          hc (.inr hm)
        refine ⟨ho, ?_⟩
        rw [MatchVars.left_of_free hlz']
        simp only at hpos
        omega
    · next hlz =>
      have hl : m.lazy = false := by
        cases e : m.lazy with
        | false => rfl
        | true => exact absurd ⟨(h.held e).1, e⟩ hlz
      obtain ⟨ho, hlz', hpos⟩ := emitToken_ok (c := c) (data := data) (start := start) (size := size)
        (length := found.1) (offset := found.2) (m := m) hw hs hp hl h.hash (.inl rfl) h.zeros.before_next (h.free hl) hf
      refine ⟨ho, ?_⟩
      rw [MatchVars.left_of_free hlz', MatchVars.left_of_free hl]
      omega

theorem matchLoop_ok {c : Config} {data : List Byte} {start size : Nat} (hw : 0 < c.window) (hs : size ≤ data.length)
    (turns : Nat) {m : MatchVars} (h : m.Ok c data start size) (hn : m.left size ≤ turns) :
    let t := matchLoop c (fun i => data.getD i 0) size turns m
    t.Ok c data start size ∧ t.pos = size ∧ t.lazy = false := by
  have done : ∀ m : MatchVars, m.Ok c data start size → ¬ m.pos < size → m.pos = size ∧ m.lazy = false := by
    intro m h hp
    have := h.inside
    refine ⟨by omega, ?_⟩
    cases e : m.lazy with
    | false => rfl
    | true =>
      obtain ⟨_, h1, _, h3, hm⟩ := h.held e
      have := hm.inside; omega
  induction turns generalizing m with
  | zero =>
    refine ⟨h, done m h ?_⟩
    unfold MatchVars.left at hn
    omega
  | succ turns ih =>
    unfold matchLoop
    split
    · next hp =>
      have hv := h.visit hw hp
      obtain ⟨ho, hlt⟩ := resolve_ok hw hs hv (hv.search hw)
      have e : (visit c (fun i => data.getD i 0) size m).left size = m.left size := rfl
      exact ih ho (by rw [e] at hlt; unfold matchTurn; simp only; omega)
    · next hp => exact ⟨h, done m h hp⟩

/-- The tokens of one block, from true hash arrays, are valid, and the arrays are true afterwards (42_lz77 R205). -/
theorem referenceMatch_ok {c : Config} {data : List Byte} {start size V : Nat} {h : HashIndex} (hw : 0 < c.window)
    (hs : size ≤ data.length) (hst : start ≤ size) (H : HashTrue c (fun i => data.getD i 0) V h)
    (hV : V = start ∨ V = start + 1) :
    let m := referenceMatch c (fun i => data.getD i 0) h start size
    validTokens c.window data start size m.tok.reverse = true ∧
      ∃ V', (V' = size ∨ V' = size + 1) ∧ HashTrue c (fun i => data.getD i 0) V' m.h := by
  have h0 : (⟨h, 0, false, 0, 0, start, []⟩ : MatchVars).Ok c data start size :=
    ⟨⟨V, hV.imp id fun e => ⟨e, rfl⟩, H⟩,
      ⟨fun i hi => absurd hi (Nat.not_lt_zero _), fun h => absurd rfl h, Nat.zero_le _⟩, hst, fun _ => ⟨rfl, rfl⟩,
      fun h => Bool.noConfusion h⟩
  obtain ⟨ho, hpos, hlz⟩ := matchLoop_ok hw hs (2 * (size - start) + 2) h0
    (by unfold MatchVars.left; simp only [Bool.false_eq_true, if_false]; omega)
  obtain ⟨h1, h2⟩ := ho.free hlz
  rw [hpos] at h2
  obtain ⟨V', hV', H'⟩ := ho.hash
  rw [hpos] at hV'
  refine ⟨?_, V', by tauto, H'⟩
  unfold validTokens
  rw [Bool.and_eq_true]
  exact ⟨h1, by rw [referenceMatch, h2]; simp⟩

/-- Under `MATCHER = reference` the tokens and the arrays of a block are the reference matcher's (42_lz77 R193). -/
theorem blockTokens_reference {c : Config} (h : c.matcher = .reference) (ctr call : Nat) (data : List Byte)
    (start stop : Nat) (w : Work) :
    (blockTokens c ctr call data start stop w).tok =
      (referenceMatch c (fun i => data.getD i 0) w.hash start stop).tok.reverse ∧
    (blockTokens c ctr call data start stop w).hash =
      (referenceMatch c (fun i => data.getD i 0) w.hash start stop).h := by
  have e : (fun i => data.toArray.getD i 0) = fun i => data.getD i (0 : Byte) := by funext i; simp
  simp only [blockTokens, h, e, and_self]

end Sys2Proof.Machine
end

