-- ==== Sys2Proof/Laws/State.lean ====
section
/-! SUPPORT. One lemma per field per update of `State`: what each named update leaves in each field. -/

namespace Sys2Proof.Machine

/-! ## `State.finish` -/

@[simp] theorem State.finish_cfg (s : State) : (s.finish).cfg = s.cfg := rfl
@[simp] theorem State.finish_src (s : State) : (s.finish).src = s.src := rfl
@[simp] theorem State.finish_slen (s : State) : (s.finish).slen = s.slen := rfl
@[simp] theorem State.finish_dst (s : State) : (s.finish).dst = s.dst := rfl
@[simp] theorem State.finish_dcap (s : State) : (s.finish).dcap = s.dcap := rfl
@[simp] theorem State.finish_dlen (s : State) : (s.finish).dlen = s.dlen := rfl
@[simp] theorem State.finish_arg0 (s : State) : (s.finish).arg0 = s.arg0 := rfl
@[simp] theorem State.finish_arg1 (s : State) : (s.finish).arg1 = s.arg1 := rfl
@[simp] theorem State.finish_arg2 (s : State) : (s.finish).arg2 = s.arg2 := rfl
@[simp] theorem State.finish_res0 (s : State) : (s.finish).res0 = s.res0 := rfl
@[simp] theorem State.finish_bp (s : State) : (s.finish).bp = s.bp := rfl
@[simp] theorem State.finish_pos (s : State) : (s.finish).pos = s.pos := rfl
@[simp] theorem State.finish_wbp (s : State) : (s.finish).wbp = s.wbp := rfl
@[simp] theorem State.finish_done (s : State) : (s.finish).done = true := rfl
@[simp] theorem State.finish_bfinal (s : State) : (s.finish).bfinal = s.bfinal := rfl
@[simp] theorem State.finish_treev (s : State) : (s.finish).treev = s.treev := rfl
@[simp] theorem State.finish_err (s : State) : (s.finish).err = s.err := rfl
@[simp] theorem State.finish_errInfo (s : State) : (s.finish).errInfo = s.errInfo := rfl
@[simp] theorem State.finish_ctrl (s : State) : (s.finish).ctrl = s.ctrl := rfl
@[simp] theorem State.finish_mem (s : State) : (s.finish).mem = s.mem := rfl
@[simp] theorem State.finish_u (s : State) : (s.finish).u = s.u := rfl
@[simp] theorem State.finish_work (s : State) : (s.finish).work = s.work := rfl
@[simp] theorem State.finish_engine (s : State) : (s.finish).engine = .idle := rfl
@[simp] theorem State.finish_saved (s : State) : (s.finish).saved = s.saved := rfl
@[simp] theorem State.finish_host (s : State) : (s.finish).host = s.host := rfl
@[simp] theorem State.finish_rdata (s : State) : (s.finish).rdata = s.rdata := rfl
@[simp] theorem State.finish_free (s : State) : (s.finish).free = s.free := rfl

/-! ## `State.start` -/

@[simp] theorem State.start_cfg (s : State) : (s.start).cfg = s.cfg := rfl
@[simp] theorem State.start_src (s : State) : (s.start).src = s.src := rfl
@[simp] theorem State.start_slen (s : State) : (s.start).slen = s.slen := rfl
@[simp] theorem State.start_dst (s : State) : (s.start).dst = s.dst := rfl
@[simp] theorem State.start_dcap (s : State) : (s.start).dcap = s.dcap := rfl
@[simp] theorem State.start_dlen (s : State) : (s.start).dlen = 0 := rfl
@[simp] theorem State.start_arg0 (s : State) : (s.start).arg0 = s.arg0 := rfl
@[simp] theorem State.start_arg1 (s : State) : (s.start).arg1 = s.arg1 := rfl
@[simp] theorem State.start_arg2 (s : State) : (s.start).arg2 = s.arg2 := rfl
@[simp] theorem State.start_res0 (s : State) : (s.start).res0 = s.res0 := rfl
@[simp] theorem State.start_bp (s : State) : (s.start).bp = 0 := rfl
@[simp] theorem State.start_pos (s : State) : (s.start).pos = 0 := rfl
@[simp] theorem State.start_wbp (s : State) : (s.start).wbp = 0 := rfl
@[simp] theorem State.start_done (s : State) : (s.start).done = false := rfl
@[simp] theorem State.start_bfinal (s : State) : (s.start).bfinal = s.bfinal := rfl
@[simp] theorem State.start_treev (s : State) : (s.start).treev = s.treev := rfl
@[simp] theorem State.start_err (s : State) : (s.start).err = s.err := rfl
@[simp] theorem State.start_errInfo (s : State) : (s.start).errInfo = s.errInfo := rfl
@[simp] theorem State.start_ctrl (s : State) : (s.start).ctrl = s.ctrl := rfl
@[simp] theorem State.start_mem (s : State) : (s.start).mem = s.mem := rfl
@[simp] theorem State.start_u (s : State) : (s.start).u = s.u := rfl
@[simp] theorem State.start_work (s : State) : (s.start).work = s.work := rfl
@[simp] theorem State.start_engine (s : State) : (s.start).engine = s.engine := rfl
@[simp] theorem State.start_saved (s : State) : (s.start).saved = s.mem := rfl
@[simp] theorem State.start_host (s : State) : (s.start).host = s.host := rfl
@[simp] theorem State.start_rdata (s : State) : (s.start).rdata = s.rdata := rfl
@[simp] theorem State.start_free (s : State) : (s.start).free = s.free := rfl

/-! ## `State.recordFault` -/

@[simp] theorem State.recordFault_cfg (s : State) (c : Cause) (info : Nat) : (s.recordFault c info).cfg = s.cfg := rfl
@[simp] theorem State.recordFault_src (s : State) (c : Cause) (info : Nat) : (s.recordFault c info).src = s.src := rfl
@[simp] theorem State.recordFault_slen (s : State) (c : Cause) (info : Nat) :
    (s.recordFault c info).slen =
      s.slen := rfl
@[simp] theorem State.recordFault_dst (s : State) (c : Cause) (info : Nat) : (s.recordFault c info).dst = s.dst := rfl
@[simp] theorem State.recordFault_dcap (s : State) (c : Cause) (info : Nat) :
    (s.recordFault c info).dcap =
      s.dcap := rfl
@[simp] theorem State.recordFault_dlen (s : State) (c : Cause) (info : Nat) :
    (s.recordFault c info).dlen =
      s.dlen := rfl
@[simp] theorem State.recordFault_arg0 (s : State) (c : Cause) (info : Nat) :
    (s.recordFault c info).arg0 =
      s.arg0 := rfl
@[simp] theorem State.recordFault_arg1 (s : State) (c : Cause) (info : Nat) :
    (s.recordFault c info).arg1 =
      s.arg1 := rfl
@[simp] theorem State.recordFault_arg2 (s : State) (c : Cause) (info : Nat) :
    (s.recordFault c info).arg2 =
      s.arg2 := rfl
@[simp] theorem State.recordFault_res0 (s : State) (c : Cause) (info : Nat) :
    (s.recordFault c info).res0 =
      s.res0 := rfl
@[simp] theorem State.recordFault_bp (s : State) (c : Cause) (info : Nat) : (s.recordFault c info).bp = s.bp := rfl
@[simp] theorem State.recordFault_pos (s : State) (c : Cause) (info : Nat) : (s.recordFault c info).pos = s.pos := rfl
@[simp] theorem State.recordFault_wbp (s : State) (c : Cause) (info : Nat) : (s.recordFault c info).wbp = s.wbp := rfl
@[simp] theorem State.recordFault_done (s : State) (c : Cause) (info : Nat) :
    (s.recordFault c info).done =
      true := rfl
@[simp] theorem State.recordFault_bfinal (s : State) (c : Cause) (info : Nat) :
    (s.recordFault c info).bfinal =
      s.bfinal := rfl
@[simp] theorem State.recordFault_treev (s : State) (c : Cause) (info : Nat) :
    (s.recordFault c info).treev =
      s.treev := rfl
@[simp] theorem State.recordFault_err (s : State) (c : Cause) (info : Nat) :
    (s.recordFault c info).err =
      if s.err = 0 then errCode c else s.err := rfl
@[simp] theorem State.recordFault_errInfo (s : State) (c : Cause) (info : Nat) :
    (s.recordFault c info).errInfo =
      if s.err = 0 then BitVec.ofNat 35 info else s.errInfo := rfl
@[simp] theorem State.recordFault_ctrl (s : State) (c : Cause) (info : Nat) :
    (s.recordFault c info).ctrl =
      s.ctrl := rfl
@[simp] theorem State.recordFault_mem (s : State) (c : Cause) (info : Nat) : (s.recordFault c info).mem = s.mem := rfl
@[simp] theorem State.recordFault_u (s : State) (c : Cause) (info : Nat) : (s.recordFault c info).u = s.u := rfl
@[simp] theorem State.recordFault_work (s : State) (c : Cause) (info : Nat) :
    (s.recordFault c info).work =
      s.work := rfl
@[simp] theorem State.recordFault_engine (s : State) (c : Cause) (info : Nat) :
    (s.recordFault c info).engine =
      .idle := rfl
@[simp] theorem State.recordFault_saved (s : State) (c : Cause) (info : Nat) :
    (s.recordFault c info).saved =
      s.saved := rfl
@[simp] theorem State.recordFault_host (s : State) (c : Cause) (info : Nat) :
    (s.recordFault c info).host =
      s.host := rfl
@[simp] theorem State.recordFault_rdata (s : State) (c : Cause) (info : Nat) :
    (s.recordFault c info).rdata =
      s.rdata := rfl
@[simp] theorem State.recordFault_free (s : State) (c : Cause) (info : Nat) :
    (s.recordFault c info).free =
      s.free := rfl

/-! ## `State.forgetWork` -/

@[simp] theorem State.forgetWork_cfg (s : State) : (s.forgetWork).cfg = s.cfg := rfl
@[simp] theorem State.forgetWork_src (s : State) : (s.forgetWork).src = s.src := rfl
@[simp] theorem State.forgetWork_slen (s : State) : (s.forgetWork).slen = s.slen := rfl
@[simp] theorem State.forgetWork_dst (s : State) : (s.forgetWork).dst = s.dst := rfl
@[simp] theorem State.forgetWork_dcap (s : State) : (s.forgetWork).dcap = s.dcap := rfl
@[simp] theorem State.forgetWork_dlen (s : State) : (s.forgetWork).dlen = s.dlen := rfl
@[simp] theorem State.forgetWork_arg0 (s : State) : (s.forgetWork).arg0 = s.arg0 := rfl
@[simp] theorem State.forgetWork_arg1 (s : State) : (s.forgetWork).arg1 = s.arg1 := rfl
@[simp] theorem State.forgetWork_arg2 (s : State) : (s.forgetWork).arg2 = s.arg2 := rfl
@[simp] theorem State.forgetWork_res0 (s : State) : (s.forgetWork).res0 = s.res0 := rfl
@[simp] theorem State.forgetWork_bp (s : State) : (s.forgetWork).bp = s.bp := rfl
@[simp] theorem State.forgetWork_pos (s : State) : (s.forgetWork).pos = s.pos := rfl
@[simp] theorem State.forgetWork_wbp (s : State) : (s.forgetWork).wbp = s.wbp := rfl
@[simp] theorem State.forgetWork_done (s : State) : (s.forgetWork).done = s.done := rfl
@[simp] theorem State.forgetWork_bfinal (s : State) : (s.forgetWork).bfinal = s.bfinal := rfl
@[simp] theorem State.forgetWork_treev (s : State) : (s.forgetWork).treev = s.treev := rfl
@[simp] theorem State.forgetWork_err (s : State) : (s.forgetWork).err = s.err := rfl
@[simp] theorem State.forgetWork_errInfo (s : State) : (s.forgetWork).errInfo = s.errInfo := rfl
@[simp] theorem State.forgetWork_ctrl (s : State) : (s.forgetWork).ctrl = s.ctrl := rfl
@[simp] theorem State.forgetWork_mem (s : State) : (s.forgetWork).mem = s.mem := rfl
@[simp] theorem State.forgetWork_u (s : State) : (s.forgetWork).u = s.u := rfl
@[simp] theorem State.forgetWork_work (s : State) : (s.forgetWork).work = Config.freeWork s.free := rfl
@[simp] theorem State.forgetWork_engine (s : State) : (s.forgetWork).engine = s.engine := rfl
@[simp] theorem State.forgetWork_saved (s : State) : (s.forgetWork).saved = s.saved := rfl
@[simp] theorem State.forgetWork_host (s : State) : (s.forgetWork).host = s.host := rfl
@[simp] theorem State.forgetWork_rdata (s : State) : (s.forgetWork).rdata = s.rdata := rfl
@[simp] theorem State.forgetWork_free (s : State) : (s.forgetWork).free = s.free + 1 := rfl

/-! ## `State.settleOutput` -/

@[simp] theorem State.settleOutput_cfg (s : State) : (s.settleOutput).cfg = s.cfg := rfl
@[simp] theorem State.settleOutput_src (s : State) : (s.settleOutput).src = s.src := rfl
@[simp] theorem State.settleOutput_slen (s : State) : (s.settleOutput).slen = s.slen := rfl
@[simp] theorem State.settleOutput_dst (s : State) : (s.settleOutput).dst = s.dst := rfl
@[simp] theorem State.settleOutput_dcap (s : State) : (s.settleOutput).dcap = s.dcap := rfl
@[simp] theorem State.settleOutput_dlen (s : State) : (s.settleOutput).dlen = s.dlen := rfl
@[simp] theorem State.settleOutput_arg0 (s : State) : (s.settleOutput).arg0 = s.arg0 := rfl
@[simp] theorem State.settleOutput_arg1 (s : State) : (s.settleOutput).arg1 = s.arg1 := rfl
@[simp] theorem State.settleOutput_arg2 (s : State) : (s.settleOutput).arg2 = s.arg2 := rfl
@[simp] theorem State.settleOutput_res0 (s : State) : (s.settleOutput).res0 = s.res0 := rfl
@[simp] theorem State.settleOutput_bp (s : State) : (s.settleOutput).bp = s.bp := rfl
@[simp] theorem State.settleOutput_pos (s : State) : (s.settleOutput).pos = s.pos := rfl
@[simp] theorem State.settleOutput_wbp (s : State) : (s.settleOutput).wbp = s.wbp := rfl
@[simp] theorem State.settleOutput_done (s : State) : (s.settleOutput).done = s.done := rfl
@[simp] theorem State.settleOutput_bfinal (s : State) : (s.settleOutput).bfinal = s.bfinal := rfl
@[simp] theorem State.settleOutput_treev (s : State) : (s.settleOutput).treev = s.treev := rfl
@[simp] theorem State.settleOutput_err (s : State) : (s.settleOutput).err = s.err := rfl
@[simp] theorem State.settleOutput_errInfo (s : State) : (s.settleOutput).errInfo = s.errInfo := rfl
@[simp] theorem State.settleOutput_ctrl (s : State) : (s.settleOutput).ctrl = s.ctrl := rfl
@[simp] theorem State.settleOutput_mem (s : State) :
    (s.settleOutput).mem =
      Memory.settle (Config.faultKeeps s.free) s.dst.toNat (s.dst.toNat + s.dcap.toNat) s.saved s.mem := rfl
@[simp] theorem State.settleOutput_u (s : State) : (s.settleOutput).u = s.u := rfl
@[simp] theorem State.settleOutput_work (s : State) : (s.settleOutput).work = s.work := rfl
@[simp] theorem State.settleOutput_engine (s : State) : (s.settleOutput).engine = s.engine := rfl
@[simp] theorem State.settleOutput_saved (s : State) : (s.settleOutput).saved = s.saved := rfl
@[simp] theorem State.settleOutput_host (s : State) : (s.settleOutput).host = s.host := rfl
@[simp] theorem State.settleOutput_rdata (s : State) : (s.settleOutput).rdata = s.rdata := rfl
@[simp] theorem State.settleOutput_free (s : State) : (s.settleOutput).free = s.free + 1 := rfl

/-! ## `State.raise` -/

@[simp] theorem State.raise_cfg (s : State) (c : Cause) (info : Nat) : (s.raise c info).cfg = s.cfg := rfl
@[simp] theorem State.raise_src (s : State) (c : Cause) (info : Nat) : (s.raise c info).src = s.src := rfl
@[simp] theorem State.raise_slen (s : State) (c : Cause) (info : Nat) : (s.raise c info).slen = s.slen := rfl
@[simp] theorem State.raise_dst (s : State) (c : Cause) (info : Nat) : (s.raise c info).dst = s.dst := rfl
@[simp] theorem State.raise_dcap (s : State) (c : Cause) (info : Nat) : (s.raise c info).dcap = s.dcap := rfl
@[simp] theorem State.raise_dlen (s : State) (c : Cause) (info : Nat) : (s.raise c info).dlen = s.dlen := rfl
@[simp] theorem State.raise_arg0 (s : State) (c : Cause) (info : Nat) : (s.raise c info).arg0 = s.arg0 := rfl
@[simp] theorem State.raise_arg1 (s : State) (c : Cause) (info : Nat) : (s.raise c info).arg1 = s.arg1 := rfl
@[simp] theorem State.raise_arg2 (s : State) (c : Cause) (info : Nat) : (s.raise c info).arg2 = s.arg2 := rfl
@[simp] theorem State.raise_res0 (s : State) (c : Cause) (info : Nat) : (s.raise c info).res0 = s.res0 := rfl
@[simp] theorem State.raise_bp (s : State) (c : Cause) (info : Nat) : (s.raise c info).bp = s.bp := rfl
@[simp] theorem State.raise_pos (s : State) (c : Cause) (info : Nat) : (s.raise c info).pos = s.pos := rfl
@[simp] theorem State.raise_wbp (s : State) (c : Cause) (info : Nat) : (s.raise c info).wbp = s.wbp := rfl
@[simp] theorem State.raise_done (s : State) (c : Cause) (info : Nat) : (s.raise c info).done = true := rfl
@[simp] theorem State.raise_bfinal (s : State) (c : Cause) (info : Nat) : (s.raise c info).bfinal = s.bfinal := rfl
@[simp] theorem State.raise_treev (s : State) (c : Cause) (info : Nat) : (s.raise c info).treev = s.treev := rfl
@[simp] theorem State.raise_err (s : State) (c : Cause) (info : Nat) :
    (s.raise c info).err =
      if s.err = 0 then errCode c else s.err := rfl
@[simp] theorem State.raise_errInfo (s : State) (c : Cause) (info : Nat) :
    (s.raise c info).errInfo =
      if s.err = 0 then BitVec.ofNat 35 info else s.errInfo := rfl
@[simp] theorem State.raise_ctrl (s : State) (c : Cause) (info : Nat) : (s.raise c info).ctrl = s.ctrl := rfl
@[simp] theorem State.raise_mem (s : State) (c : Cause) (info : Nat) :
    (s.raise c info).mem =
      Memory.settle (Config.faultKeeps s.free) s.dst.toNat (s.dst.toNat + s.dcap.toNat) s.saved s.mem := rfl
@[simp] theorem State.raise_u (s : State) (c : Cause) (info : Nat) : (s.raise c info).u = s.u := rfl
@[simp] theorem State.raise_work (s : State) (c : Cause) (info : Nat) :
    (s.raise c info).work =
      Config.freeWork (s.free + 1) := rfl
@[simp] theorem State.raise_engine (s : State) (c : Cause) (info : Nat) : (s.raise c info).engine = .idle := rfl
@[simp] theorem State.raise_saved (s : State) (c : Cause) (info : Nat) : (s.raise c info).saved = s.saved := rfl
@[simp] theorem State.raise_host (s : State) (c : Cause) (info : Nat) : (s.raise c info).host = s.host := rfl
@[simp] theorem State.raise_rdata (s : State) (c : Cause) (info : Nat) : (s.raise c info).rdata = s.rdata := rfl
@[simp] theorem State.raise_free (s : State) (c : Cause) (info : Nat) : (s.raise c info).free = s.free + 1 + 1 := rfl

/-! ## `State.raiseInput` -/

@[simp] theorem State.raiseInput_cfg (s : State) (c : Cause) (info : Nat) : (s.raiseInput c info).cfg = s.cfg := rfl
@[simp] theorem State.raiseInput_src (s : State) (c : Cause) (info : Nat) : (s.raiseInput c info).src = s.src := rfl
@[simp] theorem State.raiseInput_slen (s : State) (c : Cause) (info : Nat) :
    (s.raiseInput c info).slen =
      s.slen := rfl
@[simp] theorem State.raiseInput_dst (s : State) (c : Cause) (info : Nat) : (s.raiseInput c info).dst = s.dst := rfl
@[simp] theorem State.raiseInput_dcap (s : State) (c : Cause) (info : Nat) :
    (s.raiseInput c info).dcap =
      s.dcap := rfl
@[simp] theorem State.raiseInput_dlen (s : State) (c : Cause) (info : Nat) :
    (s.raiseInput c info).dlen =
      s.dlen := rfl
@[simp] theorem State.raiseInput_arg0 (s : State) (c : Cause) (info : Nat) :
    (s.raiseInput c info).arg0 =
      s.arg0 := rfl
@[simp] theorem State.raiseInput_arg1 (s : State) (c : Cause) (info : Nat) :
    (s.raiseInput c info).arg1 =
      s.arg1 := rfl
@[simp] theorem State.raiseInput_arg2 (s : State) (c : Cause) (info : Nat) :
    (s.raiseInput c info).arg2 =
      s.arg2 := rfl
@[simp] theorem State.raiseInput_res0 (s : State) (c : Cause) (info : Nat) :
    (s.raiseInput c info).res0 =
      s.res0 := rfl
@[simp] theorem State.raiseInput_bp (s : State) (c : Cause) (info : Nat) : (s.raiseInput c info).bp = s.bp := rfl
@[simp] theorem State.raiseInput_pos (s : State) (c : Cause) (info : Nat) : (s.raiseInput c info).pos = s.pos := rfl
@[simp] theorem State.raiseInput_wbp (s : State) (c : Cause) (info : Nat) : (s.raiseInput c info).wbp = s.wbp := rfl
@[simp] theorem State.raiseInput_done (s : State) (c : Cause) (info : Nat) : (s.raiseInput c info).done = true := rfl
@[simp] theorem State.raiseInput_bfinal (s : State) (c : Cause) (info : Nat) :
    (s.raiseInput c info).bfinal =
      s.bfinal := rfl
@[simp] theorem State.raiseInput_treev (s : State) (c : Cause) (info : Nat) :
    (s.raiseInput c info).treev =
      s.treev := rfl
@[simp] theorem State.raiseInput_err (s : State) (c : Cause) (info : Nat) :
    (s.raiseInput c info).err =
      if s.err = 0 then errCode c else s.err := rfl
@[simp] theorem State.raiseInput_errInfo (s : State) (c : Cause) (info : Nat) :
    (s.raiseInput c info).errInfo =
      if s.err = 0 then BitVec.ofNat 35 info else s.errInfo := rfl
@[simp] theorem State.raiseInput_ctrl (s : State) (c : Cause) (info : Nat) :
    (s.raiseInput c info).ctrl =
      s.ctrl := rfl
@[simp] theorem State.raiseInput_mem (s : State) (c : Cause) (info : Nat) : (s.raiseInput c info).mem = s.mem := rfl
@[simp] theorem State.raiseInput_u (s : State) (c : Cause) (info : Nat) : (s.raiseInput c info).u = s.u := rfl
@[simp] theorem State.raiseInput_work (s : State) (c : Cause) (info : Nat) :
    (s.raiseInput c info).work =
      Config.freeWork s.free := rfl
@[simp] theorem State.raiseInput_engine (s : State) (c : Cause) (info : Nat) :
    (s.raiseInput c info).engine =
      .idle := rfl
@[simp] theorem State.raiseInput_saved (s : State) (c : Cause) (info : Nat) :
    (s.raiseInput c info).saved =
      s.saved := rfl
@[simp] theorem State.raiseInput_host (s : State) (c : Cause) (info : Nat) :
    (s.raiseInput c info).host =
      s.host := rfl
@[simp] theorem State.raiseInput_rdata (s : State) (c : Cause) (info : Nat) :
    (s.raiseInput c info).rdata =
      s.rdata := rfl
@[simp] theorem State.raiseInput_free (s : State) (c : Cause) (info : Nat) :
    (s.raiseInput c info).free =
      s.free + 1 := rfl

/-! ## `State.raiseFailure` -/

@[simp] theorem State.raiseFailure_cfg (s : State) (f : Failure) : (s.raiseFailure f).cfg = s.cfg := rfl
@[simp] theorem State.raiseFailure_src (s : State) (f : Failure) : (s.raiseFailure f).src = s.src := rfl
@[simp] theorem State.raiseFailure_slen (s : State) (f : Failure) : (s.raiseFailure f).slen = s.slen := rfl
@[simp] theorem State.raiseFailure_dst (s : State) (f : Failure) : (s.raiseFailure f).dst = s.dst := rfl
@[simp] theorem State.raiseFailure_dcap (s : State) (f : Failure) : (s.raiseFailure f).dcap = s.dcap := rfl
@[simp] theorem State.raiseFailure_dlen (s : State) (f : Failure) : (s.raiseFailure f).dlen = s.dlen := rfl
@[simp] theorem State.raiseFailure_arg0 (s : State) (f : Failure) : (s.raiseFailure f).arg0 = s.arg0 := rfl
@[simp] theorem State.raiseFailure_arg1 (s : State) (f : Failure) : (s.raiseFailure f).arg1 = s.arg1 := rfl
@[simp] theorem State.raiseFailure_arg2 (s : State) (f : Failure) : (s.raiseFailure f).arg2 = s.arg2 := rfl
@[simp] theorem State.raiseFailure_res0 (s : State) (f : Failure) : (s.raiseFailure f).res0 = s.res0 := rfl
@[simp] theorem State.raiseFailure_bp (s : State) (f : Failure) : (s.raiseFailure f).bp = s.bp := rfl
@[simp] theorem State.raiseFailure_pos (s : State) (f : Failure) : (s.raiseFailure f).pos = s.pos := rfl
@[simp] theorem State.raiseFailure_wbp (s : State) (f : Failure) : (s.raiseFailure f).wbp = s.wbp := rfl
@[simp] theorem State.raiseFailure_done (s : State) (f : Failure) : (s.raiseFailure f).done = true := rfl
@[simp] theorem State.raiseFailure_bfinal (s : State) (f : Failure) : (s.raiseFailure f).bfinal = s.bfinal := rfl
@[simp] theorem State.raiseFailure_treev (s : State) (f : Failure) : (s.raiseFailure f).treev = s.treev := rfl
@[simp] theorem State.raiseFailure_err (s : State) (f : Failure) :
    (s.raiseFailure f).err =
      if s.err = 0 then errCode f.cause else s.err := rfl
@[simp] theorem State.raiseFailure_errInfo (s : State) (f : Failure) :
    (s.raiseFailure f).errInfo =
      if s.err = 0 then BitVec.ofNat 35 f.info else s.errInfo := rfl
@[simp] theorem State.raiseFailure_ctrl (s : State) (f : Failure) : (s.raiseFailure f).ctrl = s.ctrl := rfl
@[simp] theorem State.raiseFailure_mem (s : State) (f : Failure) :
    (s.raiseFailure f).mem =
      Memory.settle (Config.faultKeeps s.free) s.dst.toNat (s.dst.toNat + s.dcap.toNat) s.saved s.mem := rfl
@[simp] theorem State.raiseFailure_u (s : State) (f : Failure) : (s.raiseFailure f).u = s.u := rfl
@[simp] theorem State.raiseFailure_work (s : State) (f : Failure) :
    (s.raiseFailure f).work =
      (Config.freeWork (s.free + 1)).invalidate f.slot := rfl
@[simp] theorem State.raiseFailure_engine (s : State) (f : Failure) : (s.raiseFailure f).engine = .idle := rfl
@[simp] theorem State.raiseFailure_saved (s : State) (f : Failure) : (s.raiseFailure f).saved = s.saved := rfl
@[simp] theorem State.raiseFailure_host (s : State) (f : Failure) : (s.raiseFailure f).host = s.host := rfl
@[simp] theorem State.raiseFailure_rdata (s : State) (f : Failure) : (s.raiseFailure f).rdata = s.rdata := rfl
@[simp] theorem State.raiseFailure_free (s : State) (f : Failure) : (s.raiseFailure f).free = s.free + 1 + 1 := rfl

/-! ## `State.clearError` -/

@[simp] theorem State.clearError_cfg (s : State) : (s.clearError).cfg = s.cfg := rfl
@[simp] theorem State.clearError_src (s : State) : (s.clearError).src = s.src := rfl
@[simp] theorem State.clearError_slen (s : State) : (s.clearError).slen = s.slen := rfl
@[simp] theorem State.clearError_dst (s : State) : (s.clearError).dst = s.dst := rfl
@[simp] theorem State.clearError_dcap (s : State) : (s.clearError).dcap = s.dcap := rfl
@[simp] theorem State.clearError_dlen (s : State) : (s.clearError).dlen = s.dlen := rfl
@[simp] theorem State.clearError_arg0 (s : State) : (s.clearError).arg0 = s.arg0 := rfl
@[simp] theorem State.clearError_arg1 (s : State) : (s.clearError).arg1 = s.arg1 := rfl
@[simp] theorem State.clearError_arg2 (s : State) : (s.clearError).arg2 = s.arg2 := rfl
@[simp] theorem State.clearError_res0 (s : State) : (s.clearError).res0 = s.res0 := rfl
@[simp] theorem State.clearError_bp (s : State) : (s.clearError).bp = s.bp := rfl
@[simp] theorem State.clearError_pos (s : State) : (s.clearError).pos = s.pos := rfl
@[simp] theorem State.clearError_wbp (s : State) : (s.clearError).wbp = s.wbp := rfl
@[simp] theorem State.clearError_done (s : State) : (s.clearError).done = s.done := rfl
@[simp] theorem State.clearError_bfinal (s : State) : (s.clearError).bfinal = s.bfinal := rfl
@[simp] theorem State.clearError_treev (s : State) : (s.clearError).treev = s.treev := rfl
@[simp] theorem State.clearError_err (s : State) : (s.clearError).err = 0 := rfl
@[simp] theorem State.clearError_errInfo (s : State) : (s.clearError).errInfo = 0 := rfl
@[simp] theorem State.clearError_ctrl (s : State) : (s.clearError).ctrl = s.ctrl := rfl
@[simp] theorem State.clearError_mem (s : State) : (s.clearError).mem = s.mem := rfl
@[simp] theorem State.clearError_u (s : State) : (s.clearError).u = s.u := rfl
@[simp] theorem State.clearError_work (s : State) : (s.clearError).work = s.work := rfl
@[simp] theorem State.clearError_engine (s : State) : (s.clearError).engine = s.engine := rfl
@[simp] theorem State.clearError_saved (s : State) : (s.clearError).saved = s.saved := rfl
@[simp] theorem State.clearError_host (s : State) : (s.clearError).host = s.host := rfl
@[simp] theorem State.clearError_rdata (s : State) : (s.clearError).rdata = s.rdata := rfl
@[simp] theorem State.clearError_free (s : State) : (s.clearError).free = s.free := rfl

/-! ## `State.toPhase` -/

@[simp] theorem State.toPhase_cfg (s : State) (p : Phase) : (s.toPhase p).cfg = s.cfg := rfl
@[simp] theorem State.toPhase_src (s : State) (p : Phase) : (s.toPhase p).src = s.src := rfl
@[simp] theorem State.toPhase_slen (s : State) (p : Phase) : (s.toPhase p).slen = s.slen := rfl
@[simp] theorem State.toPhase_dst (s : State) (p : Phase) : (s.toPhase p).dst = s.dst := rfl
@[simp] theorem State.toPhase_dcap (s : State) (p : Phase) : (s.toPhase p).dcap = s.dcap := rfl
@[simp] theorem State.toPhase_dlen (s : State) (p : Phase) : (s.toPhase p).dlen = s.dlen := rfl
@[simp] theorem State.toPhase_arg0 (s : State) (p : Phase) : (s.toPhase p).arg0 = s.arg0 := rfl
@[simp] theorem State.toPhase_arg1 (s : State) (p : Phase) : (s.toPhase p).arg1 = s.arg1 := rfl
@[simp] theorem State.toPhase_arg2 (s : State) (p : Phase) : (s.toPhase p).arg2 = s.arg2 := rfl
@[simp] theorem State.toPhase_res0 (s : State) (p : Phase) : (s.toPhase p).res0 = s.res0 := rfl
@[simp] theorem State.toPhase_bp (s : State) (p : Phase) : (s.toPhase p).bp = s.bp := rfl
@[simp] theorem State.toPhase_pos (s : State) (p : Phase) : (s.toPhase p).pos = s.pos := rfl
@[simp] theorem State.toPhase_wbp (s : State) (p : Phase) : (s.toPhase p).wbp = s.wbp := rfl
@[simp] theorem State.toPhase_done (s : State) (p : Phase) : (s.toPhase p).done = s.done := rfl
@[simp] theorem State.toPhase_bfinal (s : State) (p : Phase) : (s.toPhase p).bfinal = s.bfinal := rfl
@[simp] theorem State.toPhase_treev (s : State) (p : Phase) : (s.toPhase p).treev = s.treev := rfl
@[simp] theorem State.toPhase_err (s : State) (p : Phase) : (s.toPhase p).err = s.err := rfl
@[simp] theorem State.toPhase_errInfo (s : State) (p : Phase) : (s.toPhase p).errInfo = s.errInfo := rfl
@[simp] theorem State.toPhase_ctrl (s : State) (p : Phase) : (s.toPhase p).ctrl = s.ctrl := rfl
@[simp] theorem State.toPhase_mem (s : State) (p : Phase) : (s.toPhase p).mem = s.mem := rfl
@[simp] theorem State.toPhase_u (s : State) (p : Phase) : (s.toPhase p).u = s.u := rfl
@[simp] theorem State.toPhase_work (s : State) (p : Phase) : (s.toPhase p).work = s.work := rfl
@[simp] theorem State.toPhase_engine (s : State) (p : Phase) : (s.toPhase p).engine = .inflate s.zlib p := rfl
@[simp] theorem State.toPhase_saved (s : State) (p : Phase) : (s.toPhase p).saved = s.saved := rfl
@[simp] theorem State.toPhase_host (s : State) (p : Phase) : (s.toPhase p).host = s.host := rfl
@[simp] theorem State.toPhase_rdata (s : State) (p : Phase) : (s.toPhase p).rdata = s.rdata := rfl
@[simp] theorem State.toPhase_free (s : State) (p : Phase) : (s.toPhase p).free = s.free := rfl

/-! ## `State.putOut` -/

@[simp] theorem State.putOut_cfg (s : State) (i : Nat) (bs : List Byte) : (s.putOut i bs).cfg = s.cfg := rfl
@[simp] theorem State.putOut_src (s : State) (i : Nat) (bs : List Byte) : (s.putOut i bs).src = s.src := rfl
@[simp] theorem State.putOut_slen (s : State) (i : Nat) (bs : List Byte) : (s.putOut i bs).slen = s.slen := rfl
@[simp] theorem State.putOut_dst (s : State) (i : Nat) (bs : List Byte) : (s.putOut i bs).dst = s.dst := rfl
@[simp] theorem State.putOut_dcap (s : State) (i : Nat) (bs : List Byte) : (s.putOut i bs).dcap = s.dcap := rfl
@[simp] theorem State.putOut_dlen (s : State) (i : Nat) (bs : List Byte) : (s.putOut i bs).dlen = s.dlen := rfl
@[simp] theorem State.putOut_arg0 (s : State) (i : Nat) (bs : List Byte) : (s.putOut i bs).arg0 = s.arg0 := rfl
@[simp] theorem State.putOut_arg1 (s : State) (i : Nat) (bs : List Byte) : (s.putOut i bs).arg1 = s.arg1 := rfl
@[simp] theorem State.putOut_arg2 (s : State) (i : Nat) (bs : List Byte) : (s.putOut i bs).arg2 = s.arg2 := rfl
@[simp] theorem State.putOut_res0 (s : State) (i : Nat) (bs : List Byte) : (s.putOut i bs).res0 = s.res0 := rfl
@[simp] theorem State.putOut_bp (s : State) (i : Nat) (bs : List Byte) : (s.putOut i bs).bp = s.bp := rfl
@[simp] theorem State.putOut_pos (s : State) (i : Nat) (bs : List Byte) : (s.putOut i bs).pos = s.pos := rfl
@[simp] theorem State.putOut_wbp (s : State) (i : Nat) (bs : List Byte) : (s.putOut i bs).wbp = s.wbp := rfl
@[simp] theorem State.putOut_done (s : State) (i : Nat) (bs : List Byte) : (s.putOut i bs).done = s.done := rfl
@[simp] theorem State.putOut_bfinal (s : State) (i : Nat) (bs : List Byte) : (s.putOut i bs).bfinal = s.bfinal := rfl
@[simp] theorem State.putOut_treev (s : State) (i : Nat) (bs : List Byte) : (s.putOut i bs).treev = s.treev := rfl
@[simp] theorem State.putOut_err (s : State) (i : Nat) (bs : List Byte) : (s.putOut i bs).err = s.err := rfl
@[simp] theorem State.putOut_errInfo (s : State) (i : Nat) (bs : List Byte) :
    (s.putOut i bs).errInfo =
      s.errInfo := rfl
@[simp] theorem State.putOut_ctrl (s : State) (i : Nat) (bs : List Byte) : (s.putOut i bs).ctrl = s.ctrl := rfl
@[simp] theorem State.putOut_mem (s : State) (i : Nat) (bs : List Byte) :
    (s.putOut i bs).mem =
      s.mem.writeBytes (s.dst.toNat + i) bs := rfl
@[simp] theorem State.putOut_u (s : State) (i : Nat) (bs : List Byte) : (s.putOut i bs).u = s.u := rfl
@[simp] theorem State.putOut_work (s : State) (i : Nat) (bs : List Byte) : (s.putOut i bs).work = s.work := rfl
@[simp] theorem State.putOut_engine (s : State) (i : Nat) (bs : List Byte) : (s.putOut i bs).engine = s.engine := rfl
@[simp] theorem State.putOut_saved (s : State) (i : Nat) (bs : List Byte) : (s.putOut i bs).saved = s.saved := rfl
@[simp] theorem State.putOut_host (s : State) (i : Nat) (bs : List Byte) : (s.putOut i bs).host = s.host := rfl
@[simp] theorem State.putOut_rdata (s : State) (i : Nat) (bs : List Byte) : (s.putOut i bs).rdata = s.rdata := rfl
@[simp] theorem State.putOut_free (s : State) (i : Nat) (bs : List Byte) : (s.putOut i bs).free = s.free := rfl

/-! ## `State.append` -/

@[simp] theorem State.append_cfg (s : State) (bs : List Byte) : (s.append bs).cfg = s.cfg := rfl
@[simp] theorem State.append_src (s : State) (bs : List Byte) : (s.append bs).src = s.src := rfl
@[simp] theorem State.append_slen (s : State) (bs : List Byte) : (s.append bs).slen = s.slen := rfl
@[simp] theorem State.append_dst (s : State) (bs : List Byte) : (s.append bs).dst = s.dst := rfl
@[simp] theorem State.append_dcap (s : State) (bs : List Byte) : (s.append bs).dcap = s.dcap := rfl
@[simp] theorem State.append_dlen (s : State) (bs : List Byte) : (s.append bs).dlen = s.dlen := rfl
@[simp] theorem State.append_arg0 (s : State) (bs : List Byte) : (s.append bs).arg0 = s.arg0 := rfl
@[simp] theorem State.append_arg1 (s : State) (bs : List Byte) : (s.append bs).arg1 = s.arg1 := rfl
@[simp] theorem State.append_arg2 (s : State) (bs : List Byte) : (s.append bs).arg2 = s.arg2 := rfl
@[simp] theorem State.append_res0 (s : State) (bs : List Byte) : (s.append bs).res0 = s.res0 := rfl
@[simp] theorem State.append_bp (s : State) (bs : List Byte) : (s.append bs).bp = s.bp := rfl
@[simp] theorem State.append_pos (s : State) (bs : List Byte) :
    (s.append bs).pos =
      BitVec.ofNat 32 (s.pos.toNat + bs.length) := rfl
@[simp] theorem State.append_wbp (s : State) (bs : List Byte) : (s.append bs).wbp = s.wbp := rfl
@[simp] theorem State.append_done (s : State) (bs : List Byte) : (s.append bs).done = s.done := rfl
@[simp] theorem State.append_bfinal (s : State) (bs : List Byte) : (s.append bs).bfinal = s.bfinal := rfl
@[simp] theorem State.append_treev (s : State) (bs : List Byte) : (s.append bs).treev = s.treev := rfl
@[simp] theorem State.append_err (s : State) (bs : List Byte) : (s.append bs).err = s.err := rfl
@[simp] theorem State.append_errInfo (s : State) (bs : List Byte) : (s.append bs).errInfo = s.errInfo := rfl
@[simp] theorem State.append_ctrl (s : State) (bs : List Byte) : (s.append bs).ctrl = s.ctrl := rfl
@[simp] theorem State.append_mem (s : State) (bs : List Byte) :
    (s.append bs).mem =
      s.mem.writeBytes (s.dst.toNat + s.pos.toNat) bs := rfl
@[simp] theorem State.append_u (s : State) (bs : List Byte) : (s.append bs).u = s.u := rfl
@[simp] theorem State.append_work (s : State) (bs : List Byte) : (s.append bs).work = s.work := rfl
@[simp] theorem State.append_engine (s : State) (bs : List Byte) : (s.append bs).engine = s.engine := rfl
@[simp] theorem State.append_saved (s : State) (bs : List Byte) : (s.append bs).saved = s.saved := rfl
@[simp] theorem State.append_host (s : State) (bs : List Byte) : (s.append bs).host = s.host := rfl
@[simp] theorem State.append_rdata (s : State) (bs : List Byte) : (s.append bs).rdata = s.rdata := rfl
@[simp] theorem State.append_free (s : State) (bs : List Byte) : (s.append bs).free = s.free := rfl

/-! ## `State.dropUser` -/

@[simp] theorem State.dropUser_cfg (s : State) : (s.dropUser).cfg = s.cfg := rfl
@[simp] theorem State.dropUser_src (s : State) : (s.dropUser).src = s.src := rfl
@[simp] theorem State.dropUser_slen (s : State) : (s.dropUser).slen = s.slen := rfl
@[simp] theorem State.dropUser_dst (s : State) : (s.dropUser).dst = s.dst := rfl
@[simp] theorem State.dropUser_dcap (s : State) : (s.dropUser).dcap = s.dcap := rfl
@[simp] theorem State.dropUser_dlen (s : State) : (s.dropUser).dlen = s.dlen := rfl
@[simp] theorem State.dropUser_arg0 (s : State) : (s.dropUser).arg0 = s.arg0 := rfl
@[simp] theorem State.dropUser_arg1 (s : State) : (s.dropUser).arg1 = s.arg1 := rfl
@[simp] theorem State.dropUser_arg2 (s : State) : (s.dropUser).arg2 = s.arg2 := rfl
@[simp] theorem State.dropUser_res0 (s : State) : (s.dropUser).res0 = s.res0 := rfl
@[simp] theorem State.dropUser_bp (s : State) : (s.dropUser).bp = s.bp := rfl
@[simp] theorem State.dropUser_pos (s : State) : (s.dropUser).pos = s.pos := rfl
@[simp] theorem State.dropUser_wbp (s : State) : (s.dropUser).wbp = s.wbp := rfl
@[simp] theorem State.dropUser_done (s : State) : (s.dropUser).done = s.done := rfl
@[simp] theorem State.dropUser_bfinal (s : State) : (s.dropUser).bfinal = s.bfinal := rfl
@[simp] theorem State.dropUser_treev (s : State) : (s.dropUser).treev = false := rfl
@[simp] theorem State.dropUser_err (s : State) : (s.dropUser).err = s.err := rfl
@[simp] theorem State.dropUser_errInfo (s : State) : (s.dropUser).errInfo = s.errInfo := rfl
@[simp] theorem State.dropUser_ctrl (s : State) : (s.dropUser).ctrl = s.ctrl := rfl
@[simp] theorem State.dropUser_mem (s : State) : (s.dropUser).mem = s.mem := rfl
@[simp] theorem State.dropUser_u (s : State) : (s.dropUser).u = { s.u with valid := false } := rfl
@[simp] theorem State.dropUser_work (s : State) : (s.dropUser).work = s.work := rfl
@[simp] theorem State.dropUser_engine (s : State) : (s.dropUser).engine = s.engine := rfl
@[simp] theorem State.dropUser_saved (s : State) : (s.dropUser).saved = s.saved := rfl
@[simp] theorem State.dropUser_host (s : State) : (s.dropUser).host = s.host := rfl
@[simp] theorem State.dropUser_rdata (s : State) : (s.dropUser).rdata = s.rdata := rfl
@[simp] theorem State.dropUser_free (s : State) : (s.dropUser).free = s.free := rfl

/-! ## `State.dropFinal` -/

@[simp] theorem State.dropFinal_cfg (s : State) : (s.dropFinal).cfg = s.cfg := rfl
@[simp] theorem State.dropFinal_src (s : State) : (s.dropFinal).src = s.src := rfl
@[simp] theorem State.dropFinal_slen (s : State) : (s.dropFinal).slen = s.slen := rfl
@[simp] theorem State.dropFinal_dst (s : State) : (s.dropFinal).dst = s.dst := rfl
@[simp] theorem State.dropFinal_dcap (s : State) : (s.dropFinal).dcap = s.dcap := rfl
@[simp] theorem State.dropFinal_dlen (s : State) : (s.dropFinal).dlen = s.dlen := rfl
@[simp] theorem State.dropFinal_arg0 (s : State) : (s.dropFinal).arg0 = s.arg0 := rfl
@[simp] theorem State.dropFinal_arg1 (s : State) : (s.dropFinal).arg1 = s.arg1 := rfl
@[simp] theorem State.dropFinal_arg2 (s : State) : (s.dropFinal).arg2 = s.arg2 := rfl
@[simp] theorem State.dropFinal_res0 (s : State) : (s.dropFinal).res0 = s.res0 := rfl
@[simp] theorem State.dropFinal_bp (s : State) : (s.dropFinal).bp = s.bp := rfl
@[simp] theorem State.dropFinal_pos (s : State) : (s.dropFinal).pos = s.pos := rfl
@[simp] theorem State.dropFinal_wbp (s : State) : (s.dropFinal).wbp = s.wbp := rfl
@[simp] theorem State.dropFinal_done (s : State) : (s.dropFinal).done = s.done := rfl
@[simp] theorem State.dropFinal_bfinal (s : State) : (s.dropFinal).bfinal = false := rfl
@[simp] theorem State.dropFinal_treev (s : State) : (s.dropFinal).treev = s.treev := rfl
@[simp] theorem State.dropFinal_err (s : State) : (s.dropFinal).err = s.err := rfl
@[simp] theorem State.dropFinal_errInfo (s : State) : (s.dropFinal).errInfo = s.errInfo := rfl
@[simp] theorem State.dropFinal_ctrl (s : State) : (s.dropFinal).ctrl = s.ctrl := rfl
@[simp] theorem State.dropFinal_mem (s : State) : (s.dropFinal).mem = s.mem := rfl
@[simp] theorem State.dropFinal_u (s : State) : (s.dropFinal).u = s.u := rfl
@[simp] theorem State.dropFinal_work (s : State) : (s.dropFinal).work = s.work := rfl
@[simp] theorem State.dropFinal_engine (s : State) : (s.dropFinal).engine = s.engine := rfl
@[simp] theorem State.dropFinal_saved (s : State) : (s.dropFinal).saved = s.saved := rfl
@[simp] theorem State.dropFinal_host (s : State) : (s.dropFinal).host = s.host := rfl
@[simp] theorem State.dropFinal_rdata (s : State) : (s.dropFinal).rdata = s.rdata := rfl
@[simp] theorem State.dropFinal_free (s : State) : (s.dropFinal).free = s.free := rfl

/-! ## `State.advance` -/

@[simp] theorem State.advance_cfg (s : State) (b : Nat) : (s.advance b).cfg = s.cfg := rfl
@[simp] theorem State.advance_src (s : State) (b : Nat) : (s.advance b).src = s.src := rfl
@[simp] theorem State.advance_slen (s : State) (b : Nat) : (s.advance b).slen = s.slen := rfl
@[simp] theorem State.advance_dst (s : State) (b : Nat) : (s.advance b).dst = s.dst := rfl
@[simp] theorem State.advance_dcap (s : State) (b : Nat) : (s.advance b).dcap = s.dcap := rfl
@[simp] theorem State.advance_dlen (s : State) (b : Nat) : (s.advance b).dlen = s.dlen := rfl
@[simp] theorem State.advance_arg0 (s : State) (b : Nat) : (s.advance b).arg0 = s.arg0 := rfl
@[simp] theorem State.advance_arg1 (s : State) (b : Nat) : (s.advance b).arg1 = s.arg1 := rfl
@[simp] theorem State.advance_arg2 (s : State) (b : Nat) : (s.advance b).arg2 = s.arg2 := rfl
@[simp] theorem State.advance_res0 (s : State) (b : Nat) : (s.advance b).res0 = s.res0 := rfl
@[simp] theorem State.advance_bp (s : State) (b : Nat) : (s.advance b).bp = BitVec.ofNat 35 b := rfl
@[simp] theorem State.advance_pos (s : State) (b : Nat) : (s.advance b).pos = s.pos := rfl
@[simp] theorem State.advance_wbp (s : State) (b : Nat) : (s.advance b).wbp = s.wbp := rfl
@[simp] theorem State.advance_done (s : State) (b : Nat) : (s.advance b).done = s.done := rfl
@[simp] theorem State.advance_bfinal (s : State) (b : Nat) : (s.advance b).bfinal = s.bfinal := rfl
@[simp] theorem State.advance_treev (s : State) (b : Nat) : (s.advance b).treev = s.treev := rfl
@[simp] theorem State.advance_err (s : State) (b : Nat) : (s.advance b).err = s.err := rfl
@[simp] theorem State.advance_errInfo (s : State) (b : Nat) : (s.advance b).errInfo = s.errInfo := rfl
@[simp] theorem State.advance_ctrl (s : State) (b : Nat) : (s.advance b).ctrl = s.ctrl := rfl
@[simp] theorem State.advance_mem (s : State) (b : Nat) : (s.advance b).mem = s.mem := rfl
@[simp] theorem State.advance_u (s : State) (b : Nat) : (s.advance b).u = s.u := rfl
@[simp] theorem State.advance_work (s : State) (b : Nat) : (s.advance b).work = s.work := rfl
@[simp] theorem State.advance_engine (s : State) (b : Nat) : (s.advance b).engine = s.engine := rfl
@[simp] theorem State.advance_saved (s : State) (b : Nat) : (s.advance b).saved = s.saved := rfl
@[simp] theorem State.advance_host (s : State) (b : Nat) : (s.advance b).host = s.host := rfl
@[simp] theorem State.advance_rdata (s : State) (b : Nat) : (s.advance b).rdata = s.rdata := rfl
@[simp] theorem State.advance_free (s : State) (b : Nat) : (s.advance b).free = s.free := rfl

end Sys2Proof.Machine
end

