-- ==== Sys2Proof/Laws/Ops.lean ====
section
/-! SUPPORT. For each shared operation, everything it can do: the frames `commandOr`, `controlCommand`, `element` and
`scanlineElement`, the faults, the writes to the output region, and the shape of what the decoder answers. -/

namespace Sys2Proof.Machine

/-! ## The frames of a meaning -/

/-- A command always answers a next state, one of these four. -/
theorem commandOr_cases (s : State) (uses : Uses) (prep fail body : State → State) :
    (s.busy = true ∧ commandOr s uses prep fail body = .next s) ∨
    (s.busy = false ∧ s.err ≠ 0 ∧ commandOr s uses prep fail body = .next s.finish) ∨
    (s.ready ∧ (prep s.start).regionsOk uses = true ∧
      commandOr s uses prep fail body = .next (body (prep s.start))) ∨
    (s.ready ∧ (prep s.start).regionsOk uses = false ∧
      commandOr s uses prep fail body = .next (fail (prep s.start))) := by
  cases hb : s.busy with
  | true => exact .inl ⟨rfl, by simp [commandOr, hb]⟩
  | false =>
    by_cases he : s.err = 0
    · cases hr : (prep s.start).regionsOk uses with
      | true => exact .inr (.inr (.inl ⟨⟨hb, he⟩, rfl, by simp [commandOr, hb, he, hr]⟩))
      | false => exact .inr (.inr (.inr ⟨⟨hb, he⟩, rfl, by simp [commandOr, hb, he, hr]⟩))
    · exact .inr (.inl ⟨rfl, he, by
        simp only [commandOr, hb, ne_eq, he, not_false_eq_true, if_true, if_false, Bool.false_eq_true]⟩)

theorem command_of_busy {s : State} (uses : Uses) (prep body : State → State) (h : s.busy = true) :
    command s uses prep body = .next s := by simp [command, commandOr, h]

theorem command_of_err {s : State} (uses : Uses) (prep body : State → State) (h : s.busy = false) (he : s.err ≠ 0) :
    command s uses prep body = .next s.finish := by
  simp only [command, commandOr, h, ne_eq, he, not_false_eq_true, if_true, if_false, Bool.false_eq_true]

theorem command_of_regionsOk {s : State} (uses : Uses) (prep body : State → State) (h : s.ready)
    (hr : (prep s.start).regionsOk uses = true) : command s uses prep body = .next (body (prep s.start)) := by
  simp [command, commandOr, h.1, h.2, hr]

theorem command_of_not_regionsOk {s : State} (uses : Uses) (prep body : State → State) (h : s.ready)
    (hr : (prep s.start).regionsOk uses = false) :
    command s uses prep body = .next ((prep s.start).raiseUses uses .regionError 0) := by
  simp [command, commandOr, h.1, h.2, hr]

theorem userCommand_of_regionsOk {s : State} (body : State → State) (h : s.ready) (hr : s.regionsOk .st = true) :
    userCommand s body = .next (body s.start.dropUser) := by
  have hr' : s.start.dropUser.regionsOk .st = true := hr
  simp [userCommand, commandOr, h.1, h.2, hr']

theorem userCommand_of_not_regionsOk {s : State} (body : State → State) (h : s.ready)
    (hr : s.regionsOk .st = false) : userCommand s body = .next (s.start.dropUser.raiseUser .regionError 0) := by
  have hr' : s.start.dropUser.regionsOk .st = false := hr
  simp [userCommand, commandOr, h.1, h.2, hr']

theorem controlCommand_cases (s : State) (body : State → State) :
    (s.busy = true ∧ controlCommand s body = .next s) ∨ (s.busy = false ∧ controlCommand s body = .next (body s).finish) := by
  cases hb : s.busy <;> simp [controlCommand, hb]

theorem element_cases (s : State) (uses : Uses) (body : State → State) :
    (s.regionsOk uses = true ∧ element s uses body = .next (body s)) ∨
    (s.regionsOk uses = false ∧ element s uses body = .fault .noSuchAddress) := by
  cases hr : s.regionsOk uses <;> simp [element, hr]

theorem element_next {s t : State} {uses : Uses} {body : State → State} (h : element s uses body = .next t) :
    s.regionsOk uses = true ∧ t = body s := by
  rcases element_cases s uses body with ⟨hr, e⟩ | ⟨_, e⟩
  · rw [e] at h; cases h; exact ⟨hr, rfl⟩
  · rw [e] at h; cases h

theorem scanlineElement_next {s t : State} {y : Nat} (h : scanlineElement s y = .next t) :
    s.scanlineOk = true ∧ t = scanlineBody y s := by
  unfold scanlineElement at h
  split at h
  · cases h; exact ⟨by assumption, rfl⟩
  · cases h

/-! ## Views that the updates leave alone -/

@[simp] theorem State.regionsOk_start (s : State) (u : Uses) : s.start.regionsOk u = s.regionsOk u := rfl
@[simp] theorem State.regionsOk_dropUser (s : State) (u : Uses) : s.dropUser.regionsOk u = s.regionsOk u := rfl
@[simp] theorem State.regionsOk_dropFinal (s : State) (u : Uses) : s.dropFinal.regionsOk u = s.regionsOk u := rfl
@[simp] theorem State.regionsOk_advance (s : State) (b : Nat) (u : Uses) : (s.advance b).regionsOk u = s.regionsOk u :=
  rfl
@[simp] theorem State.scanlineOk_advance (s : State) (b : Nat) : (s.advance b).scanlineOk = s.scanlineOk := rfl
@[simp] theorem State.busy_finish (s : State) : s.finish.busy = false := rfl
@[simp] theorem State.busy_recordFault (s : State) (c : Cause) (n : Nat) : (s.recordFault c n).busy = false := rfl
@[simp] theorem State.busy_raise (s : State) (c : Cause) (n : Nat) : (s.raise c n).busy = false := rfl
@[simp] theorem State.busy_raiseInput (s : State) (c : Cause) (n : Nat) : (s.raiseInput c n).busy = false := rfl
@[simp] theorem State.busy_raiseFailure (s : State) (f : Failure) : (s.raiseFailure f).busy = false := rfl
@[simp] theorem State.busy_toPhase (s : State) (p : Phase) : (s.toPhase p).busy = true := rfl
@[simp] theorem State.busy_advance (s : State) (b : Nat) : (s.advance b).busy = s.busy := rfl

theorem State.not_busy_iff (s : State) : s.busy = false ↔ s.engine = .idle := by
  unfold State.busy; cases s.engine <;> simp

/-- The legal regions of a command that uses both, as numbers (20_memory R69). -/
theorem State.regionsOk_bounds {s : State} (h : s.regionsOk .st = true) :
    s.src.toNat + s.slen.toNat ≤ addrSpace ∧ s.dst.toNat + s.dcap.toNat ≤ addrSpace := by
  simp only [State.regionsOk, rangeOk, Bool.and_eq_true, decide_eq_true_eq] at h
  exact ⟨h.1.1, h.2.1.1⟩

/-! ## Faults -/

theorem errCode_ne_zero (c : Cause) : errCode c ≠ 0 := by cases c <;> decide

theorem State.raise_mem_wf {s : State} (h : s.mem.wf = true) (c : Cause) (n : Nat) : (s.raise c n).mem.wf = true :=
  Memory.wf_settle h _ _ _ _

theorem State.raise_err_ne_zero (s : State) (c : Cause) (n : Nat) : (s.raise c n).err ≠ 0 := by
  rw [State.raise_err]; split
  · exact errCode_ne_zero c
  · assumption

/-- A fault of a command that uses `S` only leaves memory alone; any other settles the output region. -/
theorem State.raiseUses_mem (s : State) (u : Uses) (c : Cause) (n : Nat) :
    (u = .s ∧ (s.raiseUses u c n).mem = s.mem) ∨ (u = .st ∧ s.raiseUses u c n = s.raise c n) := by
  cases u
  · exact .inl ⟨rfl, rfl⟩
  · exact .inr ⟨rfl, rfl⟩

theorem State.raiseUses_mem_wf {s : State} (h : s.mem.wf = true) (u : Uses) (c : Cause) (n : Nat) :
    (s.raiseUses u c n).mem.wf = true := by
  cases u
  · exact h
  · exact State.raise_mem_wf h c n

/-- The slot a failed build was to fill is not valid (41_huffman R150). -/
theorem Work.valid_invalidate (w : Work) :
    (w.invalidate (some .ll)).ll.valid = false ∧ (w.invalidate (some .d)).d.valid = false ∧
      (w.invalidate (some .cl)).cl.valid = false := ⟨rfl, rfl, rfl⟩

/-! ## Writes to the output region -/

theorem State.putOut_mem_wf {s : State} (h : s.mem.wf = true) (i : Nat) (bs : List Byte) :
    (s.putOut i bs).mem.wf = true := Memory.wf_writeBytes h _ _

theorem State.append_mem_wf {s : State} (h : s.mem.wf = true) (bs : List Byte) : (s.append bs).mem.wf = true :=
  Memory.wf_writeBytes h _ _

/-- A copy is some bytes appended one at a time: it changes only memory and the output cursor. -/
theorem State.copyMatch_frame (dist n : Nat) (s : State) :
    State.copyMatch dist n s = { s with
      mem := (State.copyMatch dist n s).mem, pos := (State.copyMatch dist n s).pos } := by
  induction n generalizing s with
  | zero => rfl
  | succ n ih => rw [State.copyMatch, ih]; rfl

theorem State.copyMatch_mem_wf (dist n : Nat) {s : State} (h : s.mem.wf = true) :
    (State.copyMatch dist n s).mem.wf = true := by
  induction n generalizing s with
  | zero => exact h
  | succ n ih => exact ih (State.append_mem_wf h _)

@[simp] theorem State.length_outBytes (s : State) (i n : Nat) : (s.outBytes i n).length = n := by
  simp [State.outBytes]

@[simp] theorem State.length_inBytes (s : State) (i n : Nat) : (s.inBytes i n).length = n := by simp [State.inBytes]

@[simp] theorem State.length_input (s : State) : s.input.length = s.slen.toNat := by simp [State.input]

/-- The output cursor after a copy that fits: no wrap (10_state R24). -/
theorem State.copyMatch_pos (dist n : Nat) {s : State} (h : s.pos.toNat + n < addrSpace) :
    (State.copyMatch dist n s).pos.toNat = s.pos.toNat + n := by
  induction n generalizing s with
  | zero => rfl
  | succ n ih =>
    have e : (s.append (s.outBytes (s.pos.toNat - dist) 1)).pos.toNat = s.pos.toNat + 1 := by
      simp only [State.append_pos, State.length_outBytes, BitVec.toNat_ofNat]
      exact Nat.mod_eq_of_lt (by unfold addrSpace at h; omega)
    rw [State.copyMatch, ih (by rw [e]; omega), e]; omega

/-- A copy that fits writes only the bytes from the output cursor on. -/
theorem State.copyMatch_read (dist n : Nat) {s : State} (hw : s.mem.wf = true) (h : s.pos.toNat + n < addrSpace)
    (a : Nat) (ha : a < s.dst.toNat + s.pos.toNat ∨ s.dst.toNat + s.pos.toNat + n ≤ a) :
    (State.copyMatch dist n s).mem.read a = s.mem.read a := by
  induction n generalizing s with
  | zero => rfl
  | succ n ih =>
    have e : (s.append (s.outBytes (s.pos.toNat - dist) 1)).pos.toNat = s.pos.toNat + 1 := by
      simp only [State.append_pos, State.length_outBytes, BitVec.toNat_ofNat]
      exact Nat.mod_eq_of_lt (by unfold addrSpace at h; omega)
    rw [State.copyMatch, ih (State.append_mem_wf hw _) (by rw [e]; omega) (by rw [e, State.append_dst]; omega),
      State.append_mem, Memory.read_writeBytes hw, if_neg (by rw [State.length_outBytes]; omega)]

/-! ## The bit writer -/

@[simp] theorem length_packBits (bits : List Bool) : (packBits bits).length = (bits.length + 7) / 8 := by
  simp [packBits]

/-- `emit` writes the packed bits when they fit, else raises `OutputOverflow` with `wbp` at the first bit that needs
a byte the region does not have (40_bitio R135). -/
theorem State.emit_cases (s : State) (bits : List Bool) :
    (bits.length ≤ 8 * s.dcap.toNat ∧
      s.emit bits = .ok { s.putOut 0 (packBits bits) with wbp := BitVec.ofNat 35 bits.length }) ∨
    (8 * s.dcap.toNat < bits.length ∧
      s.emit bits = .error (({ s.putOut 0 (packBits (bits.take (8 * s.dcap.toNat))) with
        wbp := BitVec.ofNat 35 (8 * s.dcap.toNat) }).raise .outputOverflow s.dcap.toNat)) := by
  unfold State.emit
  split
  · next h => exact .inl ⟨h, rfl⟩
  · next h => exact .inr ⟨by omega, rfl⟩

/-! ## What the decoder answers in each context -/

theorem readBits_cases (src : Source) (n bp : Nat) :
    (bp + n ≤ src.nbits ∧ readBits src n bp = .ok (src.field bp n, bp + n)) ∨
    (src.nbits < bp + n ∧ readBits src n bp = .error (endOfInput bp)) := by
  unfold readBits
  split
  · next h => exact .inl ⟨h, rfl⟩
  · next h => exact .inr ⟨by omega, rfl⟩

/-- A scanline context gives a scanline or the illegal filter type, and never fails. -/
theorem decode_scanline (p : EmptySlot) (q : Nat) (src : Source) (bp : Nat) :
    decode p (.scanline q) src bp = .ok (ftInstr (src.byte q), bp) := rfl

/-- A chunk context gives a chunk whose data lie in the region, or `EndOfInput` (47_crc32 R364). -/
theorem decode_chunk_ok {p : EmptySlot} {src : Source} {bp : Nat} {i : Instr} {bp' : Nat}
    (h : decode p .chunk src bp = .ok (i, bp')) : ∃ len typ crc, i = .chunk len typ crc ∧ bp' = bp := by
  simp only [decode] at h
  split at h
  · cases h
  · split at h
    · cases h
    · cases h; exact ⟨_, _, _, rfl, rfl⟩

/-- The instruction of a scanline or of a chunk; every other context's instruction belongs to the decompressor. -/
def isInflateElement : Instr → Bool
  | .ftNone | .ftSub | .ftUp | .ftAverage | .ftPaeth | .ftIllegal _ | .chunk _ _ _ => false
  | .nop | .clrerr | .inflate | .zlibd | .deflate | .zlibc | .unfilter | .filter | .crc32 | .crcchk | .adler32
  | .hbl | .hbf | .hdec => false
  | _ => true

theorem isInflateElement_litLenInstr (s x : Nat) : isInflateElement (litLenInstr s x) = true := by
  unfold litLenInstr
  split
  · rfl
  · split <;> rfl

theorem isInflateElement_distInstr (d x : Nat) : isInflateElement (distInstr d x) = true := by
  unfold distInstr; split <;> rfl

theorem isInflateElement_clInstr (c r : Nat) : isInflateElement (clInstr c r) = true := by
  unfold clInstr; split
  · rfl
  · split
    · rfl
    · split <;> rfl

/-- In a context of the decompressor the decoder answers an instruction of the decompressor. -/
theorem decode_inflate {p : EmptySlot} {ctx : Ctx} {src : Source} {bp : Nat} {i : Instr} {bp' : Nat}
    (h : decode p ctx src bp = .ok (i, bp')) (hc : ∀ q, ctx ≠ .scanline q) (hk : ctx ≠ .chunk) :
    isInflateElement i = true := by
  cases ctx with
  | header =>
    simp only [decode] at h
    split at h
    · cases h
    · split at h <;> (cases h; rfl)
  | stored => simp only [decode] at h; split at h <;> cases h; rfl
  | dynHeader =>
    simp only [decode] at h
    split at h
    · cases h
    · split at h <;> cases h; rfl
  | codeLen cl first =>
    simp only [decode] at h
    split at h
    · cases h
    · split at h
      · cases h; rfl
      · split at h <;> cases h; exact isInflateElement_clInstr _ _
  | litLen t =>
    simp only [decode] at h
    split at h
    · cases h
    · split at h <;> cases h; exact isInflateElement_litLenInstr _ _
  | dist t =>
    simp only [decode] at h
    split at h
    · cases h
    · split at h <;> cases h; exact isInflateElement_distInstr _ _
  | zHeader => simp only [decode] at h; split at h <;> cases h; rfl
  | trailer a => simp only [decode] at h; split at h <;> cases h; rfl
  | scanline q => exact absurd rfl (hc q)
  | chunk => exact absurd rfl hk

end Sys2Proof.Machine
end

