-- ==== Sys2Proof/Laws/Trees.lean ====
section
/-! SUPPORT. The constant trees are what the tree builder gives for their lengths (10_state R38). -/

namespace Sys2Proof

/-- The codes of `FIXLL` are the canonical codes of its lengths (30_encoding R100). The same holds of its table; that
check costs the kernel minutes, so the tests look single codes up in the table instead. -/
theorem fixLL_codes : Machine.canonicalCodes fixLL.len 15 = fixLL.code := by decide +kernel

theorem fixD_built : Machine.buildFromLengths fixD.len 15 = .ok fixD := by decide +kernel

theorem Tree.built_fixD : fixD.built := ⟨_, _, fixD_built⟩

end Sys2Proof
end

