-- ==== Sys2Proof/Tests/Slice0.lean ====
section
/-! SUPPORT. Tests on fixed values, and a witness for every obligation that has hypotheses. Expected results come from
spec/: the encodings are written out bit by bit from 30_encoding and 41_huffman R158, the effects from 95_test_vectors and
the worked examples of the section files. -/

namespace Sys2Proof.Tests

open Sys2Proof.Machine

set_option Elab.async false

/-! ## Helpers -/

/-- The region holding bits written in stream order, zero bits after them. -/
def bits (l : List Nat) : Source := .ofBytes (packBits (l.map (· == 1)))

/-- The region holding some bytes. -/
def bytes (l : List Nat) : List Byte := l.map (BitVec.ofNat 8)

/-- What the decoder reads. -/
def reads (c : Ctx) (src : Source) (bp : Nat) : Option (Instr × Nat) := (decode .fault c src bp).toOption

/-- Where the decoder stops. -/
def stops (c : Ctx) (src : Source) (bp : Nat) : Option Stop :=
  match decode .fault c src bp with
  | .ok _ => none
  | .error e => some e

/-- An idle block with its input region at 0x100, its output region at 0x200, and `ARG0` to `ARG2`. -/
def idle (input : List Nat) (dcap : Nat) (args : List Nat) : State :=
  { State.reset with
    mem := Memory.writeBytes [] 0x100 (bytes input), src := 0x100, slen := BitVec.ofNat 32 input.length, dst := 0x200
    dcap := BitVec.ofNat 32 dcap, arg0 := BitVec.ofNat 32 (args.getD 0 0), arg1 := BitVec.ofNat 32 (args.getD 1 0)
    arg2 := BitVec.ofNat 32 (args.getD 2 0) }

/-- The same with a running decompression, standing at bit `bp` of the input and byte `pos` of the output. -/
def running (z : Bool) (p : Phase) (bp pos : Nat) (s : State) : State :=
  { s with engine := .inflate z p, bp := BitVec.ofNat 35 bp, pos := BitVec.ofNat 32 pos }

/-- A block with a fault pending. -/
def faulted : State := { State.reset with err := 52, errInfo := 23 }

/-- A view of the next state, if there is one. -/
def see {α : Type} (r : Result) (f : State → α) : Option α :=
  match r with
  | .next t => some (f t)
  | _ => none

/-- `ERR` and `ERRINFO`. -/
def fault (s : State) : Nat × Nat := (s.err.toNat, s.errInfo.toNat)

/-- `n` bytes of the output region. -/
def out (n : Nat) (s : State) : List Nat := (s.outBytes 0 n).map BitVec.toNat

/-- The tree of some lengths, and an empty one if they build none. -/
def tree (lengths : List Nat) : Tree :=
  match buildFromLengths lengths 15 with
  | .ok t => t
  | .error _ => emptyTree

/-! ## Well-formedness -/

/-- A `DYNHDR` that does not send `HCLEN` lengths is refused, at both sides of the right number. -/
theorem test_wellFormed_dynhdr :
    (Instr.dynhdr 0 0 0 [0, 0, 0]).wellFormed = false ∧ (Instr.dynhdr 0 0 0 [0, 0, 0, 0]).wellFormed = true ∧
    (Instr.dynhdr 0 0 0 [0, 0, 0, 0, 0]).wellFormed = false := by decide

/-- A legal filter type is no `FT.ILLEGAL`. -/
theorem test_wellFormed_ftIllegal :
    (Instr.ftIllegal 4).wellFormed = false ∧ (Instr.ftIllegal 5).wellFormed = true := by decide

/-! ## Decoding: the words of 30_encoding written out -/

/-- The 14 command words (30_encoding R92), a reserved code, and a word with a bit above the code. -/
theorem test_decode_commands :
    [0x00, 0x01, 0x10, 0x11, 0x12, 0x13, 0x20, 0x21, 0x30, 0x31, 0x32, 0x40, 0x41, 0x42, 0x02, 0x22, 0x110,
      0xFFFFFFFF].map decodeCommand =
    [some .nop, some .clrerr, some .inflate, some .zlibd, some .deflate, some .zlibc, some .unfilter, some .filter,
      some .crc32, some .crcchk, some .adler32, some .hbl, some .hbf, some .hdec, none, none, none, none] := by decide

/-- Block headers: `BFINAL`, then `BTYPE` least significant bit first (30_encoding R93). -/
theorem test_decode_blocks :
    reads .header (bits [1, 0, 0]) 0 = some (.blockStored true, 3) ∧
    reads .header (bits [0, 1, 0]) 0 = some (.blockFixed false, 3) ∧
    reads .header (bits [1, 0, 1]) 0 = some (.blockDynamic true, 3) ∧
    reads .header (bits [0, 1, 1]) 0 = some (.blockIllegal false, 3) := by decide +kernel

/-- `LEN`, `NLEN` after pad bits that are ignored (95_test_vectors 2.5, the second stored row). -/
theorem test_decode_stored :
    reads .stored (.ofBytes (bytes [0xF9, 0x03, 0x00, 0xFC, 0xFF, 0x61])) 3 = some (.stored 3 0xFFFC, 8) := by
  decide +kernel

/-- Literals in the fixed code: the first and last of each code length (41_huffman R158, 95_test_vectors 2.2). -/
theorem test_decode_literals :
    reads (.litLen fixLL) (bits [0, 0, 1, 1, 0, 0, 0, 0]) 0 = some (.lit 0, 8) ∧
    reads (.litLen fixLL) (bits [1, 0, 1, 1, 1, 1, 1, 1]) 0 = some (.lit 143, 8) ∧
    reads (.litLen fixLL) (bits [1, 1, 0, 0, 1, 0, 0, 0, 0]) 0 = some (.lit 144, 9) ∧
    reads (.litLen fixLL) (bits [1, 1, 1, 0, 0, 1, 0, 0, 0]) 0 = some (.lit 200, 9) ∧
    reads (.litLen fixLL) (bits [1, 1, 1, 1, 1, 1, 1, 1, 1]) 0 = some (.lit 255, 9) ∧
    reads (.litLen fixLL) (bits [0, 0, 0, 0, 0, 0, 0]) 0 = some (.endOfBlock, 7) := by decide +kernel

/-- Length symbols 257 to 268: seven code bits, first bit first, then the extra field. -/
theorem test_decode_lengths1 :
    reads (.litLen fixLL) (bits [0, 0, 0, 0, 0, 0, 1]) 0 = some (.len257, 7) ∧
    reads (.litLen fixLL) (bits [0, 0, 0, 0, 0, 1, 0]) 0 = some (.len258, 7) ∧
    reads (.litLen fixLL) (bits [0, 0, 0, 0, 0, 1, 1]) 0 = some (.len259, 7) ∧
    reads (.litLen fixLL) (bits [0, 0, 0, 0, 1, 0, 0]) 0 = some (.len260, 7) ∧
    reads (.litLen fixLL) (bits [0, 0, 0, 0, 1, 0, 1]) 0 = some (.len261, 7) ∧
    reads (.litLen fixLL) (bits [0, 0, 0, 0, 1, 1, 0]) 0 = some (.len262, 7) ∧
    reads (.litLen fixLL) (bits [0, 0, 0, 0, 1, 1, 1]) 0 = some (.len263, 7) ∧
    reads (.litLen fixLL) (bits [0, 0, 0, 1, 0, 0, 0]) 0 = some (.len264, 7) ∧
    reads (.litLen fixLL) (bits [0, 0, 0, 1, 0, 0, 1, 1]) 0 = some (.len265 1, 8) ∧
    reads (.litLen fixLL) (bits [0, 0, 0, 1, 0, 1, 0, 0]) 0 = some (.len266 0, 8) ∧
    reads (.litLen fixLL) (bits [0, 0, 0, 1, 0, 1, 1, 1]) 0 = some (.len267 1, 8) ∧
    reads (.litLen fixLL) (bits [0, 0, 0, 1, 1, 0, 0, 1]) 0 = some (.len268 1, 8) := by decide +kernel

/-- Length symbols 269 to 279: the extra field is sent least significant bit first (30_encoding R94). -/
theorem test_decode_lengths2 :
    reads (.litLen fixLL) (bits [0, 0, 0, 1, 1, 0, 1, 1, 0]) 0 = some (.len269 1, 9) ∧
    reads (.litLen fixLL) (bits [0, 0, 0, 1, 1, 1, 0, 0, 1]) 0 = some (.len270 2, 9) ∧
    reads (.litLen fixLL) (bits [0, 0, 0, 1, 1, 1, 1, 1, 1]) 0 = some (.len271 3, 9) ∧
    reads (.litLen fixLL) (bits [0, 0, 1, 0, 0, 0, 0, 0, 1]) 0 = some (.len272 2, 9) ∧
    reads (.litLen fixLL) (bits [0, 0, 1, 0, 0, 0, 1, 1, 0, 0]) 0 = some (.len273 1, 10) ∧
    reads (.litLen fixLL) (bits [0, 0, 1, 0, 0, 1, 0, 0, 0, 1]) 0 = some (.len274 4, 10) ∧
    reads (.litLen fixLL) (bits [0, 0, 1, 0, 0, 1, 1, 1, 1, 0]) 0 = some (.len275 3, 10) ∧
    reads (.litLen fixLL) (bits [0, 0, 1, 0, 1, 0, 0, 1, 1, 1]) 0 = some (.len276 7, 10) ∧
    reads (.litLen fixLL) (bits [0, 0, 1, 0, 1, 0, 1, 1, 0, 0, 0]) 0 = some (.len277 1, 11) ∧
    reads (.litLen fixLL) (bits [0, 0, 1, 0, 1, 1, 0, 0, 0, 0, 1]) 0 = some (.len278 8, 11) ∧
    reads (.litLen fixLL) (bits [0, 0, 1, 0, 1, 1, 1, 1, 1, 0, 0]) 0 = some (.len279 3, 11) := by decide +kernel

/-- Symbols 280 to 287 have eight code bits again. -/
theorem test_decode_lengths3 :
    reads (.litLen fixLL) (bits [1, 1, 0, 0, 0, 0, 0, 0, 0, 0, 0, 1]) 0 = some (.len280 8, 12) ∧
    reads (.litLen fixLL) (bits [1, 1, 0, 0, 0, 0, 0, 1, 1, 0, 0, 0, 0]) 0 = some (.len281 1, 13) ∧
    reads (.litLen fixLL) (bits [1, 1, 0, 0, 0, 0, 1, 0, 0, 0, 0, 0, 1]) 0 = some (.len282 16, 13) ∧
    reads (.litLen fixLL) (bits [1, 1, 0, 0, 0, 0, 1, 1, 1, 1, 0, 0, 0]) 0 = some (.len283 3, 13) ∧
    reads (.litLen fixLL) (bits [1, 1, 0, 0, 0, 1, 0, 0, 1, 1, 1, 1, 1]) 0 = some (.len284 31, 13) ∧
    reads (.litLen fixLL) (bits [1, 1, 0, 0, 0, 1, 0, 1]) 0 = some (.len285, 8) ∧
    reads (.litLen fixLL) (bits [1, 1, 0, 0, 0, 1, 1, 0]) 0 = some (.llReserved286, 8) ∧
    reads (.litLen fixLL) (bits [1, 1, 0, 0, 0, 1, 1, 1]) 0 = some (.llReserved287, 8) := by decide +kernel

/-- Distance symbols 0 to 15: five code bits, first bit first, then the extra field. -/
theorem test_decode_distances1 :
    reads (.dist fixD) (bits [0, 0, 0, 0, 0]) 0 = some (.dist0, 5) ∧
    reads (.dist fixD) (bits [0, 0, 0, 0, 1]) 0 = some (.dist1, 5) ∧
    reads (.dist fixD) (bits [0, 0, 0, 1, 0]) 0 = some (.dist2, 5) ∧
    reads (.dist fixD) (bits [0, 0, 0, 1, 1]) 0 = some (.dist3, 5) ∧
    reads (.dist fixD) (bits [0, 0, 1, 0, 0, 1]) 0 = some (.dist4 1, 6) ∧
    reads (.dist fixD) (bits [0, 0, 1, 0, 1, 0]) 0 = some (.dist5 0, 6) ∧
    reads (.dist fixD) (bits [0, 0, 1, 1, 0, 1, 0]) 0 = some (.dist6 1, 7) ∧
    reads (.dist fixD) (bits [0, 0, 1, 1, 1, 0, 1]) 0 = some (.dist7 2, 7) ∧
    reads (.dist fixD) (bits [0, 1, 0, 0, 0, 1, 0, 0]) 0 = some (.dist8 1, 8) ∧
    reads (.dist fixD) (bits [0, 1, 0, 0, 1, 0, 0, 1]) 0 = some (.dist9 4, 8) ∧
    reads (.dist fixD) (bits [0, 1, 0, 1, 0, 1, 0, 0, 0]) 0 = some (.dist10 1, 9) ∧
    reads (.dist fixD) (bits [0, 1, 0, 1, 1, 0, 0, 0, 1]) 0 = some (.dist11 8, 9) ∧
    reads (.dist fixD) (bits [0, 1, 1, 0, 0, 1, 0, 0, 0, 0]) 0 = some (.dist12 1, 10) ∧
    reads (.dist fixD) (bits [0, 1, 1, 0, 1, 0, 0, 0, 0, 1]) 0 = some (.dist13 16, 10) ∧
    reads (.dist fixD) (bits [0, 1, 1, 1, 0, 1, 1, 0, 0, 0, 0]) 0 = some (.dist14 3, 11) ∧
    reads (.dist fixD) (bits [0, 1, 1, 1, 1, 0, 0, 0, 0, 0, 1]) 0 = some (.dist15 32, 11) := by decide +kernel

/-- Distance symbols 16 to 31. -/
theorem test_decode_distances2 :
    reads (.dist fixD) (bits ([1, 0, 0, 0, 0] ++ [1, 0, 0, 0, 0, 0, 0])) 0 = some (.dist16 1, 12) ∧
    reads (.dist fixD) (bits ([1, 0, 0, 0, 1] ++ [0, 0, 0, 0, 0, 0, 1])) 0 = some (.dist17 64, 12) ∧
    reads (.dist fixD) (bits ([1, 0, 0, 1, 0] ++ [1, 0, 0, 0, 0, 0, 0, 0])) 0 = some (.dist18 1, 13) ∧
    reads (.dist fixD) (bits ([1, 0, 0, 1, 1] ++ [0, 0, 0, 0, 0, 0, 0, 1])) 0 = some (.dist19 128, 13) ∧
    reads (.dist fixD) (bits ([1, 0, 1, 0, 0] ++ [1, 0, 0, 0, 0, 0, 0, 0, 0])) 0 = some (.dist20 1, 14) ∧
    reads (.dist fixD) (bits ([1, 0, 1, 0, 1] ++ [0, 0, 0, 0, 0, 0, 0, 0, 1])) 0 = some (.dist21 256, 14) ∧
    reads (.dist fixD) (bits ([1, 0, 1, 1, 0] ++ [1, 0, 0, 0, 0, 0, 0, 0, 0, 0])) 0 = some (.dist22 1, 15) ∧
    reads (.dist fixD) (bits ([1, 0, 1, 1, 1] ++ [0, 0, 0, 0, 0, 0, 0, 0, 0, 1])) 0 = some (.dist23 512, 15) ∧
    reads (.dist fixD) (bits ([1, 1, 0, 0, 0] ++ [1, 0, 0, 0, 0, 0, 0, 0, 0, 0, 0])) 0 = some (.dist24 1, 16) ∧
    reads (.dist fixD) (bits ([1, 1, 0, 0, 1] ++ [0, 0, 0, 0, 0, 0, 0, 0, 0, 0, 1])) 0 = some (.dist25 1024, 16) ∧
    reads (.dist fixD) (bits ([1, 1, 0, 1, 0] ++ [1, 0, 0, 0, 0, 0, 0, 0, 0, 0, 0, 0])) 0 = some (.dist26 1, 17) ∧
    reads (.dist fixD) (bits ([1, 1, 0, 1, 1] ++ [0, 0, 0, 0, 0, 0, 0, 0, 0, 0, 0, 1])) 0 = some (.dist27 2048, 17) ∧
    reads (.dist fixD) (bits ([1, 1, 1, 0, 0] ++ [1, 0, 0, 0, 0, 0, 0, 0, 0, 0, 0, 0, 0])) 0 = some (.dist28 1, 18) ∧
    reads (.dist fixD) (bits ([1, 1, 1, 0, 1] ++ [0, 0, 0, 0, 0, 0, 0, 0, 0, 0, 0, 0, 1])) 0 = some (.dist29 4096, 18) ∧
    reads (.dist fixD) (bits [1, 1, 1, 1, 0]) 0 = some (.dReserved30, 5) ∧
    reads (.dist fixD) (bits [1, 1, 1, 1, 1]) 0 = some (.dReserved31, 5) := by decide +kernel

/-- A code-length tree in which symbols 0, 16, 17, 18 have the codes `00`, `01`, `10`, `11`. -/
def clTree : Tree := tree ([2] ++ List.replicate 15 0 ++ [2, 2, 2])

/-- Code-length symbols with their repeat fields (30_encoding R102); a repeat without a previous length is decoded
before its field is read (43_inflate R232). -/
theorem test_decode_codeLengths :
    reads (.codeLen clTree false) (bits [0, 0]) 0 = some (.clLen 0, 2) ∧
    reads (.codeLen clTree false) (bits [0, 1, 1, 0]) 0 = some (.cl16 1, 4) ∧
    reads (.codeLen clTree false) (bits [1, 0, 0, 0, 1]) 0 = some (.cl17 4, 5) ∧
    reads (.codeLen clTree true) (bits [1, 1, 0, 0, 0, 0, 0, 0, 1]) 0 = some (.cl18 64, 9) ∧
    reads (.codeLen clTree true) (bits [0, 1]) 0 = some (.cl16 0, 2) := by decide +kernel

/-- The dynamic header of 44_deflate R278: `HLIT` 264, `HDIST` 3, `HCLEN` 18 and its code-length-code lengths. -/
theorem test_decode_dynhdr :
    reads .dynHeader (.ofBytes (bytes [0x3D, 0xC2, 0x41, 0x11, 0x00, 0x00, 0x00, 0x82, 0xB0])) 3 =
      some (.dynhdr 7 2 14 [0, 4, 2, 4, 0, 0, 0, 0, 0, 0, 0, 0, 0, 2, 0, 2, 0, 3], 71) := by decide +kernel

/-- A zlib header, and the trailer behind `78 01 4B 04 00` (95_test_vectors 2.7). -/
theorem test_decode_zlib :
    reads .zHeader (.ofBytes (bytes [0x78, 0x01])) 0 = some (.zhdr 0x78 0x01, 0) ∧
    reads (.trailer .afterStream) (.ofBytes (bytes [0x78, 0x01, 0x4B, 0x04, 0, 0, 0x62, 0, 0x62, 0x99, 0x99])) 34 =
      some (.ztrailer 0x00620062, 34) ∧
    reads (.trailer .last4) (.ofBytes (bytes [0x78, 0x01, 0x4B, 0x04, 0, 0, 0x62, 0, 0x62])) 34 =
      some (.ztrailer 0x00620062, 34) := by decide +kernel

/-- Filter-type bytes (30_encoding R105). -/
theorem test_decode_filterTypes :
    [0, 1, 2, 3, 4, 5, 255].map ftInstr =
      [.ftNone, .ftSub, .ftUp, .ftAverage, .ftPaeth, .ftIllegal 5, .ftIllegal 255] := by decide

/-- The `IHDR` record of 95_test_vectors 2.9, its length and CRC most significant byte first. -/
def ihdr : List Nat :=
  [0, 0, 0, 13, 0x49, 0x48, 0x44, 0x52, 0, 0, 0, 1, 0, 0, 0, 1, 8, 0, 0, 0, 0, 0x3A, 0x7E, 0x9B, 0x55]

theorem test_decode_chunk :
    reads .chunk (.ofBytes (bytes ihdr)) 0 = some (.chunk 13 0x49484452 0x3A7E9B55, 0) := by decide +kernel

/-- A cut stream stops the decoder where the spec says (95_test_vectors 2.5, 2.7, 2.9). -/
theorem test_decode_stops :
    stops .header (.ofBytes []) 0 = some ⟨.endOfInput, 0, 0⟩ ∧
    stops .dynHeader (.ofBytes (bytes [0x3D, 0xC2])) 3 = some ⟨.endOfInput, 3, 3⟩ ∧
    stops .dynHeader (.ofBytes (bytes [0x3D, 0xC2, 0x41, 0x11, 0])) 3 = some ⟨.endOfInput, 17, 17⟩ ∧
    stops (.litLen fixLL) (.ofBytes (bytes [0x4B])) 3 = some ⟨.endOfInput, 8, 8⟩ ∧
    stops .stored (.ofBytes (bytes [1, 5, 0])) 3 = some ⟨.endOfInput, 8, 8⟩ ∧
    stops .zHeader (.ofBytes (bytes [0x78])) 0 = some ⟨.zlibTooSmall, 0, 0⟩ ∧
    stops .chunk (.ofBytes (bytes (ihdr.take 11))) 0 = some ⟨.endOfInput, 88, 0⟩ ∧
    stops .chunk (.ofBytes (bytes (ihdr.take 24))) 0 = some ⟨.endOfInput, 192, 0⟩ := by decide +kernel

/-- An empty slot faults, or is symbol 0 under the other policy (41_huffman R162, 95_test_vectors 2.2). -/
theorem test_decode_emptySlot :
    stops (.litLen (tree [1, 0])) (.ofBytes [1]) 0 = some ⟨.huffEmptySlot, 1, 1⟩ ∧
    (decode .symbol0 (.litLen (tree [1, 0])) (.ofBytes [1]) 0).toOption = some (.lit 0, 1) := by decide +kernel

/-- The encoder on the same words: the whole fixed block `4B 04 00` (95_test_vectors 2.1), and a distance with extra
bits. -/
theorem test_encode :
    packBits (encode .fixed (.blockFixed true) ++ encode .fixed (.lit 0x61) ++ encode .fixed .endOfBlock) =
      [0x4B, 0x04, 0x00] ∧
    encode .fixed (.dist24 1) = ([1, 1, 0, 0, 0, 1] ++ List.replicate 10 0).map (· == 1) := by decide +kernel

/-- Words of the opcode table with its bit numbering: the leftmost pattern bit is the first stream bit. -/
theorem test_decode_tableWords :
    decodeTableWord 32 0x42 = some .hdec ∧ decodeTableWord 8 0x13 = some (.len265 1) ∧
    decodeTableWord 8 0xC5 = some .len285 ∧ decodeTableWord 16 0xC400 = some (.dist24 1) ∧
    decodeTableWord 8 0x03 = some .ftAverage ∧ decodeTableWord 16 0x7801 = some (.zhdr 0x78 0x01) ∧
    decodeTableWord 32 0x110 = none := by decide +kernel

/-! ## One step: the results spec/ works out -/

/-- `HBL` and its image (48_commands R390), and an empty tree (95_test_vectors 2.10). -/
theorem test_hbl :
    see (exec .hbl (idle [2, 1, 3, 3] 24 [15])) (fun t => (t.dlen, t.res0, t.treev, out 24 t)) =
      some (24, 4, true, [2, 0, 0, 0, 6, 0, 7, 0] ++ [1, 0, 5, 0, 0, 0, 6, 0, 2, 0, 3, 0, 255, 255, 255, 255]) ∧
    see (exec .hbl (idle [0, 0] 12 [15])) (fun t => (t.err, out 12 t)) =
      some (0, [0, 0, 0, 0] ++ List.replicate 8 255) := by decide +kernel

/-- Faults of `HBL` (95_test_vectors 2.10). -/
theorem test_hbl_faults :
    [exec .hbl (idle [1, 1] 11 [15]), exec .hbl (idle [1, 1] 0 [0]), exec .hbl (idle [1, 1] 0 [16]),
      exec .hbl (idle [3, 3] 0 [2]), exec .hbl (idle [] 0 [15]), exec .hbl (idle [1, 1, 1] 0 [15]),
      exec .hbl (idle [2, 0] 0 [15]), exec .hbl (idle [2, 2, 2, 2, 1] 0 [15])].map (see · fault) =
    [some (83, 0), some (200, 5), some (200, 5), some (200, 0), some (200, 1), some (55, 2), some (55, 0),
      some (55, 4)] := by decide +kernel

/-- The six frequencies of 95_test_vectors 2.3, in memory. -/
def powers : List Nat := [1, 0, 0, 0, 2, 0, 0, 0, 4, 0, 0, 0, 8, 0, 0, 0, 16, 0, 0, 0, 32, 0, 0, 0]

/-- `HBF` with a length limit of 3 (95_test_vectors 2.3): lengths, codes, table. -/
theorem test_hbf :
    see (exec .hbf (idle powers 64 [3, 2, 6])) (fun t => (t.dlen, t.res0, t.treev, out 42 t)) =
      some (42, 6, true, [3, 3, 3, 3, 2, 2] ++ [4, 0, 5, 0, 6, 0, 7, 0, 0, 0, 1, 0] ++
        [10, 0, 7, 0, 8, 0, 9, 0, 0, 0, 1, 0, 2, 0, 3, 0, 4, 0, 5, 0, 255, 255, 255, 255]) := by decide +kernel

/-- Faults of `HBF` (95_test_vectors 2.3). -/
theorem test_hbf_faults :
    [exec .hbf (idle powers 64 [2, 2, 6]), exec .hbf (idle powers 64 [3, 1, 6]), exec .hbf (idle powers 64 [3, 7, 6]),
      exec .hbf (idle powers 64 [3, 2, 289]), exec .hbf (idle powers 64 [3, 2, 5]),
      exec .hbf (idle powers 64 [16, 2, 6]), exec .hbf (idle powers 41 [3, 2, 6])].map (see · fault) =
    [some (200, 5), some (200, 6), some (200, 6), some (200, 7), some (200, 1), some (200, 5), some (83, 0)] := by
  decide +kernel

/-- A block whose slot `U` holds the tree of lengths 2, 1, 3, 3, with the input byte `1D` (48_commands R390). -/
def decoding (k : Nat) : State := { idle [0x1D] 0 [k] with u := tree [2, 1, 3, 3], treev := true }

/-- `HDEC` (48_commands R390), and its two faults (95_test_vectors 2.2, 2.10). -/
theorem test_hdec :
    [decoding 0, decoding 2, decoding 5].map (fun s => see (exec .hdec s) fun t => (t.res0.toNat, t.bp.toNat)) =
      [some (0, 2), some (3, 5), some (1, 6)] ∧
    see (exec .hdec (decoding 8)) fault = some (10, 8) ∧ see (exec .hdec State.reset) fault = some (204, 0) := by
  decide +kernel

/-- `CRC32` of "123456789" (95_test_vectors 2.9) and `ADLER32` of "abc" (2.7). -/
theorem test_checksums :
    see (exec .crc32 (idle [0x31, 0x32, 0x33, 0x34, 0x35, 0x36, 0x37, 0x38, 0x39] 0 [])) (·.res0) = some 0xCBF43926 ∧
    see (exec .adler32 (idle [0x61, 0x62, 0x63] 0 [])) (·.res0) = some 0x024D0127 := by decide +kernel

/-- The `IHDR` record checks, and with one changed byte does not (95_test_vectors 2.9). -/
theorem test_chunk :
    see (exec (.chunk 13 0x49484452 0x3A7E9B55) { idle ihdr 0 [] with engine := .chunk }) (fun t => (t.res0, fault t)) =
      some (0x3A7E9B55, 0, 0) ∧
    see (exec (.chunk 13 0x49484452 0x3A7E9B55) { idle (ihdr.set 20 1) 0 [] with engine := .chunk }) fault =
      some (57, 21) := by decide +kernel

/-- `DEFLATE` of "abc" in mode `STORED`, and one byte short (95_test_vectors 2.6). -/
theorem test_deflate_stored :
    see (exec .deflate { idle [0x61, 0x62, 0x63] 8 [] with ctrl := 0x104 })
      (fun t => (t.dlen, t.wbp.toNat, out 8 t)) =
      some (8, 64, [0x01, 0x03, 0x00, 0xFC, 0xFF, 0x61, 0x62, 0x63]) ∧
    see (exec .deflate { idle [0x61, 0x62, 0x63] 7 [] with ctrl := 0x104 }) (fun t => (fault t, t.wbp.toNat)) =
      some ((83, 7), 56) := by decide +kernel

/-- The same with the reference matcher, in modes `FIXED` and `AUTO`: `4B 4C 4A 06 00` (95_test_vectors 2.6). -/
theorem test_deflate_fixed :
    [0x204, 0x004].map (fun c => see (exec .deflate
        { idle [0x61, 0x62, 0x63] 5 [] with ctrl := c, cfg := { Config.default with matcher := .reference } })
      (fun t => (t.dlen, t.wbp.toNat, out 5 t))) =
    [some (5, 34, [0x4B, 0x4C, 0x4A, 0x06, 0x00]), some (5, 34, [0x4B, 0x4C, 0x4A, 0x06, 0x00])] := by decide +kernel

/-- `ZLIBC` of ten zero bytes with the reference matcher (95_test_vectors 2.7). -/
theorem test_zlibc :
    see (exec .zlibc { idle (List.replicate 10 0) 10 [] with cfg := { Config.default with matcher := .reference } })
      (fun t => (t.dlen, t.res0, out 10 t)) =
    some (10, 0x000A0001, [0x78, 0x01, 0x63, 0x80, 0x03, 0x00, 0x00, 0x0A, 0x00, 0x01]) := by decide +kernel

/-- A decompression whose next element comes at bit 16 of the input, with "ab" already written. -/
def between (p : Phase) (dcap : Nat) : State :=
  let s := running false p 16 2 (idle [0, 0, 0, 0] dcap [])
  { s with mem := s.mem.writeBytes 0x200 (bytes [0x61, 0x62]) }

/-- A literal is written at the cursor, and does not fit at the capacity (43_inflate R237). -/
theorem test_lit :
    see (exec (.lit 0x63) (between (.symbols true) 3)) (fun t => (t.pos, out 3 t)) = some (3, [0x61, 0x62, 0x63]) ∧
    see (exec (.lit 0x63) (between (.symbols true) 2)) fault = some (83, 2) := by decide +kernel

/-- A match that overlaps itself repeats its bytes (43_inflate R240); too far back, and too long. -/
theorem test_match :
    see (exec .dist1 (between (.distance true 5) 7)) (fun t => (t.pos, out 7 t)) =
      some (7, [0x61, 0x62, 0x61, 0x62, 0x61, 0x62, 0x61]) ∧
    see (exec .dist2 (between (.distance true 5) 7)) fault = some (52, 16) ∧
    see (exec .dist1 (between (.distance true 5) 6)) fault = some (83, 2) := by decide +kernel

/-- Symbol 284 with extra 31 and symbol 285 are both 258 (43_inflate R239). -/
theorem test_lengths :
    [exec .len257, exec (.len284 31), exec .len285].map (fun f =>
      see (f (between (.symbols true) 9)) State.pendingLength) = [some 3, some 258, some 258] := by decide +kernel

/-- A stored block is copied whole; its faults in their order (95_test_vectors 2.5). -/
theorem test_stored :
    see (exec (.stored 3 0xFFFC) (running false .stored 8 0 (idle [1, 3, 0, 0xFC, 0xFF, 0x61, 0x62, 0x63] 3 [])))
      (fun t => (t.pos, t.bp.toNat, out 3 t)) = some (3, 64, [0x61, 0x62, 0x63]) ∧
    see (exec (.stored 5 0) (running false .stored 8 0 (idle [1, 5, 0, 0, 0] 9 []))) fault = some (21, 8) ∧
    see (exec (.stored 5 0xFFFA) (running false .stored 8 0 (idle [1, 5, 0, 0xFA, 0xFF, 0x61, 0x62] 9 []))) fault =
      some (10, 8) ∧
    see (exec (.stored 3 0xFFFC) (running false .stored 8 0 (idle [1, 3, 0, 0xFC, 0xFF, 0x61, 0x62, 0x63] 2 [])))
      fault = some (83, 0) := by decide +kernel

/-- The malformed dynamic headers of 95_test_vectors 2.5, from the symbol that faults on. -/
theorem test_codeLengths :
    see (exec (.cl16 0) (running false (.codeLens 257 1 []) 30 0 (idle [] 0 []))) fault = some (54, 30) ∧
    see (exec (.cl18 127) (running false (.codeLens 257 1 (List.replicate 138 0)) 45 0 (idle [] 0 []))) fault =
      some (13, 45) ∧
    see (exec (.cl18 109) (running false (.codeLens 257 1 (List.replicate 138 0)) 45 0 (idle [] 0 []))) fault =
      some (64, 45) ∧
    see (exec (.dynhdr 0 0 0 [1, 1, 1, 0]) (running false .dynHeader 29 0 (idle [] 0 []))) fault = some (55, 18) := by
  decide +kernel

/-- A good header (45_zlib_adler R303, R304) starts the blocks at bit 16; then 95_test_vectors 2.7's bad check and bad
window, a method that R304 refuses, and a preset dictionary. -/
theorem test_zhdr :
    see (exec (.zhdr 0x08 0x1D) (running true .zHeader 0 0 (idle [] 0 []))) (fun t => (t.bp.toNat, fault t)) =
      some (16, 0, 0) ∧
    [exec (.zhdr 0x78 0x00), exec (.zhdr 0x79 0x18), exec (.zhdr 0x88 0x1C), exec (.zhdr 0x78 0x20)].map
      (fun f => see (f (running true .zHeader 0 0 (idle [] 0 []))) fault) =
      [some (24, 0), some (25, 0), some (25, 0), some (26, 0)] := by decide +kernel

/-- The trailer of "ab" (its Adler32 by 45_zlib_adler R300: sums 0xC4 and 0x126), and a wrong one. -/
theorem test_ztrailer :
    see (exec (.ztrailer 0x012600C4) (between .trailer 2)) (fun t => (t.res0, t.bp.toNat, t.done)) =
      some (0x012600C4, 48, true) ∧
    see (exec (.ztrailer 0) (between .trailer 2)) (fun t => (fault t, out 2 t)) = some ((58, 16), [0x61, 0x62]) := by
  decide +kernel

/-- The scanlines of the 4 x 2 image of 95_test_vectors 2.8: the second one, of type Up. -/
theorem test_unfilter_up :
    see (exec .ftUp { idle [1, 10, 10, 10, 10, 2, 2, 5, 1, 0xD2] 8 [4, 2, 8] with
        engine := .unfilter 1, work := { initialWork with lines := ⟨[], some (bytes [0x0A, 0x14, 0x1E, 0x28]), []⟩ } })
      (fun t => (t.dlen, (t.outBytes 4 4).map BitVec.toNat)) = some (8, [0x0C, 0x19, 0x1F, 0xFA]) := by decide +kernel

/-- One scanline in all five types (95_test_vectors 2.8), `bpp` = 24. -/
theorem test_filterLine :
    (List.range 5).map (fun t => (filterLine t 3 (bytes [12, 18, 33, 200, 5, 61, 71, 255, 0])
        (some (bytes [10, 20, 30, 40, 50, 60, 70, 80, 90]))).map BitVec.toNat) =
    [[12, 18, 33, 200, 5, 61, 71, 255, 0], [12, 18, 33, 188, 243, 28, 127, 250, 195],
      [2, 254, 3, 160, 211, 1, 1, 175, 166], [7, 8, 18, 174, 227, 15, 192, 213, 181],
      [2, 254, 3, 160, 211, 1, 127, 205, 166]] := by decide +kernel

/-- The 4 x 4 image of 95_test_vectors 2.8. -/
def image : List Nat := [0, 0, 0, 0, 1, 1, 1, 1, 2, 3, 4, 5, 2, 3, 4, 5]

/-- `FILTER` on it by strategies `MINSUM` and `ENTROPY`. -/
theorem test_filter :
    see (exec .filter { idle image 20 [4, 4, 8] with ctrl := 0x14 }) (out 20) =
      some [0, 0, 0, 0, 0, 1, 1, 0, 0, 0, 4, 1, 1, 1, 1, 2, 0, 0, 0, 0] ∧
    see (exec .filter { idle image 20 [4, 4, 8] with ctrl := 0x24 }) (out 20) =
      some [0, 0, 0, 0, 0, 0, 1, 1, 1, 1, 4, 1, 1, 1, 1, 2, 0, 0, 0, 0] := by decide +kernel

/-- The argument checks of `UNFILTER` (95_test_vectors 2.8). -/
theorem test_unfilter_faults :
    [[0, 1, 8], [1, 1, 0], [1, 1, 65], [1, 1, 0x208], [0x20000000, 1, 8], [0x10000, 0x10000, 8], [0x1FFFFFFF, 1, 8]].map
      (fun a => see (exec .unfilter (idle [0, 0] 9 a)) fault) =
    [some (200, 5), some (200, 7), some (200, 7), some (200, 7), some (92, 0), some (92, 0), some (200, 1)] := by
  decide +kernel

/-- Control, refusal and illegal words (95_test_vectors 2.10). -/
theorem test_control :
    see (exec .crc32 faulted) (fun t => (fault t, t.done, t.res0)) = some ((52, 23), true, 0) ∧
    see (faulted.writeCsr 1 0x99) fault = some (52, 23) ∧ see (exec .clrerr faulted) fault = some (0, 0) ∧
    see (State.reset.writeCsr 1 0x110) fault = some (201, 272) ∧
    see ({ State.reset with dlen := 7 }.writeCsr 1 0x02) (·.dlen) = some 0 ∧
    see ({ faulted with dlen := 7 }.writeCsr 1 0x99) (·.dlen) = some 7 := by decide +kernel

/-- The rows of 95_test_vectors 2.10 about regions: one shared byte, none, and the top of the address space. -/
theorem test_regions :
    see (exec .inflate { State.reset with src := 0x100, slen := 16, dst := 0x10F, dcap := 16 }) fault = some (202, 0) ∧
    see (exec .inflate { State.reset with src := 0x100, slen := 16, dst := 0x110, dcap := 16 }) fault = some (0, 0) ∧
    see (exec .crc32 { State.reset with src := 0xFFFFFFF0, slen := 17 }) fault = some (202, 0) ∧
    see (exec .crc32 { State.reset with src := 0xFFFFFFF0, slen := 16 }) fault = some (0, 0) := by decide +kernel

/-- A word of the opcode table placed after reset is the next instruction to run. -/
theorem test_withFetchWord :
    see (step (State.reset.withFetchWord 32 0x30)) (fun t => (t.done, t.res0)) = some (true, 0) ∧
    see (step (State.reset.withFetchWord 16 0x7801)) (fun t => t.bp.toNat) = some 16 := by decide +kernel

/-! ## Witnesses: states and operands that meet the hypotheses of each obligation, clause by clause -/

/-- A decompression before a fixed block, in the course of a run. -/
def started : State := running false .header 0 0 (idle [0x4B, 0x04, 0x00] 4 [])

theorem started_inv : started.Inv where
  mem := by decide
  saved := by decide
  ctrl := by decide
  treev := rfl
  err := .inl rfl
  errInfo := fun _ => rfl
  running := fun _ => ⟨rfl, rfl⟩
  engine := ⟨by decide, by decide⟩

/-- An `UNFILTER` before scanline `y` of an image of two 1-byte scanlines of type `t`. -/
def scanning (t y : Nat) : State := { idle [t, 5, t, 7] 2 [1, 2, 8] with engine := .unfilter y }

/-- A `CRCCHK` that is running while bytes of `[DST, DST + DCAP)` differ from when it started. -/
def checking (input : List Nat) : State := { idle input 4 [] with engine := .chunk, saved := [(0x201, 9)] }

theorem witness_ResetEventResets :
    State.reset.busy = false ∧ started.mem.wf = true ∧ ¬ started.inT 0x1FF ∧ ¬ started.inT 0x204 ∧
    (checking ihdr).engine = .chunk := by decide

theorem witness_StepKeepsInv : started.Inv ∧ ∃ t, step started = .next t := ⟨started_inv, _, rfl⟩

theorem witness_EngineNeverFaults : started.Inv ∧ started.busy = true := ⟨started_inv, rfl⟩

theorem witness_OutsideOutputUnchanged :
    (between (.symbols true) 3).mem.wf = true ∧ (∃ t, exec (.lit 0x63) (between (.symbols true) 3) = .next t) ∧
    ¬ (between (.symbols true) 3).inT 0x1FF ∧ ¬ (between (.symbols true) 3).inT 0x203 :=
  ⟨by decide, ⟨_, rfl⟩, by decide, by decide⟩

theorem witness_OutsideOutputUnchanged_input :
    (usesInputOnly .hdec = true ∧ ∃ t, exec .hdec (decoding 8) = .next t) ∧
    (checking []).engine = .chunk ∧ ∃ t, engineStep (checking []) = .next t := ⟨⟨rfl, _, rfl⟩, rfl, _, rfl⟩

theorem witness_OperandsKept : ∃ t, exec .hbl (idle [1, 1] 12 [15]) = .next t := ⟨_, rfl⟩

theorem witness_FirstFaultKept : Instr.crc32 ≠ .clrerr ∧ faulted.err ≠ 0 ∧ ∃ t, exec .crc32 faulted = .next t :=
  ⟨by decide, by decide, _, rfl⟩

theorem witness_UserSlotKept : Instr.hdec ≠ .hbl ∧ Instr.hdec ≠ .hbf ∧ ∃ t, exec .hdec (decoding 0) = .next t :=
  ⟨by decide, by decide, _, rfl⟩

theorem witness_EveryInstructionAnswers :
    isCommand .hdec = true ∧
    (isCommand .ftPaeth = false ∧ (scanning 4 1).regionsOk .st = true ∧ isScanline .ftPaeth = true ∧
      (scanning 4 1).scanlineOk = true) ∧
    (isCommand .endOfBlock = false ∧ started.regionsOk .st = true ∧ isScanline .endOfBlock = false) := by
  decide +kernel

theorem witness_NopCompletes : State.reset.busy = false := rfl

theorem witness_ClrerrCompletes : faulted.busy = false ∧ faulted.err ≠ 0 := by decide

theorem witness_RefusedWhileErr :
    ((commandUses .hdec).isSome = true ∧ faulted.busy = false ∧ faulted.err ≠ 0) ∧ decodeCommand 0x99 = none := by
  decide

theorem witness_CommandWriteStarts :
    State.reset.busy = false ∧ decodeCommand 0x42 = some .hdec ∧ started.busy = true := by decide

theorem witness_IllegalWordFaults :
    decodeCommand 0x02 = none ∧ decodeCommand 0x110 = none ∧ State.reset.ready := ⟨by decide, by decide, by decide, rfl⟩

/-- Regions that share their last and first byte. -/
def meeting : State := { State.reset with src := 0x100, slen := 16, dst := 0x10F, dcap := 16 }

theorem witness_RegionCheck :
    (commandUses .inflate = some .st ∧ meeting.ready ∧ meeting.regionsOk .st = false ∧ meeting.mem.wf = true) ∧
    (commandUses .crc32 = some .s ∧ ({ meeting with src := 0xFFFFFFF0, slen := 17 } : State).ready ∧
      ({ meeting with src := 0xFFFFFFF0, slen := 17 } : State).regionsOk .s = false) ∧
    ({ meeting with src := 0xFFFFFFF0 } : State).regionsOk .s = true ∧
    ({ meeting with dst := 0x110 } : State).regionsOk .st = true ∧
    ({ meeting with slen := 0, dst := 0x100 } : State).regionsOk .st = true := by
  unfold State.ready; decide

theorem witness_RaiseRecords :
    (⟨.huffTreeMalformed, 2, some .ll⟩ : Failure).slot = some .ll ∧
    (⟨.huffTreeMalformed, 2, some .d⟩ : Failure).slot = some .d ∧
    (⟨.huffTreeMalformed, 2, some .cl⟩ : Failure).slot = some .cl := ⟨rfl, rfl, rfl⟩

theorem witness_RaiseMemory : started.mem.wf = true ∧ ¬ started.inT 0x1FF ∧ started.inT 0x203 := by decide

theorem witness_WrittenBitsReadBack :
    (437 < 2 ^ 16 ∧ (Source.ofBytes (bytes [0xB5, 0x01])).holds 0 (fieldBits 16 437)) ∧
    fixD.built ∧ fixD.coded 31 ∧ (bits [0, 1, 1, 1, 1, 1]).holds 1 (fixD.codeOf 31) :=
  ⟨⟨by decide, by unfold Source.holds; decide +kernel⟩, Tree.built_fixD, by unfold Tree.coded; decide,
    by unfold Source.holds; decide +kernel⟩

theorem witness_HblBuilds :
    (∀ s ∈ [idle [] 0 [15], idle (List.replicate 289 0) 0 [15], idle [1, 1] 0 [0], idle [1, 1] 0 [16],
        idle [3, 3] 0 [2], idle [1, 1] 11 [15], idle [1, 1, 1] 0 [15], idle [1, 1] 12 [15], idle [2, 2] 0 [2],
        idle (List.replicate 288 0) 0 [1]],
      s.busy = false ∧ s.err = 0 ∧ s.regionsOk .st = true ∧ s.mem.wf = true) ∧
    (∃ b ∈ (idle [3, 3] 0 [2]).input, (idle [3, 3] 0 [2]).arg0.toNat < b.toNat) ∧
    (∀ b ∈ (idle [2, 2] 0 [2]).input, b.toNat ≤ (idle [2, 2] 0 [2]).arg0.toNat) ∧
    (buildFromLengths ((idle [1, 1, 1] 0 [15]).input.map BitVec.toNat) 15).toOption = none ∧
    (buildFromLengths ((idle [1, 1] 12 [15]).input.map BitVec.toNat) 15).toOption.isSome = true := by decide +kernel

theorem witness_HblBuilds_image : fixD.built := Tree.built_fixD

/-- Length sets of 41_huffman R157, of both kinds; the codes and the number of decision nodes of the first two rows. -/
theorem witness_HblBuilds_trees :
    (∀ l ∈ [3, 3, 3, 3, 3, 2, 4, 4], l ≤ 15) ∧
    (buildFromLengths [3, 3, 3, 3, 3, 2, 4, 4] 15).toOption.isSome = true ∧
    (buildFromLengths [2, 2, 2, 2, 1] 15).toOption = none ∧ (buildFromLengths [2, 0] 15).toOption = none ∧
    (List.range 8).map (canonicalCode [3, 3, 3, 3, 3, 2, 4, 4]) = [2, 3, 4, 5, 6, 0, 14, 15] ∧
    (decisionNodes [3, 3, 3, 3, 3, 2, 4, 4] 8).length = 7 ∧
    decisionNodes [2, 1, 3, 3] 4 = [[], [true], [true, true]] ∧
    (decisionNodes [2, 1, 3, 3] 4)[1]? = some [true] ∧ kraftSum [2, 1, 3, 3] 15 = 2 ^ 15 := by decide +kernel

theorem witness_HbfBuilds :
    (∀ s ∈ [idle powers 0 [3, 2, 289], idle powers 0 [3, 1, 6], idle powers 0 [3, 7, 6], idle powers 0 [0, 2, 6],
        idle powers 0 [16, 2, 6], idle powers 0 [3, 2, 5], idle powers 0 [2, 2, 6], idle powers 41 [3, 2, 6],
        idle powers 42 [3, 2, 6]],
      s.busy = false ∧ s.err = 0 ∧ s.regionsOk .st = true ∧ s.mem.wf = true) ∧
    trimCodes ((idle powers 42 [3, 2, 6]).freqInput 6) 2 6 = 6 ∧
    (buildFromFrequencies ((idle powers 42 [3, 2, 6]).freqInput 6) 2 6 3).toOption.isSome = true := by decide +kernel

/-- Frequencies with no, one and several present symbols (95_test_vectors 2.3), and other lengths that are short enough:
three bits for each of the six. -/
theorem witness_HbfBuilds_lengths :
    (2 ≤ 2 ∧ 2 ≤ 6 ∧ 1 ≤ 3) ∧ trimCodes [0, 0, 0, 0, 0, 0] 2 6 = 2 ∧ trimCodes [0, 3, 0, 0, 0, 0] 2 6 = 2 ∧
    (List.range 2).filter (fun s => [0, 0, 0, 0, 0, 0].getD s 0 ≠ 0) = [] ∧
    (List.range 2).filter (fun s => [0, 3, 0, 0, 0, 0].getD s 0 ≠ 0) = [1] ∧
    trimCodes [1, 2, 4, 8, 16, 32] 2 6 = 6 ∧ 6 ≤ 2 ^ 3 ∧
    2 ≤ ((List.range 6).filter fun s => [1, 2, 4, 8, 16, 32].getD s 0 ≠ 0).length ∧
    (((List.range 6).filter fun s => [1, 2, 4, 8, 16, 32].getD s 0 ≠ 0).map fun _ => 2 ^ (3 - 3)).sum ≤ 2 ^ 3 := by
  decide +kernel

theorem witness_HdecDecodes :
    (State.reset.ready ∧ State.reset.regionsOk .s = true ∧ State.reset.treev = false) ∧
    ((decoding 0).ready ∧ (decoding 0).regionsOk .s = true ∧ (decoding 0).treev = true) ∧
    (decodeSymbol .fault (decoding 0).source (decoding 0).u 0).toOption = some (0, 2) ∧
    (decodeSymbol .fault (decoding 8).source (decoding 8).u 8).toOption = none := by
  unfold State.ready; decide +kernel

theorem witness_DecompressionStarts :
    (idle [3, 0] 0 []).ready ∧ (idle [3, 0] 0 []).regionsOk .st = true := by unfold State.ready; decide

theorem witness_BlockHeaders : started.regionsOk .st = true := by decide

theorem witness_StoredBlockCopies :
    started.regionsOk .st = true ∧ started.mem.wf = true ∧ 5 + 0 ≠ 65535 ∧ 3 + 65532 = 65535 ∧
    (let s := running false .stored 8 0 (idle [1, 3, 0, 0xFC, 0xFF, 1, 2, 3] 3 [])
     s.regionsOk .st = true ∧ s.mem.wf = true ∧ s.bp.toNat / 8 + 4 + 3 = s.slen.toNat ∧
      s.pos.toNat + 3 = s.dcap.toNat) ∧
    (let s := running false .stored 8 0 (idle [1, 3, 0, 0xFC, 0xFF, 1, 2, 3] 2 [])
     s.regionsOk .st = true ∧ s.bp.toNat / 8 + 4 + 3 ≤ s.slen.toNat ∧ s.dcap.toNat < s.pos.toNat + 3) ∧
    (let s := running false .stored 8 0 (idle [1, 3, 0, 0xFC, 0xFF, 1, 2] 3 [])
     s.regionsOk .st = true ∧ s.slen.toNat < s.bp.toNat / 8 + 4 + 3) := by decide

theorem witness_LiteralWrites :
    (between (.symbols true) 3).regionsOk .st = true ∧ (between (.symbols true) 3).mem.wf = true ∧
    (between (.symbols true) 3).pos.toNat + 1 ≤ (between (.symbols true) 3).dcap.toNat ∧
    (between (.symbols true) 2).regionsOk .st = true ∧
    (between (.symbols true) 2).dcap.toNat < (between (.symbols true) 2).pos.toNat + 1 := by decide

theorem witness_EndOfBlock :
    (∀ s ∈ [started, { started with bfinal := true }, { started with bfinal := true, engine := .inflate true .header },
        { started with bfinal := true, engine := .inflate true .header, ctrl := 5 }], s.regionsOk .st = true) ∧
    started.bfinal = false ∧ started.zlib = false ∧ started.ignoreAdler = false ∧
    ({ started with ctrl := 5 } : State).ignoreAdler = true ∧
    ({ started with engine := .inflate true .header } : State).zlib = true := by decide

theorem witness_LengthSymbols : (between (.symbols true) 3).regionsOk .st = true := by decide

theorem witness_DistanceSymbols :
    (∀ s ∈ [between (.distance true 5) 7, between (.distance true 5) 6], s.regionsOk .st = true) ∧
    (between (.distance true 5) 7).pos.toNat = 2 ∧
    2 + (between (.distance true 5) 7).pendingLength = (between (.distance true 5) 7).dcap.toNat ∧
    (between (.distance true 5) 6).dcap.toNat < 2 + (between (.distance true 5) 6).pendingLength := by decide

theorem witness_MatchCopyRepeats :
    (between (.distance true 5) 7).mem.wf = true ∧ 1 ≤ 2 ∧ 2 ≤ (between (.distance true 5) 7).pos.toNat ∧
    (between (.distance true 5) 7).pos.toNat + 5 ≤ (between (.distance true 5) 7).dcap.toNat := by decide

theorem witness_CodeLengthSymbols :
    (between (.codeLens 257 1 [7]) 3).regionsOk .st = true ∧
    (between (.codeLens 257 1 [7]) 3).engine = .inflate false (.codeLens 257 1 [7]) ∧
    [7].length + (11 + 127) < 257 + 1 ∧ [7].getLast? = some 7 ∧
    257 + 1 < (List.replicate 138 7).length + (11 + 127) ∧ List.replicate 138 7 ≠ [] ∧
    257 + 1 < (List.replicate 256 7).length + (3 + 0) := by decide +kernel

theorem witness_LastCodeLengthBuildsTrees :
    (between (.codeLens 257 1 (List.replicate 257 7)) 3).regionsOk .st = true ∧
    (List.replicate 257 7).length + 1 = 257 + 1 ∧ (List.replicate 255 7).getLast? = some 7 ∧
    (List.replicate 255 7).length + (3 + 0) = 257 + 1 ∧ (List.replicate 247 7).length + (11 + 0) = 257 + 1 := by
  decide +kernel

/-- Code lengths with an end code that build both trees; that build no literal/length tree; no distance tree. -/
theorem witness_LastCodeLengthBuildsTrees_ends :
    let good := List.replicate 256 0 ++ [1] ++ List.replicate 31 0
    (good.getD 256 0 ≠ 0 ∧ (buildFromLengths good 15).toOption.isSome = true ∧
      (buildFromLengths (List.replicate 32 0) 15).toOption.isSome = true) ∧
    (buildFromLengths ([1, 1] ++ good.drop 2) 15).toOption = none ∧
    (buildFromLengths ([1, 1, 1] ++ List.replicate 29 0) 15).toOption = none ∧
    (List.replicate 288 0).getD 256 0 = 0 := by decide +kernel

theorem witness_DynamicHeader :
    (between .dynHeader 3).regionsOk .st = true ∧ (buildFromLengths (clLengths [1, 1, 1, 0]) 7).toOption = none ∧
    (buildFromLengths (clLengths [0, 0, 1, 1]) 7).toOption.isSome = true := by decide +kernel

theorem witness_ZlibHeaderChecks :
    (bits [1]).len < 2 ∧ 2 ≤ (Source.ofBytes [0x78, 0x01]).len ∧ (running true .zHeader 0 0 started).regionsOk .st = true ∧
    (0x78 * 256 + 0x00) % 31 ≠ 0 ∧ (0x78 * 256 + 0x01) % 31 = 0 ∧
    ((0x79 : Byte).extractLsb' 0 4 ≠ 8 ∧ (0x79 * 256 + 0x18) % 31 = 0) ∧
    (7 < (0x88 : Byte).extractLsb' 4 4 ∧ (0x88 * 256 + 0x1C) % 31 = 0) ∧
    ((0x20 : Byte).extractLsb' 5 1 = 1 ∧ (0x78 * 256 + 0x20) % 31 = 0) ∧
    ((0x78 : Byte).extractLsb' 0 4 = 8 ∧ (0x78 : Byte).extractLsb' 4 4 ≤ 7 ∧ (0x01 : Byte).extractLsb' 5 1 = 0) := by
  decide +kernel

theorem witness_ZlibTrailer :
    (between .trailer 2).regionsOk .st = true ∧
    adlerValue (adler32 ((between .trailer 2).outBytes 0 (between .trailer 2).pos.toNat)) = 0x012600C4 ∧
    (between .trailer 2).err = 0 ∧ (Source.ofBytes [1, 2, 3]).len < trailerPos .afterStream 3 0 + 4 := by decide +kernel

theorem witness_GeometryChecks :
    (∀ a ∈ [[0, 1, 8], [1, 1, 0], [1, 1, 65], [1, 1, 0x208], [0x20000000, 1, 8], [0x10000, 0x10000, 8],
        [0x1FFFFFFF, 1, 8], [1, 3, 8], [1, 2, 8], [1, 0, 8]],
      (idle [0, 5, 0, 7] 1 a).busy = false ∧ (idle [0, 5, 0, 7] 1 a).err = 0 ∧
      (idle [0, 5, 0, 7] 1 a).regionsOk .st = true) ∧
    (idle [0, 5, 0, 7] 1 [1, 2, 8]).dcap.toNat < (idle [0, 5, 0, 7] 1 [1, 2, 8]).rawSize ∧
    (idle [0, 5, 0, 7] 2 [1, 2, 8]).geometryFault 4 2 = none ∧ (idle [0, 5, 0, 7] 2 [1, 2, 8]).arg1 ≠ 0 ∧
    (idle [] 0 [1, 0, 8]).geometryFault 0 0 = none := by decide +kernel

theorem witness_ScanlinesReconstruct :
    (∀ y ∈ [0, 1], (scanning 4 y).scanlineOk = true ∧ (scanning 4 y).mem.wf = true ∧
      (scanning 4 y).regionsOk .st = true) ∧
    (scanning 4 0).scanline + 1 < (scanning 4 0).arg1.toNat ∧
    (scanning 4 1).arg1.toNat ≤ (scanning 4 1).scanline + 1 := by decide +kernel

theorem witness_UnfilterUndoesFilter : 4 ≤ 4 ∧ 0 ≤ 4 ∧ 1 ≤ 1 ∧ 1 ≤ 8 := by decide

theorem witness_FilterZeroCopies :
    (idle image 20 [4, 4, 8]).ready ∧ (idle image 20 [4, 4, 8]).regionsOk .st = true ∧
    (idle image 20 [4, 4, 8]).mem.wf = true ∧
    (idle image 20 [4, 4, 8]).geometryFault (idle image 20 [4, 4, 8]).rawSize (idle image 20 [4, 4, 8]).filtSize = none ∧
    (idle image 20 [4, 4, 8]).strategy = .zero := by unfold State.ready; decide +kernel

/-- The same image for each strategy that is not `ZERO`. -/
theorem witness_FilterWritesChosenTypes :
    ∀ e ∈ [(0x14, Strategy.minSum), (0x24, .entropy), (0x34, .bruteForce)],
      let s := { idle image 20 [4, 4, 8] with ctrl := e.1 }
      s.busy = false ∧ s.err = 0 ∧ s.regionsOk .st = true ∧ s.mem.wf = true ∧
      s.geometryFault s.rawSize s.filtSize = none ∧ s.strategy = e.2 ∧ 3 < s.arg1.toNat ∧ 3 < s.lineBytes := by
  decide +kernel

theorem witness_ChooseTypeIsFirstMinimum :
    Config.default.entropyFn = .exact ∧ ({ Config.default with entropyFn := .approximate } : Config).entropyFn = .approximate :=
  ⟨rfl, rfl⟩

/-- One block of three bytes, stored. -/
def storing (dcap : Nat) : State :=
  { idle [0x61, 0x62, 0x63] dcap [] with ctrl := 0x104, cfg := { Config.default with blockSize := 3 } }

theorem witness_DeflateStores :
    (storing 8).ready ∧ (storing 8).regionsOk .st = true ∧ (storing 8).mem.wf = true ∧ (storing 8).btmode = .stored ∧
    1 ≤ (storing 8).cfg.blockSize ∧ (storing 8).slen.toNat ≤ (storing 8).cfg.blockSize ∧
    (storing 8).slen.toNat ≤ 65535 ∧ (storing 8).slen.toNat + 5 ≤ (storing 8).dcap.toNat := by
  unfold State.ready; decide +kernel

/-- An empty fixed block, ten bits, with two bytes of room and with one. -/
theorem witness_DeflateEmits :
    (deflate Config.default 0 0 .fixed [] 0 initialWork).toOption.map (·.1.length) = some 10 ∧ 10 ≤ 8 * 2 ∧ 8 * 1 < 10 := by
  decide +kernel

theorem witness_DeflateEmits_state :
    ∀ d ∈ [1, 2], let s := { idle [] d [] with ctrl := 0x204 }
      s.busy = false ∧ s.err = 0 ∧ s.regionsOk .st = true ∧ s.mem.wf = true ∧ s.btmode = .fixed ∧ s.input = [] ∧
        s.dcap.toNat = d := by decide +kernel

/-- Five bytes in stored blocks of two: three blocks. -/
theorem witness_DeflateEmits_pass :
    let c := { Config.default with blockSize := 2 }
    (deflate c 0 0 .stored [1, 2, 3, 4, 5] 0 initialWork).toOption.isSome = true ∧ 1 ≤ c.blockSize ∧
      max 1 ((5 + c.blockSize - 1) / c.blockSize) = 3 := by decide +kernel

/-- Working memories whose block is a literal and a match. -/
def oneMatch : Work := { initialWork with tok := [.lit 0x61, .copy 258 1] }

theorem witness_DeflateEmits_blocks :
    (writeBlock .stored true 3 (List.replicate 259 0x61) oneMatch).toOption.isSome = true ∧
    (writeBlock .fixed true 3 (List.replicate 259 0x61) oneMatch).toOption.isSome = true ∧
    (writeBlock .dynamic true 3 (List.replicate 259 0x61) oneMatch).toOption.isSome = true ∧
    (3 ≤ 258 ∧ 258 ≤ 258 ∧ 1 ≤ 32768 ∧ 32768 ≤ 32768) := by decide +kernel

/-- An empty stored block behind the zlib header: 3 bits, 5 pad bits and 4 bytes; 11 bytes with the framing. -/
theorem witness_ZlibcWrites_modes :
    (deflate Config.default 0 0 .stored [] 16 initialWork).toOption.map (·.1.length) = some 40 ∧
    (16 + 40 + 7) / 8 + 4 = 11 ∧
    ∀ d ∈ [10, 11], let s := { idle [] d [] with ctrl := 0x104 }
      s.busy = false ∧ s.err = 0 ∧ s.regionsOk .st = true ∧ s.mem.wf = true ∧ s.btmode = .stored ∧ s.input = [] ∧
        s.dcap.toNat = d := by decide +kernel

theorem witness_ZlibcWrites :
    (storing 14).ready ∧ (storing 14).regionsOk .st = true ∧ (storing 14).mem.wf = true ∧
    (storing 14).btmode = .stored ∧ 1 ≤ (storing 14).cfg.blockSize ∧
    (storing 14).slen.toNat ≤ (storing 14).cfg.blockSize ∧ (storing 14).slen.toNat ≤ 65535 ∧
    (storing 14).slen.toNat + 11 ≤ (storing 14).dcap.toNat := by unfold State.ready; decide +kernel

theorem witness_TokensAreValid : 0 ≤ 0 ∧ 1 ≤ 3 ∧ 3 ≤ (bytes [1, 2, 3]).length := by decide

/-- The second of two blocks under the reference matcher. -/
theorem witness_TokensAreValid_reference :
    let c : Config := { Config.default with matcher := .reference, blockSize := 2 }
    c.ok ∧ c.matcher = .reference ∧ 1 < blockCount c (bytes [1, 2, 3]).length := by decide +kernel

theorem witness_Checksums : (idle [1] 0 []).ready ∧ (idle [1] 0 []).regionsOk .s = true := by
  unfold State.ready; decide

theorem witness_SampleWordsDecode :
    isCommand .hdec = true ∧ (buildFromLengths ([4, 3, 2, 2] ++ List.replicate 13 0 ++ [4, 2]) 7).toOption.isSome = true := by
  decide +kernel

theorem witness_CrcDetectsOneByte : (0x00 : Byte) ≠ 0x80 := by decide

theorem witness_ChunkCheck :
    (idle ihdr 0 []).ready ∧ (idle ihdr 0 []).regionsOk .s = true ∧ (bits [1]).len < 12 ∧
    (let src := Source.ofBytes (bytes (ihdr.take 24)); src.len - 12 < src.be32At 0) ∧
    (let src := Source.ofBytes (bytes ihdr); 12 ≤ src.len ∧ src.be32At 0 ≤ src.len - 12) ∧
    12 ≤ (idle ihdr 0 []).slen.toNat ∧ 13 ≤ (idle ihdr 0 []).slen.toNat - 12 ∧
    crc32 ((idle ihdr 0 []).inBytes 4 17) = 0x3A7E9B55 ∧ (idle ihdr 0 []).ignoreCrc = false ∧
    ({ idle ihdr 0 [] with ctrl := 6 } : State).ignoreCrc = true ∧ (checking ihdr).engine = .chunk := by
  unfold State.ready; decide +kernel

/-- A tree of symbols 256 and 284 only, one bit each. -/
def endTree : Tree := tree (List.replicate 256 0 ++ [1] ++ List.replicate 27 0 ++ [1])

theorem endTree_built : endTree.built := ⟨List.replicate 256 0 ++ [1] ++ List.replicate 27 0 ++ [1], 15, by decide +kernel⟩

/-- An environment that sends literal/length symbols in it. -/
def endEnv : EncEnv := ⟨endTree, fixD, fixD, 0, []⟩

theorem witness_LitLenElementsRoundTrip :
    litLenSymbol (.len284 31) = some 284 ∧ endEnv.ll.built ∧ endEnv.ll.coded 284 ∧
      (bits [0, 1, 1, 1, 1, 1, 1]).holds 1 (encode endEnv (.len284 31)) :=
  ⟨rfl, by simp only [endEnv]; exact endTree_built, by unfold Tree.coded; decide +kernel, by unfold Source.holds; decide +kernel⟩

theorem witness_DistElementsRoundTrip :
    distSymbol (.dist29 8191) = some 29 ∧ EncEnv.fixed.d.built ∧ EncEnv.fixed.d.coded 29 ∧
      (bits ([1, 1, 1, 0, 1] ++ List.replicate 13 1)).holds 0 (encode .fixed (.dist29 8191)) :=
  ⟨rfl, by simp only [EncEnv.fixed]; exact Tree.built_fixD, by unfold Tree.coded; decide +kernel, by unfold Source.holds; decide +kernel⟩

/-- Words of every other element, whole. -/
theorem witness_OtherElementsRoundTrip :
    let e : EncEnv := ⟨fixD, fixD, fixD, 3, bytes [9]⟩
    (∀ i ∈ [Instr.blockStored true, .blockFixed false, .blockDynamic true, .blockIllegal false, .cl16 3, .cl18 127,
        .clLen 15, .dynhdr 31 31 0 [7, 0, 7, 7], .zhdr 0x78 0x01, .ftNone, .ftPaeth, .ftIllegal 255,
        .chunk 1 2 0xFFFFFFFF],
      let src := Source.ofBytes (packBits (encode e i))
      (encode e i).length ≤ src.nbits ∧ ∀ j, j < (encode e i).length → src.bit j = (encode e i).getD j false) ∧
    (∀ i ∈ [Instr.stored 1 0xFFFE, .ztrailer 0x80000001],
      let src := Source.ofBytes (packBits ([true, true, true] ++ encode e i))
      3 + (encode e i).length ≤ src.nbits ∧ ∀ j, j < (encode e i).length → src.bit (3 + j) = (encode e i).getD j false) ∧
    codeLenSymbol (.cl18 127) = some 18 ∧ e.cl.len.getD 18 0 ≠ 0 ∧ isScanline .ftPaeth = true ∧
    (Instr.dynhdr 31 31 0 [7, 0, 7, 7]).wellFormed = true ∧ (Instr.ftIllegal 255).wellFormed = true ∧
    e.data.length = (1 : Word).toNat := by decide +kernel

theorem witness_StoredBlockReadsBack :
    (bytes [9, 8]).length ≤ 65535 ∧
    (Source.ofBytes (packBits ([true, true] ++ storedBits true 2 (bytes [9, 8])))).holds 2
      (storedBits true 2 (bytes [9, 8])) :=
  ⟨by decide, by unfold Source.holds; decide +kernel⟩

theorem witness_StepRunsDecodedInstruction :
    started.fetchOk = true ∧ started.context = some .header ∧
    (decode .fault .header started.source started.bp.toNat).toOption = some (.blockFixed true, 3) ∧ started.host = [] ∧
    (decode .fault .header (running false .header 24 0 started).source 24).toOption = none ∧
    (running false .header 24 0 started).fetchOk = true ∧ (State.reset.busy = false ∧ State.reset.host = []) ∧
    (decodeCommand 0x30 = some .crc32) := by
  refine ⟨by decide +kernel, rfl, by decide +kernel, rfl, by decide +kernel, by decide +kernel, ⟨rfl, rfl⟩, by decide⟩

theorem witness_HostRegisterAccess : State.reset.busy = false ∧ started.busy = true ∧ 0 ≠ 1 ∧ 0 ≠ 5 := by decide

theorem witness_CsrReads : State.reset.busy = false ∧ 9 ≤ 9 := by decide

/-- A block whose memory has a hole at `[0x300, 0x310)`. -/
def holed : State := { started with cfg := { Config.default with memHoles := [(0x300, 0x10)] } }

/-- Bytes beside the regions, of each region of a decompression and of `CRCCHK`, and the ends of the hole. -/
theorem witness_HostMemoryAccess :
    (memValid holed.cfg 0x2FF ∧ holed.mem.wf = true ∧ holed.busy = true ∧ ¬ holed.inS 0x2FF ∧ ¬ holed.inT 0x2FF) ∧
    (memValid holed.cfg 0x310 ∧ ¬ memValid holed.cfg 0x300 ∧ ¬ memValid holed.cfg 0x30F) ∧
    (holed.inS 0x100 ∧ holed.inT 0x203 ∧ holed.engine ≠ .chunk ∧ memValid holed.cfg 0x100 ∧ memValid holed.cfg 0x203) ∧
    ((checking ihdr).busy = true ∧ (checking ihdr).inS 0x100 ∧ (checking ihdr).inT 0x203 ∧
      ¬ (checking ihdr).inS 0x203 ∧ (checking ihdr).engine = .chunk) ∧
    State.reset.busy = false := by unfold memValid; decide +kernel

/-- `CRCCHK` cut short leaves what the host wrote meanwhile; the host may not read its input (20_memory R75). -/
theorem test_crcchk_input_only :
    see (engineStep { checking [0] with mem := [(0x100, 1), (0x201, 5)] }) (fun t => (fault t, t.mem.read 0x201)) =
      some ((10, 8), 5) ∧
    hostAct (.readMem 0x100) (checking ihdr) = .refused .hostTouchesRegion ∧
    see (hostAct (.readMem 0x201) (checking ihdr)) (·.rdata) = some 0 := ⟨by decide +kernel, rfl, by decide +kernel⟩

end Sys2Proof.Tests
end

/-! PROOFS. What the block's meanings can do, said once: a meaning changes none of the state's kept part, and then it
goes on, ends or faults. The frame of 10_state R21, the first fault of R31 and the invariant follow from that. -/

namespace Sys2Proof.Machine

/-! ## The kept part of a state -/

/-- The state with everything blanked that the body of a meaning may change before it ends. -/
def State.kept (s : State) : State :=
  { s with
    dlen := 0, res0 := 0, bp := 0, pos := 0, wbp := 0, bfinal := false, mem := [], work := initialWork, engine := .idle
    free := 0 }

/-- What of the kept part the host alone changes: the operand registers but `DLEN` and `RES0`, `CTRL`, the parameters
and the host's side (10_state R21, R34). -/
def State.hostPart (s : State) : State :=
  { s.kept with done := false, treev := false, u := emptyTree, err := 0, errInfo := 0, saved := [] }

/-- A change of state inside a command or an element: the kept part stays, and memory stays canonical. -/
structure Quiet (s t : State) : Prop where
  kept : t.kept = s.kept
  mem : s.mem.wf = true → t.mem.wf = true

/-- A change that leaves all of memory alone too. -/
theorem Quiet.silent {s t : State} (kept : t.kept = s.kept := by rfl) (mem : t.mem = s.mem := by rfl) : Quiet s t :=
  ⟨kept, fun h => by rw [mem]; exact h⟩

theorem Quiet.refl (s : State) : Quiet s s := .silent

theorem Quiet.trans {s t v : State} (h : Quiet s t) (h' : Quiet t v) : Quiet s v :=
  ⟨h'.kept.trans h.kept, h'.mem ∘ h.mem⟩

theorem Quiet.putOut (s : State) (i : Nat) (bs : List Byte) : Quiet s (s.putOut i bs) :=
  ⟨rfl, fun h => State.putOut_mem_wf h i bs⟩

theorem Quiet.append (s : State) (bs : List Byte) : Quiet s (s.append bs) := ⟨rfl, fun h => State.append_mem_wf h bs⟩

theorem Quiet.copyMatch (dist n : Nat) (s : State) : Quiet s (State.copyMatch dist n s) :=
  ⟨by rw [State.copyMatch_frame]; rfl, State.copyMatch_mem_wf dist n⟩

theorem Quiet.settleOutput (s : State) : Quiet s s.settleOutput := ⟨rfl, fun h => Memory.wf_settle h _ _ _ _⟩

/-- What depends on the kept part only stays as it is. -/
theorem Quiet.view {s t : State} {α : Type} (q : Quiet s t) (f : State → α)
    (hf : ∀ v : State, f v.kept = f v := by intro; rfl) : f t = f s := by
  rw [← hf t, q.kept, hf s]

/-! ## What the body of a meaning can do -/

/-- Everything the body of a command or an element can do from `s`: changes that leave the kept part alone, after which
the engine goes on (in a state `Go` describes), or the command ends, or it ends in a fault. -/
inductive Effect (Go : State → Prop) (s : State) : State → Prop
  | goesOn {t : State} (q : Quiet s t) (go : Go t) : Effect Go s t
  | ends {s' : State} (q : Quiet s s') : Effect Go s s'.finish
  | faults {s' : State} (q : Quiet s s') (c : Cause) (info : Nat) : Effect Go s (s'.recordFault c info)

/-- What a body that never leaves the engine running goes on to. -/
abbrev Never (_ : State) : Prop := False

section
variable {Go Go' : State → Prop} {s s' t : State}

theorem Effect.mono (h : ∀ t, Quiet s t → Go t → Go' t) (e : Effect Go s t) : Effect Go' s t := by
  cases e with
  | goesOn q go => exact .goesOn q (h _ q go)
  | ends q => exact .ends q
  | faults q c info => exact .faults q c info

theorem Effect.of_never (e : Effect Never s t) : Effect Go s t := e.mono fun _ _ h => h.elim

theorem Effect.of_quiet (q : Quiet s s') (e : Effect Go s' t) : Effect Go s t := by
  cases e with
  | goesOn q' go => exact .goesOn (q.trans q') go
  | ends q' => exact .ends (q.trans q')
  | faults q' c info => exact .faults (q.trans q') c info

theorem Effect.raiseInput (q : Quiet s s') (c : Cause) (info : Nat) : Effect Go s (s'.raiseInput c info) :=
  .faults (q.trans .silent) c info

theorem Effect.raise (q : Quiet s s') (c : Cause) (info : Nat) : Effect Go s (s'.raise c info) :=
  .raiseInput (q.trans (.settleOutput s')) c info

theorem Effect.raiseUses (q : Quiet s s') (uses : Uses) (c : Cause) (info : Nat) :
    Effect Go s (s'.raiseUses uses c info) :=
  match uses with
  | .s => .raiseInput q c info
  | .st => .raise q c info

theorem Effect.raiseStop (q : Quiet s s') (uses : Uses) (e : Stop) : Effect Go s (s'.raiseStop uses e) :=
  .raiseUses (q.trans .silent) uses _ _

/-- The slot of a failed build lies in the working memories, so it makes no difference that it is dropped last. -/
theorem Effect.raiseFailure (q : Quiet s s') (f : Failure) : Effect Go s (s'.raiseFailure f) := by
  have h : Quiet s { s'.settleOutput.forgetWork with work := s'.settleOutput.forgetWork.work.invalidate f.slot } :=
    q.trans ((Quiet.settleOutput s').trans .silent)
  exact .faults h f.cause f.info

/-- `RES0` may be written after the command has ended. -/
theorem Effect.withRes0 (e : Effect Never s t) (v : Word) : Effect Never s { t with res0 := v } := by
  cases e with
  | goesOn _ go => exact go.elim
  | ends q =>
    rename_i s'
    have h : Quiet s { s' with res0 := v } := q.trans .silent
    exact .ends h
  | faults q c info =>
    rename_i s'
    have h : Quiet s { s' with res0 := v } := q.trans .silent
    exact .faults h c info

theorem Effect.hostPart (e : Effect Go s t) : t.hostPart = s.hostPart := by
  cases e with
  | goesOn q _ => exact q.view State.hostPart
  | ends q => exact q.view State.hostPart
  | faults q c info => exact q.view State.hostPart

theorem Effect.firstFault (e : Effect Go s t) (h : s.err ≠ 0) : t.err = s.err ∧ t.errInfo = s.errInfo := by
  have kept : ∀ {v : State}, Quiet s v → v.err = s.err ∧ v.errInfo = s.errInfo := fun q =>
    ⟨q.view State.err, q.view State.errInfo⟩
  cases e with
  | goesOn q _ => exact kept q
  | ends q =>
    have h := kept q
    exact h
  | faults q c info =>
    obtain ⟨he, hi⟩ := kept q
    simp only [State.recordFault_err, State.recordFault_errInfo, he, hi, h, if_false, and_self]

end

/-! ## Checksums -/

theorem chunkBody_effect (len crc : Word) (s : State) : Effect Never s (chunkBody len crc s) := by
  simp only [chunkBody]
  split
  · exact .raiseInput (.refl s) _ _
  · split
    · exact .raiseInput .silent _ _
    · exact .ends .silent

/-! ## The Huffman unit -/

theorem buildFromLengths_valid {lengths : List Nat} {maxBits : Nat} {t : Tree}
    (h : buildFromLengths lengths maxBits = .ok t) : t.valid = true := by
  simp only [buildFromLengths] at h
  split at h <;> cases h
  rfl

theorem buildFromFrequencies_valid {freq : List Nat} {minCodes maxCodes maxBits : Nat} {t : Tree} {b : Bpm}
    (h : buildFromFrequencies freq minCodes maxCodes maxBits = .ok (t, b)) : t.valid = true := by
  simp only [buildFromFrequencies] at h
  split at h <;> cases h
  exact buildFromLengths_valid ‹_›

/-- A tree in slot `U`, with `TREEV` true to it (10_state R30). -/
def State.setUser (s : State) (u : Tree) : State := { s with treev := u.valid, u := u }

theorem Quiet.setUser {s s' : State} (q : Quiet s s') (u : Tree) : Quiet (s.setUser u) (s'.setUser u) :=
  ⟨congrArg (State.setUser · u) q.kept, q.mem⟩

/-- Everything the body of `HBL` or `HBF` can do: fill slot `U`, `TREEV` with it, and end. -/
def UserEffect (s t : State) : Prop := ∃ u, Effect Never (s.setUser u) t

theorem raiseUser_effect (s : State) (c : Cause) (info : Nat) : UserEffect s (s.raiseUser c info) :=
  ⟨{ Config.freeTree s.free with valid := false }, .raise (.refl _) c info⟩

theorem finishUser_effect {s s' : State} {t : Tree} (ht : t.valid = true) (q : Quiet s s') (image : List Byte) :
    UserEffect s (s'.finishUser t image) := by
  refine ⟨t, ?_⟩
  have h : Quiet (s.setUser t) { s' with u := t, treev := true, res0 := BitVec.ofNat 32 t.n } := by
    rw [← ht]
    exact (q.setUser t).trans .silent
  simp only [State.finishUser]
  split
  · exact .ends h
  · exact .ends (h.trans ((Quiet.putOut _ 0 image).trans .silent))

theorem hblBody_effect (s : State) : UserEffect s (hblBody s) := by
  simp only [hblBody]
  split
  · exact raiseUser_effect s _ _
  split
  · exact raiseUser_effect s _ _
  split
  · exact raiseUser_effect s _ _
  split
  · exact raiseUser_effect s _ _
  split
  · exact raiseUser_effect s _ _
  · next hb => exact finishUser_effect (buildFromLengths_valid hb) (.refl s) _

theorem hbfBody_effect (s : State) : UserEffect s (hbfBody s) := by
  simp only [hbfBody]
  split
  · exact raiseUser_effect s _ _
  split
  · exact raiseUser_effect s _ _
  split
  · exact raiseUser_effect s _ _
  split
  · exact raiseUser_effect s _ _
  split
  · exact raiseUser_effect s _ _
  split
  · exact raiseUser_effect s _ _
  split
  · exact raiseUser_effect s _ _
  · next hb => exact finishUser_effect (buildFromFrequencies_valid hb) .silent _

theorem hdecBody_effect (s : State) : Effect Never s (hdecBody s) := by
  unfold hdecBody
  split
  · split
    · exact .raiseStop (.refl s) _ _
    · exact .ends .silent
  · exact .raiseInput (.refl s) _ _

/-! ## The compressor -/

theorem finishStream_effect (s : State) (bits : List Bool) (w : Work) : Effect Never s (s.finishStream bits w) := by
  unfold State.finishStream
  have hw : Quiet s { s with work := w, free := s.free + 1 } := .silent
  rcases State.emit_cases { s with work := w, free := s.free + 1 } bits with ⟨_, e⟩ | ⟨_, e⟩
  · rw [e]
    exact .ends (hw.trans ((Quiet.putOut _ 0 (packBits bits)).trans .silent))
  · rw [e]
    exact .raise (hw.trans ((Quiet.putOut _ 0 _).trans .silent)) _ _

theorem deflateBody_effect (s : State) : Effect Never s (deflateBody s) := by
  unfold deflateBody
  split
  · exact .raiseFailure (.refl s) _
  · exact finishStream_effect s _ _

theorem zlibcBody_effect (s : State) : Effect Never s (zlibcBody s) := by
  simp only [zlibcBody]
  split
  · exact .raiseFailure (.refl s) _
  · split
    · exact (finishStream_effect s _ _).withRes0 _
    · exact finishStream_effect s _ _

/-! ## The filter engine -/

/-- The last two checks of 46_filter R321, when none fails. -/
theorem geometryFault_eq_none {s : State} {input output : Nat} (h : s.geometryFault input output = none) :
    s.slen.toNat = input ∧ output ≤ s.dcap.toNat := by
  unfold State.geometryFault at h
  split at h
  · cases h
  split at h
  · cases h
  split at h
  · cases h
  split at h
  · cases h
  split at h
  · cases h
  · exact ⟨by omega, by omega⟩

theorem unfilterBody_effect {s : State} (hr : s.regionsOk .st = true) : Effect State.engineOk s (unfilterBody s) := by
  simp only [unfilterBody]
  split
  · exact .raise (.refl s) _ _
  next hg =>
  split
  · exact .ends .silent
  · next h0 =>
    obtain ⟨hs, hd⟩ := geometryFault_eq_none hg
    have hy : 0 < s.arg1.toNat := Nat.pos_of_ne_zero fun h => h0 (BitVec.eq_of_toNat_eq h)
    exact .goesOn .silent ⟨hr, hy, hs, hd⟩

theorem filterBody_effect (s : State) : Effect Never s (filterBody s) := by
  simp only [filterBody]
  split
  · exact .raise (.refl s) _ _
  split
  · exact .raiseFailure (.refl s) _
  · exact .ends ((Quiet.putOut s 0 _).trans .silent)

/-- `UNFILTER` goes on to a scanline of the image. -/
def NextLine (s t : State) : Prop := ∃ y, t.engine = .unfilter y ∧ y < s.arg1.toNat

theorem scanlineBody_effect (k : Nat) (s : State) : Effect (NextLine s) s (scanlineBody k s) := by
  simp only [scanlineBody]
  split
  · next h => exact .goesOn ((Quiet.putOut s _ _).trans .silent) ⟨_, rfl, h⟩
  · exact .ends ((Quiet.putOut s _ _).trans .silent)

/-! ## The decompressor -/

/-- A decompression is running. -/
def State.decompressing (s : State) : Prop := ∃ z p, s.engine = .inflate z p

/-- A running decompression goes on, its output cursor within the capacity if it was (10_state R24). -/
def Decompresses (s t : State) : Prop :=
  (s.decompressing → t.decompressing) ∧ (s.pos.toNat ≤ s.dcap.toNat → t.pos.toNat ≤ s.dcap.toNat)

section
variable {s s' : State}

theorem toPhase_effect (q : Quiet s s') (p : Phase)
    (hp : s.pos.toNat ≤ s.dcap.toNat → s'.pos.toNat ≤ s.dcap.toNat := by exact id) :
    Effect (Decompresses s) s (s'.toPhase p) := .goesOn (q.trans .silent) ⟨fun _ => ⟨_, _, rfl⟩, hp⟩

theorem endBlock_effect (q : Quiet s s') (hp : s.pos.toNat ≤ s.dcap.toNat → s'.pos.toNat ≤ s.dcap.toNat) :
    Effect (Decompresses s) s s'.endBlock := by
  simp only [State.endBlock, State.endInflate]
  split
  · split
    · exact toPhase_effect (q.trans .silent) _ (by exact hp)
    · exact .ends (q.trans .silent)
  · exact toPhase_effect q _ hp

end

theorem openBlock_effect (s : State) (final : Bool) (p : Phase) : Effect (Decompresses s) s (s.openBlock final p) :=
  toPhase_effect .silent p

/-- Bytes that fit below the capacity leave the output cursor there, without wrap. -/
theorem append_pos_le {s : State} {bs : List Byte} (h : s.pos.toNat + bs.length ≤ s.dcap.toNat) :
    (s.append bs).pos.toNat ≤ s.dcap.toNat := by
  rw [State.append_pos, BitVec.toNat_ofNat]
  exact (Nat.mod_le _ _).trans h

theorem storedBody_effect (len nlen : BitVec 16) (s : State) : Effect (Decompresses s) s (storedBody len nlen s) := by
  simp only [storedBody]
  split
  · exact .raise (.refl s) _ _
  split
  · exact .raise (.refl s) _ _
  split
  · exact .raise (.refl s) _ _
  · next hfit =>
    have hp := append_pos_le (s := s) (bs := s.inBytes (s.bp.toNat / 8 + 4) len.toNat)
      (by rw [State.length_inBytes]; omega)
    exact endBlock_effect ((Quiet.append s _).trans .silent) fun _ => hp

theorem literal_effect (b : Byte) (s : State) : Effect (Decompresses s) s
    (if s.pos.toNat + 1 > s.dcap.toNat then s.raise .outputOverflow s.pos.toNat else s.append [b]) := by
  split
  · exact .raise (.refl s) _ _
  · next h => exact .goesOn (.append s _) ⟨id, fun _ => append_pos_le (by simpa using h)⟩

theorem matchBody_effect (length dist : Nat) (s : State) : Effect (Decompresses s) s (matchBody length dist s) := by
  unfold matchBody
  split
  · exact .raise (.refl s) _ _
  split
  · exact .raise (.refl s) _ _
  · next hfit =>
    refine toPhase_effect (.copyMatch dist length s) _ fun _ => ?_
    rw [State.copyMatch_pos dist length (by have := s.dcap.isLt; unfold addrSpace; omega)]
    omega

theorem buildTrees_effect (s : State) (hlit hdist : Nat) (lens : List Nat) :
    Effect (Decompresses s) s (s.buildTrees hlit hdist lens) := by
  simp only [State.buildTrees]
  split
  · exact .raise (.refl s) _ _
  split
  · exact .raiseFailure (.refl s) _
  split
  · exact .raiseFailure (.refl s) _
  · exact toPhase_effect .silent _

theorem addLengths_effect (s : State) (rep v : Nat) : Effect (Decompresses s) s (s.addLengths rep v) := by
  simp only [State.addLengths]
  split
  · exact toPhase_effect (.refl s) _
  · exact buildTrees_effect s _ _ _

theorem repeatLength_effect (s : State) (rep v : Nat) : Effect (Decompresses s) s (s.repeatLength rep v) := by
  simp only [State.repeatLength]
  split
  · exact .raise (.refl s) _ _
  · exact addLengths_effect s _ _

theorem zhdrBody_effect (cmf flg : Byte) (s : State) : Effect (Decompresses s) s (zhdrBody cmf flg s) := by
  unfold zhdrBody
  split
  · exact .raise (.refl s) _ _
  split
  · exact .raise (.refl s) _ _
  split
  · exact .raise (.refl s) _ _
  · exact .goesOn .silent ⟨fun _ => ⟨_, _, rfl⟩, fun _ => Nat.zero_le _⟩

theorem ztrailerBody_effect (stored : Word) (s : State) : Effect Never s (ztrailerBody stored s) := by
  simp only [ztrailerBody]
  split
  · exact .raiseInput .silent _ _
  · exact .ends .silent

end Sys2Proof.Machine

/-! PROOFS. Everything `exec` can do: a command (48_commands R370), `NOP` and `CLRERR` (R383, R384), a stream element. -/

namespace Sys2Proof.Machine

/-! ## Commands -/

/-- Everything a command other than `NOP` and `CLRERR` can do (48_commands R370, R373). -/
inductive CommandEffect (s : State) : State → Prop
  | busy (hb : s.busy = true) : CommandEffect s s
  | refused (hb : s.busy = false) (he : s.err ≠ 0) : CommandEffect s s.finish
  | runs {t : State} (hr : s.ready) (e : Effect State.engineOk s.start t) : CommandEffect s t
  | runsUser {t : State} (hr : s.ready) (u : Tree) (e : Effect Never (s.start.setUser u) t) : CommandEffect s t

theorem command_effect {s t : State} {uses : Uses} {prep body : State → State}
    (h : command s uses prep body = .next t)
    (hb : (prep s.start).regionsOk uses = true → Effect State.engineOk (prep s.start) (body (prep s.start)))
    (hp : Quiet s.start (prep s.start) := by exact .silent) :
    CommandEffect s t := by
  rcases commandOr_cases s uses prep (fun s => s.raiseUses uses .regionError 0) body with
    ⟨hs, e⟩ | ⟨hs, he, e⟩ | ⟨hr, hok, e⟩ | ⟨hr, _, e⟩ <;> cases e.symm.trans h
  · exact .busy hs
  · exact .refused hs he
  · exact .runs hr ((hb hok).of_quiet hp)
  · exact .runs hr (.raiseUses hp uses _ _)

theorem userCommand_effect {s t : State} {body : State → State} (h : userCommand s body = .next t)
    (hb : ∀ v, UserEffect v (body v)) : CommandEffect s t := by
  -- the start action on slot `U` is overwritten by whatever the body puts there
  have started : ∀ {v}, UserEffect s.start.dropUser v → s.ready → CommandEffect s v := fun ⟨u, e⟩ hr => .runsUser hr u e
  rcases commandOr_cases s .st State.dropUser (fun s => s.raiseUser .regionError 0) body with
    ⟨hs, e⟩ | ⟨hs, he, e⟩ | ⟨hr, _, e⟩ | ⟨hr, _, e⟩ <;> cases e.symm.trans h
  · exact .busy hs
  · exact .refused hs he
  · exact started (hb _) hr
  · exact started (raiseUser_effect _ _ _) hr

theorem exec_command {i : Instr} {uses : Uses} {s t : State} (hi : commandUses i = some uses)
    (h : exec i s = .next t) : CommandEffect s t := by
  unfold exec at h
  cases i with
  | inflate => exact command_effect h fun hr => .goesOn .silent ⟨hr, Nat.zero_le _⟩
  | zlibd => exact command_effect h fun hr => .goesOn .silent ⟨hr, Nat.zero_le _⟩
  | deflate => exact command_effect h fun _ => (deflateBody_effect _).of_never
  | zlibc => exact command_effect h fun _ => (zlibcBody_effect _).of_never
  | unfilter => exact command_effect h unfilterBody_effect
  | filter => exact command_effect h fun _ => (filterBody_effect _).of_never
  | crc32 => exact command_effect h fun _ => .ends .silent
  | crcchk => exact command_effect h fun hr => .goesOn .silent hr
  | adler32 => exact command_effect h fun _ => .ends .silent
  | hbl => exact userCommand_effect h hblBody_effect
  | hbf => exact userCommand_effect h hbfBody_effect
  | hdec => exact command_effect h fun _ => (hdecBody_effect _).of_never
  | _ => cases hi

/-! ## Stream elements -/

section
variable {s t : State} {Go : State → Prop}

theorem element_effect {uses : Uses} {body : State → State} (h : element s uses body = .next t)
    (hb : Effect Go s (body s)) : Effect Go s t := by
  obtain ⟨_, rfl⟩ := element_next h
  exact hb

theorem scanlineElement_effect {k : Nat} (h : scanlineElement s k = .next t) : Effect (NextLine s) s t := by
  obtain ⟨_, rfl⟩ := scanlineElement_next h
  exact scanlineBody_effect k s

theorem lenElement_effect {k extra : Nat} (h : lenElement s k extra = .next t) : Effect (Decompresses s) s t :=
  element_effect h (toPhase_effect (.refl s) _)

theorem distElement_effect {d extra : Nat} (h : distElement s d extra = .next t) : Effect (Decompresses s) s t :=
  element_effect h (matchBody_effect _ _ s)

theorem reservedLitLen_effect (h : reservedLitLen s = .next t) : Effect Go s t :=
  element_effect h (.raise (.refl s) _ _)

theorem reservedDist_effect (h : reservedDist s = .next t) : Effect Go s t := element_effect h (.raise (.refl s) _ _)

end

/-- Everything an element of the decompressor can do. -/
theorem exec_inflateElement {i : Instr} {s t : State} (hi : isInflateElement i = true) (h : exec i s = .next t) :
    Effect (Decompresses s) s t := by
  unfold exec at h
  cases i with
  | blockStored final | blockFixed final | blockDynamic final => exact element_effect h (openBlock_effect s final _)
  | blockIllegal final => exact element_effect h (.raise .silent _ _)
  | stored len nlen => exact element_effect h (storedBody_effect len nlen s)
  | lit b => exact element_effect h (literal_effect b s)
  | endOfBlock => exact element_effect h (endBlock_effect (.refl s) id)
  | len257 | len258 | len259 | len260 | len261 | len262 | len263 | len264 | len285 => exact lenElement_effect h
  | len265 x | len266 x | len267 x | len268 x | len269 x | len270 x | len271 x | len272 x | len273 x | len274 x
  | len275 x | len276 x | len277 x | len278 x | len279 x | len280 x | len281 x | len282 x | len283 x | len284 x =>
    exact lenElement_effect h
  | llReserved286 | llReserved287 => exact reservedLitLen_effect h
  | dist0 | dist1 | dist2 | dist3 => exact distElement_effect h
  | dist4 x | dist5 x | dist6 x | dist7 x | dist8 x | dist9 x | dist10 x | dist11 x | dist12 x | dist13 x | dist14 x
  | dist15 x | dist16 x | dist17 x | dist18 x | dist19 x | dist20 x | dist21 x | dist22 x | dist23 x | dist24 x
  | dist25 x | dist26 x | dist27 x | dist28 x | dist29 x => exact distElement_effect h
  | dReserved30 | dReserved31 => exact reservedDist_effect h
  | clLen len => exact element_effect h (addLengths_effect s 1 _)
  | cl16 rep =>
    refine element_effect h ?_
    split
    · exact .raise (.refl s) _ _
    · exact repeatLength_effect s _ _
  | cl17 rep | cl18 rep => exact element_effect h (repeatLength_effect s _ 0)
  | dynhdr hlit hdist hclen clens =>
    refine element_effect h ?_
    dsimp only
    split
    · exact .raiseFailure (.refl s) _
    · exact toPhase_effect .silent _
  | zhdr cmf flg => exact element_effect h (zhdrBody_effect cmf flg s)
  | ztrailer adler => exact element_effect h (ztrailerBody_effect adler s).of_never
  | _ => cases hi

theorem illegalType_effect {b : Byte} {s t : State} {Go : State → Prop} (h : exec (.ftIllegal b) s = .next t) :
    Effect Go s t := by
  unfold exec at h
  exact element_effect h (.raise (.refl s) _ _)

/-- Everything a filtered scanline can do. -/
theorem exec_ftInstr {b : Byte} {s t : State} (h : exec (ftInstr b) s = .next t) : Effect (NextLine s) s t := by
  unfold ftInstr at h
  split at h
  · exact scanlineElement_effect (k := 0) h
  · exact scanlineElement_effect (k := 1) h
  · exact scanlineElement_effect (k := 2) h
  · exact scanlineElement_effect (k := 3) h
  · exact scanlineElement_effect (k := 4) h
  · exact illegalType_effect h

theorem exec_chunk {len typ crc : Word} {s t : State} (h : exec (.chunk len typ crc) s = .next t) :
    Effect Never s t := element_effect h (chunkBody_effect len crc s)

/-- Every element, whatever it goes on to. -/
theorem exec_element {i : Instr} {s t : State} (hi : isCommand i = false) (h : exec i s = .next t) :
    Effect (fun _ => True) s t := by
  cases i with
  | nop | clrerr | inflate | zlibd | deflate | zlibc | unfilter | filter | crc32 | crcchk | adler32 | hbl | hbf
  | hdec => cases hi
  | ftNone | ftSub | ftUp | ftAverage | ftPaeth => exact (scanlineElement_effect h).mono fun _ _ _ => trivial
  | ftIllegal b => exact illegalType_effect h
  | chunk len typ crc => exact (exec_chunk h).of_never
  | _ => exact (exec_inflateElement rfl h).mono fun _ _ _ => trivial

/-! ## All instructions -/

/-- Everything an instruction can do. -/
inductive ExecEffect (i : Instr) (s t : State) : Prop
  | nop (hi : i = .nop) (ht : t = s ∨ t = s.finish)
  | clrerr (hi : i = .clrerr) (ht : t = s ∨ t = s.clearError.finish)
  | command (hi : (commandUses i).isSome = true) (e : CommandEffect s t)
  | element (hi : isCommand i = false) (e : Effect (fun _ => True) s t)

theorem controlCommand_next {s t : State} {body : State → State} (h : controlCommand s body = .next t) :
    t = s ∨ t = (body s).finish := by
  rcases controlCommand_cases s body with ⟨_, e⟩ | ⟨_, e⟩ <;> cases e.symm.trans h
  · exact .inl rfl
  · exact .inr rfl

theorem exec_effect {i : Instr} {s t : State} (h : exec i s = .next t) : ExecEffect i s t := by
  by_cases hn : i = .nop
  · subst hn
    exact .nop rfl (controlCommand_next h)
  by_cases hc : i = .clrerr
  · subst hc
    exact .clrerr rfl (controlCommand_next h)
  have hi : isCommand i = (commandUses i).isSome := by unfold isCommand; split <;> simp_all
  cases hu : commandUses i with
  | some uses => exact .command (by rw [hu]; rfl) (exec_command hu h)
  | none =>
    rw [hu] at hi
    exact .element hi (exec_element hi h)

theorem CommandEffect.hostPart {s t : State} (e : CommandEffect s t) : t.hostPart = s.hostPart := by
  cases e with
  | busy => rfl
  | refused => rfl
  | runs _ e => exact e.hostPart
  | runsUser _ u e => exact e.hostPart

theorem ExecEffect.hostPart {i : Instr} {s t : State} (e : ExecEffect i s t) : t.hostPart = s.hostPart := by
  cases e with
  | nop _ ht => obtain rfl | rfl := ht <;> rfl
  | clrerr _ ht => obtain rfl | rfl := ht <;> rfl
  | command _ e => exact e.hostPart
  | element _ e => exact e.hostPart

theorem CommandEffect.firstFault {s t : State} (e : CommandEffect s t) (h : s.err ≠ 0) :
    t.err = s.err ∧ t.errInfo = s.errInfo := by
  cases e with
  | busy => exact ⟨rfl, rfl⟩
  | refused => exact ⟨rfl, rfl⟩
  | runs hr _ => exact absurd hr.2 h
  | runsUser hr _ _ => exact absurd hr.2 h

/-- Settles O7: every meaning changes nothing of the host's part. -/
theorem operandsKept : Obligations.OperandsKept := by
  intro i s t h
  have hp : t.hostPart = s.hostPart := (exec_effect h).hostPart
  have view {α : Type} (f : State → α) : f t.hostPart = f s.hostPart := congrArg f hp
  exact ⟨view State.src, view State.slen, view State.dst, view State.dcap, view State.arg0, view State.arg1,
    view State.arg2, view State.ctrl, view State.cfg, view State.host, view State.rdata⟩

/-- Settles O8: only `CLRERR` writes `ERR` or `ERRINFO` once `ERR` is not 0. -/
theorem firstFaultKept : Obligations.FirstFaultKept := by
  intro i s t hi he h
  cases exec_effect h with
  | nop _ ht => obtain rfl | rfl := ht <;> exact ⟨rfl, rfl⟩
  | clrerr hc _ => exact absurd hc hi
  | command _ e => exact e.firstFault he
  | element _ e => exact e.firstFault he

end Sys2Proof.Machine

/-! PROOFS. The machine's invariant: it holds after reset, and every step keeps it (10_state R24, R30 to R34). -/

namespace Sys2Proof.Machine

/-! ## The invariant and the updates of a state -/

theorem engineOk_of_not_busy {s : State} (h : s.busy = false) : s.engineOk := by
  rw [State.engineOk, (State.not_busy_iff s).mp h]
  trivial

section
variable {s t : State}

theorem State.Inv.of_quiet (hs : s.Inv) (q : Quiet s t) (hrun : t.busy = true → s.err = 0 ∧ s.done = false)
    (he : t.engineOk) : t.Inv := by
  have herr : t.err = s.err := q.view State.err
  constructor
  case mem => exact q.mem hs.mem
  case saved => rw [q.view State.saved]; exact hs.saved
  case ctrl => rw [q.view State.ctrl]; exact hs.ctrl
  case treev => rw [q.view State.treev, q.view State.u]; exact hs.treev
  case err => rw [herr]; exact hs.err
  case errInfo => rw [herr, q.view State.errInfo]; exact hs.errInfo
  case running => rw [herr, q.view State.done]; exact hrun
  case engine => exact he

theorem State.Inv.finish (hs : s.Inv) : s.finish.Inv :=
  { hs with engine := trivial, running := fun h => nomatch h }

theorem State.Inv.recordFault (hs : s.Inv) (c : Cause) (info : Nat) : (s.recordFault c info).Inv where
  mem := hs.mem
  saved := hs.saved
  ctrl := hs.ctrl
  treev := hs.treev
  err := by
    rw [State.recordFault_err]
    split
    · exact .inr ⟨c, rfl⟩
    · exact hs.err
  errInfo := by
    rw [State.recordFault_err, State.recordFault_errInfo]
    split
    · exact fun h => absurd h (errCode_ne_zero c)
    · exact fun h => absurd h ‹_›
  running := fun h => nomatch h
  engine := trivial

theorem State.Inv.clearError (hs : s.Inv) (hb : s.busy = false) : s.clearError.Inv :=
  { hs with
    err := .inl rfl, errInfo := fun _ => rfl
    running := fun h => absurd h (by rw [show s.clearError.busy = s.busy from rfl, hb]; decide) }

theorem State.Inv.start (hs : s.Inv) (hb : s.busy = false) : s.start.Inv :=
  { hs with saved := hs.mem, running := fun h => ⟨(hs.running h).1, rfl⟩, engine := engineOk_of_not_busy hb }

theorem State.Inv.setUser (hs : s.Inv) (u : Tree) : (s.setUser u).Inv := { hs with treev := rfl }

/-- The host's side is not in the invariant. -/
theorem State.Inv.hostSide (hs : s.Inv) (host : List HostAct) (rdata : Cursor) (free : Nat) :
    { s with host := host, rdata := rdata, free := free }.Inv := { hs with }

/-- What a body does keeps the invariant, when the engine is all right where it goes on. -/
theorem State.Inv.of_effect (hs : s.Inv) (hrun : s.err = 0 ∧ s.done = false) (e : Effect State.engineOk s t) :
    t.Inv := by
  have idle : ∀ {v : State}, Quiet s v → { v with engine := .idle }.Inv := fun q =>
    hs.of_quiet (q.trans .silent) (fun h => nomatch h) trivial
  cases e with
  | goesOn q go => exact hs.of_quiet q (fun _ => hrun) go
  | ends q => exact (idle q).finish
  | faults q c info => exact (idle q).recordFault c info

end

/-! ## Instructions -/

theorem State.Inv.of_commandEffect {s t : State} (hs : s.Inv) (e : CommandEffect s t) : t.Inv := by
  cases e with
  | busy => exact hs
  | refused => exact hs.finish
  | runs hr e => exact (hs.start hr.1).of_effect ⟨hr.2, rfl⟩ e
  | runsUser hr u e => exact ((hs.start hr.1).setUser u).of_effect ⟨hr.2, rfl⟩ e.of_never

/-- A command given to an idle block. -/
theorem exec_command_inv {i : Instr} {s t : State} (hs : s.Inv) (hb : s.busy = false) (hi : isCommand i = true)
    (h : exec i s = .next t) : t.Inv := by
  cases exec_effect h with
  | nop _ ht =>
    obtain rfl | rfl := ht
    · exact hs
    · exact hs.finish
  | clrerr _ ht =>
    obtain rfl | rfl := ht
    · exact hs
    · exact (hs.clearError hb).finish
  | command _ e => exact hs.of_commandEffect e
  | element hn _ => exact Bool.noConfusion (hi.symm.trans hn)

/-! ## The engine -/

theorem fetch_cases (s : State) :
    (s.fetchOk = false ∧ fetch s = .absent) ∨ (s.fetchOk = true ∧ s.context = none ∧ fetch s = .idle) ∨
    (∃ ctx i k, s.fetchOk = true ∧ s.context = some ctx ∧
      decode s.cfg.emptySlot ctx s.source s.bp.toNat = .ok (i, k) ∧ fetch s = .run i k) ∨
    (∃ ctx e, s.fetchOk = true ∧ s.context = some ctx ∧
      decode s.cfg.emptySlot ctx s.source s.bp.toNat = .error e ∧ fetch s = .stop e) := by
  unfold fetch
  cases hf : s.fetchOk with
  | false => exact .inl ⟨rfl, rfl⟩
  | true =>
    cases hc : s.context with
    | none => exact .inr (.inl ⟨rfl, rfl, rfl⟩)
    | some ctx =>
      cases hd : decode s.cfg.emptySlot ctx s.source s.bp.toNat with
      | ok r => exact .inr (.inr (.inl ⟨ctx, r.1, r.2, rfl, rfl, hd, by simp [hd]⟩))
      | error e => exact .inr (.inr (.inr ⟨ctx, e, rfl, rfl, hd, by simp [hd]⟩))

theorem context_eq_none_iff (s : State) : s.context = none ↔ s.busy = false := by
  rw [State.not_busy_iff]
  unfold State.context
  split
  · simp_all
  · simp_all
  · simp_all
  · split <;> simp_all

theorem busy_of_context {s : State} {ctx : Ctx} (h : s.context = some ctx) : s.busy = true := by
  rw [← Bool.not_eq_false, ← context_eq_none_iff, h]
  exact Option.some_ne_none ctx

/-- The decompressor's contexts are its own. -/
theorem context_of_inflate {s : State} {ctx : Ctx} {z : Bool} {p : Phase} (he : s.engine = .inflate z p)
    (h : s.context = some ctx) : (∀ q, ctx ≠ .scanline q) ∧ ctx ≠ .chunk := by
  unfold State.context at h
  rw [he] at h
  cases p <;> cases h <;> exact ⟨fun _ => Ctx.noConfusion, Ctx.noConfusion⟩

/-- A decompression that goes on stays in its regions, which are legal, and within the capacity. -/
theorem engineOk_of_decompresses {s t : State} (hok : s.engineOk) (hs : s.decompressing) (q : Quiet s t)
    (h : Decompresses s t) : t.engineOk := by
  obtain ⟨z, p, he⟩ := hs
  obtain ⟨z', p', he'⟩ := h.1 ⟨z, p, he⟩
  simp only [State.engineOk, he] at hok
  simp only [State.engineOk, he']
  rw [q.view (State.regionsOk · .st), q.view State.dcap]
  exact ⟨hok.1, h.2 hok.2⟩

/-- `UNFILTER` that goes on keeps its regions and its geometry. -/
theorem engineOk_of_nextLine {s t : State} {y : Nat} (hok : s.engineOk) (he : s.engine = .unfilter y) (q : Quiet s t)
    (h : NextLine s t) : t.engineOk := by
  obtain ⟨y', he', hy⟩ := h
  simp only [State.engineOk, he] at hok
  simp only [State.engineOk, he']
  rw [q.view (State.regionsOk · .st), q.view State.arg1, q.view State.slen, q.view State.filtSize,
    q.view State.rawSize, q.view State.dcap]
  exact ⟨hok.1, hy, hok.2.2⟩

/-- The element a running engine has decoded, run from the cursor behind it. -/
theorem decoded_effect {s t : State} {ctx : Ctx} {i : Instr} {k : Nat} (hok : s.engineOk) (hc : s.context = some ctx)
    (hd : decode s.cfg.emptySlot ctx s.source s.bp.toNat = .ok (i, k)) (h : exec i (s.advance k) = .next t) :
    Effect State.engineOk (s.advance k) t := by
  have hok' : (s.advance k).engineOk := hok
  cases he : s.engine with
  | idle =>
    rw [(context_eq_none_iff s).mpr ((State.not_busy_iff s).mpr he)] at hc
    cases hc
  | inflate z p =>
    obtain ⟨hl, hk⟩ := context_of_inflate he hc
    exact (exec_inflateElement (decode_inflate hd hl hk) h).mono fun _ => engineOk_of_decompresses hok' ⟨z, p, he⟩
  | unfilter y =>
    simp only [State.context, he] at hc
    cases hc
    rw [decode_scanline] at hd
    cases hd
    exact (exec_ftInstr h).mono fun _ => engineOk_of_nextLine hok' he
  | chunk =>
    simp only [State.context, he] at hc
    cases hc
    obtain ⟨len, typ, crc, rfl, _⟩ := decode_chunk_ok hd
    exact (exec_chunk h).of_never

/-- A running engine on legal regions runs one element, or faults because it cannot be read; where it goes on it is
all right again. -/
theorem engineStep_effect {s t : State} (hok : s.engineOk) (h : engineStep s = .next t) :
    (s.busy = false ∧ t = s) ∨ (s.busy = true ∧ Effect State.engineOk s t) := by
  unfold engineStep at h
  rcases fetch_cases s with ⟨_, e⟩ | ⟨_, hc, e⟩ | ⟨ctx, i, k, _, hc, hd, e⟩ | ⟨ctx, e', _, hc, _, e⟩ <;> rw [e] at h
  · cases h
  · cases h
    exact .inl ⟨(context_eq_none_iff s).mp hc, rfl⟩
  · exact .inr ⟨busy_of_context hc, Effect.of_quiet (s' := s.advance k) .silent (decoded_effect hok hc hd h)⟩
  · cases h
    exact .inr ⟨busy_of_context hc, .raiseStop .silent _ _⟩

theorem engineStep_inv {s t : State} (hs : s.Inv) (h : engineStep s = .next t) : t.Inv := by
  obtain ⟨_, rfl⟩ | ⟨hb, e⟩ := engineStep_effect hs.engine h
  · exact hs
  · exact hs.of_effect (hs.running hb) e

/-! ## The host's accesses -/

/-- A write of an operand register changes the operand registers only. -/
theorem State.setX_frame (s : State) (i : Fin 9) (v : Word) :
    s.setX i v = { s with
      src := (s.setX i v).src, slen := (s.setX i v).slen, dst := (s.setX i v).dst, dcap := (s.setX i v).dcap
      dlen := (s.setX i v).dlen, arg0 := (s.setX i v).arg0, arg1 := (s.setX i v).arg1, arg2 := (s.setX i v).arg2
      res0 := (s.setX i v).res0 } := by
  unfold State.setX
  split <;> rfl

theorem isCommand_of_decodeCommand {w : Word} {i : Instr} (h : decodeCommand w = some i) : isCommand i = true := by
  unfold decodeCommand at h
  split at h <;> cases h <;> rfl

section
variable {s t : State}

theorem writeOperand_inv (hs : s.Inv) (i : Fin 9) (v : Word) : (s.writeOperand i v).Inv := by
  unfold State.writeOperand
  split
  · exact hs
  · next hb =>
    have hidle : (s.setX i v).busy = false := by
      rw [State.setX_frame]
      exact Bool.eq_false_iff.mpr hb
    have hok := engineOk_of_not_busy hidle
    rw [State.setX_frame] at hidle hok ⊢
    exact { hs with running := fun h => absurd h (by rw [hidle]; decide), engine := hok }

theorem raiseIllegal_inv (hs : s.Inv) (w : Word) : (s.raiseIllegal w).Inv :=
  have h : { s with dlen := if s.err = 0 then 0 else s.dlen }.Inv := { hs with }
  h.recordFault _ _

theorem writeCmd_inv (hs : s.Inv) {w : Word} (h : s.writeCmd w = .next t) : t.Inv := by
  unfold State.writeCmd at h
  split at h
  · cases h
    exact hs
  · next hb =>
    split at h
    · cases h
      exact raiseIllegal_inv hs w
    · next i hd => exact exec_command_inv hs (Bool.eq_false_iff.mpr hb) (isCommand_of_decodeCommand hd) h

theorem writeCsr_inv (hs : s.Inv) {n : Nat} {v : Word} (h : s.writeCsr n v = .next t) : t.Inv := by
  unfold State.writeCsr at h
  split at h
  · exact writeCmd_inv hs h
  split at h
  · cases h
    exact { hs with ctrl := by simp only [BitVec.and_assoc, BitVec.and_self] }
  · cases h
    exact hs

theorem readOperand_inv (hs : s.Inv) (i : Fin 9) : (s.readOperand i).Inv := by
  unfold State.readOperand
  split
  · exact hs.hostSide _ _ _
  · exact hs.hostSide _ _ _

theorem readCsr_inv (hs : s.Inv) (n : Nat) : (s.readCsr n).Inv := by
  unfold State.readCsr
  split
  · exact hs.hostSide _ _ _
  · exact hs.hostSide _ _ _

theorem writeByte_inv (hs : s.Inv) {a : Word} {v : Byte} (h : s.writeByte a v = .next t) : t.Inv := by
  unfold State.writeByte at h
  split at h
  · cases h
  split at h
  · cases h
  · cases h
    exact { hs with mem := Memory.wf_write hs.mem _ _ }

theorem readByte_inv (hs : s.Inv) {a : Word} (h : s.readByte a = .next t) : t.Inv := by
  unfold State.readByte at h
  split at h
  · cases h
  split at h
  · cases h
  · cases h
    exact hs.hostSide _ _ _

/-- The reset event keeps memory, settled as after a fault when it ends a command (70_reset R441). -/
theorem resetEvent_inv (hs : s.Inv) : s.resetEvent.Inv := by
  have q : Quiet s (if s.busy && s.engineUses == .st then s.settleOutput else s) := by
    split
    · exact .settleOutput s
    · exact .refl s
  constructor
  case mem => exact q.mem hs.mem
  case saved =>
    have h := hs.saved
    rw [← q.view State.saved] at h
    exact h
  case ctrl => show (4 : Word) &&& ctrlMask = 4; decide
  case treev => rfl
  case err => exact .inl rfl
  case errInfo => exact fun _ => rfl
  case running => exact fun h => nomatch h
  case engine => trivial

theorem hostAct_inv (hs : s.Inv) {a : HostAct} (h : hostAct a s = .next t) : t.Inv := by
  cases a with
  | writeX i v => cases h; exact writeOperand_inv hs i v
  | readX i => cases h; exact readOperand_inv hs i
  | writeCsr n v => exact writeCsr_inv hs h
  | readCsr n => cases h; exact readCsr_inv hs n
  | writeMem a v => exact writeByte_inv hs h
  | readMem a => exact readByte_inv hs h
  | reset => cases h; exact resetEvent_inv hs
  | wait | tick => cases h; exact hs

end

/-! ## The step -/

/-- Settles O2: the reset state meets each part of the invariant. -/
theorem resetInv : Obligations.ResetInv where
  mem := rfl
  saved := rfl
  ctrl := rfl
  treev := rfl
  err := .inl rfl
  errInfo := fun _ => rfl
  running := fun h => nomatch h
  engine := trivial

/-- Settles O4: each step is a host access or a step of the engine, and both keep the invariant. -/
theorem stepKeepsInv : Obligations.StepKeepsInv := by
  intro s t hs h
  have popped (rest : List HostAct) : { s with host := rest }.Inv := hs.hostSide rest _ _
  unfold step at h
  split at h
  · exact engineStep_inv hs h
  · split at h
    · exact engineStep_inv hs h
    · cases h
      exact popped _
  · exact engineStep_inv (popped _) h
  · exact hostAct_inv (popped _) h

end Sys2Proof.Machine

/-! PROOFS. Reset, the host's register accesses and what a step runs (10_state R21 to R35, R50; 48_commands R372). -/

namespace Sys2Proof.Machine

/-- Settles O1: the reset state, register by register (10_state R50). -/
theorem resetState : Obligations.ResetState := by
  refine ⟨fun i => ?_, rfl, rfl, rfl, ?_, ?_, rfl, rfl, rfl, rfl, rfl, rfl, rfl, rfl⟩
  · unfold State.readX
    split <;> rfl
  · decide
  · decide

/-! ## Writes -/

theorem writeCsr_cmd_of_busy {s : State} (h : s.busy = true) (w : Word) : s.writeCsr 1 w = .next s := by
  simp [State.writeCsr, State.writeCmd, h]

theorem writeCsr_cmd_of_decodeCommand {s : State} {w : Word} {i : Instr} (h : s.busy = false)
    (hd : decodeCommand w = some i) : s.writeCsr 1 w = exec i s := by
  simp [State.writeCsr, State.writeCmd, h, hd]

theorem writeCsr_ctrl_of_not_busy {s : State} (h : s.busy = false) (v : Word) :
    s.writeCsr 5 v = .next { s with ctrl := v &&& ctrlMask } := by
  simp [State.writeCsr, h]

theorem writeCsr_ctrl_of_busy {s : State} (h : s.busy = true) (v : Word) : s.writeCsr 5 v = .next s := by
  simp [State.writeCsr, h]

/-- Only `CMD` and `CTRL` take a write (10_state R28). -/
theorem writeCsr_of_read_only (s : State) {n : Nat} (v : Word) (h1 : n ≠ 1) (h5 : n ≠ 5) : s.writeCsr n v = .next s := by
  simp [State.writeCsr, h1, h5]

theorem writeOperand_of_busy {s : State} (h : s.busy = true) (i : Fin 9) (v : Word) : s.writeOperand i v = s := by
  simp [State.writeOperand, h]

theorem writeOperand_of_not_busy {s : State} (h : s.busy = false) (i : Fin 9) (v : Word) :
    s.writeOperand i v = s.setX i v := by
  simp [State.writeOperand, h]

/-- The operand registers are nine different ones (10_state R20). -/
theorem readX_setX (s : State) (i j : Fin 9) (v : Word) : (s.setX i v).readX j = if j = i then v else s.readX j := by
  fin_cases i <;> fin_cases j <;> rfl

/-! ## Reads -/

theorem readCsr_rdata {s : State} {n : Nat} (h : s.busy = false ∨ csrVolatile n = false) :
    (s.readCsr n).rdata = s.csrValue n := by
  have hv : (s.busy && csrVolatile n) = false := by
    rcases h with h | h <;> simp [h]
  simp [State.readCsr, hv]

theorem readOperand_of_not_busy {s : State} (h : s.busy = false) (i : Fin 9) :
    s.readOperand i = { s with rdata := (s.readX i).setWidth 35 } := by
  simp [State.readOperand, h]

/-- From number 9 on the CSR space reads 0, in every state (10_state R28). -/
theorem readCsr_rdata_of_unused (s : State) {n : Nat} (h : 9 ≤ n) : (s.readCsr n).rdata = 0 := by
  obtain ⟨m, rfl⟩ := Nat.exists_eq_add_of_le' h
  exact readCsr_rdata (.inr rfl)

theorem status_getLsbD_flags (s : State) :
    s.status.getLsbD 0 = s.busy ∧ s.status.getLsbD 1 = s.done ∧ s.status.getLsbD 2 = s.errf ∧
      s.status.getLsbD 3 = s.bfinal ∧ s.status.getLsbD 4 = s.treev := by
  unfold State.status
  generalize s.busy = b, s.done = d, s.errf = e, s.bfinal = f, s.treev = t
  revert b d e f t
  decide

/-- The five flags are all of `STATUS`. -/
theorem status_getLsbD_reserved (s : State) {k : Nat} (h : 5 ≤ k) : s.status.getLsbD k = false := by
  have hb := s.busy.toNat_le
  have hd := s.done.toNat_le
  have he := s.errf.toNat_le
  have hf := s.bfinal.toNat_le
  have ht := s.treev.toNat_le
  have hlt : s.busy.toNat + 2 * s.done.toNat + 4 * s.errf.toNat + 8 * s.bfinal.toNat + 16 * s.treev.toNat < 2 ^ k :=
    calc _ < 2 ^ 5 := by omega
      _ ≤ 2 ^ k := Nat.pow_le_pow_right (by decide) h
  rw [State.status, BitVec.getLsbD_ofNat, Nat.testBit_lt_two_pow hlt, Bool.and_false]

/-! ## The step -/

theorem engineStep_of_decode {s : State} {ctx : Ctx} {i : Instr} {k : Nat} (hf : s.fetchOk = true)
    (hc : s.context = some ctx) (hd : decode s.cfg.emptySlot ctx s.source s.bp.toNat = .ok (i, k)) :
    engineStep s = exec i (s.advance k) := by
  simp [engineStep, fetch, hf, hc, hd]

theorem engineStep_of_decode_error {s : State} {ctx : Ctx} {e : Stop} (hf : s.fetchOk = true)
    (hc : s.context = some ctx) (hd : decode s.cfg.emptySlot ctx s.source s.bp.toNat = .error e) :
    engineStep s = .next (s.stopFetch e) := by
  simp [engineStep, fetch, hf, hc, hd]

theorem engineStep_of_not_busy {s : State} (h : s.busy = false) : engineStep s = .next s := by
  have he := (State.not_busy_iff s).mp h
  simp [engineStep, fetch, State.fetchOk, State.context, he]

theorem step_of_no_access {s : State} (h : s.host = []) : step s = engineStep s := by simp [step, h]

theorem step_of_wait {s : State} {rest : List HostAct} (h : s.host = .wait :: rest) (hb : s.busy = true) :
    step s = engineStep s := by simp [step, h, hb]

theorem step_of_tick {s : State} {rest : List HostAct} (h : s.host = .tick :: rest) :
    step s = engineStep { s with host := rest } := by simp [step, h]

theorem step_of_writeCsr {s : State} {n : Nat} {v : Word} {rest : List HostAct} (h : s.host = .writeCsr n v :: rest) :
    step s = { s with host := rest }.writeCsr n v := by simp [step, h, hostAct]

/-! ## The obligations -/

/-- Settles O14: a write of `CMD` by the three cases of 10_state R29; `CMD` itself is no register to read. -/
theorem commandWriteStarts : Obligations.CommandWriteStarts :=
  ⟨fun _ _ _ hb hd => writeCsr_cmd_of_decodeCommand hb hd, fun w _ hb => writeCsr_cmd_of_busy hb w,
    fun _ => readCsr_rdata (.inr rfl)⟩

/-- Settles O57: the host's first access picks the case, and then the decoder's answer does. -/
theorem stepRunsDecodedInstruction : Obligations.StepRunsDecodedInstruction := by
  refine ⟨fun s ctx i k hf hc hd => ⟨fun hh => ?_, fun rest hh => ?_, fun rest hh => ?_⟩,
    fun s ctx e hf hc hd hh => ?_, fun s hb hh => ?_, fun s w i rest hh hb hd => ?_⟩
  · rw [step_of_no_access hh]
    exact engineStep_of_decode hf hc hd
  · rw [step_of_wait hh (busy_of_context hc)]
    exact engineStep_of_decode hf hc hd
  · rw [step_of_tick hh]
    exact engineStep_of_decode (s := { s with host := rest }) hf hc hd
  · rw [step_of_no_access hh]
    exact engineStep_of_decode_error hf hc hd
  · rw [step_of_no_access hh, engineStep_of_not_busy hb]
  · rw [step_of_writeCsr hh]
    exact writeCsr_cmd_of_decodeCommand (s := { s with host := rest }) hb hd

/-- Settles O58: accesses to the operand registers and writes of the CSR space, idle and busy. -/
theorem hostRegisterAccess : Obligations.HostRegisterAccess := by
  refine ⟨fun s i j v hb => ⟨s.setX i v, ?_, readX_setX s i j v, s.setX_frame i v⟩, fun s i hb => ?_,
    fun s v hb => writeCsr_ctrl_of_not_busy hb v, fun s i v hb => ?_, fun s v hb => writeCsr_ctrl_of_busy hb v,
    fun s n v h1 h5 => writeCsr_of_read_only s v h1 h5⟩
  · rw [hostAct, writeOperand_of_not_busy hb]
  · rw [hostAct, readOperand_of_not_busy hb]
  · rw [hostAct, writeOperand_of_busy hb]

/-- Settles O59: a read that the spec specifies returns the CSR's value, and `STATUS` is its five flags. -/
theorem csrReads : Obligations.CsrReads := by
  refine ⟨fun s => ⟨?_, readCsr_rdata (.inr rfl), readCsr_rdata (.inr rfl), fun n h => readCsr_rdata_of_unused s h⟩,
    fun s hb => ⟨readCsr_rdata (.inl hb), readCsr_rdata (.inl hb), readCsr_rdata (.inl hb), readCsr_rdata (.inl hb),
      readCsr_rdata (.inl hb)⟩, fun s => ?_⟩
  · rw [readCsr_rdata (.inr rfl)]
    rfl
  · obtain ⟨hb, hd, he, hf, ht⟩ := status_getLsbD_flags s
    exact ⟨hb, hd, he, hf, ht, fun k h => status_getLsbD_reserved s h⟩

end Sys2Proof.Machine

/-! PROOFS. Which bytes of memory an instruction can change: those of the output region only, and none when it uses the
input region only (20_memory R70, 48_commands R374, 60_exceptions R404). -/

namespace Sys2Proof.Machine

/-! ## Changes within a set of addresses -/

/-- From `m` to `m'` only bytes at addresses in `out` change, and the canonical form is kept. -/
def Memory.Changes (out : Nat → Prop) (m m' : Memory) : Prop :=
  m.wf = true → m'.wf = true ∧ ∀ a, ¬ out a → m'.read a = m.read a

theorem Memory.Changes.refl (out : Nat → Prop) (m : Memory) : Memory.Changes out m m := fun h => ⟨h, fun _ _ => rfl⟩

theorem Memory.Changes.trans {out : Nat → Prop} {m m' m'' : Memory} (h : Memory.Changes out m m')
    (h' : Memory.Changes out m' m'') : Memory.Changes out m m'' := fun hw =>
  have ⟨hw', hr⟩ := h hw
  have ⟨hw'', hr'⟩ := h' hw'
  ⟨hw'', fun a ha => (hr' a ha).trans (hr a ha)⟩

theorem Memory.Changes.writeBytes {out : Nat → Prop} (m : Memory) {a : Nat} {bs : List Byte}
    (h : ∀ b, a ≤ b → b < a + bs.length → out b) : Memory.Changes out m (m.writeBytes a bs) := fun hw =>
  ⟨Memory.wf_writeBytes hw a bs, fun b hb => by
    rw [Memory.read_writeBytes hw, if_neg fun hin => hb (h b hin.1 hin.2)]⟩

/-- What a fault settles are bytes of the output region only (60_exceptions R404). -/
theorem Memory.Changes.settle {out : Nat → Prop} {lo hi : Nat} (keep : Nat → Bool) (old m : Memory)
    (h : ∀ b, lo ≤ b → b < hi → out b) : Memory.Changes out m (Memory.settle keep lo hi old m) := fun hw =>
  ⟨Memory.wf_settle hw keep lo hi old, fun b hb => by
    rw [Memory.read_settle hw, if_neg fun hin => hb (h b hin.1 hin.2.1)]⟩

/-- From `s` to `t` memory changes in the output region of `s` only (20_memory R70). -/
def Confined (s t : State) : Prop := Memory.Changes s.inT s.mem t.mem

section
variable {s s' t : State}

theorem Confined.of_mem_eq (h : t.mem = s.mem) : Confined s t := by
  unfold Confined
  rw [h]
  exact .refl _ _

theorem Confined.refl (s : State) : Confined s s := .of_mem_eq rfl

theorem Confined.trans (h : Confined s s') (h' : Confined s' t) (hd : s'.dst = s.dst := by rfl)
    (hc : s'.dcap = s.dcap := by rfl) : Confined s t := by
  have hT : s'.inT = s.inT := by
    unfold State.inT
    rw [hd, hc]
  unfold Confined at h h' ⊢
  rw [hT] at h'
  exact Memory.Changes.trans h h'

/-- A later change that touches no byte. -/
theorem Confined.then_mem_eq (h : Confined s s') (e : t.mem = s'.mem := by rfl) : Confined s t := by
  unfold Confined
  rw [e]
  exact h

/-! ## The operations of a meaning -/

theorem putOut_confined (s : State) {i : Nat} {bs : List Byte} (h : i + bs.length ≤ s.dcap.toNat) :
    Confined s (s.putOut i bs) := .writeBytes s.mem fun b h1 h2 => ⟨by omega, by omega⟩

theorem append_confined (s : State) {bs : List Byte} (h : s.pos.toNat + bs.length ≤ s.dcap.toNat) :
    Confined s (s.append bs) := putOut_confined s h

theorem copyMatch_confined (s : State) (dist : Nat) {n : Nat} (h : s.pos.toNat + n ≤ s.dcap.toNat) :
    Confined s (State.copyMatch dist n s) := fun hw =>
  have hfit : s.pos.toNat + n < addrSpace := Nat.lt_of_le_of_lt h s.dcap.isLt
  ⟨State.copyMatch_mem_wf dist n hw, fun a ha => State.copyMatch_read dist n hw hfit a (by omega)⟩

theorem raise_confined (s : State) (c : Cause) (info : Nat) : Confined s (s.raise c info) :=
  .settle _ _ s.mem fun _ h1 h2 => ⟨h1, h2⟩

theorem raiseFailure_confined (s : State) (f : Failure) : Confined s (s.raiseFailure f) :=
  raise_confined s f.cause f.info

theorem raiseUses_confined (s : State) (uses : Uses) (c : Cause) (info : Nat) : Confined s (s.raiseUses uses c info) :=
  match uses with
  | .s => .of_mem_eq rfl
  | .st => raise_confined s c info

theorem raiseUser_confined (s : State) (c : Cause) (info : Nat) : Confined s (s.raiseUser c info) :=
  raise_confined { s with treev := false, u := { Config.freeTree s.free with valid := false } } c info

end

/-! ## The Huffman unit -/

/-- The sizes of a built tree's arrays (41_huffman R150, R154). -/
theorem buildFromLengths_sizes {lengths : List Nat} {maxBits : Nat} {t : Tree} (h : ∀ l ∈ lengths, l ≤ maxBits)
    (hb : buildFromLengths lengths maxBits = .ok t) :
    t.len = lengths ∧ t.code.length = lengths.length ∧ t.tab.length = 2 * lengths.length := by
  have hspec := buildFromLengths_spec h
  rw [hb] at hspec
  obtain ⟨-, -, b, hholds, rfl⟩ := hspec
  exact ⟨rfl, by simp, hholds.tab⟩

theorem length_flatMap_le16bytes {α : Type} (l : List α) (f : α → Nat) :
    (l.flatMap fun x => le16bytes (f x)).length = 2 * l.length := by
  simp [List.length_flatMap, le16bytes, Nat.mul_comm]

/-- The image is two bytes for each code and each table entry (20_memory R64). -/
theorem length_treeImage (t : Tree) : (treeImage t).length = 2 * t.code.length + 2 * t.tab.length := by
  rw [treeImage, List.length_append]
  exact congrArg₂ (· + ·) (length_flatMap_le16bytes _ id) (length_flatMap_le16bytes _ _)

/-- The image of a built tree (48_commands R386). -/
theorem length_treeImage_of_built {lengths : List Nat} {maxBits : Nat} {t : Tree} (h : ∀ l ∈ lengths, l ≤ maxBits)
    (hb : buildFromLengths lengths maxBits = .ok t) : (treeImage t).length = 6 * lengths.length := by
  obtain ⟨-, hcode, htab⟩ := buildFromLengths_sizes h hb
  rw [length_treeImage]
  omega

theorem finishUser_confined (s : State) (t : Tree) {image : List Byte}
    (h : s.dcap ≠ 0 → image.length ≤ s.dcap.toNat) : Confined s (s.finishUser t image) := by
  simp only [State.finishUser]
  split
  · exact .of_mem_eq rfl
  · next h0 =>
    have hput := putOut_confined s (i := 0) (bs := image) (by rw [Nat.zero_add]; exact h h0)
    exact hput.then_mem_eq

theorem hblBody_confined (s : State) : Confined s (hblBody s) := by
  simp only [hblBody]
  split
  · exact raiseUser_confined s _ _
  split
  · exact raiseUser_confined s _ _
  split
  · exact raiseUser_confined s _ _
  next hle =>
  split
  · exact raiseUser_confined s _ _
  next hroom =>
  split
  · exact raiseUser_confined s _ _
  · next t hb =>
    have hle' : ∀ l ∈ s.input.map BitVec.toNat, l ≤ s.arg0.toNat := by simpa using hle
    refine finishUser_confined s t fun h0 => ?_
    rw [length_treeImage_of_built hle' hb, List.length_map, State.length_input]
    exact Nat.le_of_not_lt fun hlt => hroom ⟨h0, hlt⟩

theorem hbfBody_confined (s : State) : Confined s (hbfBody s) := by
  simp only [hbfBody]
  split
  · exact raiseUser_confined s _ _
  split
  · exact raiseUser_confined s _ _
  next hcodes =>
  split
  · exact raiseUser_confined s _ _
  next hbits =>
  split
  · exact raiseUser_confined s _ _
  split
  · exact raiseUser_confined s _ _
  next hsymbols =>
  split
  · exact raiseUser_confined s _ _
  next hroom =>
  split
  · exact raiseUser_confined s _ _
  · next t b hb =>
    obtain ⟨t', b', hb', hbuilt, -, hlengths⟩ := buildFromFrequencies_spec (freq := s.freqInput s.arg2.toNat)
      (minCodes := s.arg1.toNat) (maxCodes := s.arg2.toNat) (maxBits := s.arg0.toNat)
      (by omega) (by omega) (by omega) (by omega)
    cases hb.symm.trans hb'
    have h := finishUser_confined { s with work := { s.work with bpm := b } } t
      (image := t.len.map (BitVec.ofNat 8) ++ treeImage t) fun h0 => by
        rw [List.length_append, List.length_map, length_treeImage_of_built hlengths.complete.bound hbuilt,
          hlengths.length]
        have hcap := Nat.le_of_not_lt fun hlt => hroom ⟨h0, hlt⟩
        dsimp only
        omega
    exact h

/-! ## The compressor -/

theorem finishStream_confined (s : State) (bits : List Bool) (w : Work) : Confined s (s.finishStream bits w) := by
  unfold State.finishStream
  have fits {bs : List Bool} (h : bs.length ≤ 8 * s.dcap.toNat) : Confined s (s.putOut 0 (packBits bs)) :=
    putOut_confined s (by rw [length_packBits]; omega)
  rcases State.emit_cases { s with work := w, free := s.free + 1 } bits with ⟨h, e⟩ | ⟨_, e⟩
  · rw [e]
    exact (fits h).then_mem_eq
  · rw [e]
    have h := fits (bs := bits.take (8 * s.dcap.toNat)) (by rw [List.length_take]; omega)
    exact .trans (s' := { s.putOut 0 (packBits (bits.take (8 * s.dcap.toNat))) with
      wbp := BitVec.ofNat 35 (8 * s.dcap.toNat), work := w, free := s.free + 1 }) h (raise_confined _ _ _)

theorem deflateBody_confined (s : State) : Confined s (deflateBody s) := by
  unfold deflateBody
  split
  · exact raiseFailure_confined s _
  · exact finishStream_confined s _ _

theorem zlibcBody_confined (s : State) : Confined s (zlibcBody s) := by
  simp only [zlibcBody]
  split
  · exact raiseFailure_confined s _
  · split
    · exact (finishStream_confined s _ _).then_mem_eq
    · exact finishStream_confined s _ _

/-! ## The filter engine -/

@[simp] theorem length_filterLine (t width : Nat) (cur : List Byte) (prev : Option (List Byte)) :
    (filterLine t width cur prev).length = cur.length := by simp [filterLine]

theorem length_unfilterFrom (t width : Nat) (prev done rest : List Byte) :
    (unfilterFrom t width prev done rest).length = done.length + rest.length := by
  induction rest generalizing done with
  | nil => rfl
  | cons f rest ih =>
    rw [unfilterFrom, ih, List.length_append, List.length_cons, List.length_cons, List.length_nil]
    omega

@[simp] theorem length_unfilterLine (t width : Nat) (filt : List Byte) (prev : Option (List Byte)) :
    (unfilterLine t width filt prev).length = filt.length := by
  rw [unfilterLine, length_unfilterFrom, List.length_nil, Nat.zero_add]

/-- Every filtered row is its type byte and as many bytes as the row (46_filter R335). -/
theorem length_filterRows {c : Config} {ctr width n : Nat} {strat : Strategy} {rows : List (List Byte)} {call : Nat}
    {prev : Option (List Byte)} {w w' : Work} {bytes : List Byte} (hn : ∀ r ∈ rows, r.length = n)
    (h : filterRows c ctr strat width call rows prev w = .ok (bytes, w')) :
    bytes.length = rows.length * (n + 1) := by
  induction rows generalizing call prev w w' bytes with
  | nil =>
    cases h
    simp
  | cons cur rest ih =>
    obtain ⟨hcur, hrest⟩ := List.forall_mem_cons.mp hn
    simp only [filterRows] at h
    split at h
    · cases h
    split at h
    · cases h
    · next hr =>
      cases h
      rw [List.length_append, List.length_cons, length_filterLine, ih hrest hr, hcur, List.length_cons, Nat.succ_mul]
      omega

theorem filterBody_confined (s : State) : Confined s (filterBody s) := by
  simp only [filterBody]
  split
  · exact raise_confined s _ _
  next hg =>
  split
  · exact raiseFailure_confined s _
  · next bytes w hrows =>
    have hlen : bytes.length = s.filtSize := by
      rw [length_filterRows (n := s.lineBytes) (by simp [State.rows]) hrows, State.filtSize]
      simp [State.rows]
    have hfit := (geometryFault_eq_none hg).2
    have hput := putOut_confined s (i := 0) (bs := bytes) (by omega)
    exact hput.then_mem_eq

theorem unfilterBody_confined (s : State) : Confined s (unfilterBody s) := by
  simp only [unfilterBody]
  split
  · exact raise_confined s _ _
  split
  · exact .of_mem_eq rfl
  · exact .of_mem_eq rfl

theorem scanlineElement_confined {s t : State} {k : Nat} (h : scanlineElement s k = .next t) : Confined s t := by
  obtain ⟨hok, rfl⟩ := scanlineElement_next h
  simp only [State.scanlineOk, Bool.and_eq_true, decide_eq_true_eq] at hok
  obtain ⟨-, -, hfit⟩ := hok
  have hput := putOut_confined s (i := s.scanline * s.lineBytes)
    (bs := unfilterLine k s.byteWidth (s.inBytes (s.typeOffset + 1) s.lineBytes) s.work.lines.prev)
    (by rw [length_unfilterLine, State.length_inBytes, ← Nat.succ_mul]; exact hfit)
  simp only [scanlineBody]
  split
  · exact hput.then_mem_eq
  · exact hput.then_mem_eq

/-! ## The decompressor -/

@[simp] theorem State.endBlock_mem (s : State) : s.endBlock.mem = s.mem := by
  simp only [State.endBlock, State.endInflate]
  split
  · split <;> rfl
  · rfl

theorem storedBody_confined (len nlen : BitVec 16) (s : State) : Confined s (storedBody len nlen s) := by
  simp only [storedBody]
  split
  · exact raise_confined s _ _
  split
  · exact raise_confined s _ _
  split
  · exact raise_confined s _ _
  · next hfit =>
    have h := append_confined s (bs := s.inBytes (s.bp.toNat / 8 + 4) len.toNat)
      (by rw [State.length_inBytes]; omega)
    exact h.then_mem_eq (State.endBlock_mem _)

theorem literal_confined (b : Byte) (s : State) : Confined s
    (if s.pos.toNat + 1 > s.dcap.toNat then s.raise .outputOverflow s.pos.toNat else s.append [b]) := by
  split
  · exact raise_confined s _ _
  · next h => exact append_confined s (Nat.le_of_not_lt h)

theorem matchBody_confined (length dist : Nat) (s : State) : Confined s (matchBody length dist s) := by
  unfold matchBody
  split
  · exact raise_confined s _ _
  split
  · exact raise_confined s _ _
  · next hfit => exact (copyMatch_confined s dist (Nat.le_of_not_lt hfit)).then_mem_eq

theorem buildTrees_confined (s : State) (hlit hdist : Nat) (lens : List Nat) :
    Confined s (s.buildTrees hlit hdist lens) := by
  simp only [State.buildTrees]
  split
  · exact raise_confined s _ _
  split
  · exact raiseFailure_confined s _
  split
  · exact raiseFailure_confined s _
  · exact .of_mem_eq rfl

theorem addLengths_confined (s : State) (rep v : Nat) : Confined s (s.addLengths rep v) := by
  simp only [State.addLengths]
  split
  · exact .of_mem_eq rfl
  · exact buildTrees_confined s _ _ _

theorem repeatLength_confined (s : State) (rep v : Nat) : Confined s (s.repeatLength rep v) := by
  simp only [State.repeatLength]
  split
  · exact raise_confined s _ _
  · exact addLengths_confined s _ _

theorem zhdrBody_confined (cmf flg : Byte) (s : State) : Confined s (zhdrBody cmf flg s) := by
  unfold zhdrBody
  split
  · exact raise_confined s _ _
  split
  · exact raise_confined s _ _
  split
  · exact raise_confined s _ _
  · exact .of_mem_eq rfl

theorem ztrailerBody_mem (stored : Word) (s : State) : (ztrailerBody stored s).mem = s.mem := by
  simp only [ztrailerBody]
  split <;> rfl

/-! ## Instructions that use the input region only -/

theorem chunkBody_mem (len crc : Word) (s : State) : (chunkBody len crc s).mem = s.mem := by
  simp only [chunkBody]
  split
  · rfl
  · split <;> rfl

theorem hdecBody_mem (s : State) : (hdecBody s).mem = s.mem := by
  unfold hdecBody
  split
  · split <;> rfl
  · rfl

theorem inputCommand_mem {s t : State} {body : State → State} (h : command s .s id body = .next t)
    (hb : ∀ v, (body v).mem = v.mem) : t.mem = s.mem := by
  rcases commandOr_cases s .s id (fun s => s.raiseUses .s .regionError 0) body with
    ⟨_, e⟩ | ⟨_, _, e⟩ | ⟨_, _, e⟩ | ⟨_, _, e⟩ <;> cases e.symm.trans h
  · rfl
  · rfl
  · exact hb _
  · rfl

theorem controlCommand_mem {s t : State} {body : State → State} (h : controlCommand s body = .next t)
    (hb : (body s).mem = s.mem) : t.mem = s.mem := by
  obtain rfl | rfl := controlCommand_next h
  · rfl
  · exact hb

theorem exec_mem_of_usesInputOnly {i : Instr} {s t : State} (hi : usesInputOnly i = true) (h : exec i s = .next t) :
    t.mem = s.mem := by
  unfold exec at h
  cases i with
  | nop | clrerr => exact controlCommand_mem h rfl
  | crc32 | crcchk | adler32 => exact inputCommand_mem h fun _ => rfl
  | hdec => exact inputCommand_mem h hdecBody_mem
  | chunk len typ crc =>
    obtain ⟨_, rfl⟩ := element_next h
    exact chunkBody_mem len crc s
  | _ => cases hi

/-! ## All instructions -/

theorem element_confined {s t : State} {uses : Uses} {body : State → State} (h : element s uses body = .next t)
    (hb : Confined s (body s)) : Confined s t := by
  obtain ⟨_, rfl⟩ := element_next h
  exact hb

theorem lenElement_confined {s t : State} {k extra : Nat} (h : lenElement s k extra = .next t) : Confined s t :=
  element_confined h (.of_mem_eq rfl)

theorem reservedLitLen_confined {s t : State} (h : reservedLitLen s = .next t) : Confined s t :=
  element_confined h (raise_confined s _ _)

theorem reservedDist_confined {s t : State} (h : reservedDist s = .next t) : Confined s t :=
  element_confined h (raise_confined s _ _)

theorem distElement_confined {s t : State} {d extra : Nat} (h : distElement s d extra = .next t) : Confined s t :=
  element_confined h (matchBody_confined _ _ s)

/-- The four ways a command can end (48_commands R370); the start actions touch no byte. -/
theorem command_confined {s t : State} {uses : Uses} {prep body : State → State}
    (h : command s uses prep body = .next t) (hb : ∀ v, Confined v (body v))
    (hp : ∀ v, Quiet v (prep v) ∧ (prep v).mem = v.mem := by exact fun _ => ⟨.silent, rfl⟩) : Confined s t := by
  obtain ⟨q, hm⟩ := hp s.start
  have started : ∀ {v}, Confined (prep s.start) v → Confined s v := fun c =>
    .trans (.of_mem_eq hm) c (q.view State.dst) (q.view State.dcap)
  rcases commandOr_cases s uses prep (fun s => s.raiseUses uses .regionError 0) body with
    ⟨_, e⟩ | ⟨_, _, e⟩ | ⟨_, _, e⟩ | ⟨_, _, e⟩ <;> cases e.symm.trans h
  · exact .refl s
  · exact .of_mem_eq rfl
  · exact started (hb _)
  · exact started (raiseUses_confined _ _ _ _)

theorem userCommand_confined {s t : State} {body : State → State} (h : userCommand s body = .next t)
    (hb : ∀ v, Confined v (body v)) : Confined s t := by
  have started : ∀ {v}, Confined s.start.dropUser v → Confined s v := fun c => .trans (.of_mem_eq rfl) c
  rcases commandOr_cases s .st State.dropUser (fun s => s.raiseUser .regionError 0) body with
    ⟨_, e⟩ | ⟨_, _, e⟩ | ⟨_, _, e⟩ | ⟨_, _, e⟩ <;> cases e.symm.trans h
  · exact .refl s
  · exact .of_mem_eq rfl
  · exact started (hb _)
  · exact started (raiseUser_confined _ _ _)

/-- No instruction changes a byte outside the output region (20_memory R70, 60_exceptions R404). -/
theorem exec_confined {i : Instr} {s t : State} (h : exec i s = .next t) : Confined s t := by
  by_cases hi : usesInputOnly i = true
  · exact .of_mem_eq (exec_mem_of_usesInputOnly hi h)
  unfold exec at h
  cases i with
  | nop | clrerr | crc32 | crcchk | adler32 | hdec | chunk => exact absurd rfl hi
  | inflate | zlibd => exact command_confined h fun _ => .of_mem_eq rfl
  | deflate => exact command_confined h deflateBody_confined
  | zlibc => exact command_confined h zlibcBody_confined
  | unfilter => exact command_confined h unfilterBody_confined
  | filter => exact command_confined h filterBody_confined
  | hbl => exact userCommand_confined h hblBody_confined
  | hbf => exact userCommand_confined h hbfBody_confined
  | blockStored | blockFixed | blockDynamic => exact element_confined h (.of_mem_eq rfl)
  | blockIllegal final => exact element_confined h (raise_confined { s with bfinal := final } _ _)
  | stored len nlen => exact element_confined h (storedBody_confined len nlen s)
  | lit b => exact element_confined h (literal_confined b s)
  | endOfBlock => exact element_confined h (.of_mem_eq s.endBlock_mem)
  | len257 | len258 | len259 | len260 | len261 | len262 | len263 | len264 | len265 | len266 | len267 | len268 | len269
  | len270 | len271 | len272 | len273 | len274 | len275 | len276 | len277 | len278 | len279 | len280 | len281 | len282
  | len283 | len284 | len285 => exact lenElement_confined h
  | llReserved286 | llReserved287 => exact reservedLitLen_confined h
  | dist0 | dist1 | dist2 | dist3 | dist4 | dist5 | dist6 | dist7 | dist8 | dist9 | dist10 | dist11 | dist12 | dist13
  | dist14 | dist15 | dist16 | dist17 | dist18 | dist19 | dist20 | dist21 | dist22 | dist23 | dist24 | dist25 | dist26
  | dist27 | dist28 | dist29 => exact distElement_confined h
  | dReserved30 | dReserved31 => exact reservedDist_confined h
  | clLen len => exact element_confined h (addLengths_confined s 1 _)
  | cl16 rep =>
    refine element_confined h ?_
    split
    · exact raise_confined s _ _
    · exact repeatLength_confined s _ _
  | cl17 | cl18 => exact element_confined h (repeatLength_confined s _ 0)
  | dynhdr hlit hdist hclen clens =>
    refine element_confined h ?_
    dsimp only
    split
    · exact raiseFailure_confined s _
    · exact .of_mem_eq rfl
  | zhdr cmf flg => exact element_confined h (zhdrBody_confined cmf flg s)
  | ztrailer adler => exact element_confined h (.of_mem_eq (ztrailerBody_mem adler s))
  | ftNone | ftSub | ftUp | ftAverage | ftPaeth => exact scanlineElement_confined h
  | ftIllegal => exact element_confined h (raise_confined s _ _)

/-- A running `CRCCHK` reads its chunk record, or faults because it cannot; neither touches memory (48_commands R374). -/
theorem engineStep_mem_of_chunk {s t : State} (he : s.engine = .chunk) (h : engineStep s = .next t) :
    t.mem = s.mem := by
  unfold engineStep at h
  rcases fetch_cases s with ⟨_, e⟩ | ⟨_, _, e⟩ | ⟨ctx, i, k, _, hc, hd, e⟩ | ⟨_, e', _, _, _, e⟩ <;> rw [e] at h
  · cases h
  · cases h
    rfl
  · simp only [State.context, he] at hc
    cases hc
    obtain ⟨len, typ, crc, rfl, -⟩ := decode_chunk_ok hd
    exact exec_mem_of_usesInputOnly (s := s.advance k) rfl h
  · cases h
    simp only [State.stopFetch, State.engineUses, he]
    rfl

/-- Settles O6: every operation of a meaning writes below the capacity or settles the output region, and those of an
instruction that uses `S` only write nothing. -/
theorem outsideOutputUnchanged : Obligations.OutsideOutputUnchanged :=
  ⟨fun _ _ _ hw h => (exec_confined h hw).2, fun _ _ _ hi h => exec_mem_of_usesInputOnly hi h,
    fun _ _ he h => engineStep_mem_of_chunk he h⟩

end Sys2Proof.Machine

/-! PROOFS. What makes regions legal, how a command on illegal ones ends (20_memory R69), and the host's accesses to
memory (R66, R68, R75). -/

namespace Sys2Proof.Machine

/-! ## Regions (20_memory R68, R69) -/

/-- Two ranges meet exactly when they share an address. -/
theorem rangesMeet_iff (a n b m : Nat) :
    rangesMeet a n b m = true ↔ ∃ x, (a ≤ x ∧ x < a + n) ∧ b ≤ x ∧ x < b + m := by
  rw [rangesMeet, decide_eq_true_iff]
  constructor
  · rintro ⟨hn, hm, hab, hba⟩
    exact ⟨max a b, by omega, by omega⟩
  · rintro ⟨x, hx, hx'⟩
    omega

/-- A range is legal exactly when it ends within the address space and every address of it exists. -/
theorem rangeOk_iff (c : Config) (a n : Nat) :
    rangeOk c a n = true ↔ a + n ≤ addrSpace ∧ ∀ x, a ≤ x ∧ x < a + n → memValid c x := by
  rw [rangeOk, Bool.and_eq_true, decide_eq_true_iff, List.all_eq_true]
  refine and_congr_right fun hend => ⟨fun h x hx => ⟨by omega, fun hole hm hin => ?_⟩, fun h hole hm => ?_⟩
  · have hmeet := (rangesMeet_iff a n hole.1 hole.2).mpr ⟨x, hx, hin⟩
    have := h hole hm
    rw [hmeet] at this
    cases this
  · rw [Bool.not_eq_true', Bool.eq_false_iff, Ne, rangesMeet_iff]
    rintro ⟨x, hx, hin⟩
    exact (h x hx).2 hole hm hin

theorem rangeOk_one_iff (c : Config) (a : Nat) : rangeOk c a 1 = true ↔ memValid c a := by
  rw [rangeOk_iff]
  constructor
  · rintro ⟨-, h⟩
    exact h a (by omega)
  · intro h
    refine ⟨h.1, fun x hx => ?_⟩
    obtain rfl : x = a := by omega
    exact h

theorem regionsOk_s_iff (s : State) : s.regionsOk .s = true ↔
    s.src.toNat + s.slen.toNat ≤ addrSpace ∧ ∀ a, s.inS a → memValid s.cfg a := by
  rw [State.regionsOk, Bool.and_true, rangeOk_iff]

theorem regionsOk_st_iff (s : State) : s.regionsOk .st = true ↔
    s.src.toNat + s.slen.toNat ≤ addrSpace ∧ s.dst.toNat + s.dcap.toNat ≤ addrSpace ∧
      (∀ a, ¬ (s.inS a ∧ s.inT a)) ∧ ∀ a, s.inS a ∨ s.inT a → memValid s.cfg a := by
  have hdisjoint : (!rangesMeet s.src.toNat s.slen.toNat s.dst.toNat s.dcap.toNat) = true ↔
      ∀ a, ¬ (s.inS a ∧ s.inT a) := by
    rw [Bool.not_eq_true', Bool.eq_false_iff, Ne, rangesMeet_iff, not_exists]
  rw [State.regionsOk, Bool.and_eq_true, Bool.and_eq_true, rangeOk_iff, rangeOk_iff, hdisjoint]
  constructor
  · rintro ⟨⟨hs, hsv⟩, ⟨ht, htv⟩, hd⟩
    exact ⟨hs, ht, hd, fun a => Or.rec (hsv a) (htv a)⟩
  · rintro ⟨hs, ht, hd, hv⟩
    exact ⟨⟨hs, fun a h => hv a (.inl h)⟩, ⟨ht, fun a h => hv a (.inr h)⟩, hd⟩

/-! ## `RegionError` -/

/-- What a command leaves behind whose regions are not legal: `RegionError`, and nothing read or written. -/
structure RegionFault (s t : State) : Prop where
  err : t.err = 202
  errInfo : t.errInfo = 0
  busy : t.busy = false
  done : t.done = true
  dlen : t.dlen = 0
  res0 : t.res0 = s.res0
  bp : t.bp = 0
  pos : t.pos = 0
  wbp : t.wbp = 0
  mem : s.mem.wf = true → ∀ a, t.mem.read a = s.mem.read a

/-- A fault before the command has written anything gives every byte back. -/
theorem raise_read_of_saved {s : State} (h : s.saved = s.mem) (hw : s.mem.wf = true) (c : Cause) (info a : Nat) :
    (s.raise c info).mem.read a = s.mem.read a := by
  show (Memory.settle _ _ _ s.saved s.mem).read a = s.mem.read a
  rw [h, Memory.read_settle hw, ite_self]

/-- `INFLATE` and `ZLIBD` clear `BFINAL` before the check, which the fault does not tell. -/
theorem raiseUses_regionFault {s : State} (he : s.err = 0) (final : Bool) (uses : Uses) :
    RegionFault s ({ s with bfinal := final }.start.raiseUses uses .regionError 0) := by
  cases uses with
  | s => constructor <;> simp [State.raiseUses, he, errCode]
  | st =>
    constructor
    case mem => exact fun hw a => raise_read_of_saved (s := State.start { s with bfinal := final }) rfl hw _ _ a
    all_goals simp [State.raiseUses, he, errCode]

theorem raiseUser_regionFault {s : State} (he : s.err = 0) :
    RegionFault s (s.start.dropUser.raiseUser .regionError 0) := by
  constructor
  case mem =>
    exact fun hw a => raise_read_of_saved
      (s := { s.start with treev := false, u := { Config.freeTree s.free with valid := false } }) rfl hw _ _ a
  all_goals simp [State.raiseUser, he, errCode]

theorem command_regionFault {uses : Uses} {prep body : State → State} {s : State} (hr : s.ready)
    (hno : s.regionsOk uses = false) (hp : prep = id ∨ prep = State.dropFinal) :
    ∃ t, command s uses prep body = .next t ∧ RegionFault s t := by
  obtain rfl | rfl := hp
  · exact ⟨_, command_of_not_regionsOk uses _ body hr hno, raiseUses_regionFault hr.2 s.bfinal uses⟩
  · exact ⟨_, command_of_not_regionsOk uses _ body hr hno, raiseUses_regionFault hr.2 false uses⟩

theorem exec_regionFault {i : Instr} {uses : Uses} {s : State} (hi : commandUses i = some uses) (hr : s.ready)
    (hno : s.regionsOk uses = false) : ∃ t, exec i s = .next t ∧ RegionFault s t := by
  unfold exec
  cases i with
  | inflate | zlibd =>
    cases hi
    exact command_regionFault hr hno (.inr rfl)
  | deflate | zlibc | unfilter | filter | crc32 | crcchk | adler32 | hdec =>
    cases hi
    exact command_regionFault hr hno (.inl rfl)
  | hbl | hbf =>
    cases hi
    exact ⟨_, userCommand_of_not_regionsOk _ hr hno, raiseUser_regionFault hr.2⟩
  | _ => cases hi

/-- Settles O16: legal regions address by address, and the fault of a command on illegal ones. -/
theorem regionCheck : Obligations.RegionCheck := by
  refine ⟨regionsOk_s_iff, regionsOk_st_iff, fun i uses s hi hr hno => ?_⟩
  obtain ⟨t, ht, hf⟩ := exec_regionFault hi hr hno
  exact ⟨t, ht, hf.err, hf.errInfo, hf.busy, hf.done, hf.dlen, hf.res0, hf.bp, hf.pos, hf.wbp, hf.mem⟩

/-! ## The host's accesses (20_memory R66, R68, R75) -/

section
variable {s : State} {a : Word}

theorem writeByte_of_invalid (h : ¬ memValid s.cfg a.toNat) (v : Byte) : s.writeByte a v = .fault .noSuchAddress := by
  rw [← rangeOk_one_iff] at h
  simp [State.writeByte, h]

theorem readByte_of_invalid (h : ¬ memValid s.cfg a.toNat) : s.readByte a = .fault .noSuchAddress := by
  rw [← rangeOk_one_iff] at h
  simp [State.readByte, h]

theorem writeByte_of_handedOver (h : memValid s.cfg a.toNat) (hh : s.handedOver a.toNat = true) (v : Byte) :
    s.writeByte a v = .refused .hostTouchesRegion := by
  rw [← rangeOk_one_iff] at h
  simp [State.writeByte, h, hh]

theorem readByte_of_handedOver (h : memValid s.cfg a.toNat) (hh : s.handedOver a.toNat = true) :
    s.readByte a = .refused .hostTouchesRegion := by
  rw [← rangeOk_one_iff] at h
  simp [State.readByte, h, hh]

theorem writeByte_of_not_handedOver (h : memValid s.cfg a.toNat) (hh : ¬ s.handedOver a.toNat = true) (v : Byte) :
    s.writeByte a v = .next { s with mem := s.mem.write a.toNat v } := by
  rw [← rangeOk_one_iff] at h
  simp [State.writeByte, h, hh]

theorem readByte_of_not_handedOver (h : memValid s.cfg a.toNat) (hh : ¬ s.handedOver a.toNat = true) :
    s.readByte a = .next { s with rdata := (s.mem.read a.toNat).setWidth 35 } := by
  rw [← rangeOk_one_iff] at h
  simp [State.readByte, h, hh]

end

theorem handedOver_iff (s : State) (a : Nat) :
    s.handedOver a = true ↔ s.busy = true ∧ (s.inS a ∨ s.engine ≠ .chunk ∧ s.inT a) := by
  have huses : (s.engineUses == .st) = true ↔ s.engine ≠ .chunk := by
    unfold State.engineUses
    split <;> simp_all
  rw [State.handedOver, Bool.and_eq_true, Bool.or_eq_true, Bool.and_eq_true, huses, decide_eq_true_iff,
    decide_eq_true_iff]

/-- Settles O60: the two tests of a host access, in their order. -/
theorem hostMemoryAccess : Obligations.HostMemoryAccess := by
  intro s a v
  rw [← handedOver_iff]
  exact ⟨fun hv hh => ⟨⟨_, writeByte_of_not_handedOver hv hh v, fun hw b => Memory.read_write hw _ v b⟩,
      readByte_of_not_handedOver hv hh⟩,
    fun hv hh => ⟨writeByte_of_handedOver hv hh v, readByte_of_handedOver hv hh⟩,
    fun hv => ⟨writeByte_of_invalid hv v, readByte_of_invalid hv⟩⟩

end Sys2Proof.Machine

/-! PROOFS. Bits, fields and bytes that stand in the input region are what the reader reads there (20_memory R60, R61;
40_bitio R132, R136). -/

namespace Sys2Proof.Machine

/-! ## Fields and bytes as bits -/

@[simp] theorem length_fieldBits (n v : Nat) : (fieldBits n v).length = n := by simp [fieldBits]

theorem fieldBits_succ (n v : Nat) : fieldBits (n + 1) v = v.testBit 0 :: fieldBits n (v / 2) := by
  simp [fieldBits, List.range_succ_eq_map, Function.comp_def, Nat.testBit_add_one]

theorem fieldBits_add (m n v : Nat) : fieldBits (m + n) v = fieldBits m v ++ fieldBits n (v / 2 ^ m) := by
  simp [fieldBits, List.range_add, Function.comp_def, Nat.testBit_div_two_pow, Nat.add_comm]

theorem fieldBits_mod (n v : Nat) : fieldBits n (v % 2 ^ n) = fieldBits n v :=
  List.map_congr_left fun i hi => by simp [Nat.testBit_mod_two_pow, List.mem_range.1 hi]

theorem bytesBits_cons (b : Byte) (bs : List Byte) : bytesBits (b :: bs) = fieldBits 8 b.toNat ++ bytesBits bs := rfl

theorem bytesBits_append (bs cs : List Byte) : bytesBits (bs ++ cs) = bytesBits bs ++ bytesBits cs :=
  List.flatMap_append

@[simp] theorem length_bytesBits (bs : List Byte) : (bytesBits bs).length = 8 * bs.length := by
  simp [bytesBits, List.length_flatMap, Nat.mul_comm]

theorem bytesBits_le16bytes (v : Nat) : bytesBits (le16bytes v) = fieldBits 16 v := by
  have field8 (v : Nat) : fieldBits 8 (BitVec.ofNat 8 v).toNat = fieldBits 8 v := fieldBits_mod 8 v
  rw [show (16 : Nat) = 8 + 8 from rfl, fieldBits_add, ← field8 v, ← field8 (v / 2 ^ 8)]
  simp [le16bytes, bytesBits]

/-! ## Reading what stands in the region -/

section
variable {src : Source} {k n v q : Nat}

theorem holds_append (bits bits' : List Bool) :
    src.holds k (bits ++ bits') ↔ src.holds k bits ∧ src.holds (k + bits.length) bits' := by
  unfold Source.holds
  rw [List.length_append]
  constructor
  · rintro ⟨hlen, h⟩
    refine ⟨⟨by omega, fun j hj => ?_⟩, by omega, fun j hj => ?_⟩
    · rw [h j (by omega), List.getD_append _ _ _ _ hj]
    · rw [Nat.add_assoc, h _ (by omega), List.getD_append_right _ _ _ _ (by omega), Nat.add_sub_cancel_left]
  · rintro ⟨⟨-, h⟩, hlen, h'⟩
    refine ⟨by omega, fun j hj => ?_⟩
    rcases Nat.lt_or_ge j bits.length with hj' | hj'
    · rw [h j hj', List.getD_append _ _ _ _ hj']
    · rw [List.getD_append_right _ _ _ _ hj', ← h' _ (by omega)]
      congr 1
      omega

theorem holds_cons (x : Bool) (bits : List Bool) :
    src.holds k (x :: bits) ↔ src.bit k = x ∧ src.holds (k + 1) bits := by
  rw [← List.singleton_append, holds_append]
  refine and_congr_left fun h => ⟨fun h' => by simpa using h'.2 0, fun h' => ⟨?_, fun j hj => ?_⟩⟩
  · have := h.1
    simp at this ⊢
    omega
  · obtain rfl : j = 0 := by simpa using hj
    simpa using h'

theorem field_of_holds (hv : v < 2 ^ n) (h : src.holds k (fieldBits n v)) : src.field k n = v := by
  induction n generalizing k v with
  | zero => rw [Source.field]; omega
  | succ n ih =>
    rw [fieldBits_succ, holds_cons] at h
    rw [Source.field, h.1, ih (by omega) h.2, Nat.testBit_zero]
    rcases Nat.mod_two_eq_zero_or_one v with hm | hm <;> simp [hm] <;> omega

theorem readBits_of_le (h : k + n ≤ src.nbits) : readBits src n k = .ok (src.field k n, k + n) := if_pos h

theorem readBits_of_holds (hv : v < 2 ^ n) (h : src.holds k (fieldBits n v)) : readBits src n k = .ok (v, k + n) := by
  rw [readBits_of_le (by simpa using h.1), field_of_holds hv h]

theorem byte_of_holds {b : Byte} (h : src.holds (8 * q) (fieldBits 8 b.toNat)) : src.byte q = b := by
  apply BitVec.eq_of_getLsbD_eq
  intro i hi
  have := h.2 i (by simpa using hi)
  rw [Source.bit, show (8 * q + i) / 8 = q by omega, show (8 * q + i) % 8 = i by omega] at this
  rw [this]
  simp [fieldBits, List.getD_eq_getElem?_getD, hi, BitVec.testBit_toNat, BitVec.getLsbD_eq_getElem]

theorem holds_bytes_cons {b : Byte} {bs : List Byte} (h : src.holds (8 * q) (bytesBits (b :: bs))) :
    src.byte q = b ∧ src.holds (8 * (q + 1)) (bytesBits bs) := by
  rw [bytesBits_cons, holds_append] at h
  exact ⟨byte_of_holds h.1, by simpa [Nat.mul_add] using h.2⟩

theorem holds_bytes_append {bs cs : List Byte} (h : src.holds (8 * q) (bytesBits (bs ++ cs))) :
    src.holds (8 * q) (bytesBits bs) ∧ src.holds (8 * (q + bs.length)) (bytesBits cs) := by
  rw [bytesBits_append, holds_append, length_bytesBits] at h
  rwa [Nat.mul_add]

theorem bytes_le_len_of_holds {bs : List Byte} (h : src.holds (8 * q) (bytesBits bs)) : q + bs.length ≤ src.len := by
  have := h.1
  rw [length_bytesBits, Source.nbits] at this
  omega

theorem le16_of_holds (hv : v < 65536) (h : src.holds (8 * q) (fieldBits 16 v)) :
    le16 (src.byte q) (src.byte (q + 1)) = v := by
  rw [← bytesBits_le16bytes] at h
  obtain ⟨h0, h⟩ := holds_bytes_cons h
  obtain ⟨h1, -⟩ := holds_bytes_cons h
  simp only [h0, h1, le16, BitVec.toNat_ofNat]
  omega

theorem be32At_of_holds {w : Word} (h : src.holds (8 * q) (bytesBits (be32bytes w.toNat))) :
    src.be32At q = w.toNat := by
  obtain ⟨h0, h⟩ := holds_bytes_cons h
  obtain ⟨h1, h⟩ := holds_bytes_cons h
  obtain ⟨h2, h⟩ := holds_bytes_cons h
  obtain ⟨h3, -⟩ := holds_bytes_cons h
  simp only [Source.be32At, be32, le32, h0, h1, h2, h3, BitVec.toNat_ofNat]
  omega

end

end Sys2Proof.Machine

/-! PROOFS. `DecodeSymbol` inverts the codes of every tree the builder makes (41_huffman R150, R156, R158, R160). -/

namespace Sys2Proof.Machine

/-- A finished insertion keeps what was coded and codes every pair with a length. Which codes the pairs have does not
matter, so nothing is asked of the lengths. -/
theorem insertCodes_holds {n : Nat} (pairs : List (Nat × Nat)) :
    ∀ {symbol : Nat} {b b' : TableBuild} {nodes : List (List Bool)} {coded : Nat → List Bool → Prop},
      symbol + pairs.length ≤ n → Holds n coded nodes b → (nodes.length ≤ n - 1 ∨ 0 + 1 = nodes.length) →
      insertCodes n symbol pairs b = .ok b' →
      ∃ coded' nodes', Holds n coded' nodes' b' ∧ (∀ s q, coded s q → coded' s q) ∧
        ∀ i l c, pairs[i]? = some (l, c) → l ≠ 0 → coded' (symbol + i) (codeBits l c) := by
  induction pairs with
  | nil =>
    intro symbol b b' nodes coded _ h _ hok
    cases hok
    exact ⟨coded, nodes, h, fun _ _ hq => hq, fun i l c hi => by simp at hi⟩
  | cons pair pairs ih =>
    obtain ⟨l, c⟩ := pair
    intro symbol b b' nodes coded hroom h hlen hok
    rw [List.length_cons] at hroom
    rw [insertCodes] at hok
    cases l with
    | zero =>
      obtain ⟨coded', nodes', h', hold, hnew⟩ := ih (symbol := symbol + 1) (by omega) h hlen (by simpa [insertCode] using hok)
      refine ⟨coded', nodes', h', hold, fun i l c' hi hl => ?_⟩
      cases i with
      | zero => simp at hi; omega
      | succ i => simpa [Nat.add_assoc, Nat.add_comm 1] using hnew i l c' (by simpa using hi) hl
    | succ l =>
      have hspec := insertCode_spec (code := c) (show symbol < n by omega) l h h.root hlen
      rcases hres : insertCode n symbol c (l + 1) 0 b with e | b₁
      · rw [hres] at hok
        cases hok
      · rw [hres] at hok hspec
        obtain ⟨hlen₁, -, -, h₁⟩ := hspec
        obtain ⟨coded', nodes', h', hold, hnew⟩ := ih (symbol := symbol + 1) (by omega) h₁ (.inl hlen₁) hok
        refine ⟨coded', nodes', h', fun s q hq => hold s q (.inl hq), fun i l' c' hi hl => ?_⟩
        cases i with
        | zero =>
          obtain ⟨rfl, rfl⟩ : l + 1 = l' ∧ c = c' := by simpa using hi
          exact hold _ _ (.inr ⟨rfl, rfl⟩)
        | succ i => simpa [Nat.add_assoc, Nat.add_comm 1] using hnew i l' c' (by simpa using hi) hl

@[simp] theorem length_assignCodes (lengths next : List Nat) : (assignCodes lengths next).length = lengths.length := by
  induction lengths generalizing next with
  | nil => rfl
  | cons l ls ih =>
    rw [assignCodes]
    split <;> simp [ih]

/-- A built tree's table holds the code of every coded symbol. -/
theorem built_holds {t : Tree} (ht : t.built) : ∃ coded nodes b, Holds t.n coded nodes b ∧ t.tab = b.tab ∧
    ∀ s, t.coded s → coded s (t.codeOf s) := by
  obtain ⟨lengths, maxBits, hbuild⟩ := ht
  rw [buildFromLengths] at hbuild
  split at hbuild
  · cases hbuild
  · next b hok =>
    cases hbuild
    have hlen : (canonicalCodes lengths maxBits).length = lengths.length := length_assignCodes _ _
    obtain ⟨coded, nodes, h, -, hcodes⟩ :=
      insertCodes_holds _ (by simp) (Holds.start _ (fun _ _ => False) fun _ _ hq => hq) (.inr rfl) hok
    refine ⟨coded, nodes, b, h, rfl, fun s hs => ?_⟩
    have hlt : s < lengths.length := by
      by_contra hge
      exact hs (List.getD_eq_default _ _ (by simpa using hge))
    have hpair : (lengths.zip (canonicalCodes lengths maxBits))[s]? =
        some (lengths.getD s 0, (canonicalCodes lengths maxBits).getD s 0) := by
      simp [List.getD_eq_getElem?_getD, hlen, hlt]
    have := hcodes s _ _ hpair hs
    rwa [Nat.zero_add] at this

theorem walkTree_of_symbol {policy : EmptySlot} {src : Source} {t : Tree} {left node bp v : Nat}
    (he : t.entry (2 * node + (src.bit bp).toNat) = some v) (hv : v < t.n) :
    walkTree policy src t (left + 1) node bp = .ok (v, bp + 1) := by simp [walkTree, he, hv]

theorem walkTree_of_node {policy : EmptySlot} {src : Source} {t : Tree} {left node bp j : Nat}
    (he : t.entry (2 * node + (src.bit bp).toNat) = some (t.n + j)) :
    walkTree policy src t (left + 1) node bp = walkTree policy src t left j (bp + 1) := by simp [walkTree, he]

/-- From node `p` down, the bits that complete a code lead to its symbol. -/
theorem walkTree_of_holds {coded : Nat → List Bool → Prop} {nodes : List (List Bool)} {b : TableBuild} {t : Tree}
    {s : Nat} {src : Source} (policy : EmptySlot) (h : Holds t.n coded nodes b) (htab : t.tab = b.tab)
    (bits : List Bool) : ∀ {i k left : Nat} {p : List Bool}, bits ≠ [] → nodes[i]? = some p → coded s (p ++ bits) →
      src.holds k bits → bits.length ≤ left → walkTree policy src t left i k = .ok (s, k + bits.length) := by
  induction bits with
  | nil => exact fun hne => absurd rfl hne
  | cons x bits ih =>
    intro i k left p _ hp hs hsrc hleft
    obtain ⟨hx, hsrc⟩ := (holds_cons x bits).1 hsrc
    cases left with
    | zero => simp at hleft
    | succ left =>
      rcases eq_or_ne bits [] with rfl | hne
      · exact walkTree_of_symbol (by rw [Tree.entry, htab, hx, h.code i p x s hp hs]) (h.small _ _ hs)
      · have hs' : coded s (p ++ [x] ++ bits) := by simpa using hs
        have hnode : p ++ [x] ∈ nodes :=
          (h.prefix_coded hs' (List.prefix_append _ _)).resolve_left fun e => hne (by simpa using e)
        obtain ⟨j, hj⟩ := List.getElem?_of_mem hnode
        rw [walkTree_of_node (by rw [Tree.entry, htab, hx, h.node i p x j hp hj]),
          ih hne hj hs' hsrc (by simpa using hleft), List.length_cons, Nat.add_assoc, Nat.add_comm 1]

@[simp] theorem length_codeOf (t : Tree) (s : Nat) : (t.codeOf s).length = t.len.getD s 0 := length_codeBits _ _

theorem decodeSymbol_of_holds {t : Tree} {src : Source} {s k : Nat} (policy : EmptySlot) (ht : t.built)
    (hs : t.coded s) (h : src.holds k (t.codeOf s)) :
    decodeSymbol policy src t k = .ok (s, k + (t.codeOf s).length) := by
  obtain ⟨coded, nodes, b, hb, htab, hcoded⟩ := built_holds ht
  have hne : t.codeOf s ≠ [] := fun e => hs (by rw [← length_codeOf, e, List.length_nil])
  exact walkTree_of_holds policy hb htab _ hne hb.root (hcoded s hs) h (by have := h.1; omega)

end Sys2Proof.Machine

/-! PROOFS. Stream elements sent as a code and extra bits: encoding and decoding them gives them back (30_encoding R97,
R98, R102). -/

namespace Sys2Proof.Machine

/-- A code and its extra bits are read as the symbol and the extra value. -/
theorem symbol_field_of_holds {t : Tree} {src : Source} {s n x k : Nat} (policy : EmptySlot) (ht : t.built)
    (hs : t.coded s) (hx : x < 2 ^ n) (h : src.holds k (t.codeOf s ++ fieldBits n x)) :
    decodeSymbol policy src t k = .ok (s, k + (t.codeOf s).length) ∧
    readBits src n (k + (t.codeOf s).length) = .ok (x, k + (t.codeOf s ++ fieldBits n x).length) := by
  rw [holds_append] at h
  refine ⟨decodeSymbol_of_holds policy ht hs h.1, ?_⟩
  rw [readBits_of_holds hx h.2, List.length_append, length_fieldBits, Nat.add_assoc]

/-- Instruction `i` is symbol `s` with extra value `x`: `instr` makes it from them, and it is sent as the symbol's code
in `tree` and `extra s` bits. -/
def isCoded (tree : EncEnv → Tree) (extra : Nat → Nat) (instr : Nat → Nat → Instr) (i : Instr) (s x : Nat) : Prop :=
  x < 2 ^ extra s ∧ instr s x = i ∧ ∀ e, encode e i = (tree e).codeOf s ++ fieldBits (extra s) x

/-! ## Literal/length symbols (30_encoding R97) -/

/-- How many extra bits literal/length symbol `s` has. -/
def litLenExtra (s : Nat) : Nat := if 257 ≤ s then lengthExtra.getD (s - 257) 0 else 0

theorem decode_litLen_of_holds {t : Tree} {src : Source} {s x k : Nat} (policy : EmptySlot) (ht : t.built)
    (hs : t.coded s) (hx : x < 2 ^ litLenExtra s) (h : src.holds k (t.codeOf s ++ fieldBits (litLenExtra s) x)) :
    decode policy (.litLen t) src k =
      .ok (litLenInstr s x, k + (t.codeOf s ++ fieldBits (litLenExtra s) x).length) := by
  obtain ⟨hsym, hext⟩ := symbol_field_of_holds policy ht hs hx h
  rw [litLenExtra] at hext ⊢
  simp only [decode, hsym, hext]

theorem litLen_isCoded {i : Instr} {s : Nat} (h : litLenSymbol i = some s) :
    ∃ x, isCoded EncEnv.ll litLenExtra litLenInstr i s x := by
  cases i
  case lit b =>
    cases h
    have hlt := b.isLt
    have hext : litLenExtra b.toNat = 0 := if_neg (by omega)
    exact ⟨0, by simp, by simp [litLenInstr, hlt], fun e => by rw [hext]; exact (List.append_nil _).symm⟩
  case endOfBlock | len257 | len258 | len259 | len260 | len261 | len262 | len263 | len264 | len285 | llReserved286
      | llReserved287 =>
    cases h
    exact ⟨0, by decide, rfl, fun e => (List.append_nil _).symm⟩
  case len265 x | len266 x | len267 x | len268 x | len269 x | len270 x | len271 x | len272 x | len273 x | len274 x
      | len275 x | len276 x | len277 x | len278 x | len279 x | len280 x | len281 x | len282 x | len283 x | len284 x =>
    cases h
    exact ⟨x.toNat, x.isLt, by simp [litLenInstr], fun e => rfl⟩
  all_goals cases h

/-- Settles O52: a literal/length instruction is its symbol's code and its extra bits. -/
theorem litLenElementsRoundTrip : Obligations.LitLenElementsRoundTrip := by
  intro i s e p src k hi ht hs hsrc
  obtain ⟨x, hx, hdec, henc⟩ := litLen_isCoded hi
  rw [henc] at hsrc ⊢
  rw [decode_litLen_of_holds p ht hs hx hsrc, hdec]

/-! ## Distance symbols (30_encoding R98) -/

theorem decode_dist_of_holds {t : Tree} {src : Source} {d x k : Nat} (policy : EmptySlot) (ht : t.built)
    (hd : t.coded d) (hx : x < 2 ^ distExtra.getD d 0)
    (h : src.holds k (t.codeOf d ++ fieldBits (distExtra.getD d 0) x)) :
    decode policy (.dist t) src k = .ok (distInstr d x, k + (t.codeOf d ++ fieldBits (distExtra.getD d 0) x).length) := by
  obtain ⟨hsym, hext⟩ := symbol_field_of_holds policy ht hd hx h
  simp only [decode, hsym, hext]

theorem dist_isCoded {i : Instr} {d : Nat} (h : distSymbol i = some d) :
    ∃ x, isCoded EncEnv.d (distExtra.getD · 0) distInstr i d x := by
  cases i
  case dist0 | dist1 | dist2 | dist3 | dReserved30 | dReserved31 =>
    cases h
    exact ⟨0, by decide, rfl, fun e => (List.append_nil _).symm⟩
  case dist4 x | dist5 x | dist6 x | dist7 x | dist8 x | dist9 x | dist10 x | dist11 x | dist12 x | dist13 x | dist14 x
      | dist15 x | dist16 x | dist17 x | dist18 x | dist19 x | dist20 x | dist21 x | dist22 x | dist23 x | dist24 x
      | dist25 x | dist26 x | dist27 x | dist28 x | dist29 x =>
    cases h
    exact ⟨x.toNat, x.isLt, by simp [distInstr], fun e => rfl⟩
  all_goals cases h

/-- Settles O53: a distance instruction is its symbol's code and its extra bits. -/
theorem distElementsRoundTrip : Obligations.DistElementsRoundTrip := by
  intro i d e p src k hi ht hd hsrc
  obtain ⟨x, hx, hdec, henc⟩ := dist_isCoded hi
  rw [henc] at hsrc ⊢
  rw [decode_dist_of_holds p ht hd hx hsrc, hdec]

/-! ## Code-length symbols (30_encoding R102) -/

/-- A repeat of the previous length is only read with its extra bits when there is one (43_inflate R232). -/
theorem decode_codeLen_of_holds {t : Tree} {src : Source} {c x k : Nat} {first : Bool} (policy : EmptySlot)
    (hfirst : c = 16 → first = false) (ht : t.built) (hc : t.coded c) (hx : x < 2 ^ clExtra c)
    (h : src.holds k (t.codeOf c ++ fieldBits (clExtra c) x)) :
    decode policy (.codeLen t first) src k = .ok (clInstr c x, k + (t.codeOf c ++ fieldBits (clExtra c) x).length) := by
  obtain ⟨hsym, hext⟩ := symbol_field_of_holds policy ht hc hx h
  have hrep : ¬ (c = 16 ∧ first = true) := fun h => absurd h.2 (by simp [hfirst h.1])
  simp only [decode, hsym, hext, if_neg hrep]

theorem codeLen_isCoded {i : Instr} {c : Nat} (h : codeLenSymbol i = some c) :
    ∃ x, isCoded EncEnv.cl clExtra clInstr i c x := by
  cases i
  case clLen len =>
    cases h
    have hlt := len.isLt
    have hext : clExtra len.toNat = 0 := by
      rw [clExtra, if_neg (by omega), if_neg (by omega), if_neg (by omega)]
    exact ⟨0, by simp, by simp [clInstr, hlt], fun e => by rw [hext]; exact (List.append_nil _).symm⟩
  case cl16 x | cl17 x | cl18 x =>
    cases h
    exact ⟨x.toNat, x.isLt, by simp [clInstr], fun e => rfl⟩
  all_goals cases h

end Sys2Proof.Machine

/-! PROOFS. The other stream elements: what is sent is decoded again (30_encoding R93, R95, R101 to R106). -/

namespace Sys2Proof.Machine

section
variable {e : EncEnv} {src : Source} {k : Nat} (p : EmptySlot)

/-! ## Block headers and stored lengths (30_encoding R93, R95) -/

/-- The instruction of final flag `f` and block type `ty`. -/
def blockInstr (f : Bool) (ty : Fin 4) : Instr :=
  match ty with
  | 0 => .blockStored f
  | 1 => .blockFixed f
  | 2 => .blockDynamic f
  | 3 => .blockIllegal f

theorem fieldBits_header (f : Bool) (n ty : Nat) : fieldBits (n + 1) (f.toNat + 2 * ty) = f :: fieldBits n ty := by
  rw [fieldBits_succ]
  cases f <;> simp [Nat.add_comm 1, Nat.add_div_of_dvd_right]

theorem decode_header_of_holds {f : Bool} (ty : Fin 4) (h : src.holds k (f :: fieldBits 2 ty)) :
    decode p .header src k = .ok (blockInstr f ty, k + 3) := by
  have hv : f.toNat + 2 * ty.val < 2 ^ 3 := by
    have := f.toNat_le
    omega
  have hread := readBits_of_holds hv (fieldBits_header f 2 ty ▸ h)
  simp only [decode, hread]
  fin_cases ty <;> cases f <;> rfl

/-- What stands behind the pad bits stands at the next byte. -/
theorem holds_behind_padBits {bits : List Bool} (h : src.holds k (padBits k ++ bits)) :
    src.holds (8 * (alignRead k / 8)) bits := by
  have hpad : 8 * (alignRead k / 8) = k + (padBits k).length := by
    simp only [padBits, alignRead, List.length_replicate]
    omega
  rw [hpad]
  exact ((holds_append _ _).1 h).2

theorem decode_stored_of_holds {len nlen : BitVec 16} (h : src.holds e.bp (encode e (.stored len nlen))) :
    decode p .stored src e.bp = .ok (.stored len nlen, alignRead e.bp) := by
  simp only [encode, List.append_assoc] at h
  obtain ⟨hlen, h⟩ := (holds_append _ _).1 (holds_behind_padBits h)
  obtain ⟨hnlen, -⟩ := (holds_append _ _).1 h
  have hnlen : src.holds (8 * (alignRead e.bp / 8 + 2)) (fieldBits 16 nlen.toNat) := by
    rwa [length_fieldBits] at hnlen
  have hroom : alignRead e.bp / 8 + 4 ≤ src.len := by
    have := hnlen.1
    rw [length_fieldBits, Source.nbits] at this
    omega
  have hread := le16_of_holds len.isLt hlen
  have hread' := le16_of_holds nlen.isLt hnlen
  simp [decode, hroom, hread, hread']

/-! ## The dynamic header (30_encoding R101) -/

@[simp] theorem length_flatMap_extraBits {n : Nat} (xs : List (BitVec n)) :
    (xs.flatMap fun x => extraBits x).length = n * xs.length := by
  simp [List.length_flatMap, extraBits, Nat.mul_comm]

theorem field_of_holds_extraBits {n : Nat} {x : BitVec n} (h : src.holds k (extraBits x)) : src.field k n = x.toNat :=
  field_of_holds x.isLt h

theorem fields_of_holds {n : Nat} (xs : List (BitVec n)) (h : src.holds k (xs.flatMap fun x => extraBits x)) :
    ((List.range xs.length).map fun i => BitVec.ofNat n (src.field (k + n * i) n)) = xs := by
  induction xs generalizing k with
  | nil => rfl
  | cons x xs ih =>
    rw [List.flatMap_cons, holds_append] at h
    rw [List.length_cons, List.range_succ_eq_map, List.map_cons, List.map_map, Nat.mul_zero, Nat.add_zero,
      field_of_holds_extraBits h.1, BitVec.ofNat_toNat, BitVec.setWidth_eq]
    congr 1
    rw [extraBits, length_fieldBits] at h
    refine Eq.trans (List.map_congr_left fun i _ => ?_) (ih h.2)
    rw [Function.comp, Nat.mul_succ]
    congr 2
    omega

theorem decode_dynhdr_of_holds {hlit hdist : BitVec 5} {hclen : BitVec 4} {clens : List (BitVec 3)}
    (hwf : (Instr.dynhdr hlit hdist hclen clens).wellFormed = true)
    (h : src.holds k (encode e (.dynhdr hlit hdist hclen clens))) :
    decode p .dynHeader src k = .ok (.dynhdr hlit hdist hclen clens,
      k + (encode e (.dynhdr hlit hdist hclen clens)).length) := by
  have hcount : clens.length = hclen.toNat + 4 := by simpa [Instr.wellFormed] using hwf
  have hend : k + 14 + 3 * (hclen.toNat + 4) = k + (encode e (.dynhdr hlit hdist hclen clens)).length := by
    simp [encode, extraBits, hcount]
    omega
  have hroom := h.1
  rw [← hend] at hroom ⊢
  simp only [encode, List.append_assoc, holds_append, extraBits, length_fieldBits] at h
  obtain ⟨hlit', hdist', hclen', hclens⟩ := h
  have hreadLit := field_of_holds hlit.isLt hlit'
  have hreadDist := field_of_holds hdist.isLt hdist'
  have hreadClen : src.field (k + 10) 4 = hclen.toNat := field_of_holds hclen.isLt hclen'
  have hfields : ((List.range (hclen.toNat + 4)).map fun i => BitVec.ofNat 3 (src.field (k + 14 + 3 * i) 3)) = clens := by
    rw [← hcount]
    exact fields_of_holds clens hclens
  have hread := readBits_of_le (show k + 14 ≤ src.nbits by omega)
  simp [decode, hread, hreadLit, hreadDist, hreadClen, readBits_of_le hroom, hfields]

/-! ## zlib header and trailer, filter types and chunk records (30_encoding R103 to R106) -/

theorem decode_zhdr_of_holds {cmf flg : Byte} (h : src.holds 0 (encode e (.zhdr cmf flg))) :
    decode p .zHeader src k = .ok (.zhdr cmf flg, k) := by
  have hlen : 0 + 2 ≤ src.len := bytes_le_len_of_holds (q := 0) h
  obtain ⟨h0, h⟩ := holds_bytes_cons (q := 0) h
  obtain ⟨h1, -⟩ := holds_bytes_cons h
  have hroom : ¬ src.len < 2 := by omega
  simp only [decode, if_neg hroom, h0, ← h1]

theorem decode_ztrailer_of_holds {a : Word} (h : src.holds e.bp (encode e (.ztrailer a))) :
    decode p (.trailer .afterStream) src e.bp = .ok (.ztrailer a, e.bp) := by
  have hpos : alignRead e.bp / 8 = trailerPos .afterStream src.len e.bp := by simp [alignRead, trailerPos]
  have h := holds_behind_padBits h
  rw [hpos] at h
  have hroom : trailerPos .afterStream src.len e.bp + 4 ≤ src.len := bytes_le_len_of_holds h
  simp only [decode, if_pos hroom, be32At_of_holds h, BitVec.ofNat_toNat, BitVec.setWidth_eq]

theorem exists_filterType {i : Instr} (hi : isScanline i = true) :
    ∃ t, ftInstr t = i ∧ ∀ e, encode e i = fieldBits 8 t.toNat ++ bytesBits e.data := by
  cases i
  case ftNone => exact ⟨0, rfl, fun e => rfl⟩
  case ftSub => exact ⟨1, rfl, fun e => rfl⟩
  case ftUp => exact ⟨2, rfl, fun e => rfl⟩
  case ftAverage => exact ⟨3, rfl, fun e => rfl⟩
  case ftPaeth => exact ⟨4, rfl, fun e => rfl⟩
  all_goals cases hi

theorem decode_scanline_of_holds {q : Nat} {i : Instr} (hi : isScanline i = true)
    (h : src.holds (8 * q) (encode e i)) : decode p (.scanline q) src k = .ok (i, k) := by
  obtain ⟨t, ht, henc⟩ := exists_filterType hi
  rw [henc, holds_append] at h
  rw [decode_scanline, byte_of_holds h.1, ht]

theorem ftInstr_of_illegal {t : Byte} (ht : 5 ≤ t.toNat) : ftInstr t = .ftIllegal t := by
  unfold ftInstr
  split
  case h_6 => rfl
  all_goals omega

theorem decode_ftIllegal_of_holds {q : Nat} {t : Byte} (hwf : (Instr.ftIllegal t).wellFormed = true)
    (h : src.holds (8 * q) (encode e (.ftIllegal t))) : decode p (.scanline q) src k = .ok (.ftIllegal t, k) := by
  rw [decode_scanline, byte_of_holds h, ftInstr_of_illegal (by simpa [Instr.wellFormed] using hwf)]

theorem decode_chunk_of_holds {len typ crc : Word} (hdata : e.data.length = len.toNat)
    (h : src.holds 0 (encode e (.chunk len typ crc))) : decode p .chunk src k = .ok (.chunk len typ crc, k) := by
  have hroom : 12 + len.toNat ≤ src.len := by
    have := bytes_le_len_of_holds (q := 0) h
    simp [be32bytes, hdata] at this
    omega
  obtain ⟨h, hcrc⟩ := holds_bytes_append (q := 0) h
  obtain ⟨h, -⟩ := holds_bytes_append h
  obtain ⟨hlen, htyp⟩ := holds_bytes_append h
  have hpos : 0 + (be32bytes len.toNat ++ be32bytes typ.toNat ++ e.data).length = 8 + len.toNat := by
    simp [be32bytes, hdata]
    omega
  rw [hpos] at hcrc
  have hreadLen : src.be32At 0 = len.toNat := be32At_of_holds hlen
  have hreadTyp : src.be32At 4 = typ.toNat := be32At_of_holds htyp
  have hreadCrc := be32At_of_holds hcrc
  simp [decode, show ¬ src.len < 12 by omega, hreadLen, hreadTyp, hreadCrc, show ¬ src.len - 12 < len.toNat by omega]

end

/-- Settles O54: one round trip for each format. -/
theorem otherElementsRoundTrip : Obligations.OtherElementsRoundTrip := by
  intro e p src k
  refine ⟨fun f => decode_header_of_holds p 0, fun f => decode_header_of_holds p 1,
    fun f => decode_header_of_holds p 2, fun f => decode_header_of_holds p 3,
    fun len nlen => decode_stored_of_holds p, ?codeLen,
    fun hlit hdist hclen clens => decode_dynhdr_of_holds p, fun cmf flg => decode_zhdr_of_holds p,
    fun a => decode_ztrailer_of_holds p, fun i q => decode_scanline_of_holds p, fun t q => decode_ftIllegal_of_holds p,
    fun len typ crc => decode_chunk_of_holds p⟩
  case codeLen =>
    intro i c first hi hfirst ht hc hsrc
    obtain ⟨x, hx, hdec, henc⟩ := codeLen_isCoded hi
    rw [henc] at hsrc ⊢
    rw [decode_codeLen_of_holds p hfirst ht hc hx hsrc, hdec]

end Sys2Proof.Machine

/-! PROOFS. Command words and words that are none (30_encoding R91, R92, R108), and words written out from the spec's
encodings. -/

namespace Sys2Proof.Machine

/-! ## Command words -/

/-- The 14 words of 30_encoding R92. -/
def commandWords : List Word :=
  [0x00, 0x01, 0x10, 0x11, 0x12, 0x13, 0x20, 0x21, 0x30, 0x31, 0x32, 0x40, 0x41, 0x42]

theorem decodeCommand_encodeCommand {i : Instr} (hi : isCommand i = true) :
    decodeCommand (encodeCommand i) = some i := by
  cases i
  case nop | clrerr | inflate | zlibd | deflate | zlibc | unfilter | filter | crc32 | crcchk | adler32 | hbl | hbf
      | hdec => decide
  all_goals cases hi

theorem isSome_decodeCommand_of_mem : ∀ w ∈ commandWords, (decodeCommand w).isSome = true :=
  List.all_eq_true.1 (by decide)

theorem mem_commandWords_of_decodeCommand {w : Word} {i : Instr} (h : decodeCommand w = some i) : w ∈ commandWords := by
  have hval : w.toNat ∈ commandWords.map BitVec.toNat := by
    unfold decodeCommand at h
    split at h
    case h_15 => cases h
    all_goals
      next hw =>
        rw [hw]
        decide
  obtain ⟨v, hv, hvw⟩ := List.mem_map.1 hval
  exact BitVec.eq_of_toNat_eq hvw ▸ hv

theorem decodeCommand_eq_none_iff (w : Word) : decodeCommand w = none ↔ w ∉ commandWords := by
  constructor
  · intro h hw
    simpa [h] using isSome_decodeCommand_of_mem w hw
  · intro hw
    rcases h : decodeCommand w with _ | i
    · rfl
    · exact absurd (mem_commandWords_of_decodeCommand h) hw

theorem writeCsr_cmd_of_illegal {s : State} {w : Word} (h : decodeCommand w = none) (hr : s.ready) :
    s.writeCsr 1 w = .next { s with err := 201, errInfo := w.setWidth 35, done := true, dlen := 0 } := by
  obtain ⟨hb, he⟩ := hr
  have hidle := (State.not_busy_iff s).1 hb
  have hinfo : BitVec.ofNat 35 w.toNat = w.setWidth 35 := BitVec.ofNat_toNat 35 w
  simp [State.writeCsr, State.writeCmd, State.raiseIllegal, State.recordFault, hb, he, h, hidle, hinfo, errCode]

/-- Settles O15: the words of R92 are all the decoder takes. -/
theorem illegalWordFaults : Obligations.IllegalWordFaults :=
  ⟨decodeCommand_eq_none_iff, fun _ _ => writeCsr_cmd_of_illegal⟩

/-! ## Sample words -/

/-- The lengths of the code-length code that the sampled dynamic header sends (44_deflate R278). -/
def sampleLengths : List Nat := [4, 3, 2, 2] ++ List.replicate 13 0 ++ [4, 2]

/-- Their tree. -/
def sampleTree : Tree := (buildFromLengths sampleLengths 7).toOption.getD emptyTree

theorem eq_sampleTree {cl : Tree} (h : buildFromLengths sampleLengths 7 = .ok cl) : cl = sampleTree := by
  rw [sampleTree, h]
  rfl

/-- Settles O56: the decoder run on each word. -/
theorem sampleWordsDecode : Obligations.SampleWordsDecode := by
  refine ⟨fun i => decodeCommand_encodeCommand, by decide, by decide, by decide +kernel, by decide +kernel,
    by decide +kernel, by decide +kernel, by decide +kernel, by decide +kernel, by decide +kernel, by decide +kernel,
    by decide +kernel, by decide +kernel, by decide +kernel, fun cl h => ?codeLen, by decide +kernel,
    by decide +kernel, by decide +kernel, by decide +kernel⟩
  case codeLen =>
    rw [eq_sampleTree h]
    decide +kernel

end Sys2Proof.Machine

/-! PROOFS. What is written is read back: packed bits, fields and codes (40_bitio R135, R139). -/

namespace Sys2Proof.Machine

/-- The reader's bit `k` is the written bit `k`; behind the written bits there are zeros. -/
theorem bit_ofBytes_packBits (bits : List Bool) (k : Nat) :
    (Source.ofBytes (packBits bits)).bit k = bits.getD k false := by
  have hlow : k % 8 < 8 := Nat.mod_lt k (by decide)
  have hk : 8 * (k / 8) + k % 8 = k := Nat.div_add_mod k 8
  rcases Nat.lt_or_ge (k / 8) ((bits.length + 7) / 8) with hbyte | hbyte
  · simp [Source.bit, Source.ofBytes, packBits, hbyte, hlow, hk]
  · have hzero : (Source.ofBytes (packBits bits)).byte (k / 8) = 0 :=
      List.getD_eq_default _ _ (by rwa [length_packBits])
    rw [List.getD_eq_default _ _ (by omega), Source.bit, hzero]
    exact BitVec.getLsbD_zero

theorem holds_packBits (bits : List Bool) : (Source.ofBytes (packBits bits)).holds 0 bits := by
  refine ⟨?_, fun j _ => by rw [Nat.zero_add, bit_ofBytes_packBits]⟩
  simp only [Source.nbits, Source.ofBytes, length_packBits]
  omega

theorem holds_packBits_middle (before bits after : List Bool) :
    (Source.ofBytes (packBits (before ++ bits ++ after))).holds before.length bits := by
  obtain ⟨h, -⟩ := (holds_append _ _).1 (holds_packBits (before ++ bits ++ after))
  simpa using ((holds_append _ _).1 h).2

/-- Settles O20: the packed bits are the reader's bits, and the reader inverts fields and codes that stand there. -/
theorem writtenBitsReadBack : Obligations.WrittenBitsReadBack := by
  refine ⟨holds_packBits_middle, fun src n v k => readBits_of_holds, fun t policy src s k ht hs h => ?code⟩
  case code => rw [decodeSymbol_of_holds policy ht hs h, length_codeOf]

end Sys2Proof.Machine

/-! PROOFS. The tokens of every block are valid (42_lz77 R190 to R192, R205): the literal sequence always is, and the
hash arrays stay true from block to block of a compression pass. -/

namespace Sys2Proof.Machine

/-! ## Under `MATCHER = any` -/

theorem tokenOk_all_map_lit (window : Nat) (l : List Byte) : (l.map Token.lit).all (tokenOk window) = true := by
  simp [tokenOk]

theorem expand_map_lit (l o : List Byte) : expand (l.map .lit) o = some (o ++ l) := by
  induction l generalizing o with
  | nil => simp [expand]
  | cons b l ih => simp [expand, ih]

/-- The tokens that hold every block's bytes as they are (42_lz77 R192). -/
theorem validTokens_literalTokens (window : Nat) (data : List Byte) {start stop : Nat} (h : start ≤ stop) :
    validTokens window data start stop (literalTokens data start stop) = true := by
  have hbefore : (data.take stop).take start = data.take start := by rw [List.take_take, Nat.min_eq_left h]
  have hsplit : data.take start ++ (data.take stop).drop start = data.take stop := by
    rw [← hbefore, List.take_append_drop]
  simp only [validTokens, literalTokens, tokenOk_all_map_lit, expand_map_lit, hsplit, beq_self_eq_true, Bool.and_true]

theorem validTokens_nil (window : Nat) (data : List Byte) (start : Nat) :
    validTokens window data start start [] = true := by
  simp [validTokens, expand]

/-- A proposal is used only if it is valid; what replaces it is valid too (log 12). -/
theorem validTokens_anyTokens (c : Config) (ctr call : Nat) (data : List Byte) {start stop : Nat} (h : start ≤ stop) :
    validTokens c.window data start stop (anyTokens c ctr call data start stop) = true := by
  unfold anyTokens
  split
  · next hempty =>
    subst hempty
    exact validTokens_nil c.window data start
  · simp only
    split
    · next hvalid => exact hvalid
    · exact validTokens_literalTokens c.window data h

/-! ## Under `MATCHER = reference` -/

/-- The hash arrays are fit for a block at `p`: they are true of the positions before it, of which the last block may
have visited one more than its bytes (42_lz77 R201). -/
def HashReady (c : Config) (data : List Byte) (p : Nat) (h : HashIndex) : Prop :=
  ∃ V, (V = p ∨ V = p + 1) ∧ HashTrue c (fun i => data.getD i 0) V h

theorem HashReady.fresh (c : Config) (data : List Byte) : HashReady c data 0 freshHash :=
  ⟨0, .inl rfl, HashTrue.fresh c _⟩

/-- A block from fit arrays has valid tokens and leaves the arrays fit for the next block (42_lz77 R205). -/
theorem HashReady.blockTokens {c : Config} {data : List Byte} {start stop : Nat} {w : Work}
    (h : HashReady c data start w.hash) (hm : c.matcher = .reference) (hw : 0 < c.window) (hst : start ≤ stop)
    (hs : stop ≤ data.length) (ctr call : Nat) :
    validTokens c.window data start stop (blockTokens c ctr call data start stop w).tok = true ∧
      HashReady c data stop (blockTokens c ctr call data start stop w).hash := by
  obtain ⟨V, hV, H⟩ := h
  obtain ⟨htok, hhash⟩ := blockTokens_reference hm ctr call data start stop w
  rw [htok, hhash]
  exact referenceMatch_ok hw hs hst H hV

/-! ## Block after block (44_deflate R260, R261) -/

theorem Config.window_pos_of_ok {c : Config} (h : c.ok) : 0 < c.window := by
  obtain ⟨hpow, -⟩ := h
  rw [← hpow]
  exact Nat.two_pow_pos _

theorem Config.blockSize_pos_of_ok {c : Config} (h : c.ok) : 1 ≤ c.blockSize := by
  obtain ⟨-, -, -, hb, -⟩ := h
  exact hb

/-- Every block of a pass starts inside the data, or at its end when there is none. -/
theorem block_start_le {c : Config} {len n : Nat} (hb : 1 ≤ c.blockSize) (hn : n < blockCount c len) :
    n * c.blockSize ≤ len := by
  rcases lt_max_iff.1 hn with hone | hmany
  · simp [Nat.lt_one_iff.1 hone]
  · have hmul : (n + 1) * c.blockSize ≤ len + c.blockSize - 1 := (Nat.le_div_iff_mul_le hb).1 hmany
    rw [Nat.succ_mul] at hmul
    omega

theorem beforeBlock_succ (c : Config) (ctr call : Nat) (data : List Byte) (w : Work) (n : Nat) :
    beforeBlock c ctr call data w (n + 1) =
      blockTokens c ctr (call + n) data (n * c.blockSize) (min data.length (n * c.blockSize + c.blockSize))
        (beforeBlock c ctr call data w n) := by
  simp only [beforeBlock, List.range_succ, List.foldl_append, List.foldl_cons, List.foldl_nil]

/-- A block that others follow is a full one, so the next begins where it stops. -/
theorem beforeBlock_hashReady {c : Config} (hc : c.ok) (hm : c.matcher = .reference) (ctr call : Nat)
    (data : List Byte) (w : Work) {n : Nat} (hn : n < blockCount c data.length) :
    HashReady c data (n * c.blockSize) (beforeBlock c ctr call data w n).hash := by
  have hb := Config.blockSize_pos_of_ok hc
  induction n with
  | zero => rw [Nat.zero_mul]; exact HashReady.fresh c data
  | succ n ih =>
    have hnext : n * c.blockSize + c.blockSize ≤ data.length := by
      rw [← Nat.succ_mul]; exact block_start_le hb hn
    rw [beforeBlock_succ, Nat.min_eq_right hnext, Nat.succ_mul]
    exact ((ih (by omega)).blockTokens hm (Config.window_pos_of_ok hc) (by omega) hnext ctr (call + n)).2

/-- Settles O46: by the choice `anyTokens` makes, and by the hash arrays' truth before each block of a pass. -/
theorem tokensAreValid : Obligations.TokensAreValid := by
  refine ⟨fun c ctr call data start stop h _ => validTokens_anyTokens c ctr call data h,
    fun c ctr call data w n hc hm hn => ?reference⟩
  case reference =>
    have hb := Config.blockSize_pos_of_ok hc
    have hstart := block_start_le hb hn
    exact ((beforeBlock_hashReady hc hm ctr call data w hn).blockTokens hm (Config.window_pos_of_ok hc) (by omega)
      (by omega) ctr (call + n)).1

end Sys2Proof.Machine

/-! PROOFS. What the decompressor does with block headers, stored blocks, literals, the end code and matches (43_inflate
R220 to R227, R236 to R241): the checks in their order, and the bytes written. -/

namespace Sys2Proof.Machine

/-- An element on legal regions runs its body (20_memory R69). -/
theorem element_of_regionsOk {s : State} {uses : Uses} (hr : s.regionsOk uses = true) (body : State → State) :
    element s uses body = .next (body s) := if_pos hr

/-! ## The end of a block (43_inflate R220, R238) -/

section
variable {s : State}

theorem endBlock_of_not_final (hf : s.bfinal = false) :
    s.endBlock = { s with engine := .inflate s.zlib .header } :=
  if_neg (Bool.eq_false_iff.1 hf)

theorem endBlock_of_final (hf : s.bfinal = true) : s.endBlock = s.endInflate := if_pos hf

theorem endInflate_of_no_trailer (h : s.zlib = false ∨ s.ignoreAdler = true) :
    s.endInflate = { s with dlen := s.pos, engine := .idle, done := true } := by
  have hno : (s.zlib && !s.ignoreAdler) = false := by rcases h with h | h <;> simp [h]
  rw [State.endInflate, hno]; rfl

theorem endInflate_of_trailer (hz : s.zlib = true) (hi : s.ignoreAdler = false) :
    s.endInflate = { s with dlen := s.pos, engine := .inflate true .trailer } := by
  have hgo : (s.zlib && !s.ignoreAdler) = true := by simp [hz, hi]
  rw [← hz, State.endInflate, hgo]; rfl

end

/-- Settles O28: whether the block is the last one, and then whether a trailer is to be verified. -/
theorem endOfBlock : Obligations.EndOfBlock := fun _ hr =>
  ⟨element_of_regionsOk hr State.endBlock, endBlock_of_not_final,
    fun hf hno => (endBlock_of_final hf).trans (endInflate_of_no_trailer hno),
    fun hf hz hi => (endBlock_of_final hf).trans (endInflate_of_trailer hz hi)⟩

/-- Settles O25: a header's body opens the block or faults, as its type says. -/
theorem blockHeaders : Obligations.BlockHeaders := fun final _ hr =>
  ⟨element_of_regionsOk hr fun s => s.openBlock final .stored,
    element_of_regionsOk hr fun s => s.openBlock final (.symbols true),
    element_of_regionsOk hr fun s => s.openBlock final .dynHeader,
    element_of_regionsOk hr fun s => State.raise { s with bfinal := final } .invalidBlockType s.bp.toNat⟩

/-! ## Bytes at the output cursor (10_state R24) -/

/-- Bytes at the output cursor change these bytes and no other (20_memory R66). -/
theorem append_read {s : State} (hw : s.mem.wf = true) (bs : List Byte) (a : Nat) :
    (s.append bs).mem.read a =
      if s.dst.toNat + s.pos.toNat ≤ a ∧ a < s.dst.toNat + s.pos.toNat + bs.length
      then bs.getD (a - (s.dst.toNat + s.pos.toNat)) 0 else s.mem.read a :=
  Memory.read_writeBytes hw _ bs a

/-- Bytes that fit advance the output cursor without wrap. -/
theorem append_pos_toNat {s : State} {bs : List Byte} (h : s.pos.toNat + bs.length < addrSpace) :
    (s.append bs).pos.toNat = s.pos.toNat + bs.length := by
  rw [State.append_pos, BitVec.toNat_ofNat, Nat.mod_eq_of_lt h]

/-! ## Literals (43_inflate R237) -/

section
variable {s : State}

theorem execLit_of_overflow (hr : s.regionsOk .st = true) (h : s.dcap.toNat < s.pos.toNat + 1) (b : Byte) :
    execLit b s = .next (s.raise .outputOverflow s.pos.toNat) :=
  (element_of_regionsOk hr _).trans (congrArg _ (if_pos h))

theorem execLit_of_fits (hr : s.regionsOk .st = true) (h : s.pos.toNat + 1 ≤ s.dcap.toNat) (b : Byte) :
    execLit b s = .next (s.append [b]) :=
  (element_of_regionsOk hr _).trans (congrArg _ (if_neg (Nat.not_lt.2 h)))

theorem append_singleton_read (hw : s.mem.wf = true) (b : Byte) (a : Nat) :
    (s.append [b]).mem.read a = if a = s.dst.toNat + s.pos.toNat then b else s.mem.read a := by
  rw [append_read hw, List.length_singleton]
  by_cases ha : a = s.dst.toNat + s.pos.toNat
  · simp [ha]
  · rw [if_neg ha, if_neg (by omega)]

end

/-- Settles O27: the capacity check, and one byte appended. -/
theorem literalWrites : Obligations.LiteralWrites := fun b _ hr hw =>
  ⟨fun hover => execLit_of_overflow hr hover b,
    fun hfit => ⟨_, execLit_of_fits hr hfit b, append_singleton_read hw b⟩⟩

/-! ## Stored blocks (43_inflate R225, R226) -/

section
variable {len nlen : BitVec 16} {s : State}

theorem storedBody_of_lengthMismatch (h : len.toNat + nlen.toNat ≠ 65535) :
    storedBody len nlen s = s.raise .storedLenMismatch s.bp.toNat := if_pos h

theorem storedBody_of_inputEnd (h : len.toNat + nlen.toNat = 65535)
    (hin : s.slen.toNat < s.bp.toNat / 8 + 4 + len.toNat) :
    storedBody len nlen s = s.raise .endOfInput s.bp.toNat :=
  (if_neg (not_not.2 h)).trans (if_pos hin)

theorem storedBody_of_overflow (h : len.toNat + nlen.toNat = 65535)
    (hin : s.bp.toNat / 8 + 4 + len.toNat ≤ s.slen.toNat) (hout : s.dcap.toNat < s.pos.toNat + len.toNat) :
    storedBody len nlen s = s.raise .outputOverflow s.pos.toNat :=
  (if_neg (not_not.2 h)).trans ((if_neg (Nat.not_lt.2 hin)).trans (if_pos hout))

theorem storedBody_of_fits (h : len.toNat + nlen.toNat = 65535)
    (hin : s.bp.toNat / 8 + 4 + len.toNat ≤ s.slen.toNat) (hout : s.pos.toNat + len.toNat ≤ s.dcap.toNat) :
    storedBody len nlen s = State.endBlock { s with
      mem := (s.append (s.inBytes (s.bp.toNat / 8 + 4) len.toNat)).mem
      pos := BitVec.ofNat 32 (s.pos.toNat + len.toNat)
      bp := BitVec.ofNat 35 (8 * (s.bp.toNat / 8 + 4 + len.toNat)) } := by
  have hpos := State.append_pos s (s.inBytes (s.bp.toNat / 8 + 4) len.toNat)
  rw [State.length_inBytes] at hpos
  rw [← hpos]
  exact (if_neg (not_not.2 h)).trans ((if_neg (Nat.not_lt.2 hin)).trans (if_neg (Nat.not_lt.2 hout)))

end

/-- Input bytes written at the output cursor. -/
theorem append_inBytes_read {s : State} (hw : s.mem.wf = true) (i n a : Nat) :
    (s.append (s.inBytes i n)).mem.read a =
      if s.dst.toNat + s.pos.toNat ≤ a ∧ a < s.dst.toNat + s.pos.toNat + n
      then s.mem.read (s.src.toNat + i + (a - (s.dst.toNat + s.pos.toNat))) else s.mem.read a := by
  rw [append_read hw, State.length_inBytes]
  by_cases ha : s.dst.toNat + s.pos.toNat ≤ a ∧ a < s.dst.toNat + s.pos.toNat + n
  · rw [if_pos ha, if_pos ha, State.inBytes, Memory.getD_readBytes _ _ _ _ (by omega)]
  · rw [if_neg ha, if_neg ha]

/-- Settles O26: the three checks in their order, then `LEN` input bytes appended. -/
theorem storedBlockCopies : Obligations.StoredBlockCopies := by
  intro len nlen s hr hw
  have run : exec (.stored len nlen) s = .next (storedBody len nlen s) := element_of_regionsOk hr _
  rw [run]
  exact ⟨fun h => congrArg _ (storedBody_of_lengthMismatch h), fun h =>
    ⟨fun hin => congrArg _ (storedBody_of_inputEnd h hin), fun hin =>
      ⟨fun hout => congrArg _ (storedBody_of_overflow h hin hout), fun hout =>
        ⟨_, congrArg _ (storedBody_of_fits h hin hout), append_inBytes_read hw _ _⟩⟩⟩⟩

/-! ## The back-reference copy (43_inflate R240) -/

/-- One step of the copy writes the byte `dist` behind the output cursor. -/
theorem copyByte_read {s : State} (hw : s.mem.wf = true) {dist : Nat} (hd : dist ≤ s.pos.toNat) (a : Nat) :
    (s.append (s.outBytes (s.pos.toNat - dist) 1)).mem.read a =
      if a = s.dst.toNat + s.pos.toNat then s.mem.read (s.dst.toNat + s.pos.toNat - dist) else s.mem.read a := by
  rw [append_read hw, State.length_outBytes]
  by_cases ha : a = s.dst.toNat + s.pos.toNat
  · rw [if_pos (by omega), if_pos ha, ha, Nat.sub_self, State.outBytes, Memory.getD_readBytes _ _ _ _ Nat.one_pos,
      Nat.add_zero, Nat.add_sub_assoc hd]
  · rw [if_neg (by omega), if_neg ha]

/-- Byte `j` of the copy is byte `j mod dist` of the last `dist` bytes. The first step writes byte 0; for the rest, the
window of `dist` bytes has moved on by one, and its last byte is the one just written. -/
theorem copyMatch_read_repeat {dist n : Nat} {s : State} (hw : s.mem.wf = true) (h1 : 1 ≤ dist)
    (hd : dist ≤ s.pos.toNat) (hn : s.pos.toNat + n < addrSpace) {j : Nat} (hj : j < n) :
    (State.copyMatch dist n s).mem.read (s.dst.toNat + s.pos.toNat + j) =
      s.mem.read (s.dst.toNat + s.pos.toNat - dist + j % dist) := by
  induction n generalizing s j with
  | zero => omega
  | succ n ih =>
    have hbyte := copyByte_read hw hd
    have hpos : (s.append (s.outBytes (s.pos.toNat - dist) 1)).pos.toNat = s.pos.toNat + 1 :=
      append_pos_toNat (by rw [State.length_outBytes]; omega)
    have hdst : (s.append (s.outBytes (s.pos.toNat - dist) 1)).dst = s.dst := rfl
    have hw' := State.append_mem_wf hw (s.outBytes (s.pos.toNat - dist) 1)
    rw [State.copyMatch]
    generalize s.append (s.outBytes (s.pos.toNat - dist) 1) = s' at *
    cases j with
    | zero =>
      rw [State.copyMatch_read dist n hw' (by omega) _ (by rw [hdst]; omega), hbyte, if_pos (by omega), Nat.zero_mod,
        Nat.add_zero]
    | succ j =>
      have hlt := Nat.mod_lt j h1
      have hrest := ih hw' (by omega) (by omega) (Nat.lt_of_succ_lt_succ hj)
      rw [hpos, hdst, hbyte] at hrest
      rw [show s.dst.toNat + s.pos.toNat + (j + 1) = s.dst.toNat + (s.pos.toNat + 1) + j by omega, hrest,
        ← Nat.mod_add_mod]
      by_cases hlast : j % dist + 1 = dist
      · rw [if_pos (by omega), hlast, Nat.mod_self, Nat.add_zero]
      · rw [if_neg (by omega), Nat.mod_eq_of_lt (show j % dist + 1 < dist by omega)]
        congr 1; omega

/-- Settles O31: the frame of a copy, its bytes below and beyond the new output, and the repeated ones in it. -/
theorem matchCopyRepeats : Obligations.MatchCopyRepeats := by
  intro dist n s hw h1 hd hfit
  have hn : s.pos.toNat + n < addrSpace := hfit.trans_lt s.dcap.isLt
  have hpos : (State.copyMatch dist n s).pos = BitVec.ofNat 32 (s.pos.toNat + n) :=
    BitVec.eq_of_toNat_eq (by rw [State.copyMatch_pos dist n hn, BitVec.toNat_ofNat, Nat.mod_eq_of_lt hn])
  refine ⟨(State.copyMatch dist n s).mem, by rw [← hpos]; exact State.copyMatch_frame dist n s, fun a => ?read⟩
  case read =>
    by_cases ha : s.dst.toNat + s.pos.toNat ≤ a ∧ a < s.dst.toNat + s.pos.toNat + n
    · rw [if_pos ha, ← copyMatch_read_repeat hw h1 hd hn (by omega), Nat.add_sub_cancel' ha.1]
    · rw [if_neg ha, State.copyMatch_read dist n hw hn a (by omega)]

/-! ## Lengths and distances (43_inflate R239, R241) -/

/-- Settles O29: entry `k` of `LENGTH_BASE` is the base of symbol `257 + k`. -/
theorem lengthSymbols : Obligations.LengthSymbols := by
  intro s hr
  have len (k extra : Nat) : lenElement s k extra =
      .next (s.toPhase (.distance s.fixedTrees (lengthBase.getD k 0 + extra))) := element_of_regionsOk hr _
  have reserved : reservedLitLen s = .next (s.raise .invalidLitLenSymbol s.bp.toNat) :=
    element_of_regionsOk hr fun s => s.raise .invalidLitLenSymbol s.bp.toNat
  exact ⟨len 0 0, len 1 0, len 2 0, len 3 0, len 4 0, len 5 0, len 6 0, len 7 0,
    fun x => len 8 x.toNat, fun x => len 9 x.toNat, fun x => len 10 x.toNat, fun x => len 11 x.toNat,
    fun x => len 12 x.toNat, fun x => len 13 x.toNat, fun x => len 14 x.toNat, fun x => len 15 x.toNat,
    fun x => len 16 x.toNat, fun x => len 17 x.toNat, fun x => len 18 x.toNat, fun x => len 19 x.toNat,
    fun x => len 20 x.toNat, fun x => len 21 x.toNat, fun x => len 22 x.toNat, fun x => len 23 x.toNat,
    fun x => len 24 x.toNat, fun x => len 25 x.toNat, fun x => len 26 x.toNat, fun x => len 27 x.toNat,
    len 28 0, reserved, reserved⟩

section
variable {s : State} {length dist : Nat}

theorem matchBody_of_fits (hd : dist ≤ s.pos.toNat) (hfit : s.pos.toNat + length ≤ s.dcap.toNat) :
    matchBody length dist s = (s.copyMatch dist length).toPhase (.symbols s.fixedTrees) :=
  (if_neg (Nat.not_lt.2 hd)).trans (if_neg (Nat.not_lt.2 hfit))

theorem matchBody_of_tooFar (hd : s.pos.toNat < dist) :
    matchBody length dist s = s.raise .distanceTooFar s.bp.toNat := if_pos hd

theorem matchBody_of_overflow (hd : dist ≤ s.pos.toNat) (hover : s.dcap.toNat < s.pos.toNat + length) :
    matchBody length dist s = s.raise .outputOverflow s.pos.toNat :=
  (if_neg (Nat.not_lt.2 hd)).trans (if_pos hover)

end

/-- An instruction that is distance symbol `d` stands for its base plus its extra value. -/
theorem distanceMeans_of_distElement {s : State} (hr : s.regionsOk .st = true) {i : Instr} (d extra : Nat)
    (hi : exec i s = distElement s d extra) : distanceMeans i (distBase.getD d 0 + extra) s := by
  have run : exec i s = .next (matchBody s.pendingLength (distBase.getD d 0 + extra) s) :=
    hi.trans (element_of_regionsOk hr _)
  rw [distanceMeans, run]
  exact ⟨fun hd hfit => congrArg _ (matchBody_of_fits hd hfit), fun hd => congrArg _ (matchBody_of_tooFar hd),
    fun hd hover => congrArg _ (matchBody_of_overflow hd hover)⟩

/-- Settles O30: entry `d` of `DIST_BASE` is the base of symbol `d`. -/
theorem distanceSymbols : Obligations.DistanceSymbols := by
  intro s hr
  have dist {i : Instr} (d extra : Nat) (hi : exec i s = distElement s d extra) :
      distanceMeans i (distBase.getD d 0 + extra) s := distanceMeans_of_distElement hr d extra hi
  have reserved : reservedDist s = .next (s.raise .invalidDistanceSymbol s.bp.toNat) :=
    element_of_regionsOk hr fun s => s.raise .invalidDistanceSymbol s.bp.toNat
  exact ⟨dist 0 0 rfl, dist 1 0 rfl, dist 2 0 rfl, dist 3 0 rfl,
    fun x => dist 4 x.toNat rfl, fun x => dist 5 x.toNat rfl, fun x => dist 6 x.toNat rfl,
    fun x => dist 7 x.toNat rfl, fun x => dist 8 x.toNat rfl, fun x => dist 9 x.toNat rfl,
    fun x => dist 10 x.toNat rfl, fun x => dist 11 x.toNat rfl, fun x => dist 12 x.toNat rfl,
    fun x => dist 13 x.toNat rfl, fun x => dist 14 x.toNat rfl, fun x => dist 15 x.toNat rfl,
    fun x => dist 16 x.toNat rfl, fun x => dist 17 x.toNat rfl, fun x => dist 18 x.toNat rfl,
    fun x => dist 19 x.toNat rfl, fun x => dist 20 x.toNat rfl, fun x => dist 21 x.toNat rfl,
    fun x => dist 22 x.toNat rfl, fun x => dist 23 x.toNat rfl, fun x => dist 24 x.toNat rfl,
    fun x => dist 25 x.toNat rfl, fun x => dist 26 x.toNat rfl, fun x => dist 27 x.toNat rfl,
    fun x => dist 28 x.toNat rfl, fun x => dist 29 x.toNat rfl,
    reserved, reserved⟩

end Sys2Proof.Machine

/-! PROOFS. The dynamic header (43_inflate R229 to R233): the code-length tree, the code lengths, the block's trees. -/

namespace Sys2Proof.Machine

/-! ## Counts and the code-length tree (43_inflate R229, R230) -/

/-- The lengths of the code-length alphabet as `clLengths` places them, for any order and any array to start from. -/
def placeLengths (order : List Nat) (clens : List (BitVec 3)) (l : List Nat) : List Nat :=
  (order.zip clens).foldl (fun l e => l.set e.1 e.2.toNat) l

theorem clLengths_eq_placeLengths (clens : List (BitVec 3)) :
    clLengths clens = placeLengths clclOrder clens (List.replicate 19 0) := rfl

theorem placeLengths_cons (k : Nat) (order : List Nat) (x : BitVec 3) (clens : List (BitVec 3)) (l : List Nat) :
    placeLengths (k :: order) (x :: clens) l = placeLengths order clens (l.set k x.toNat) := rfl

theorem length_placeLengths (order : List Nat) (clens : List (BitVec 3)) (l : List Nat) :
    (placeLengths order clens l).length = l.length := by
  induction order generalizing clens l with
  | nil => rfl
  | cons k order ih =>
    cases clens with
    | nil => rfl
    | cons x clens => rw [placeLengths_cons, ih, List.length_set]

theorem getD_placeLengths_of_not_mem {order : List Nat} {j : Nat} (hj : j ∉ order) (clens : List (BitVec 3))
    (l : List Nat) : (placeLengths order clens l).getD j 0 = l.getD j 0 := by
  induction order generalizing clens l with
  | nil => rfl
  | cons k order ih =>
    cases clens with
    | nil => rfl
    | cons x clens =>
      have hk : k ≠ j := fun e => hj (e ▸ List.mem_cons_self)
      rw [placeLengths_cons, ih (fun h => hj (List.mem_cons_of_mem _ h)), List.getD_eq_getElem?_getD,
        List.getElem?_set_ne hk, ← List.getD_eq_getElem?_getD]

/-- Field `i` lands at place `order[i]`; a place whose field is missing keeps its 0. -/
theorem getD_placeLengths {order : List Nat} (hnodup : order.Nodup) (clens : List (BitVec 3)) {l : List Nat}
    (hlt : ∀ k ∈ order, k < l.length) (hzero : ∀ k ∈ order, l.getD k 0 = 0) {i : Nat} (hi : i < order.length) :
    (placeLengths order clens l).getD (order.getD i 0) 0 = (clens.getD i 0).toNat := by
  induction order generalizing clens l i with
  | nil => exact absurd hi (Nat.not_lt_zero _)
  | cons k order ih =>
    obtain ⟨hk, hnodup⟩ := List.nodup_cons.1 hnodup
    cases clens with
    | nil => exact hzero _ (getD_mem hi)
    | cons x clens =>
      rw [placeLengths_cons]
      cases i with
      | zero =>
        rw [List.getD_cons_zero, getD_placeLengths_of_not_mem hk, List.getD_eq_getElem?_getD,
          List.getElem?_set_self (hlt k List.mem_cons_self)]
        rfl
      | succ i =>
        refine ih hnodup clens (fun j hj => ?_) (fun j hj => ?_) (Nat.lt_of_succ_lt_succ hi)
        · rw [List.length_set]; exact hlt j (List.mem_cons_of_mem _ hj)
        · have hkj : k ≠ j := fun e => hk (e ▸ hj)
          rw [List.getD_eq_getElem?_getD, List.getElem?_set_ne hkj, ← List.getD_eq_getElem?_getD]
          exact hzero j (List.mem_cons_of_mem _ hj)

theorem length_clLengths (clens : List (BitVec 3)) : (clLengths clens).length = 19 := length_placeLengths _ _ _

theorem getD_clLengths (clens : List (BitVec 3)) {i : Nat} (hi : i < 19) :
    (clLengths clens).getD (clclOrder.getD i 0) 0 = (clens.getD i 0).toNat :=
  getD_placeLengths (by decide) clens (by decide) (by decide) hi

section
variable {clens : List (BitVec 3)} {s : State}

theorem execDynhdr_of_error (hr : s.regionsOk .st = true) {e : Nat}
    (he : buildFromLengths (clLengths clens) 7 = .error e) (hlit hdist : BitVec 5) (hclen : BitVec 4) :
    execDynhdr hlit hdist hclen clens s = .next (s.raiseFailure ⟨.huffTreeMalformed, e, some .cl⟩) := by
  simp only [execDynhdr, element_of_regionsOk hr, he]

theorem execDynhdr_of_ok (hr : s.regionsOk .st = true) {t : Tree} (ht : buildFromLengths (clLengths clens) 7 = .ok t)
    (hlit hdist : BitVec 5) (hclen : BitVec 4) :
    execDynhdr hlit hdist hclen clens s = .next { s with
      work := { s.work with cl := t }
      engine := .inflate s.zlib (.codeLens (hlit.toNat + 257) (hdist.toNat + 1) []) } := by
  simp only [execDynhdr, element_of_regionsOk hr, ht]; rfl

end

/-- Settles O34: the build fails or fills slot `CL`, and `clLengths` puts each field in its place. -/
theorem dynamicHeader : Obligations.DynamicHeader := fun hlit hdist hclen clens _ hr =>
  ⟨fun _ he => execDynhdr_of_error hr he hlit hdist hclen, fun _ ht => execDynhdr_of_ok hr ht hlit hdist hclen,
    length_clLengths clens, fun _ hi => getD_clLengths clens hi⟩

/-! ## Code lengths (43_inflate R231, R232) -/

section
variable {z : Bool} {hlit hdist : Nat} {lens : List Nat} {s : State}

theorem codeLens_of_engine (he : s.engine = .inflate z (.codeLens hlit hdist lens)) :
    s.codeLens = (hlit, hdist, lens) := by rw [State.codeLens, he]

theorem zlib_of_engine {p : Phase} (he : s.engine = .inflate z p) : s.zlib = z := by rw [State.zlib, he]

theorem addLengths_of_lt (he : s.engine = .inflate z (.codeLens hlit hdist lens)) {rep : Nat} (v : Nat)
    (h : lens.length + rep < hlit + hdist) :
    s.addLengths rep v = { s with engine := .inflate z (.codeLens hlit hdist (lens ++ List.replicate rep v)) } := by
  have hlen : (lens ++ List.replicate rep v).length < hlit + hdist := by simpa using h
  simp only [State.addLengths, codeLens_of_engine he, if_pos hlen, State.toPhase, zlib_of_engine he]

theorem addLengths_of_eq (he : s.engine = .inflate z (.codeLens hlit hdist lens)) {rep : Nat} (v : Nat)
    (h : lens.length + rep = hlit + hdist) :
    s.addLengths rep v = s.buildTrees hlit hdist (lens ++ List.replicate rep v) := by
  have hlen : ¬ (lens ++ List.replicate rep v).length < hlit + hdist := by simp [h]
  simp only [State.addLengths, codeLens_of_engine he, if_neg hlen]

theorem repeatLength_of_le (he : s.engine = .inflate z (.codeLens hlit hdist lens)) {rep : Nat} (v : Nat)
    (h : lens.length + rep ≤ hlit + hdist) : s.repeatLength rep v = s.addLengths rep v := by
  simp only [State.repeatLength, codeLens_of_engine he, if_neg (Nat.not_lt.2 h)]

theorem repeatLength_of_lt (he : s.engine = .inflate z (.codeLens hlit hdist lens)) {rep : Nat} (v : Nat)
    (h : hlit + hdist < lens.length + rep) : s.repeatLength rep v = s.raise .repeatOverflow s.bp.toNat := by
  simp only [State.repeatLength, codeLens_of_engine he, if_pos h]

/-- A repeat that fits but does not fill the lengths. -/
theorem repeatLength_goes_on (he : s.engine = .inflate z (.codeLens hlit hdist lens)) {rep : Nat} (v : Nat)
    (h : lens.length + rep < hlit + hdist) :
    s.repeatLength rep v = { s with engine := .inflate z (.codeLens hlit hdist (lens ++ List.replicate rep v)) } :=
  (repeatLength_of_le he v h.le).trans (addLengths_of_lt he v h)

/-- A repeat that fills the lengths. -/
theorem repeatLength_fills (he : s.engine = .inflate z (.codeLens hlit hdist lens)) {rep : Nat} (v : Nat)
    (h : lens.length + rep = hlit + hdist) :
    s.repeatLength rep v = s.buildTrees hlit hdist (lens ++ List.replicate rep v) :=
  (repeatLength_of_le he v h.le).trans (addLengths_of_eq he v h)

theorem exec_clLen (hr : s.regionsOk .st = true) (l : BitVec 4) : exec (.clLen l) s = .next (s.addLengths 1 l.toNat) :=
  element_of_regionsOk hr fun s => s.addLengths 1 l.toNat

theorem exec_cl17 (hr : s.regionsOk .st = true) (r : BitVec 3) :
    exec (.cl17 r) s = .next (s.repeatLength (3 + r.toNat) 0) :=
  element_of_regionsOk hr fun s => s.repeatLength (3 + r.toNat) 0

theorem exec_cl18 (hr : s.regionsOk .st = true) (r : BitVec 7) :
    exec (.cl18 r) s = .next (s.repeatLength (11 + r.toNat) 0) :=
  element_of_regionsOk hr fun s => s.repeatLength (11 + r.toNat) 0

theorem exec_cl16_of_getLast (hr : s.regionsOk .st = true) (he : s.engine = .inflate z (.codeLens hlit hdist lens))
    {v : Nat} (hv : lens.getLast? = some v) (r : BitVec 2) :
    exec (.cl16 r) s = .next (s.repeatLength (3 + r.toNat) v) := by
  change execCl16 r s = _
  simp only [execCl16, element_of_regionsOk hr, codeLens_of_engine he, hv]

theorem exec_cl16_of_nil (hr : s.regionsOk .st = true) (he : s.engine = .inflate z (.codeLens hlit hdist []))
    (r : BitVec 2) : exec (.cl16 r) s = .next (s.raise .repeatWithoutPrevious s.bp.toNat) := by
  change execCl16 r s = _
  simp only [execCl16, element_of_regionsOk hr, codeLens_of_engine he, List.getLast?_nil]

end

/-- Settles O32: each symbol appends its lengths, and a repeat first looks for a previous length and for room. -/
theorem codeLengthSymbols : Obligations.CodeLengthSymbols := by
  intro z hlit hdist lens s hr he
  refine ⟨fun l h => ?len, fun r v hv h => ?previous, fun r h => ?zeros3, fun r h => ?zeros11,
    fun r hnil => ?noPrevious, fun r hne h => ?overflow16, fun r h => ?overflow17, fun r h => ?overflow18⟩
  case len => rw [exec_clLen hr, addLengths_of_lt he _ h]; rfl
  case previous => rw [exec_cl16_of_getLast hr he hv, repeatLength_goes_on he v h]
  case zeros3 => rw [exec_cl17 hr, repeatLength_goes_on he 0 h]
  case zeros11 => rw [exec_cl18 hr, repeatLength_goes_on he 0 h]
  case noPrevious => exact exec_cl16_of_nil hr (hnil ▸ he) r
  case overflow16 => rw [exec_cl16_of_getLast hr he (List.getLast?_eq_some_getLast hne), repeatLength_of_lt he _ h]
  case overflow17 => rw [exec_cl17 hr, repeatLength_of_lt he 0 h]
  case overflow18 => rw [exec_cl18 hr, repeatLength_of_lt he 0 h]

/-! ## The block's trees (43_inflate R233) -/

section
variable {hlit hdist : Nat} {lens ll dd : List Nat} {s : State} {tll td : Tree} {e : Nat}

theorem buildTrees_of_noEndCode (hll : lens.take hlit ++ List.replicate (288 - hlit) 0 = ll)
    (hend : ll.getD 256 0 = 0) : s.buildTrees hlit hdist lens = s.raise .noEndCode s.bp.toNat := by
  simp only [State.buildTrees, hll, if_pos hend]

theorem buildTrees_of_ll_error (hll : lens.take hlit ++ List.replicate (288 - hlit) 0 = ll)
    (hend : ll.getD 256 0 ≠ 0) (he : buildFromLengths ll 15 = .error e) :
    s.buildTrees hlit hdist lens = s.raiseFailure ⟨.huffTreeMalformed, e, some .ll⟩ := by
  simp only [State.buildTrees, hll, if_neg hend, he]

theorem buildTrees_of_d_error (hll : lens.take hlit ++ List.replicate (288 - hlit) 0 = ll)
    (hdd : (lens.drop hlit).take hdist ++ List.replicate (32 - hdist) 0 = dd) (hend : ll.getD 256 0 ≠ 0)
    (htll : buildFromLengths ll 15 = .ok tll) (he : buildFromLengths dd 15 = .error e) :
    s.buildTrees hlit hdist lens = s.raiseFailure ⟨.huffTreeMalformed, e, some .d⟩ := by
  simp only [State.buildTrees, hll, hdd, if_neg hend, htll, he]

theorem buildTrees_of_ok (hll : lens.take hlit ++ List.replicate (288 - hlit) 0 = ll)
    (hdd : (lens.drop hlit).take hdist ++ List.replicate (32 - hdist) 0 = dd) (hend : ll.getD 256 0 ≠ 0)
    (htll : buildFromLengths ll 15 = .ok tll) (htd : buildFromLengths dd 15 = .ok td) :
    s.buildTrees hlit hdist lens =
      { s with work := { s.work with ll := tll, d := td }, engine := .inflate s.zlib (.symbols false) } := by
  simp only [State.buildTrees, hll, hdd, if_neg hend, htll, htd]; rfl

end

/-- The first `n` of some lengths and then zeros are the array of size `m` that reads so. -/
theorem take_append_zeros_eq {lens l : List Nat} {n m : Nat} (hn : n ≤ lens.length) (hm : n ≤ m) (hl : l.length = m)
    (h : ∀ k, k < m → l.getD k 0 = if k < n then lens.getD k 0 else 0) :
    lens.take n ++ List.replicate (m - n) 0 = l := by
  have htake : (lens.take n).length = n := List.length_take_of_le hn
  refine List.ext_getElem (by simp [hl]; omega) fun k _ hk => ?_
  rw [← List.getD_eq_getElem l 0 hk, h k (hl ▸ hk)]
  by_cases hlt : k < n
  · rw [if_pos hlt, List.getElem_append_left (by rwa [htake]), List.getElem_take, List.getD_eq_getElem]
  · rw [if_neg hlt, List.getElem_append_right (by rw [htake]; omega), List.getElem_replicate]

/-- Settles O33: the symbol that fills the lengths goes to `buildTrees`, whose two arrays are the padded ones. -/
theorem lastCodeLengthBuildsTrees : Obligations.LastCodeLengthBuildsTrees := by
  refine ⟨fun z hlit hdist lens s hr he => ?fills,
    fun hlit hdist lens ll dd s hlen hlit288 hdist32 hll hdd hlls hdds => ?builds⟩
  case fills =>
    refine ⟨fun l h => ?len, fun r v hv h => ?previous, fun r h => ?zeros3, fun r h => ?zeros11⟩
    case len => rw [exec_clLen hr, addLengths_of_eq he _ h]; rfl
    case previous => rw [exec_cl16_of_getLast hr he hv, repeatLength_fills he v h]
    case zeros3 => rw [exec_cl17 hr, repeatLength_fills he 0 h]
    case zeros11 => rw [exec_cl18 hr, repeatLength_fills he 0 h]
  case builds =>
    have hll' : lens.take hlit ++ List.replicate (288 - hlit) 0 = ll :=
      take_append_zeros_eq (by omega) hlit288 hll hlls
    have hdd' : (lens.drop hlit).take hdist ++ List.replicate (32 - hdist) 0 = dd :=
      take_append_zeros_eq (by rw [List.length_drop]; omega) hdist32 hdd fun k hk => by
        rw [hdds k hk, List.getD_eq_getElem?_getD, List.getD_eq_getElem?_getD, List.getElem?_drop]
    exact ⟨buildTrees_of_noEndCode hll', fun hend => ⟨fun _ he => buildTrees_of_ll_error hll' hend he,
      fun _ _ htll he => buildTrees_of_d_error hll' hdd' hend htll he,
      fun _ _ htll htd => buildTrees_of_ok hll' hdd' hend htll htd⟩⟩

end Sys2Proof.Machine

/-! PROOFS. Stored blocks (44_deflate R262): the bits the compressor writes are the decoder's elements, and reading them
gives the block back (44_deflate R290, 30_encoding R95). -/

namespace Sys2Proof.Machine

/-! ## A stored block as stream elements -/

theorem padBits_eq_replicate (k : Nat) : padBits k = List.replicate (padTo8 k) false := by
  rw [padBits, alignRead, padTo8]
  congr 1
  omega

/-- The length word of a stored block (30_encoding R95). -/
def storedLen (bs : List Byte) : BitVec 16 := BitVec.ofNat 16 bs.length

/-- Its complement. -/
def storedNlen (bs : List Byte) : BitVec 16 := BitVec.ofNat 16 (65535 - bs.length)

/-- Where the length words of a stored block at `k` stand, with the block's data (30_encoding R95). -/
def storedEnv (k : Nat) (bs : List Byte) : EncEnv := { EncEnv.fixed with bp := k + 3, data := bs }

/-- A stored block is its header and a length element behind it (44_deflate R262). -/
theorem storedBits_eq_encode (final : Bool) (k : Nat) (bs : List Byte) : storedBits final k bs =
    encode (storedEnv k bs) (.blockStored final) ++
      encode (storedEnv k bs) (.stored (storedLen bs) (storedNlen bs)) := by
  have hle16 (v : Nat) : bytesBits (le16bytes v) = fieldBits 16 (BitVec.ofNat 16 v).toNat := by
    rw [bytesBits_le16bytes, BitVec.toNat_ofNat, fieldBits_mod]
  simp [storedBits, encode, storedEnv, storedLen, storedNlen, padBits_eq_replicate, bytesBits_append, hle16]

/-- The end of a stored block at `k`: the length words and the data stand at the next byte behind the header. -/
theorem storedBits_end (final : Bool) (k : Nat) (bs : List Byte) :
    k + (storedBits final k bs).length = 8 * (alignRead (k + 3) / 8 + 4 + bs.length) := by
  simp [storedBits, le16bytes, padTo8, alignRead]
  omega

/-! ## Reading it back -/

/-- Bytes that stand in the region are the region's bytes. -/
theorem byte_getD_of_holds {src : Source} {q : Nat} {bs : List Byte} (h : src.holds (8 * q) (bytesBits bs)) {j : Nat}
    (hj : j < bs.length) : src.byte (q + j) = bs.getD j 0 := by
  induction bs generalizing q j with
  | nil => exact absurd hj (Nat.not_lt_zero j)
  | cons b bs ih =>
    obtain ⟨hb, hbs⟩ := holds_bytes_cons h
    cases j with
    | zero => exact hb
    | succ j => rw [show q + (j + 1) = q + 1 + j by omega, ih hbs (Nat.lt_of_succ_lt_succ hj), List.getD_cons_succ]

/-- The data of a stored block stand behind the pad bits and the two length words. -/
theorem data_of_holds_storedBits {src : Source} {final : Bool} {k : Nat} {bs : List Byte}
    (h : src.holds k (storedBits final k bs)) : src.holds (8 * (alignRead (k + 3) / 8 + 4)) (bytesBits bs) := by
  rw [storedBits, ← padBits_eq_replicate, List.append_assoc] at h
  exact (holds_bytes_append (holds_behind_padBits ((holds_append _ _).1 h).2)).2

/-- Settles O55: the header and the length words by the round trip of their elements, the data byte by byte. -/
theorem storedBlockReadsBack : Obligations.StoredBlockReadsBack := by
  intro final k bs src p hlen h
  have hdata := data_of_holds_storedBits h
  have hend := storedBits_end final k bs
  rw [storedBits_eq_encode] at h
  obtain ⟨hheader, hwords⟩ := (holds_append _ _).1 h
  have halign : alignRead (k + 3) = 8 * (alignRead (k + 3) / 8) := by
    rw [alignRead]
    omega
  have hl : (storedLen bs).toNat = bs.length := Nat.mod_eq_of_lt (by omega)
  have hn : (storedNlen bs).toNat = 65535 - bs.length := Nat.mod_eq_of_lt (by omega)
  refine ⟨decode_header_of_holds p 0 hheader, storedLen bs, storedNlen bs, alignRead (k + 3) / 8, ?words, hl, by omega,
    bytes_le_len_of_holds hdata, hend, fun j => byte_getD_of_holds hdata⟩
  case words => rw [← halign]; exact decode_stored_of_holds p (e := storedEnv k bs) hwords

end Sys2Proof.Machine

/-! PROOFS. `DEFLATE` puts the bits of its pass into the output region, or overflows (44_deflate R260, R283, 48_commands
R378), and what a pass of one stored block writes (44_deflate R261, R262). -/

namespace Sys2Proof.Machine

/-! ## The end of a compressor command -/

section
variable {s : State} {bits : List Bool} {w : Work}

/-- The end of a stream that fits: its bytes from the first of the output region on, and nothing else in memory. -/
theorem finishStream_of_fits (w : Work) (h : bits.length ≤ 8 * s.dcap.toNat) :
    s.finishStream bits w = { s with
      mem := s.mem.writeBytes s.dst.toNat (packBits bits), work := w, free := s.free + 1, engine := .idle, done := true
      dlen := BitVec.ofNat 32 ((bits.length + 7) / 8), wbp := BitVec.ofNat 35 bits.length } := by
  have hemit : ({ s with work := w, free := s.free + 1 } : State).emit bits = .ok _ := if_pos h
  rw [State.finishStream, hemit]
  rfl

/-- A stream that does not fit: `OutputOverflow` with `wbp` at the end of the region (40_bitio R135). -/
theorem finishStream_of_overflow (w : Work) (h : 8 * s.dcap.toNat < bits.length) :
    s.finishStream bits w = { s with
      mem := s.mem.writeBytes s.dst.toNat (packBits (bits.take (8 * s.dcap.toNat))), work := w, free := s.free + 1
      wbp := BitVec.ofNat 35 (8 * s.dcap.toNat) }.raise .outputOverflow s.dcap.toNat := by
  have hemit : ({ s with work := w, free := s.free + 1 } : State).emit bits = .error _ := if_neg (Nat.not_le.2 h)
  rw [State.finishStream, hemit]
  rfl

/-! ## `DEFLATE` -/

theorem exec_deflate_of_pass (hr : s.ready) (hreg : s.regionsOk .st = true)
    (hpass : deflate s.cfg s.free 0 s.btmode s.input 0 s.work = .ok (bits, w)) :
    exec .deflate s = .next (s.start.finishStream bits w) := by
  have hbody : deflateBody s.start = s.start.finishStream bits w := by
    have hstart : deflate s.start.cfg s.start.free 0 s.start.btmode s.start.input 0 s.start.work = .ok (bits, w) :=
      hpass
    rw [deflateBody, hstart]
  rw [← hbody]
  exact command_of_regionsOk .st id deflateBody hr hreg

theorem exec_deflate_of_fits (hr : s.ready) (hreg : s.regionsOk .st = true) (hw : s.mem.wf = true)
    (hpass : deflate s.cfg s.free 0 s.btmode s.input 0 s.work = .ok (bits, w))
    (hfit : bits.length ≤ 8 * s.dcap.toNat) :
    ∃ m, exec .deflate s = .next { s.started with
        mem := m, work := w, free := s.free + 1, done := true, dlen := BitVec.ofNat 32 ((bits.length + 7) / 8)
        wbp := BitVec.ofNat 35 bits.length } ∧
      ∀ a, m.read a = if s.dst.toNat ≤ a ∧ a < s.dst.toNat + (bits.length + 7) / 8
        then (packBits bits).getD (a - s.dst.toNat) 0 else s.mem.read a := by
  refine ⟨s.mem.writeBytes s.dst.toNat (packBits bits), ?_, fun a => ?_⟩
  · rw [exec_deflate_of_pass hr hreg hpass, finishStream_of_fits (s := s.start) w hfit, State.started,
      (State.not_busy_iff s).1 hr.1]
    rfl
  · rw [Memory.read_writeBytes hw, length_packBits]

theorem exec_deflate_of_overflow (hr : s.ready) (hreg : s.regionsOk .st = true)
    (hpass : deflate s.cfg s.free 0 s.btmode s.input 0 s.work = .ok (bits, w))
    (hover : 8 * s.dcap.toNat < bits.length) :
    ∃ t, exec .deflate s = .next t ∧ t.err = 83 ∧ t.errInfo.toNat = s.dcap.toNat ∧ t.dlen = 0 ∧
      t.wbp.toNat = 8 * s.dcap.toNat ∧ t.busy = false ∧ t.done = true := by
  have hdcap := s.dcap.isLt
  refine ⟨_, by rw [exec_deflate_of_pass hr hreg hpass, finishStream_of_overflow (s := s.start) w hover], ?_⟩
  simp [hr.2, errCode]
  omega

end

/-! ## A pass of one stored block -/

theorem deflate_stored_of_one_block (c : Config) (ctr call k : Nat) {data : List Byte} (w : Work)
    (hb : 1 ≤ c.blockSize) (hlen : data.length ≤ c.blockSize) :
    ∃ w', deflate c ctr call .stored data k w = .ok (storedBits true k data, w') := by
  have hone : blockCount c data.length = 1 :=
    Nat.max_eq_left (Nat.le_of_lt_succ (Nat.div_lt_of_lt_mul (by omega)))
  rw [deflate, hone]
  simp [writeBlocks, writeBlock, hlen]

/-- A final stored block that starts at a byte boundary is whole bytes (44_deflate R262). -/
theorem storedBits_eq_bytesBits {k : Nat} (bs : List Byte) (hk : k % 8 = 0) : storedBits true k bs =
    bytesBits ([1] ++ le16bytes bs.length ++ le16bytes (65535 - bs.length) ++ bs) := by
  have hpad : padTo8 (k + 3) = 5 := by
    rw [padTo8]
    omega
  have hheader : bytesBits [1] = [true, false, false] ++ List.replicate 5 false := by decide
  simp only [storedBits, hpad, List.append_assoc, bytesBits_append, hheader]

theorem packBits_bytesBits (bs : List Byte) : packBits (bytesBits bs) = bs := by
  have hlen : (packBits (bytesBits bs)).length = bs.length := by
    rw [length_packBits, length_bytesBits]
    omega
  refine List.ext_getElem hlen fun j hj hj' => ?_
  have hbyte : (packBits (bytesBits bs)).getD (0 + j) 0 = bs.getD j 0 :=
    byte_getD_of_holds (q := 0) (holds_packBits (bytesBits bs)) hj'
  rwa [Nat.zero_add, List.getD_eq_getElem _ _ hj, List.getD_eq_getElem _ _ hj'] at hbyte

/-- Settles O43: the pass is one stored block from a byte boundary, so its packed bits are the block's bytes. -/
theorem deflateStores : Obligations.DeflateStores := by
  intro s hr hreg hw hmode hb hblock hlen hroom
  have hinput := s.length_input
  obtain ⟨w, hpass⟩ := deflate_stored_of_one_block s.cfg s.free 0 0 s.work hb (hinput ▸ hblock)
  rw [← hmode, storedBits_eq_bytesBits s.input rfl, hinput] at hpass
  generalize hbytes : [1] ++ le16bytes s.slen.toNat ++ le16bytes (65535 - s.slen.toNat) ++ s.input = bytes at hpass ⊢
  have hsize : bytes.length = s.slen.toNat + 5 := by
    simp [← hbytes, le16bytes]
  have hbits : (bytesBits bytes).length = 8 * (s.slen.toNat + 5) := by rw [length_bytesBits, hsize]
  have hround : (8 * (s.slen.toNat + 5) + 7) / 8 = s.slen.toNat + 5 := by omega
  obtain ⟨m, hexec, hmem⟩ := exec_deflate_of_fits hr hreg hw hpass (by omega)
  rw [hbits, hround] at hexec
  rw [hbits, hround, packBits_bytesBits] at hmem
  exact ⟨m, w, hexec, hmem⟩

end Sys2Proof.Machine

/-! PROOFS. What a block of the compressor is made of: its symbols (44_deflate R263, R264), the coded lengths (R274),
the plan (R271 to R276), and its bits in each mode with their number (R262, R265, R277, R281). -/

namespace Sys2Proof.Machine

/-! ## Symbols (44_deflate R263) -/

theorem getD_le_of_lt_takeWhile (table : List Nat) {v i : Nat} (hi : i < (table.takeWhile (· ≤ v)).length) :
    table.getD i 0 ≤ v := by
  have hmem := List.mem_takeWhile_imp (List.getElem_mem hi)
  have hprefix := (List.takeWhile_prefix (l := table) (· ≤ v)).getElem hi
  have hlt : i < table.length := Nat.lt_of_lt_of_le hi (List.takeWhile_prefix _).length_le
  rw [List.getD_eq_getElem _ _ hlt, ← hprefix]
  simpa using hmem

theorem lt_getD_length_takeWhile (table : List Nat) {v : Nat} (h : (table.takeWhile (· ≤ v)).length < table.length) :
    v < table.getD (table.takeWhile (· ≤ v)).length 0 := by
  induction table with
  | nil => exact absurd h (Nat.lt_irrefl 0)
  | cons b table ih =>
    by_cases hb : b ≤ v
    · have htail : (b :: table).takeWhile (· ≤ v) = b :: table.takeWhile (· ≤ v) :=
        List.takeWhile_cons_of_pos (by simpa)
      rw [htail] at h ⊢
      exact ih (Nat.lt_of_succ_lt_succ h)
    · rw [List.takeWhile_cons_of_neg (by simpa using hb)]
      exact Nat.lt_of_not_le hb

/-- What `lastIndex` finds in a table whose steps its extra fields cover: the entry `v` belongs to. -/
theorem lastIndex_spec {table extra : List Nat} {v : Nat} (h0 : table.getD 0 0 ≤ v) (hne : 0 < table.length)
    (hstep : ∀ i, i < table.length - 1 → table.getD (i + 1) 0 ≤ table.getD i 0 + 2 ^ extra.getD i 0)
    (hlast : v < table.getD (table.length - 1) 0 + 2 ^ extra.getD (table.length - 1) 0) :
    table.getD (lastIndex table v) 0 ≤ v ∧
      v < table.getD (lastIndex table v) 0 + 2 ^ extra.getD (lastIndex table v) 0 ∧
      (lastIndex table v < table.length - 1 → v < table.getD (lastIndex table v + 1) 0) := by
  have hlt := lastIndex_lt table (v := v) hne
  have hpos : 0 < (table.takeWhile (· ≤ v)).length := by
    by_contra hzero
    have := lt_getD_length_takeWhile table (v := v) (by omega)
    rw [Nat.eq_zero_of_not_pos hzero] at this
    omega
  have hsucc : lastIndex table v + 1 = (table.takeWhile (· ≤ v)).length := Nat.sub_add_cancel hpos
  have hnext (h : lastIndex table v < table.length - 1) : v < table.getD (lastIndex table v + 1) 0 := by
    rw [hsucc]
    exact lt_getD_length_takeWhile table (by omega)
  refine ⟨getD_le_of_lt_takeWhile table (by omega), ?_, hnext⟩
  rcases Nat.lt_or_ge (lastIndex table v) (table.length - 1) with h | h
  · exact Nat.lt_of_lt_of_le (hnext h) (hstep _ h)
  · rwa [show lastIndex table v = table.length - 1 by omega]

theorem lengthSymbol_spec {len : Nat} (h3 : 3 ≤ len) (h258 : len ≤ 258) :
    lengthBase.getD (lastIndex lengthBase len) 0 ≤ len ∧
      len < lengthBase.getD (lastIndex lengthBase len) 0 + 2 ^ lengthExtra.getD (lastIndex lengthBase len) 0 ∧
      (lastIndex lengthBase len < 28 → len < lengthBase.getD (lastIndex lengthBase len + 1) 0) :=
  lastIndex_spec (table := lengthBase) h3 (by decide) (by decide) (Nat.lt_succ_of_le h258)

theorem distSymbol_spec {dist : Nat} (h1 : 1 ≤ dist) (hmax : dist ≤ 32768) :
    distBase.getD (lastIndex distBase dist) 0 ≤ dist ∧
      dist < distBase.getD (lastIndex distBase dist) 0 + 2 ^ distExtra.getD (lastIndex distBase dist) 0 ∧
      (lastIndex distBase dist < 29 → dist < distBase.getD (lastIndex distBase dist + 1) 0) :=
  lastIndex_spec (table := distBase) h1 (by decide) (by decide) (Nat.lt_succ_of_le hmax)

theorem inAlphabets_of_mem_symbols (toks : List Token) : ∀ y ∈ toks.map symbolOf, inAlphabets y :=
  List.forall_mem_map.2 fun t _ => symbolOf_inAlphabets t

/-! ## Coded lengths (44_deflate R274) -/

/-- `codes` send the lengths `ls`: expanded behind any lengths they append `ls`, they do not start with a repeat of a
length before them, and every entry is a code-length symbol with an extra value that fits its field. -/
structure Sends (ls : List Nat) (codes : List (Nat × Nat)) : Prop where
  expands : ∀ lens, expandRle codes lens = lens ++ ls
  starts : ∀ v, codes.head? ≠ some (16, v)
  fields : ∀ e ∈ codes, e.1 ≤ 18 ∧ e.2 < 2 ^ clExtra e.1

theorem expandRle_append (codes codes' : List (Nat × Nat)) (lens : List Nat) :
    expandRle (codes ++ codes') lens = expandRle codes' (expandRle codes lens) := by
  induction codes generalizing lens with
  | nil => rfl
  | cons e codes ih => exact ih _

theorem Sends.nil : Sends [] [] := ⟨fun lens => (List.append_nil lens).symm, by simp, by simp⟩

theorem Sends.append {ls ls' : List Nat} {codes codes' : List (Nat × Nat)} (h : Sends ls codes)
    (h' : Sends ls' codes') : Sends (ls ++ ls') (codes ++ codes') where
  expands lens := by rw [expandRle_append, h.expands, h'.expands, List.append_assoc]
  starts v := by
    cases codes with
    | nil => exact h'.starts v
    | cons e codes => exact h.starts v
  fields e he := (List.mem_append.1 he).elim (h.fields e) (h'.fields e)

theorem Sends.single {v : Nat} (hv : v ≤ 15) : Sends (List.replicate 1 v) [(v, 0)] where
  expands lens := by simp [expandRle, show v ≠ 16 by omega, show v ≠ 17 by omega, show v ≠ 18 by omega]
  starts x := by simp; omega
  fields e he := by
    obtain rfl := List.mem_singleton.1 he
    exact ⟨by dsimp only; omega, Nat.two_pow_pos _⟩

theorem Sends.zeros3 {n : Nat} (h3 : 3 ≤ n) (h10 : n ≤ 10) : Sends (List.replicate n 0) [(17, n - 3)] where
  expands lens := by simp [expandRle, Nat.add_sub_cancel' h3]
  starts x := by simp
  fields e he := by
    obtain rfl := List.mem_singleton.1 he
    exact ⟨by simp, show n - 3 < 8 by omega⟩

theorem Sends.zeros11 {n : Nat} (h11 : 11 ≤ n) (h138 : n ≤ 138) : Sends (List.replicate n 0) [(18, n - 11)] where
  expands lens := by simp [expandRle, Nat.add_sub_cancel' h11]
  starts x := by simp
  fields e he := by
    obtain rfl := List.mem_singleton.1 he
    exact ⟨by simp, show n - 11 < 128 by omega⟩

/-- A run goes on with a repeat of its last length. -/
theorem Sends.repeatLast {v n m : Nat} {codes : List (Nat × Nat)} (h : Sends (List.replicate (n + 1) v) codes)
    (h3 : 3 ≤ m) (h6 : m ≤ 6) : Sends (List.replicate (n + 1 + m) v) (codes ++ [(16, m - 3)]) where
  expands lens := by
    have hlast : (lens ++ List.replicate (n + 1) v).getLast?.getD 0 = v := by
      rw [List.replicate_succ', ← List.append_assoc, List.getLast?_concat, Option.getD_some]
    rw [expandRle_append, h.expands, expandRle, expandRle, if_pos rfl, hlast, Nat.add_sub_cancel' h3,
      List.append_assoc, List.replicate_append_replicate]
  starts x := by
    cases codes with
    | nil => exact absurd (h.expands []) (by simp [expandRle])
    | cons e codes => exact h.starts x
  fields e he := by
    rcases List.mem_append.1 he with he | he
    · exact h.fields e he
    · obtain rfl := List.mem_singleton.1 he
      exact ⟨by simp, show m - 3 < 4 by omega⟩

theorem Sends.repeats {v n : Nat} {codes : List (Nat × Nat)} (h : Sends (List.replicate (n + 1) v) codes) (k : Nat) :
    Sends (List.replicate (n + 1 + 6 * k) v) (codes ++ List.replicate k (16, 3)) := by
  induction k with
  | zero => simpa using h
  | succ k ih =>
    rw [Nat.add_right_comm] at ih
    have hnext := ih.repeatLast (m := 6) (by decide) (Nat.le_refl 6)
    rw [List.append_assoc, ← List.replicate_succ'] at hnext
    rwa [show n + 1 + 6 * (k + 1) = n + 6 * k + 1 + 6 by omega]

/-- One turn sends the first length together with `m` of the equal ones behind it. -/
theorem runLengths_turn (turns : Nat) {v : Nat} (rest : List Nat) (hv : v ≤ 15) :
    ∃ codes m, runLengths (turns + 1) (v :: rest) = codes ++ runLengths turns (rest.drop m) ∧
      m ≤ (rest.takeWhile (· = v)).length ∧ Sends (List.replicate (m + 1) v) codes := by
  rw [runLengths]
  generalize (rest.takeWhile (· = v)).length = j
  have hfirst := Sends.single hv
  dsimp only
  split
  case isTrue h =>
    obtain ⟨rfl, hj⟩ := h
    split
    case isTrue h10 => exact ⟨[(17, j + 1 - 3)], j, rfl, Nat.le_refl j, .zeros3 (Nat.succ_le_succ hj) h10⟩
    case isFalse h10 =>
      refine ⟨[(18, min (j + 1) 138 - 11)], min (j + 1) 138 - 1, rfl, by omega, ?_⟩
      rw [show min (j + 1) 138 - 1 + 1 = min (j + 1) 138 by omega]
      exact .zeros11 (by omega) (Nat.min_le_right _ _)
  case isFalse hzeros =>
    split
    case isTrue hj =>
      have hrun := hfirst.repeats (n := 0) (j / 6)
      split
      case isTrue hrest =>
        refine ⟨(v, 0) :: List.replicate (j / 6) (16, 3) ++ [(16, j % 6 - 3)], j, by simp, Nat.le_refl j, ?_⟩
        rw [show j + 1 = 6 * (j / 6) + 1 + j % 6 by omega]
        rw [Nat.zero_add, Nat.add_comm] at hrun
        exact hrun.repeatLast hrest (by omega)
      case isFalse hrest =>
        refine ⟨(v, 0) :: List.replicate (j / 6) (16, 3), j - j % 6, rfl, Nat.sub_le _ _, ?_⟩
        rwa [show j - j % 6 + 1 = 0 + 1 + 6 * (j / 6) by omega]
    case isFalse hj => exact ⟨[(v, 0)], 0, rfl, Nat.zero_le j, hfirst⟩

/-- The run-length coding sends the lengths it is given. -/
theorem runLengths_sends (turns : Nat) {ls : List Nat} (hlen : ls.length ≤ turns) (h15 : ∀ l ∈ ls, l ≤ 15) :
    Sends ls (runLengths turns ls) := by
  induction turns generalizing ls with
  | zero =>
    obtain rfl := List.length_eq_zero_iff.1 (Nat.le_zero.1 hlen)
    exact .nil
  | succ turns ih =>
    match ls with
    | [] => exact .nil
    | v :: rest =>
      obtain ⟨codes, m, hcodes, hm, hrun⟩ := runLengths_turn turns rest (h15 v (by simp))
      have htake : rest.take m = List.replicate m v := by
        refine List.eq_replicate_iff.2 ⟨List.length_take_of_le (hm.trans (List.takeWhile_prefix _).length_le),
          fun l hl => ?_⟩
        have hsub : rest.take m <+: rest.takeWhile (· = v) :=
          List.prefix_of_prefix_length_le (List.take_prefix m rest) (List.takeWhile_prefix _)
            ((List.length_take_le m rest).trans hm)
        simpa using List.mem_takeWhile_imp (hsub.subset hl)
      have hsplit : v :: rest = List.replicate (m + 1) v ++ rest.drop m := by
        rw [List.replicate_succ, List.cons_append, ← htake, List.take_append_drop]
      rw [hcodes, hsplit]
      refine hrun.append (ih ?_ fun l hl => h15 l (List.mem_cons_of_mem v (List.mem_of_mem_drop hl)))
      rw [List.length_drop]
      exact (Nat.sub_le _ _).trans (Nat.le_of_succ_le_succ hlen)

/-! ## The plan (44_deflate R271 to R276) -/

theorem trimClens_eq_trimCodes (bcl : List Nat) (k : Nat) : trimClens bcl k = trimCodes bcl 4 k := by
  induction k with
  | zero => rfl
  | succ k ih => rw [trimClens, trimCodes, ih]

theorem eq_map_range_of_getD {l : List Nat} {n : Nat} {f : Nat → Nat} (hlen : l.length = n)
    (h : ∀ i, i < n → l.getD i 0 = f i) : l = (List.range n).map f :=
  List.ext_getElem (by simpa) fun i hi hi' => by
    rw [List.getElem_map, List.getElem_range, ← h i (hlen ▸ hi), List.getD_eq_getElem]

/-- Counting changes no array's size. -/
theorem length_foldl_of_keeps {α : Type} {step : List Nat → α → List Nat} (h : ∀ f y, (step f y).length = f.length)
    (ys : List α) (counts : List Nat) : (ys.foldl step counts).length = counts.length :=
  List.foldlRecOn ys step (motive := fun f => f.length = counts.length) rfl fun f hf y _ => (h f y).trans hf

theorem length_countAt (counts : List Nat) (k : Nat) : (countAt counts k).length = counts.length :=
  List.length_modify ..

theorem freqLL_eq {syms : List Sym} (h : ∀ y ∈ syms, inAlphabets y) :
    freqLL syms = (List.range 286).map fun s => if s = 256 then 1 else syms.countP fun y => symLL y = s := by
  refine eq_map_range_of_getD ?_ fun s _ => getD_freqLL (fun y hy => (h y hy).1) s
  rw [freqLL, List.length_set, length_foldl_of_keeps fun f y => by cases y <;> exact length_countAt _ _]
  exact List.length_replicate

theorem freqD_eq {syms : List Sym} (h : ∀ y ∈ syms, inAlphabets y) :
    freqD syms = (List.range 30).map fun d => syms.countP fun y => symD y = some d := by
  refine eq_map_range_of_getD ?_ fun d _ => getD_freqD (fun y hy => (h y hy).2.2) d
  rw [freqD, length_foldl_of_keeps fun f y => by
    cases y with
    | lit s => rfl
    | copy s lextra d dextra => exact length_countAt f d]
  exact List.length_replicate

theorem freqCL_eq {rle : List (Nat × Nat)} (h : ∀ e ∈ rle, e.1 < 19) :
    rle.foldl (fun f e => countAt f e.1) (List.replicate 19 0) =
      (List.range 19).map fun c => rle.countP fun e => e.1 = c := by
  refine eq_map_range_of_getD ?_ fun c _ => ?_
  · rw [length_foldl_of_keeps fun f e => length_countAt _ _, List.length_replicate]
  · have hcount := getD_foldl_count (fun e : Nat × Nat => some e.1) rle (List.replicate 19 0) c fun e he k hk => by
      simpa using Option.some.inj hk ▸ h e he
    dsimp only at hcount
    rw [hcount, getD_replicate_zero, Nat.zero_add]
    simp only [Option.some.injEq]

/-- What a build from frequencies can answer: a tree of the trimmed symbol count whose lengths are within the limit. -/
theorem buildFromFrequencies_bounds {freq : List Nat} {minCodes maxCodes maxBits : Nat} {t : Tree} {b : Bpm}
    (hb : buildFromFrequencies freq minCodes maxCodes maxBits = .ok (t, b)) (h2 : 2 ≤ minCodes)
    (h : minCodes ≤ maxCodes) (hbits : 1 ≤ maxBits) (hroom : maxCodes ≤ 2 ^ maxBits) :
    minCodes ≤ t.n ∧ t.n ≤ maxCodes ∧ ∀ l ∈ t.len, l ≤ maxBits := by
  obtain ⟨hmin, hmax, -, -⟩ := trimCodes_spec freq h
  obtain ⟨t', b', hb', -, hn, hlengths⟩ := buildFromFrequencies_spec h2 h hbits (hmax.trans hroom)
  obtain ⟨rfl, -⟩ : t' = t ∧ b' = b := by simpa [hb'] using hb
  exact ⟨hn ▸ hmin, hn ▸ hmax, hlengths.complete.bound⟩

theorem planTree_eq_ok {slot : Slot} {freq : List Nat} {minCodes maxCodes maxBits : Nat} {r : Tree × Bpm} :
    planTree slot freq minCodes maxCodes maxBits = .ok r ↔
      buildFromFrequencies freq minCodes maxCodes maxBits = .ok r := by
  rw [planTree]
  cases buildFromFrequencies freq minCodes maxCodes maxBits <;> simp

/-- What the plan of these symbols holds (44_deflate R271 to R276). -/
structure PlanOf (syms : List Sym) (p : Plan) : Prop where
  ll : ∃ b, buildFromFrequencies
    ((List.range 286).map fun s => if s = 256 then 1 else syms.countP fun y => symLL y = s) 257 286 15 = .ok (p.ll, b)
  d : ∃ b, buildFromFrequencies
    ((List.range 30).map fun s => syms.countP fun y => symD y = some s) 2 30 15 = .ok (p.d, b)
  rle : Sends (p.ll.len ++ p.d.len) p.rle
  cl : buildFromFrequencies ((List.range 19).map fun c => p.rle.countP fun e => e.1 = c) 19 19 7 = .ok (p.cl, p.bpm)
  bcl : p.bcl = clclOrder.map fun c => p.cl.len.getD c 0
  hclen : p.hclen = trimCodes p.bcl 4 19

theorem planOf_of_makePlan {syms : List Sym} {p : Plan} (hsyms : ∀ y ∈ syms, inAlphabets y)
    (hp : makePlan syms = .ok p) : PlanOf syms p := by
  rcases hll : planTree .ll (freqLL syms) 257 286 15 with e | ⟨ll, b₁⟩
  · simp [makePlan, hll] at hp
  rcases hd : planTree .d (freqD syms) 2 30 15 with e | ⟨d, b₂⟩
  · simp [makePlan, hll, hd] at hp
  rcases hcl : planTree .cl ((runLengths (ll.len ++ d.len).length (ll.len ++ d.len)).foldl
    (fun f e => countAt f e.1) (List.replicate 19 0)) 19 19 7 with e | ⟨cl, b₃⟩
  · simp only [makePlan, hll, hd, hcl] at hp
    exact absurd hp (by simp)
  simp only [makePlan, hll, hd, hcl, Except.ok.injEq] at hp
  subst hp
  rw [planTree_eq_ok, freqLL_eq hsyms] at hll
  rw [planTree_eq_ok, freqD_eq hsyms] at hd
  obtain ⟨-, -, h15⟩ := buildFromFrequencies_bounds hll (by decide) (by decide) (by decide) (by decide)
  obtain ⟨-, -, h15'⟩ := buildFromFrequencies_bounds hd (by decide) (by decide) (by decide) (by decide)
  have hrle := runLengths_sends _ (Nat.le_refl (ll.len ++ d.len).length) fun l hl =>
    (List.mem_append.1 hl).elim (h15 l) (h15' l)
  rw [planTree_eq_ok, freqCL_eq fun e he => Nat.lt_succ_of_le (hrle.fields e he).1] at hcl
  exact ⟨⟨b₁, hll⟩, ⟨b₂, hd⟩, hrle, hcl, rfl, trimClens_eq_trimCodes _ 19⟩

section
variable {syms : List Sym} {p : Plan}

theorem PlanOf.length_bcl (h : PlanOf syms p) : p.bcl.length = 19 := by rw [h.bcl, List.length_map]; rfl

theorem PlanOf.getD_bcl (h : PlanOf syms p) {i : Nat} (hi : i < 19) :
    p.bcl.getD i 0 = p.cl.len.getD (clclOrder.getD i 0) 0 := by
  have hi' : i < clclOrder.length := hi
  rw [h.bcl, List.getD_eq_getElem _ _ (by simpa), List.getElem_map, List.getD_eq_getElem _ _ hi']

theorem PlanOf.hclen_bounds (h : PlanOf syms p) : 4 ≤ p.hclen ∧ p.hclen ≤ 19 := by
  obtain ⟨hmin, hmax, -, -⟩ := trimCodes_spec p.bcl (show 4 ≤ 19 by decide)
  rw [h.hclen]
  exact ⟨hmin, hmax⟩

/-- Only zeros are dropped, and no more than leaves 4 (44_deflate R276). -/
theorem PlanOf.hclen_trims (h : PlanOf syms p) :
    (∀ i, p.hclen ≤ i → i < 19 → p.cl.len.getD (clclOrder.getD i 0) 0 = 0) ∧
      (p.hclen = 4 ∨ p.cl.len.getD (clclOrder.getD (p.hclen - 1) 0) 0 ≠ 0) := by
  obtain ⟨hmin, hmax⟩ := h.hclen_bounds
  obtain ⟨-, -, hlast, hzero⟩ := trimCodes_spec p.bcl (show 4 ≤ 19 by decide)
  rw [← h.hclen, h.getD_bcl (by omega)] at hlast
  rw [← h.hclen] at hzero
  exact ⟨fun i hi hi' => h.getD_bcl hi' ▸ hzero i hi hi', hlast⟩

theorem PlanOf.take_bcl (h : PlanOf syms p) :
    p.bcl.take p.hclen = (List.range p.hclen).map fun i => p.cl.len.getD (clclOrder.getD i 0) 0 := by
  obtain ⟨-, hmax⟩ := h.hclen_bounds
  refine eq_map_range_of_getD (List.length_take_of_le (h.length_bcl ▸ hmax)) fun i hi => ?_
  rw [← h.getD_bcl (by omega), List.getD_eq_getElem?_getD, List.getElem?_take_of_lt hi, List.getD_eq_getElem?_getD]

end

/-! ## The bits of a block and their number (44_deflate R262, R264, R265, R277) -/

/-- The symbols of a block in a tree pair, and the end code (44_deflate R264). -/
def symsBits (tll td : Tree) (syms : List Sym) : List Bool := syms.flatMap (symbolBits tll td) ++ tll.codeOf 256

/-- A fixed block (44_deflate R265). -/
def fixedBlock (final : Bool) (syms : List Sym) : List Bool := [final, true, false] ++ symsBits fixLL fixD syms

/-- A dynamic block (44_deflate R277). -/
def dynamicBlock (final : Bool) (p : Plan) (syms : List Sym) : List Bool :=
  [final, false, true] ++ fieldBits 5 (p.ll.n - 257) ++ fieldBits 5 (p.d.n - 1) ++ fieldBits 4 (p.hclen - 4) ++
    (p.bcl.take p.hclen).flatMap (fieldBits 3) ++
    p.rle.flatMap (fun e => p.cl.codeOf e.1 ++ fieldBits (clExtra e.1) e.2) ++ symsBits p.ll p.d syms

theorem length_symbolBits (tll td : Tree) (y : Sym) : (symbolBits tll td y).length = symSize tll td y := by
  cases y <;> simp [symbolBits, symSize, Nat.add_assoc]

theorem length_symsBits (tll td : Tree) (syms : List Sym) : (symsBits tll td syms).length = symsSize tll td syms := by
  simp [symsBits, symsSize, List.length_flatMap, length_symbolBits]

theorem length_storedBits (final : Bool) (k : Nat) (bs : List Byte) :
    (storedBits final k bs).length = storedSize k bs.length := by
  simp [storedBits, storedSize, le16bytes]
  omega

theorem length_fixedBlock (final : Bool) (syms : List Sym) : (fixedBlock final syms).length = fixedSize syms := by
  rw [fixedBlock, List.length_append, length_symsBits]
  rfl

theorem PlanOf.length_dynamicBlock {syms : List Sym} {p : Plan} (h : PlanOf syms p) (final : Bool) (ys : List Sym) :
    (dynamicBlock final p ys).length = dynamicSize p ys := by
  simp [dynamicBlock, dynamicSize, List.length_flatMap, h.take_bcl, Function.comp_def, length_symsBits, Nat.mul_comm 3]
  omega

/-! ## A block in each mode (44_deflate R281) -/

section
variable (final : Bool) (k : Nat) (bs : List Byte) (w : Work)

theorem writeBlock_stored : writeBlock .stored final k bs w = .ok (storedBits final k bs, w) := rfl

theorem fixedBits_eq_fixedBlock : fixedBits final (w.tok.map symbolOf) = .ok (fixedBlock final (w.tok.map symbolOf)) :=
  fixedBits_ok final (inAlphabets_of_mem_symbols w.tok)

theorem writeBlock_fixed : writeBlock .fixed final k bs w = .ok (fixedBlock final (w.tok.map symbolOf), w) := by
  simp only [writeBlock, fixedBits_eq_fixedBlock]

/-- There is a plan for every block, and its bits are those of the dynamic block (41_huffman R178). -/
theorem exists_plan : ∃ p, makePlan (w.tok.map symbolOf) = .ok p ∧ PlanOf (w.tok.map symbolOf) p ∧
    dynamicBits final p (w.tok.map symbolOf) = .ok (dynamicBlock final p (w.tok.map symbolOf)) := by
  have hsyms := inAlphabets_of_mem_symbols w.tok
  obtain ⟨p, hp, hend, hcodes, hrle⟩ := makePlan_ok hsyms
  exact ⟨p, hp, planOf_of_makePlan hsyms hp, by rw [dynamicBits, writeRle_ok _ hrle, writeSyms_ok _ hend hcodes]; rfl⟩

variable {w} {p : Plan} (hp : makePlan (w.tok.map symbolOf) = .ok p)
  (hbits : dynamicBits final p (w.tok.map symbolOf) = .ok (dynamicBlock final p (w.tok.map symbolOf)))
include hp hbits

theorem writeBlock_dynamic : writeBlock .dynamic final k bs w =
    .ok (dynamicBlock final p (w.tok.map symbolOf), withPlan w p (w.tok.map symbolOf)) := by
  simp only [writeBlock, hp, hbits]

/-- `AUTO` writes the block of the smallest size, on equal sizes the lower `BTYPE` (44_deflate R281). -/
theorem writeBlock_auto (hplan : PlanOf (w.tok.map symbolOf) p) :
    let b₀ := storedBits final k bs
    let b₁ := fixedBlock final (w.tok.map symbolOf)
    let b₂ := dynamicBlock final p (w.tok.map symbolOf)
    writeBlock .auto final k bs w = .ok
      (if b₀.length ≤ b₁.length ∧ b₀.length ≤ b₂.length then b₀ else if b₁.length ≤ b₂.length then b₁ else b₂,
        withPlan w p (w.tok.map symbolOf)) := by
  simp only [writeBlock, hp, fixedBits_eq_fixedBlock, hbits, smallest, length_storedBits, length_fixedBlock,
    hplan.length_dynamicBlock]
  split_ifs <;> rfl

end

end Sys2Proof.Machine

/-! PROOFS. A compression pass is its blocks in order, each behind the previous one and from the hash arrays it left
(44_deflate R260, R261); with the blocks' bits and the command's end that is all `DEFLATE` writes. -/

namespace Sys2Proof.Machine

/-! ## The pass (44_deflate R260, R261) -/

/-- Blocks that each start from the hash arrays the matcher left find the arrays `beforeBlock` tells. -/
theorem hash_eq_beforeBlock {c : Config} {ctr call : Nat} {data : List Byte} {w : Work} {work : Nat → Work}
    {count : Nat} (h0 : (work 0).hash = freshHash)
    (hstep : ∀ n, n < count → (work (n + 1)).hash = (blockTokens c ctr (call + n) data (n * c.blockSize)
      (min data.length (n * c.blockSize + c.blockSize)) (work n)).hash) {n : Nat} (hn : n ≤ count) :
    (work n).hash = (beforeBlock c ctr call data w n).hash := by
  induction n with
  | zero => exact h0
  | succ n ih =>
    rw [hstep n hn, beforeBlock_succ]
    exact (blockTokens_congr c ctr (call + n) data _ _ (ih (Nat.le_of_succ_le hn))).2

/-- The blocks of a pass reach the end of the input. -/
theorem length_le_blockCount_mul {c : Config} (hb : 1 ≤ c.blockSize) (len : Nat) :
    len ≤ blockCount c len * c.blockSize := by
  have hceil := Nat.lt_mul_div_succ (len + c.blockSize - 1) hb
  have hcount : (len + c.blockSize - 1) / c.blockSize * c.blockSize ≤ blockCount c len * c.blockSize :=
    Nat.mul_le_mul_right _ (Nat.le_max_right _ _)
  rw [Nat.mul_add, Nat.mul_one, Nat.mul_comm] at hceil
  omega

/-! ## The obligation -/

/-- Settles O44: the command by its output's end, the pass block by block, a block by its bits in each mode. -/
theorem deflateEmits : Obligations.DeflateEmits := by
  refine ⟨fun s bits w hr hreg hw hpass =>
      ⟨exec_deflate_of_fits hr hreg hw hpass, exec_deflate_of_overflow hr hreg hpass⟩,
    deflate_ok, ?pass, ?auto, ?copies, fun final k bs w => ?fixed, ?dynamic⟩
  case pass =>
    intro c ctr call mode data k w w' bits h count start stop piece
    obtain ⟨block, work, hbits, h0, hlast, hblocks⟩ := writeBlocks_spec c ctr call mode data count h
    simp only [Nat.zero_add] at hblocks
    refine ⟨block, work, hbits, h0, hlast, fun n hn => ⟨(hblocks n hn).1, ?tokens⟩, fun hb => ?pieces⟩
    case tokens =>
      have hhash := hash_eq_beforeBlock (w := w) (congrArg Work.hash h0) (fun n hn => (hblocks n hn).2)
        (Nat.le_of_lt hn)
      exact (blockTokens_congr c ctr (call + n) data _ _ hhash).1
    case pieces =>
      exact ((pieces_join data c.blockSize count).trans
        (List.take_of_length_le (length_le_blockCount_mul hb data.length))).symm
  case auto =>
    intro final k bs w w₀ w₁ w₂ b₀ b₁ b₂ h₀ h₁ h₂
    obtain ⟨p, hp, hplan, hbits⟩ := exists_plan final w
    obtain ⟨rfl, -⟩ : _ = b₀ ∧ w = w₀ := by simpa [writeBlock_stored] using h₀
    obtain ⟨rfl, -⟩ : _ = b₁ ∧ w = w₁ := by simpa [writeBlock_fixed] using h₁
    obtain ⟨rfl, -⟩ : _ = b₂ ∧ _ = w₂ := by simpa [writeBlock_dynamic final k bs hp hbits] using h₂
    exact ⟨_, writeBlock_auto final k bs hp hbits hplan⟩
  case copies =>
    intro len dist h3 h258 h1 hmax
    have hl := lastIndex_lt lengthBase (v := len) (by decide)
    have hd := lastIndex_lt distBase (v := dist) (by decide)
    obtain ⟨hbase, hextra, hnext⟩ := lengthSymbol_spec h3 h258
    obtain ⟨hbase', hextra', hnext'⟩ := distSymbol_spec h1 hmax
    refine ⟨_, _, _, _, rfl, Nat.le_add_right _ _, Nat.add_le_add_left (Nat.le_of_lt_succ hl) 257, ?_⟩
    rw [Nat.add_sub_cancel_left]
    exact ⟨by omega, by omega, fun h => hnext (by omega), Nat.le_of_lt_succ hd, by omega, by omega, hnext'⟩
  case fixed => simp only [writeBlock_fixed, fixedBlock, symsBits, List.append_assoc]
  case dynamic =>
    intro final k bs w w' bits h syms
    obtain ⟨p, hp, hplan, hbits⟩ := exists_plan final w
    obtain ⟨rfl, -⟩ : _ = bits ∧ _ = w' := by simpa [writeBlock_dynamic final k bs hp hbits] using h
    obtain ⟨b₁, hll⟩ := hplan.ll
    obtain ⟨b₂, hd⟩ := hplan.d
    obtain ⟨hllmin, hllmax, -⟩ := buildFromFrequencies_bounds hll (by decide) (by decide) (by decide) (by decide)
    obtain ⟨hdmin, hdmax, -⟩ := buildFromFrequencies_bounds hd (by decide) (by decide) (by decide) (by decide)
    obtain ⟨hclmin, hclmax⟩ := hplan.hclen_bounds
    obtain ⟨hzero, hlast⟩ := hplan.hclen_trims
    refine ⟨p.ll, p.d, p.cl, p.rle, p.hclen, b₁, b₂, p.bpm, ?bits, hll, hd, hplan.cl, hllmin, hllmax, hdmin, hdmax,
      hplan.rle.expands [], hplan.rle.starts, hplan.rle.fields, hclmin, hclmax, hzero, hlast⟩
    case bits => simp only [dynamicBlock, symsBits, hplan.take_bcl, List.flatMap_map, List.append_assoc, syms]

end Sys2Proof.Machine

/-! PROOFS. Adler32 as its two sums with the reduction deferred (45_zlib_adler R300). -/

namespace Sys2Proof.Machine

/-! ## Adler32 -/

theorem adler32_concat (bs : List Byte) (b : Byte) : adler32 (bs ++ [b]) = adlerStep (adler32 bs) b :=
  List.foldl_concat ..

theorem adler32_fst (bs : List Byte) : (adler32 bs).1 = (1 + (bs.map BitVec.toNat).sum) % 65521 := by
  induction bs using List.reverseRecOn with
  | nil => rfl
  | append_singleton bs b ih => simp [adler32_concat, adlerStep, ih, Nat.add_assoc]

/-- The second sum adds up the first one after each byte. -/
theorem adler32_snd (bs : List Byte) : (adler32 bs).2 =
    ((List.range bs.length).map fun k => 1 + ((bs.take (k + 1)).map BitVec.toNat).sum).sum % 65521 := by
  induction bs using List.reverseRecOn with
  | nil => rfl
  | append_singleton bs b ih =>
    have hstep : (adler32 (bs ++ [b])).2 = ((adler32 bs).2 + (adler32 (bs ++ [b])).1) % 65521 := by
      rw [adler32_concat]
      rfl
    have hlast : (bs ++ [b]).take (bs.length + 1) = bs ++ [b] := List.take_of_length_le (by simp)
    have hearlier : ((List.range bs.length).map fun k => 1 + ((bs.take (k + 1)).map BitVec.toNat).sum) =
        (List.range bs.length).map fun k => 1 + (((bs ++ [b]).take (k + 1)).map BitVec.toNat).sum :=
      List.map_congr_left fun k hk => by rw [List.take_append_of_le_length (List.mem_range.1 hk)]
    rw [hstep, ih, adler32_fst, ← Nat.add_mod, List.length_append, List.length_singleton, List.sum_range_succ, hlast,
      hearlier]

theorem adlerValue_lt (bs : List Byte) : adlerValue (adler32 bs) < 2 ^ 32 := by
  rw [adlerValue, adler32_fst, adler32_snd]
  omega

/-- Settles O49: each sum by adding one byte at the end. -/
theorem adlerIsTheDeferredSum : Obligations.AdlerIsTheDeferredSum := fun bs =>
  ⟨adler32_fst bs, adler32_snd bs, adlerValue_lt bs⟩

end Sys2Proof.Machine

/-! PROOFS. `ZLIBC` puts its header, the bits of its blocks and the Adler32 into the output region, or overflows
(45_zlib_adler R301, R302; 48_commands R379). -/

namespace Sys2Proof.Machine

/-! ## Bits filled up to whole bytes -/

theorem bit_ofBytes (bs : List Byte) (k : Nat) : (Source.ofBytes bs).bit k = (bytesBits bs).getD k false := by
  rw [← bit_ofBytes_packBits, packBits_bytesBits]

/-- The last byte of packed bits is filled with zero bits (40_bitio R135). -/
theorem bytesBits_packBits (bits : List Bool) :
    bytesBits (packBits bits) = bits ++ List.replicate (padTo8 bits.length) false := by
  have hlen : (bytesBits (packBits bits)).length = (bits ++ List.replicate (padTo8 bits.length) false).length := by
    simp only [length_bytesBits, length_packBits, List.length_append, List.length_replicate, padTo8]
    omega
  refine List.ext_getElem hlen fun k hk hk' => ?_
  have hbit : (bytesBits (packBits bits)).getD k false = bits.getD k false := by
    rw [← bit_ofBytes, bit_ofBytes_packBits]
  rw [List.getD_eq_getElem _ _ hk] at hbit
  rw [hbit, ← List.getD_eq_getElem _ false hk']
  rcases Nat.lt_or_ge k bits.length with hin | hbehind
  · rw [List.getD_append _ _ _ _ hin]
  · rw [List.getD_eq_default _ _ hbehind, List.getD_append_right _ _ _ _ hbehind]
    simp

/-! ## What `ZLIBC` writes -/

/-- The zlib stream around the bits of the compressed blocks (45_zlib_adler R301). -/
def zlibStream (data : List Byte) (bits : List Bool) : List Byte :=
  packBits (bytesBits zlibHeader ++ bits) ++ be32bytes (adlerValue (adler32 data))

theorem length_zlibStream (data : List Byte) (bits : List Bool) :
    (zlibStream data bits).length = (16 + bits.length + 7) / 8 + 4 := by
  simp [zlibStream, zlibHeader, be32bytes]

/-- Blocks that are whole bytes need no filling before the Adler32. -/
theorem zlibStream_bytesBits (data block : List Byte) :
    zlibStream data (bytesBits block) = zlibHeader ++ block ++ be32bytes (adlerValue (adler32 data)) := by
  rw [zlibStream, ← bytesBits_append, packBits_bytesBits]

/-- The working memories behind a pass and the checksum of the input. -/
def withAdler (w : Work) (data : List Byte) : Work :=
  { w with adlerS1 := (adler32 data).1, adlerS2 := (adler32 data).2 }

section
variable {s : State} {bits : List Bool} {w : Work}

/-- `RES0` is written only when the whole stream has its place (45_zlib_adler R301). -/
theorem zlibcBody_of_pass (hpass : deflate s.cfg s.free 0 s.btmode s.input 16 s.work = .ok (bits, w)) :
    zlibcBody s =
      let s' := s.finishStream (bytesBits (zlibStream s.input bits)) (withAdler w s.input)
      if (zlibStream s.input bits).length ≤ s.dcap.toNat
        then { s' with res0 := BitVec.ofNat 32 (adlerValue (adler32 s.input)) } else s' := by
  have hbits : bytesBits zlibHeader ++ bits ++
      List.replicate (padTo8 (bytesBits zlibHeader ++ bits).length) false ++
      bytesBits (be32bytes (adlerValue (adler32 s.input))) = bytesBits (zlibStream s.input bits) := by
    rw [zlibStream, bytesBits_append, bytesBits_packBits]
  have hroom : 8 * (zlibStream s.input bits).length ≤ 8 * s.dcap.toNat ↔
      (zlibStream s.input bits).length ≤ s.dcap.toNat := Nat.mul_le_mul_left_iff (by decide)
  simp only [zlibcBody, hpass, hbits, length_bytesBits, hroom]
  rfl

theorem exec_zlibc_of_pass (hr : s.ready) (hreg : s.regionsOk .st = true)
    (hpass : deflate s.cfg s.free 0 s.btmode s.input 16 s.work = .ok (bits, w)) :
    exec .zlibc s = .next (
      let t := s.start.finishStream (bytesBits (zlibStream s.input bits)) (withAdler w s.input)
      if (zlibStream s.input bits).length ≤ s.dcap.toNat
        then { t with res0 := BitVec.ofNat 32 (adlerValue (adler32 s.input)) } else t) :=
  (command_of_regionsOk .st id zlibcBody hr hreg).trans
    (congrArg Host.Outcome.next (zlibcBody_of_pass (s := s.start) hpass))

theorem exec_zlibc_of_fits (hr : s.ready) (hreg : s.regionsOk .st = true) (hw : s.mem.wf = true)
    (hpass : deflate s.cfg s.free 0 s.btmode s.input 16 s.work = .ok (bits, w)) {size : Nat}
    (hsize : (zlibStream s.input bits).length = size) (hfit : size ≤ s.dcap.toNat) :
    ∃ m w', exec .zlibc s = .next { s.started with
        mem := m, work := w', free := s.free + 1, done := true, dlen := BitVec.ofNat 32 size
        wbp := BitVec.ofNat 35 (8 * size), res0 := BitVec.ofNat 32 (adlerValue (adler32 s.input)) } ∧
      ∀ a, m.read a = if s.dst.toNat ≤ a ∧ a < s.dst.toNat + size
        then (zlibStream s.input bits).getD (a - s.dst.toNat) 0 else s.mem.read a := by
  subst hsize
  refine ⟨s.mem.writeBytes s.dst.toNat (zlibStream s.input bits), withAdler w s.input, ?_, fun a => ?_⟩
  · have hround : (8 * (zlibStream s.input bits).length + 7) / 8 = (zlibStream s.input bits).length := by omega
    have hstream := finishStream_of_fits (s := s.start) (bits := bytesBits (zlibStream s.input bits))
      (withAdler w s.input) (by rw [length_bytesBits]; exact Nat.mul_le_mul_left 8 hfit)
    rw [length_bytesBits, hround, packBits_bytesBits] at hstream
    rw [exec_zlibc_of_pass hr hreg hpass, hstream, if_pos hfit, State.started, (State.not_busy_iff s).1 hr.1]
    rfl
  · rw [Memory.read_writeBytes hw]

theorem exec_zlibc_of_overflow (hr : s.ready) (hreg : s.regionsOk .st = true)
    (hpass : deflate s.cfg s.free 0 s.btmode s.input 16 s.work = .ok (bits, w)) {size : Nat}
    (hsize : (zlibStream s.input bits).length = size) (hover : s.dcap.toNat < size) :
    ∃ t, exec .zlibc s = .next t ∧ t.err = 83 ∧ t.errInfo.toNat = s.dcap.toNat ∧ t.dlen = 0 ∧ t.res0 = s.res0 ∧
      t.wbp.toNat = 8 * s.dcap.toNat ∧ t.busy = false ∧ t.done = true := by
  subst hsize
  have hdcap := s.dcap.isLt
  have hstream := finishStream_of_overflow (s := s.start) (bits := bytesBits (zlibStream s.input bits))
    (withAdler w s.input) (by rw [length_bytesBits]; exact Nat.mul_lt_mul_of_pos_left hover (by decide))
  refine ⟨_, by rw [exec_zlibc_of_pass hr hreg hpass, hstream, if_neg (Nat.not_le.2 hover)], ?_⟩
  simp [hr.2, errCode]
  omega

end

/-! ## The obligation -/

/-- Settles O45: every mode by the stream its pass gives, and `STORED` by the one block its pass is. -/
theorem zlibcWrites : Obligations.ZlibcWrites := by
  refine ⟨fun s hr hreg hw hmode hb hblock hlen hroom => ?stored, fun s bits w hr hreg hw hpass =>
    ⟨exec_zlibc_of_fits hr hreg hw hpass (length_zlibStream _ _),
      exec_zlibc_of_overflow hr hreg hpass (length_zlibStream _ _)⟩⟩
  case stored =>
    have hinput := s.length_input
    obtain ⟨w, hpass⟩ := deflate_stored_of_one_block s.cfg s.free 0 16 s.work hb (hinput ▸ hblock)
    rw [← hmode, storedBits_eq_bytesBits s.input rfl, hinput] at hpass
    have hsize : (zlibStream s.input (bytesBits ([1] ++ le16bytes s.slen.toNat ++ le16bytes (65535 - s.slen.toNat) ++
        s.input))).length = s.slen.toNat + 11 := by
      simp [zlibStream_bytesBits, zlibHeader, le16bytes, be32bytes]
    obtain ⟨m, w', hexec, hmem⟩ := exec_zlibc_of_fits hr hreg hw hpass hsize hroom
    rw [zlibStream_bytesBits] at hmem
    exact ⟨m, w', hexec, hmem⟩

end Sys2Proof.Machine

/-! PROOFS. The zlib framing of the decompressor: the header's checks in their order and the trailer (45_zlib_adler R304
to R307). -/

namespace Sys2Proof.Machine

/-! ## The header (45_zlib_adler R304) -/

section
variable {cmf flg : Byte} {s : State}

/-- The model's test of the method and the window size, on the header's fields. -/
theorem zlibMethod_iff (cmf : Byte) : (cmf.toNat % 16 ≠ 8 ∨ cmf.toNat / 16 > 7) ↔
    cmf.extractLsb' 0 4 ≠ 8 ∨ 7 < cmf.extractLsb' 4 4 := by
  have hlow : cmf.extractLsb' 0 4 = 8 ↔ cmf.toNat % 16 = 8 := by
    rw [← BitVec.toNat_inj, BitVec.extractLsb'_toNat]
    rfl
  have hhigh : (cmf.extractLsb' 4 4).toNat = cmf.toNat / 16 := by
    rw [BitVec.extractLsb'_toNat, Nat.shiftRight_eq_div_pow]
    exact Nat.mod_eq_of_lt (Nat.div_lt_of_lt_mul cmf.isLt)
  rw [Ne, Ne, hlow, BitVec.lt_def, hhigh]
  rfl

theorem extractLsb'_bit_eq_one_iff (b : Byte) (i : Nat) : b.extractLsb' i 1 = 1 ↔ b.getLsbD i = true := by
  rw [← BitVec.toNat_inj, BitVec.extractLsb'_toNat, ← BitVec.testBit_toNat, Nat.testBit, Nat.one_and_eq_mod_two]
  simp

theorem zhdrBody_of_badCheck (h : (cmf.toNat * 256 + flg.toNat) % 31 ≠ 0) :
    zhdrBody cmf flg s = s.raise .zlibFcheck 0 := if_pos h

theorem zhdrBody_of_badMethod (h : (cmf.toNat * 256 + flg.toNat) % 31 = 0)
    (hm : cmf.extractLsb' 0 4 ≠ 8 ∨ 7 < cmf.extractLsb' 4 4) : zhdrBody cmf flg s = s.raise .zlibMethod 0 :=
  (if_neg (not_not.2 h)).trans (if_pos ((zlibMethod_iff cmf).2 hm))

/-- Behind the first two checks the preset dictionary bit decides. -/
theorem zhdrBody_of_method (h : (cmf.toNat * 256 + flg.toNat) % 31 = 0) (hm : cmf.extractLsb' 0 4 = 8)
    (hw : cmf.extractLsb' 4 4 ≤ 7) : zhdrBody cmf flg s =
      if flg.getLsbD 5 then s.raise .zlibPresetDict 0
      else { s with bp := 16, pos := 0, bfinal := false, engine := .inflate true .header } := by
  have hgood : ¬ (cmf.toNat % 16 ≠ 8 ∨ cmf.toNat / 16 > 7) := by
    rw [zlibMethod_iff, not_or, not_not, BitVec.not_lt]
    exact ⟨hm, hw⟩
  exact (if_neg (not_not.2 h)).trans (if_neg hgood)

end

/-- Settles O35: the decoder's check of the size, then the three checks of the body. -/
theorem zlibHeaderChecks : Obligations.ZlibHeaderChecks := by
  refine ⟨fun p src bp => ⟨fun h => if_pos h, fun h => if_neg (Nat.not_lt.2 h)⟩, fun cmf flg s hr => ?checks⟩
  case checks =>
    have run : exec (.zhdr cmf flg) s = .next (zhdrBody cmf flg s) := element_of_regionsOk hr _
    rw [run]
    refine ⟨fun h => congrArg _ (zhdrBody_of_badCheck h), fun h => ⟨fun hm => congrArg _ (zhdrBody_of_badMethod h hm),
      fun hm hw => ?dict⟩⟩
    case dict =>
      rw [zhdrBody_of_method h hm hw]
      refine ⟨fun hd => congrArg _ (if_pos ((extractLsb'_bit_eq_one_iff flg 5).1 hd)),
        fun hd => congrArg _ (if_neg fun hbit => ?_)⟩
      rw [← extractLsb'_bit_eq_one_iff, hd] at hbit
      exact absurd hbit (by decide)

/-! ## The trailer (45_zlib_adler R306, R307) -/

section
variable {stored : Word} {s : State}

theorem raiseAdler_eq (he : s.err = 0) : s.raiseAdler = { s with
    work := Config.freeWork s.free, engine := .idle, done := true, err := 58, errInfo := s.bp
    free := s.free + 1 } := by
  simp [State.raiseAdler, State.raiseInput, State.forgetWork, State.recordFault, he, errCode]

theorem ztrailerBody_of_match (h : stored.toNat = adlerValue (adler32 (s.outBytes 0 s.pos.toNat))) : ∃ w,
    ztrailerBody stored s = { s with
      work := w, res0 := stored, engine := .idle, done := true
      bp := BitVec.ofNat 35 (8 * (trailerPos s.cfg.adlerPos s.slen.toNat s.bp.toNat + 4)) } := by
  have hcomputed : BitVec.ofNat 32 (adlerValue (adler32 (s.outBytes 0 s.pos.toNat))) = stored := by
    rw [← h, BitVec.ofNat_toNat, BitVec.setWidth_eq]
  simp only [ztrailerBody, hcomputed]
  exact ⟨_, if_neg (not_not.2 rfl)⟩

theorem ztrailerBody_of_mismatch (h : stored.toNat ≠ adlerValue (adler32 (s.outBytes 0 s.pos.toNat)))
    (he : s.err = 0) : ∃ w, ztrailerBody stored s = { s with
      work := w, res0 := BitVec.ofNat 32 (adlerValue (adler32 (s.outBytes 0 s.pos.toNat))), engine := .idle
      done := true, err := 58, errInfo := s.bp, free := s.free + 1 } := by
  have hdiffer : stored ≠ BitVec.ofNat 32 (adlerValue (adler32 (s.outBytes 0 s.pos.toNat))) := fun heq =>
    h (by rw [heq, BitVec.toNat_ofNat, Nat.mod_eq_of_lt (adlerValue_lt _)])
  exact ⟨_, (if_pos hdiffer).trans (raiseAdler_eq he)⟩

theorem stopFetch_dlen (e : Stop) (s : State) : (s.stopFetch e).dlen = 0 := by
  rw [State.stopFetch, State.raiseStop]
  cases State.engineUses s <;> rfl

end

/-- Settles O36: the body by the comparison, and the decoder's check that the trailer is there. -/
theorem zlibTrailer : Obligations.ZlibTrailer := by
  refine ⟨fun stored s hr => ?compare, fun p at_ src bp h => if_neg (Nat.not_le.2 h), stopFetch_dlen⟩
  case compare =>
    have run : exec (.ztrailer stored) s = .next (ztrailerBody stored s) := element_of_regionsOk hr _
    rw [run]
    exact ⟨fun h => (ztrailerBody_of_match h).imp fun _ => congrArg _,
      fun h he => (ztrailerBody_of_mismatch h he).imp fun _ => congrArg _⟩

end Sys2Proof.Machine

/-! PROOFS. The two line functions invert each other, and each byte is what the predictors of 46_filter R323 to R326
say. -/

namespace Sys2Proof.Machine

/-! ## Predictors (46_filter R323 to R325) -/

/-- The model compares absolute values as natural numbers, `predictor` as integers. -/
theorem paeth_toNat (a b c : Byte) : ((paeth a b c).toNat : Int) = predictor 4 a.toNat b.toNat c.toNat := by
  simp only [paeth, predictor, Int.abs_eq_natAbs, Nat.cast_le, OfNat.ofNat_ne_zero, OfNat.ofNat_ne_one,
    Nat.reduceEqDiff, if_false]
  split
  · rfl
  · split <;> rfl

theorem predict_toNat {t : Nat} (ht : t ≤ 4) (a b c : Byte) :
    ((predict t a b c).toNat : Int) = predictor t a.toNat b.toNat c.toNat := by
  match t with
  | 0 | 1 | 2 => rfl
  | 3 =>
    have hfit : (a.toNat + b.toNat) / 2 < 2 ^ 8 := by omega
    rw [predict, BitVec.toNat_ofNat, Nat.mod_eq_of_lt hfit]
    rfl
  | 4 => exact paeth_toNat a b c

theorem leftOf_toNat (line : List Byte) (width i : Nat) :
    ((leftOf line width i).toNat : Int) = if width ≤ i then ((line.getD (i - width) 0).toNat : Int) else 0 := by
  rw [leftOf]
  split <;> rfl

/-- The model's prediction is the one 46_filter writes. -/
theorem predictAt_toNat {t : Nat} (ht : t ≤ 4) (width : Nat) (line : List Byte) (prev : Option (List Byte)) (i : Nat) :
    ((predictAt t width line (above prev) i).toNat : Int) = predicted t width line prev i := by
  rw [predictAt, predict_toNat ht, leftOf_toNat, leftOf_toNat]
  rfl

/-- The prediction of a byte needs only the bytes before it. -/
theorem predictAt_congr {width i : Nat} (hw : 1 ≤ width) {line line' : List Byte}
    (h : ∀ j, j < i → line.getD j 0 = line'.getD j 0) (t : Nat) (prev : List Byte) :
    predictAt t width line prev i = predictAt t width line' prev i := by
  have hleft : leftOf line width i = leftOf line' width i := by
    rw [leftOf, leftOf]
    split
    · exact h _ (by omega)
    · rfl
  rw [predictAt, predictAt, hleft]

/-! ## The line functions (46_filter R326) -/

theorem getD_filterLine {cur : List Byte} {k : Nat} (hk : k < cur.length) (t width : Nat) (prev : Option (List Byte)) :
    (filterLine t width cur prev).getD k 0 = cur.getD k 0 - predictAt t width cur (above prev) k := by
  simp [filterLine, List.getD_eq_getElem?_getD, hk]

/-- The bytes already reconstructed stay. -/
theorem getD_unfilterFrom_of_lt {done : List Byte} {j : Nat} (hj : j < done.length) (t width : Nat)
    (prev rest : List Byte) : (unfilterFrom t width prev done rest).getD j 0 = done.getD j 0 := by
  induction rest generalizing done with
  | nil => rfl
  | cons f rest ih => rw [unfilterFrom, ih (by rw [List.length_append]; omega), List.getD_append _ _ _ _ hj]

/-- Each byte reconstructed is the filtered byte plus the prediction from the finished line: what the predictor read
when the byte was made has stayed. -/
theorem getD_unfilterFrom {width : Nat} (hw : 1 ≤ width) (t : Nat) (prev done rest : List Byte) {k : Nat}
    (hk : k < rest.length) :
    (unfilterFrom t width prev done rest).getD (done.length + k) 0 =
      rest.getD k 0 + predictAt t width (unfilterFrom t width prev done rest) prev (done.length + k) := by
  induction rest generalizing done k with
  | nil => exact absurd hk (Nat.not_lt_zero k)
  | cons f rest ih =>
    cases k with
    | zero =>
      have hstay : ∀ j, j < done.length → (unfilterFrom t width prev done (f :: rest)).getD j 0 = done.getD j 0 :=
        fun j hj => getD_unfilterFrom_of_lt hj t width prev _
      rw [Nat.add_zero, predictAt_congr hw hstay, unfilterFrom, getD_unfilterFrom_of_lt (by simp),
        List.getD_append_right _ _ _ _ (Nat.le_refl _), Nat.sub_self]
      rfl
    | succ k =>
      have hrest := ih (done ++ [f + predictAt t width done prev done.length]) (Nat.lt_of_succ_lt_succ hk)
      rwa [List.length_append, List.length_singleton, Nat.add_assoc, Nat.add_comm 1 k] at hrest

theorem getD_unfilterLine {width : Nat} (hw : 1 ≤ width) (t : Nat) {filt : List Byte} (prev : Option (List Byte))
    {k : Nat} (hk : k < filt.length) : (unfilterLine t width filt prev).getD k 0 =
      filt.getD k 0 + predictAt t width (unfilterLine t width filt prev) (above prev) k := by
  have h := getD_unfilterFrom hw t (above prev) [] filt hk
  rwa [List.length_nil, Nat.zero_add] at h

/-- With the bytes before it equal to those of `cur`, the prediction that unfiltering adds to a byte is the one that
filtering took away. -/
theorem getD_unfilterLine_filterLine {width : Nat} (hw : 1 ≤ width) (t : Nat) {cur : List Byte}
    (prev : Option (List Byte)) {k : Nat} (hk : k < cur.length) :
    (unfilterLine t width (filterLine t width cur prev) prev).getD k 0 = cur.getD k 0 := by
  induction k using Nat.strong_induction_on with
  | _ k ih =>
    have hbefore := predictAt_congr hw (fun j hj => ih j hj (hj.trans hk)) t (above prev)
    rw [getD_unfilterLine hw t prev (by rwa [length_filterLine]), hbefore, getD_filterLine hk, BitVec.sub_add_cancel]

/-- Settles O39: the two lines are of one length and agree byte by byte. -/
theorem unfilterUndoesFilter : Obligations.UnfilterUndoesFilter := by
  intro t width cur prev _ hw
  refine List.ext_getElem (by simp) fun k h h' => ?_
  rw [← List.getD_eq_getElem _ 0 h, ← List.getD_eq_getElem _ 0 h', getD_unfilterLine_filterLine hw t prev h']

/-! ## Bytes as numbers -/

theorem toNat_add_emod (a b : Byte) : ((a + b).toNat : Int) = ((a.toNat : Int) + b.toNat) % 256 := by
  rw [BitVec.toNat_add]
  rfl

theorem toNat_sub_emod (a b : Byte) : ((a - b).toNat : Int) = ((a.toNat : Int) - b.toNat) % 256 := by
  rw [BitVec.toNat_sub]
  omega

/-- A filtered byte is the raw byte less its prediction modulo 256. -/
theorem getD_filterLine_toNat {t : Nat} (ht : t ≤ 4) (width : Nat) {cur : List Byte} (prev : Option (List Byte))
    {k : Nat} (hk : k < cur.length) : (((filterLine t width cur prev).getD k 0).toNat : Int) =
      (((cur.getD k 0).toNat : Int) - predicted t width cur prev k) % 256 := by
  rw [getD_filterLine hk, toNat_sub_emod, predictAt_toNat ht]

/-- A reconstructed byte is the filtered byte plus its prediction modulo 256. -/
theorem getD_unfilterLine_toNat {t width : Nat} (ht : t ≤ 4) (hw : 1 ≤ width) {filt : List Byte}
    (prev : Option (List Byte)) {k : Nat} (hk : k < filt.length) :
    (((unfilterLine t width filt prev).getD k 0).toNat : Int) =
      (((filt.getD k 0).toNat : Int) + predicted t width (unfilterLine t width filt prev) prev k) % 256 := by
  rw [← predictAt_toNat ht, ← toNat_add_emod, ← getD_unfilterLine hw t prev hk]

end Sys2Proof.Machine

/-! PROOFS. The argument checks of `UNFILTER` and `FILTER` in their order, and the start of `UNFILTER` (46_filter R320
to R322). -/

namespace Sys2Proof.Machine

/-! ## The argument checks (46_filter R321) -/

/-- The width and the pixel format pass their checks. -/
structure State.FormatOk (s : State) : Prop where
  width : s.arg0.toNat ≠ 0
  depth : s.bpp ≠ 0
  depth_le : s.bpp ≤ 64
  reserved : s.arg2.toNat / 512 = 0

/-- The sizes pass their check. -/
structure State.SizesOk (s : State) : Prop where
  bits : s.arg0.toNat * s.bpp + 7 ≤ 2 ^ 32 - 1
  line : s.lineBytes + 1 ≤ 2 ^ 32 - 1
  raw : s.rawSize ≤ 2 ^ 32 - 1
  filt : s.filtSize ≤ 2 ^ 32 - 1

section
variable {s : State} {input output : Nat}

theorem arg0_ne_zero (h : s.arg0.toNat ≠ 0) : s.arg0 ≠ 0 := fun h0 => h (by rw [h0]; rfl)

theorem geometryFault_of_noWidth (h : s.arg0.toNat = 0) : s.geometryFault input output = some (.badArg, 5) :=
  if_pos (BitVec.eq_of_toNat_eq h)

theorem geometryFault_of_badFormat (h : s.arg0.toNat ≠ 0) (hf : s.bpp = 0 ∨ 64 < s.bpp ∨ s.arg2.toNat / 512 ≠ 0) :
    s.geometryFault input output = some (.badArg, 7) :=
  (if_neg (arg0_ne_zero h)).trans (if_pos hf)

/-- Behind the checks of the width and the pixel format. -/
theorem geometryFault_of_formatOk (h : s.FormatOk) : s.geometryFault input output =
    if addrSpace ≤ s.arg0.toNat * s.bpp + 7 ∨ addrSpace ≤ s.lineBytes + 1 ∨ addrSpace ≤ s.rawSize ∨
      addrSpace ≤ s.filtSize then some (.sizeOverflow, 0)
    else if s.slen.toNat ≠ input then some (.badArg, 1)
    else if s.dcap.toNat < output then some (.outputOverflow, 0)
    else none := by
  have hformat : ¬ (s.bpp = 0 ∨ s.bpp > 64 ∨ s.arg2.toNat / 512 ≠ 0) := by
    simp [h.depth, h.depth_le, h.reserved]
  exact (if_neg (arg0_ne_zero h.width)).trans (if_neg hformat)

theorem geometryFault_of_sizeOverflow (h : s.FormatOk)
    (hover : 2 ^ 32 - 1 < s.arg0.toNat * s.bpp + 7 ∨ 2 ^ 32 - 1 < s.lineBytes + 1 ∨ 2 ^ 32 - 1 < s.rawSize ∨
      2 ^ 32 - 1 < s.filtSize) : s.geometryFault input output = some (.sizeOverflow, 0) :=
  (geometryFault_of_formatOk h).trans (if_pos (by unfold addrSpace; omega))

/-- Behind the checks of the arguments alone: the sizes of the two regions. -/
theorem geometryFault_of_sizesOk (h : s.FormatOk) (hs : s.SizesOk) : s.geometryFault input output =
    if s.slen.toNat ≠ input then some (.badArg, 1)
    else if s.dcap.toNat < output then some (.outputOverflow, 0)
    else none := by
  obtain ⟨hbits, hline, hraw, hfilt⟩ := hs
  exact (geometryFault_of_formatOk h).trans (if_neg (by unfold addrSpace; omega))

theorem geometryFault_of_badInput (h : s.FormatOk) (hs : s.SizesOk) (hin : s.slen.toNat ≠ input) :
    s.geometryFault input output = some (.badArg, 1) :=
  (geometryFault_of_sizesOk h hs).trans (if_pos hin)

theorem geometryFault_of_noRoom (h : s.FormatOk) (hs : s.SizesOk) (hin : s.slen.toNat = input)
    (hout : s.dcap.toNat < output) : s.geometryFault input output = some (.outputOverflow, 0) :=
  (geometryFault_of_sizesOk h hs).trans ((if_neg (not_not.2 hin)).trans (if_pos hout))

end

/-! ## The commands with their checks -/

section
variable {s : State}

theorem exec_unfilter (hr : s.ready) (hreg : s.regionsOk .st = true) :
    exec .unfilter s = .next (unfilterBody s.started) := command_of_regionsOk .st id unfilterBody hr hreg

theorem exec_filter (hr : s.ready) (hreg : s.regionsOk .st = true) :
    exec .filter s = .next (filterBody s.started) := command_of_regionsOk .st id filterBody hr hreg

theorem unfilterBody_of_geometryFault {c : Cause} {info : Nat}
    (h : s.geometryFault s.filtSize s.rawSize = some (c, info)) : unfilterBody s = s.raise c info := by
  rw [unfilterBody, h]

theorem filterBody_of_geometryFault {c : Cause} {info : Nat}
    (h : s.geometryFault s.rawSize s.filtSize = some (c, info)) : filterBody s = s.raise c info := by
  rw [filterBody, h]

/-- A failing check is the command's fault; the two commands differ in which size is the input's. -/
theorem exec_of_geometryFault {i : Instr} (hi : i = .unfilter ∨ i = .filter) (hr : s.ready)
    (hreg : s.regionsOk .st = true) {c : Cause} {info : Nat}
    (h : s.geometryFault (if i = .unfilter then s.filtSize else s.rawSize)
      (if i = .unfilter then s.rawSize else s.filtSize) = some (c, info)) :
    exec i s = .next (s.started.raise c info) := by
  rcases hi with rfl | rfl
  · exact (exec_unfilter hr hreg).trans (congrArg _ (unfilterBody_of_geometryFault (s := s.started) h))
  · exact (exec_filter hr hreg).trans (congrArg _ (filterBody_of_geometryFault (s := s.started) h))

/-- A command that never starts the engine only sets `DONE` at its end. -/
theorem finish_of_idle (h : s.engine = .idle) : s.finish = { s with done := true } := by
  rw [State.finish, ← h]

theorem started_engine (hr : s.ready) : s.started.engine = .idle := (State.not_busy_iff s).1 hr.1

theorem unfilterBody_of_geometryOk (h : s.geometryFault s.filtSize s.rawSize = none) : unfilterBody s =
    if s.arg1 = 0 then State.finish { s with work := { s.work with lines := ⟨[], none, []⟩ } }
    else { s with work := { s.work with lines := ⟨[], none, []⟩ }, engine := .unfilter 0 } := by
  rw [unfilterBody, h]

end

/-- Settles O37: the checks one behind the other, and the body of `UNFILTER` behind all of them. -/
theorem geometryChecks : Obligations.GeometryChecks := by
  refine ⟨fun i s hi hr hreg => ?checks, fun s hr hreg hg => ?start⟩
  case checks =>
    have fault {c : Cause} {info : Nat} := exec_of_geometryFault (c := c) (info := info) hi hr hreg
    refine ⟨fun h => fault (geometryFault_of_noWidth h),
      fun h => ⟨fun hf => fault (geometryFault_of_badFormat h hf), fun h0 h64 hres => ?sizes⟩⟩
    case sizes =>
      have hformat : s.FormatOk := ⟨h, h0, h64, hres⟩
      exact ⟨fun hover => fault (geometryFault_of_sizeOverflow hformat hover), fun hbits hline hraw hfilt =>
        ⟨fun hin => fault (geometryFault_of_badInput hformat ⟨hbits, hline, hraw, hfilt⟩ hin),
          fun hin hout => fault (geometryFault_of_noRoom hformat ⟨hbits, hline, hraw, hfilt⟩ hin hout)⟩⟩
  case start =>
    have run : exec .unfilter s = .next _ :=
      (exec_unfilter hr hreg).trans (congrArg _ (unfilterBody_of_geometryOk (s := s.started) hg))
    exact ⟨fun h => run.trans (congrArg _ (if_neg h)),
      fun h => run.trans (congrArg _ ((if_pos h).trans (finish_of_idle (started_engine hr))))⟩

end Sys2Proof.Machine

/-! PROOFS. A filtered scanline of `UNFILTER` (46_filter R322): what it writes, and how the command goes on. -/

namespace Sys2Proof.Machine

section
variable {s : State} {t : Nat}

theorem scanlineElement_of_ok (h : s.scanlineOk = true) (t : Nat) : scanlineElement s t = .next (scanlineBody t s) :=
  if_pos h

/-- The scanline that a filter type makes of the filtered bytes behind the type byte. -/
def State.scanlineBytes (s : State) (t : Nat) : List Byte :=
  unfilterLine t s.byteWidth (s.inBytes (s.typeOffset + 1) s.lineBytes) s.work.lines.prev

@[simp] theorem State.length_scanlineBytes (s : State) (t : Nat) : (s.scanlineBytes t).length = s.lineBytes := by
  simp [State.scanlineBytes]

/-- The state with the scanline in its place and as the one above the next (46_filter R322). -/
def State.withScanline (s : State) (line : List Byte) : State :=
  { s.putOut (s.scanline * s.lineBytes) line with
    work := { s.work with lines := { s.work.lines with cur := line, prev := some line } } }

theorem scanlineBody_of_lt (h : s.scanline + 1 < s.arg1.toNat) (t : Nat) : scanlineBody t s =
    { s.withScanline (s.scanlineBytes t) with engine := .unfilter (s.scanline + 1) } := if_pos h

theorem scanlineBody_of_le (h : s.arg1.toNat ≤ s.scanline + 1) (t : Nat) : scanlineBody t s =
    { s.withScanline (s.scanlineBytes t) with
      engine := .idle, done := true, dlen := BitVec.ofNat 32 s.rawSize } := if_neg (Nat.not_lt.2 h)

/-- The filtered bytes are the input's, and each is reconstructed as 46_filter R326 says. -/
theorem getD_scanlineBytes_toNat (ht : t ≤ 4) {k : Nat} (hk : k < s.lineBytes) :
    (((s.scanlineBytes t).getD k 0).toNat : Int) =
      (((s.mem.read (s.src.toNat + (s.typeOffset + 1 + k))).toNat : Int) +
        predicted t s.byteWidth (s.scanlineBytes t) s.work.lines.prev k) % 256 := by
  have hbyte : (s.inBytes (s.typeOffset + 1) s.lineBytes).getD k 0 =
      s.mem.read (s.src.toNat + (s.typeOffset + 1 + k)) := by
    rw [State.inBytes, Memory.getD_readBytes _ _ _ _ hk, Nat.add_assoc]
  rw [← hbyte]
  exact getD_unfilterLine_toNat ht (Nat.le_max_left 1 _) s.work.lines.prev (by rwa [State.length_inBytes])

theorem withScanline_read (hw : s.mem.wf = true) (line : List Byte) (a : Nat) :
    (s.withScanline line).mem.read a =
      if s.dst.toNat + s.scanline * s.lineBytes ≤ a ∧ a < s.dst.toNat + s.scanline * s.lineBytes + line.length
      then line.getD (a - (s.dst.toNat + s.scanline * s.lineBytes)) 0 else s.mem.read a :=
  Memory.read_writeBytes hw _ line a

/-- The five filtered scanlines are the elements of types 0 to 4. -/
theorem exec_scanline (s : State) {i : Instr}
    (h : (i, t) ∈ [(Instr.ftNone, 0), (.ftSub, 1), (.ftUp, 2), (.ftAverage, 3), (.ftPaeth, 4)]) :
    t ≤ 4 ∧ exec i s = scanlineElement s t := by
  simp only [List.mem_cons, Prod.mk.injEq, List.not_mem_nil, or_false] at h
  rcases h with ⟨rfl, rfl⟩ | ⟨rfl, rfl⟩ | ⟨rfl, rfl⟩ | ⟨rfl, rfl⟩ | ⟨rfl, rfl⟩ <;> exact ⟨by decide, rfl⟩

end

/-- Settles O38: the scanline's bytes by `getD_unfilterLine_toNat`, its place, and whether another one follows. -/
theorem scanlinesReconstruct : Obligations.ScanlinesReconstruct := by
  refine ⟨fun s hok hw i t hi => ?scanline, fun t s hr => ?illegal⟩
  case scanline =>
    obtain ⟨ht, hexec⟩ := exec_scanline s hi
    have run : exec i s = .next (scanlineBody t s) := hexec.trans (scanlineElement_of_ok hok t)
    refine ⟨(s.withScanline (s.scanlineBytes t)).mem, s.length_scanlineBytes t,
      fun k hk => getD_scanlineBytes_toNat ht hk,
      fun h => run.trans (congrArg _ (scanlineBody_of_lt h t)),
      fun h => run.trans (congrArg _ (scanlineBody_of_le h t)), fun a => ?place⟩
    case place =>
      have hread := withScanline_read hw (s.scanlineBytes t) a
      rwa [s.length_scanlineBytes t] at hread
  case illegal => exact element_of_regionsOk hr fun s => s.raise .invalidFilterType s.typeOffset

end Sys2Proof.Machine

/-! PROOFS. The choice of a filter type: the first of the five candidate lines with the smallest cost (46_filter R338 to
R343). -/

namespace Sys2Proof.Machine

/-! ## The cheapest of a list (46_filter R339) -/

section
variable {α : Type} (cheaper : α → α → Bool)

/-- One candidate more: how many came before it, the best one's place, and the best one. -/
def cheapestStep (acc : Nat × Nat × α) (x : α) : Nat × Nat × α :=
  if cheaper x acc.2.2 then (acc.1 + 1, acc.1 + 1, x) else (acc.1 + 1, acc.2.1, acc.2.2)

theorem cheapest_cons (a : α) (rest : List α) :
    cheapest cheaper (a :: rest) = (rest.foldl (cheapestStep cheaper) (0, 0, a)).2.1 := rfl

/-- The fold counts the candidates and holds the best one beside its place. -/
theorem foldl_cheapestStep (a : α) (rest : List α) :
    rest.foldl (cheapestStep cheaper) (0, 0, a) =
      (rest.length, cheapest cheaper (a :: rest), (a :: rest).getD (cheapest cheaper (a :: rest)) a) ∧
    cheapest cheaper (a :: rest) < (a :: rest).length := by
  induction rest using List.reverseRecOn with
  | nil => exact ⟨rfl, Nat.one_pos⟩
  | append_singleton rest x ih =>
    obtain ⟨hacc, hlt⟩ := ih
    have hconcat : (rest ++ [x]).foldl (cheapestStep cheaper) (0, 0, a) =
        cheapestStep cheaper (rest.length, cheapest cheaper (a :: rest),
          (a :: rest).getD (cheapest cheaper (a :: rest)) a) x := by
      rw [List.foldl_concat, hacc]
    rw [cheapest_cons, hconcat, cheapestStep, ← List.cons_append]
    split
    · simp
    · rw [List.getD_append _ _ _ _ hlt, List.length_append, List.length_append]
      exact ⟨rfl, Nat.lt_succ_of_lt hlt⟩

theorem cheapest_lt {l : List α} (h : l ≠ []) : cheapest cheaper l < l.length := by
  cases l with
  | nil => exact absurd rfl h
  | cons a rest => exact (foldl_cheapestStep cheaper a rest).2

/-- A candidate behind the others is the best one if it is cheaper than the best of them. -/
theorem cheapest_concat {l : List α} (h : l ≠ []) (x d : α) : cheapest cheaper (l ++ [x]) =
    if cheaper x (l.getD (cheapest cheaper l) d) then l.length else cheapest cheaper l := by
  cases l with
  | nil => exact absurd rfl h
  | cons a rest =>
    obtain ⟨hacc, hlt⟩ := foldl_cheapestStep cheaper a rest
    rw [List.cons_append, cheapest_cons, List.foldl_concat, hacc, cheapestStep, List.getD_eq_getElem _ a hlt,
      List.getD_eq_getElem _ d hlt]
    split <;> rfl

variable {cheaper} {β : Type} [LinearOrder β] {cost : α → β}

/-- When `cheaper` compares costs, no candidate costs less than the cheapest one, and the earlier ones cost more. -/
theorem cost_cheapest_le {l : List α} (d : α) (hcost : ∀ x ∈ l, ∀ y ∈ l, (cheaper x y = true ↔ cost x < cost y)) :
    ∀ k, k < l.length → cost (l.getD (cheapest cheaper l) d) ≤ cost (l.getD k d) ∧
      (k < cheapest cheaper l → cost (l.getD (cheapest cheaper l) d) < cost (l.getD k d)) := by
  induction l using List.reverseRecOn with
  | nil => exact fun k hk => absurd hk (Nat.not_lt_zero k)
  | append_singleton l x ih =>
    intro k hk
    rw [List.length_append, List.length_singleton] at hk
    rcases eq_or_ne l [] with rfl | hne
    · obtain rfl : k = 0 := Nat.lt_one_iff.1 hk
      exact ⟨le_refl _, fun h => absurd h (Nat.not_lt_zero 0)⟩
    have hbest := cheapest_lt cheaper hne
    have hl := ih fun y hy z hz => hcost y (List.mem_append_left _ hy) z (List.mem_append_left _ hz)
    have hx : cheaper x (l.getD (cheapest cheaper l) d) = true ↔ cost x < cost (l.getD (cheapest cheaper l) d) := by
      refine hcost _ (by simp) _ (List.mem_append_left _ ?_)
      rw [List.getD_eq_getElem _ d hbest]
      exact List.getElem_mem hbest
    have hlast : (l ++ [x]).getD l.length d = x := by simp
    have hold : ∀ j, j < l.length → (l ++ [x]).getD j d = l.getD j d := fun j hj => List.getD_append _ _ _ _ hj
    rw [cheapest_concat cheaper hne x d]
    split
    case isTrue h =>
      rw [hlast]
      rcases Nat.lt_succ_iff_lt_or_eq.1 hk with hk | rfl
      · have hlt := (hx.1 h).trans_le (hl k hk).1
        rw [hold k hk]
        exact ⟨hlt.le, fun _ => hlt⟩
      · rw [hlast]
        exact ⟨le_refl _, fun h => absurd h (lt_irrefl _)⟩
    case isFalse h =>
      rw [hold _ hbest]
      rcases Nat.lt_succ_iff_lt_or_eq.1 hk with hk | rfl
      · rw [hold k hk]
        exact hl k hk
      · rw [hlast]
        exact ⟨not_lt.1 fun hlt => h (hx.2 hlt), fun h => absurd h (Nat.not_lt.2 hbest.le)⟩

/-- Of five candidates the cheapest one is the type that 46_filter R339 names. -/
theorem firstMinimum_cheapest {l : List α} (hl : l.length = 5) (d : α)
    (hcost : ∀ x ∈ l, ∀ y ∈ l, (cheaper x y = true ↔ cost x < cost y)) :
    firstMinimum (fun k => cost (l.getD k d)) (cheapest cheaper l) :=
  ⟨Nat.le_of_lt_succ ((cheapest_lt cheaper (List.ne_nil_of_length_pos (by omega))).trans_eq hl),
    fun k hk => cost_cheapest_le d hcost k (by omega)⟩

theorem firstMinimum_congr {cost cost' : Nat → β} {t : Nat} (h : ∀ k, k ≤ 4 → cost k = cost' k)
    (hmin : firstMinimum cost t) : firstMinimum cost' t := by
  obtain ⟨ht, hle⟩ := hmin
  refine ⟨ht, fun k hk => ?_⟩
  rw [← h k hk, ← h t ht]
  exact hle k hk

end

/-! ## The candidates (46_filter R339) -/

section
variable (width : Nat) (cur : List Byte) (prev : Option (List Byte))

@[simp] theorem length_candidates : (candidates width cur prev).length = 5 := by simp [candidates]

theorem getD_candidates {k : Nat} (hk : k ≤ 4) :
    (candidates width cur prev).getD k [] = filterLine k width cur prev := by
  simp [candidates, List.getD_eq_getElem?_getD, Nat.lt_succ_of_le hk]

theorem length_of_mem_candidates {f : List Byte} (h : f ∈ candidates width cur prev) : f.length = cur.length := by
  obtain ⟨t, -, rfl⟩ := List.mem_map.1 h
  exact length_filterLine t width cur prev

/-- A choice among the candidate lines by a cost. -/
theorem firstMinimum_candidates {β : Type} [LinearOrder β] {cheaper : List Byte → List Byte → Bool}
    {cost : List Byte → β}
    (hcost : ∀ f g : List Byte, f.length = g.length → (cheaper f g = true ↔ cost f < cost g)) :
    firstMinimum (fun k => cost (filterLine k width cur prev)) (cheapest cheaper (candidates width cur prev)) := by
  have hmin := firstMinimum_cheapest (length_candidates width cur prev) [] fun f hf g hg => hcost f g
    ((length_of_mem_candidates width cur prev hf).trans (length_of_mem_candidates width cur prev hg).symm)
  exact firstMinimum_congr (fun k hk => congrArg cost (getD_candidates width cur prev hk)) hmin

end

/-! ## MINSUM (46_filter R340) -/

theorem sabs_eq_natAbs_toInt (v : Byte) : sabs v = v.toInt.natAbs := by
  have hv := v.isLt
  rw [sabs, BitVec.toInt_eq_toNat_cond]
  split <;> split <;> omega

theorem minSumCost_eq (f : List Byte) : minSumCost f = (f.map fun b => b.toInt.natAbs).sum :=
  congrArg List.sum (List.map_congr_left fun b _ => sabs_eq_natAbs_toInt b)

/-! ## ENTROPY (46_filter R341) -/

/-- How often byte `v` occurs in a line. -/
def byteCount (f : List Byte) (v : Nat) : Nat := f.count (BitVec.ofNat 8 v)

/-- What byte `v` adds to the Shannon entropy of a line. -/
noncomputable def entropyTerm (f : List Byte) (v : Nat) : ℝ :=
  if byteCount f v = 0 then 0 else ((byteCount f v : ℝ) / f.length) * Real.logb 2 ((f.length : ℝ) / byteCount f v)

/-- The Shannon entropy of the bytes of a line. -/
noncomputable def shannonEntropy (f : List Byte) : ℝ := ((List.range 256).map (entropyTerm f)).sum

theorem shannonEntropy_eq_sum (f : List Byte) : shannonEntropy f = ∑ v ∈ Finset.range 256, entropyTerm f v :=
  (Multiset.sum_coe _).symm

theorem sum_byteCount (f : List Byte) : ∑ v ∈ Finset.range 256, byteCount f v = f.length := by
  induction f with
  | nil => simp [byteCount]
  | cons b f ih =>
    have hone : ∑ v ∈ Finset.range 256, (if v = b.toNat then 1 else 0) = 1 := by
      rw [Finset.sum_ite_eq', if_pos (Finset.mem_range.2 b.isLt)]
    have hcons : ∀ v ∈ Finset.range 256, byteCount (b :: f) v = byteCount f v + if v = b.toNat then 1 else 0 := by
      intro v hv
      have hb : b = BitVec.ofNat 8 v ↔ v = b.toNat := by
        have := Finset.mem_range.1 hv
        rw [← BitVec.toNat_inj, BitVec.toNat_ofNat, Nat.mod_eq_of_lt (by omega), eq_comm]
      simp [byteCount, List.count_cons, hb]
    rw [Finset.sum_congr rfl hcons, Finset.sum_add_distrib, ih, hone, List.length_cons]

theorem entropyProduct_eq (f : List Byte) :
    entropyProduct f = ∏ v ∈ Finset.range 256, byteCount f v ^ byteCount f v := (Multiset.prod_coe _).symm

theorem entropyProduct_pos (f : List Byte) : 0 < entropyProduct f := by
  rw [entropyProduct_eq]
  exact Finset.prod_pos fun v _ => Nat.pow_self_pos

theorem logb_entropyProduct (f : List Byte) : Real.logb 2 (entropyProduct f) =
    ∑ v ∈ Finset.range 256, (byteCount f v : ℝ) * Real.logb 2 (byteCount f v) := by
  rw [entropyProduct_eq, Nat.cast_prod, Real.logb_prod]
  · exact Finset.sum_congr rfl fun v _ => by rw [Nat.cast_pow, Real.logb_pow]
  · exact fun v _ => Nat.cast_ne_zero.2 Nat.pow_self_pos.ne'

theorem entropyTerm_eq {f : List Byte} (hne : f.length ≠ 0) (v : Nat) : entropyTerm f v =
    Real.logb 2 f.length / f.length * byteCount f v - (byteCount f v : ℝ) * Real.logb 2 (byteCount f v) / f.length := by
  rw [entropyTerm]
  split
  case isTrue h0 => simp [h0]
  case isFalse h0 =>
    rw [Real.logb_div (Nat.cast_ne_zero.2 hne) (Nat.cast_ne_zero.2 h0)]
    ring

/-- The entropy in terms of the product the model compares, `H = log n - log G / n`: the counts add up to `n`. -/
theorem shannonEntropy_eq {f : List Byte} (hne : f.length ≠ 0) :
    shannonEntropy f = Real.logb 2 f.length - Real.logb 2 (entropyProduct f) / f.length := by
  rw [shannonEntropy_eq_sum, Finset.sum_congr rfl fun v _ => entropyTerm_eq hne v, Finset.sum_sub_distrib,
    ← Finset.mul_sum, ← Nat.cast_sum, sum_byteCount, ← Finset.sum_div, ← logb_entropyProduct,
    div_mul_cancel₀ _ (Nat.cast_ne_zero.2 hne)]

/-- Of two lines of one length the one with the larger product has the smaller entropy (46_filter R341). -/
theorem shannonEntropy_lt_iff {f g : List Byte} (hlen : f.length = g.length) :
    shannonEntropy f < shannonEntropy g ↔ entropyProduct g < entropyProduct f := by
  rcases Nat.eq_zero_or_pos f.length with h0 | hpos
  · obtain rfl := List.length_eq_zero_iff.1 h0
    obtain rfl := List.length_eq_zero_iff.1 (hlen.symm.trans h0)
    simp
  · have hn : (0 : ℝ) < g.length := Nat.cast_pos.2 (hlen ▸ hpos)
    rw [shannonEntropy_eq hpos.ne', shannonEntropy_eq (hlen ▸ hpos.ne'), hlen, sub_lt_sub_iff_left,
      div_lt_div_iff_of_pos_right hn, Real.logb_lt_logb_iff (by norm_num) (Nat.cast_pos.2 (entropyProduct_pos g))
        (Nat.cast_pos.2 (entropyProduct_pos f)), Nat.cast_lt]

theorem entropyCheaper_of_exact {c : Config} (hc : c.entropyFn = .exact) {f g : List Byte}
    (hlen : f.length = g.length) : entropyCheaper c f g = true ↔ shannonEntropy f < shannonEntropy g := by
  simp only [entropyCheaper, hc, decide_eq_true_eq, shannonEntropy_lt_iff hlen]

theorem entropyCheaper_of_approximate {c : Config} (hc : c.entropyFn = .approximate) (f g : List Byte) :
    entropyCheaper c f g = true ↔ Config.approxEntropy f < Config.approxEntropy g := by
  simp only [entropyCheaper, hc, decide_eq_true_eq]

/-! ## BRUTEFORCE (46_filter R343) -/

/-- A trial never fails; its size is the number of bytes of a compression with fixed blocks. -/
theorem trial_ok (c : Config) (ctr call : Nat) (f : List Byte) (w : Work) : ∃ bits w',
    deflate c ctr call .fixed f 0 w = .ok (bits, w') ∧ trial c ctr call f w = .ok ((bits.length + 7) / 8, w') := by
  obtain ⟨bits, w', h⟩ := deflate_ok c ctr call .fixed f 0 w
  exact ⟨bits, w', h, by rw [trial, h]⟩

/-- The trials of lines of `n` bytes: one size for each line, each trial numbered behind the one before. -/
theorem trials_ok (c : Config) (ctr : Nat) {n : Nat} {fs : List (List Byte)} (hn : ∀ f ∈ fs, f.length = n) (call : Nat)
    (w : Work) : ∃ sizes w', trials c ctr call fs w = .ok (sizes, w') ∧ sizes.length = fs.length ∧
      ∀ k, k < fs.length → ∃ w₁ bits w₂,
        deflate c ctr (call + k * blockCount c n) .fixed (fs.getD k []) 0 w₁ = .ok (bits, w₂) ∧
        sizes.getD k 0 = (bits.length + 7) / 8 := by
  induction fs generalizing call w with
  | nil => exact ⟨[], w, rfl, rfl, fun k hk => absurd hk (Nat.not_lt_zero k)⟩
  | cons f fs ih =>
    obtain ⟨hf, hfs⟩ := List.forall_mem_cons.1 hn
    obtain ⟨bits, w₂, hdeflate, htrial⟩ := trial_ok c ctr call f w
    obtain ⟨sizes, w', htrials, hlen, hsizes⟩ := ih hfs (call + blockCount c f.length) w₂
    refine ⟨(bits.length + 7) / 8 :: sizes, w', by simp only [trials, htrial, htrials],
      congrArg Nat.succ hlen, fun k hk => ?_⟩
    cases k with
    | zero => exact ⟨w, bits, w₂, by simpa using hdeflate, rfl⟩
    | succ k =>
      have hcall : call + (k + 1) * blockCount c n = call + blockCount c f.length + k * blockCount c n := by
        rw [hf, Nat.succ_mul]
        omega
      rw [hcall]
      exact hsizes k (Nat.lt_of_succ_lt_succ hk)

/-! ## ChooseType -/

section
variable (c : Config) (ctr call width : Nat) (cur : List Byte) (prev : Option (List Byte)) (w : Work)

theorem chooseType_minSum : ∃ t w', chooseType c ctr call .minSum width cur prev w = .ok (t, w') ∧
    firstMinimum (fun k => ((filterLine k width cur prev).map fun b => b.toInt.natAbs).sum) t := by
  refine ⟨_, _, rfl, firstMinimum_candidates (cost := fun f => (f.map fun b => b.toInt.natAbs).sum) width cur prev
    fun f g _ => ?_⟩
  rw [decide_eq_true_eq, minSumCost_eq, minSumCost_eq]

theorem chooseType_entropy : ∃ t w', chooseType c ctr call .entropy width cur prev w = .ok (t, w') ∧
    (c.entropyFn = .exact → firstMinimum (fun k => shannonEntropy (filterLine k width cur prev)) t) ∧
    (c.entropyFn = .approximate → firstMinimum (fun k => Config.approxEntropy (filterLine k width cur prev)) t) :=
  ⟨_, _, rfl, fun hc => firstMinimum_candidates width cur prev fun _ _ hlen => entropyCheaper_of_exact hc hlen,
    fun hc => firstMinimum_candidates width cur prev fun f g _ => entropyCheaper_of_approximate hc f g⟩

theorem chooseType_bruteForce : ∃ t w', chooseType c ctr call .bruteForce width cur prev w = .ok (t, w') ∧
    ∃ size : Nat → Nat, firstMinimum size t ∧ ∀ k, k ≤ 4 → ∃ w₁ bits w₂,
      deflate c ctr (call + k * blockCount c cur.length) .fixed (filterLine k width cur prev) 0 w₁ = .ok (bits, w₂) ∧
      size k = (bits.length + 7) / 8 := by
  obtain ⟨sizes, w', htrials, hlen, hsizes⟩ := trials_ok c ctr
    (fun f hf => length_of_mem_candidates width cur prev hf) call
    { w with lines := { w.lines with att := candidates width cur prev } }
  rw [length_candidates] at hlen hsizes
  refine ⟨_, w', by simp only [chooseType, htrials]; rfl, fun k => sizes.getD k 0,
    firstMinimum_cheapest (cost := id) hlen 0 fun m _ n _ => decide_eq_true_iff, fun k hk => ?_⟩
  rw [← getD_candidates width cur prev hk]
  exact hsizes k (Nat.lt_succ_of_le hk)

/-- `ChooseType` always answers one of the five types. -/
theorem chooseType_ok (strat : Strategy) :
    ∃ t w', chooseType c ctr call strat width cur prev w = .ok (t, w') ∧ t ≤ 4 := by
  cases strat with
  | zero => exact ⟨0, w, rfl, Nat.zero_le 4⟩
  | minSum =>
    obtain ⟨t, w', h, hmin⟩ := chooseType_minSum c ctr call width cur prev w
    exact ⟨t, w', h, hmin.1⟩
  | entropy =>
    obtain ⟨t, w', h, hexact, happrox⟩ := chooseType_entropy c ctr call width cur prev w
    cases hc : c.entropyFn with
    | exact => exact ⟨t, w', h, (hexact hc).1⟩
    | approximate => exact ⟨t, w', h, (happrox hc).1⟩
  | bruteForce =>
    obtain ⟨t, w', h, size, hmin, -⟩ := chooseType_bruteForce c ctr call width cur prev w
    exact ⟨t, w', h, hmin.1⟩

end

/-- Settles O42: one lemma for each strategy. -/
theorem chooseTypeIsFirstMinimum : Obligations.ChooseTypeIsFirstMinimum := fun c ctr call width cur prev w =>
  ⟨rfl, chooseType_minSum c ctr call width cur prev w, chooseType_entropy c ctr call width cur prev w,
    chooseType_bruteForce c ctr call width cur prev w⟩

end Sys2Proof.Machine

/-! PROOFS. `FILTER` (46_filter R335): each scanline behind the type that `ChooseType` gives for it, and with strategy
`ZERO` a copy (R338). -/

namespace Sys2Proof.Machine

/-! ## The filtered rows -/

/-- The scanline above row `y`: the row before it, and `prev` above the first one. -/
def rowAbove (rows : List (List Byte)) (prev : Option (List Byte)) : Nat → Option (List Byte)
  | 0 => prev
  | y + 1 => some (rows.getD y [])

theorem rowAbove_cons (cur : List Byte) (rest : List (List Byte)) (prev : Option (List Byte)) (y : Nat) :
    rowAbove (cur :: rest) prev (y + 1) = rowAbove rest (some cur) y := by
  cases y <;> rfl

/-- A filtered scanline behind its type byte (46_filter R335). -/
def filteredRow (t width : Nat) (cur : List Byte) (prev : Option (List Byte)) : List Byte :=
  BitVec.ofNat 8 t :: filterLine t width cur prev

@[simp] theorem length_filteredRow (t width : Nat) (cur : List Byte) (prev : Option (List Byte)) :
    (filteredRow t width cur prev).length = cur.length + 1 := by
  simp [filteredRow]

/-- `FILTER` never fails: row by row it takes the type that `ChooseType` gives under the raw row above, and writes the
row filtered with it behind the rows before. -/
theorem filterRows_spec (c : Config) (ctr : Nat) (strat : Strategy) (width : Nat) {n : Nat} {rows : List (List Byte)}
    (hn : ∀ r ∈ rows, r.length = n) (call : Nat) (prev : Option (List Byte)) (w : Work) :
    ∃ (bytes : List Byte) (w' : Work) (types : List Nat),
      filterRows c ctr strat width call rows prev w = .ok (bytes, w') ∧
      ∀ y, y < rows.length →
        types.getD y 0 ≤ 4 ∧
        (∃ w₁ w₂, chooseType c ctr (call + y * (5 * blockCount c n)) strat width (rows.getD y [])
          (rowAbove rows prev y) w₁ = .ok (types.getD y 0, w₂)) ∧
        ∀ j, j < n + 1 → bytes.getD (y * (n + 1) + j) 0 =
          (filteredRow (types.getD y 0) width (rows.getD y []) (rowAbove rows prev y)).getD j 0 := by
  induction rows generalizing call prev w with
  | nil => exact ⟨[], w, [], rfl, fun y hy => absurd hy (Nat.not_lt_zero y)⟩
  | cons cur rest ih =>
    obtain ⟨hcur, hrest⟩ := List.forall_mem_cons.1 hn
    obtain ⟨t, w₁, hchoose, ht⟩ := chooseType_ok c ctr call width cur prev
      { w with lines := { w.lines with cur := cur, prev := prev } } strat
    obtain ⟨bytes, w', types, hrows, hspec⟩ := ih hrest (call + 5 * blockCount c cur.length) (some cur) w₁
    have hlen : (filteredRow t width cur prev).length = n + 1 := by rw [length_filteredRow, hcur]
    refine ⟨filteredRow t width cur prev ++ bytes, w', t :: types, by simp only [filterRows, hchoose, hrows]; rfl,
      fun y hy => ?_⟩
    cases y with
    | zero =>
      refine ⟨ht, ⟨_, w₁, by rw [Nat.zero_mul]; exact hchoose⟩, fun j hj => ?_⟩
      rw [Nat.zero_mul, Nat.zero_add, List.getD_append _ _ _ _ (hlen ▸ hj)]
      rfl
    | succ y =>
      obtain ⟨hle, ⟨v₁, v₂, hv⟩, hbytes⟩ := hspec y (Nat.lt_of_succ_lt_succ hy)
      have hcall : call + (y + 1) * (5 * blockCount c n) =
          call + 5 * blockCount c cur.length + y * (5 * blockCount c n) := by
        rw [hcur, Nat.succ_mul]
        omega
      have hbehind : (y + 1) * (n + 1) = (n + 1) + y * (n + 1) := by rw [Nat.succ_mul, Nat.add_comm]
      rw [rowAbove_cons, hcall, List.getD_cons_succ, List.getD_cons_succ]
      refine ⟨hle, ⟨v₁, v₂, hv⟩, fun j hj => ?_⟩
      rw [hbehind, Nat.add_assoc, List.getD_append_right _ _ _ _ (by omega), hlen, Nat.add_sub_cancel_left]
      exact hbytes j hj

/-! ## The rows of the image -/

section
variable {s : State}

@[simp] theorem State.length_rows (s : State) : s.rows.length = s.arg1.toNat := by simp [State.rows]

theorem State.length_of_mem_rows {r : List Byte} (h : r ∈ s.rows) : r.length = s.lineBytes := by
  obtain ⟨y, -, rfl⟩ := List.mem_map.1 h
  exact State.length_inBytes s _ _

theorem State.getD_rows {y : Nat} (hy : y < s.arg1.toNat) :
    s.rows.getD y [] = s.inBytes (y * s.lineBytes) s.lineBytes := by
  simp [State.rows, List.getD_eq_getElem?_getD, hy]

theorem State.rowAbove_rows {y : Nat} (hy : y < s.arg1.toNat) : rowAbove s.rows none y =
    if y = 0 then none else some (s.inBytes ((y - 1) * s.lineBytes) s.lineBytes) := by
  cases y with
  | zero => rfl
  | succ y => exact congrArg some (State.getD_rows (Nat.lt_of_succ_lt hy))

/-! ## The command -/

theorem filterBody_of_rows (hg : s.geometryFault s.rawSize s.filtSize = none) {bytes : List Byte} {w : Work}
    (hrows : filterRows s.cfg s.free s.strategy s.byteWidth 0 s.rows none s.work = .ok (bytes, w)) : filterBody s =
    State.finish { s.putOut 0 bytes with work := w, free := s.free + 1, dlen := BitVec.ofNat 32 s.filtSize } := by
  simp only [filterBody, hg, hrows]

theorem exec_filter_of_rows (hr : s.ready) (hreg : s.regionsOk .st = true)
    (hg : s.geometryFault s.rawSize s.filtSize = none) {bytes : List Byte} {w : Work}
    (hrows : filterRows s.cfg s.free s.strategy s.byteWidth 0 s.rows none s.work = .ok (bytes, w)) :
    exec .filter s = .next { s.started with
      mem := s.mem.writeBytes s.dst.toNat bytes, work := w, free := s.free + 1, done := true
      dlen := BitVec.ofNat 32 s.filtSize } :=
  ((exec_filter hr hreg).trans (congrArg _ (filterBody_of_rows (s := s.started) hg hrows))).trans
    (congrArg _ (finish_of_idle (started_engine hr)))

/-- A byte of the filtered image is the byte written there. -/
theorem filtered_read (hw : s.mem.wf = true) {bytes : List Byte} (hlen : bytes.length = s.filtSize) {y j : Nat}
    (hy : y < s.arg1.toNat) (hj : j < s.lineBytes + 1) :
    (s.mem.writeBytes s.dst.toNat bytes).read (s.dst.toNat + (y * (s.lineBytes + 1) + j)) =
      bytes.getD (y * (s.lineBytes + 1) + j) 0 := by
  have hin : y * (s.lineBytes + 1) + j < bytes.length :=
    calc y * (s.lineBytes + 1) + j < (y + 1) * (s.lineBytes + 1) := by rw [Nat.succ_mul]; omega
      _ ≤ s.arg1.toNat * (s.lineBytes + 1) := Nat.mul_le_mul_right _ hy
      _ = bytes.length := hlen.symm
  rw [Memory.read_writeBytes hw, if_pos (by omega), Nat.add_sub_cancel_left]

end

/-- Settles O41: the rows by `filterRows_spec`, the bytes of a row by the predictors of 46_filter. -/
theorem filterWritesChosenTypes : Obligations.FilterWritesChosenTypes := by
  intro s hr hreg hw hg row prev
  obtain ⟨bytes, w, types, hrows, hspec⟩ := filterRows_spec s.cfg s.free s.strategy s.byteWidth
    (fun _ => State.length_of_mem_rows (s := s)) 0 none s.work
  have hlen : bytes.length = s.filtSize := by
    rw [length_filterRows (fun _ => State.length_of_mem_rows (s := s)) hrows, State.length_rows, State.filtSize]
  refine ⟨s.mem.writeBytes s.dst.toNat bytes, w, fun y => types.getD y 0, exec_filter_of_rows hr hreg hg hrows,
    fun y hy => ?row, fun a ha => ?frame⟩
  case row =>
    have hspec := hspec y (by rwa [State.length_rows])
    rw [State.getD_rows hy, State.rowAbove_rows hy, Nat.zero_add] at hspec
    obtain ⟨hle, hchoose, hbytes⟩ := hspec
    refine ⟨hle, hchoose, ?type, fun k hk => ?byte⟩
    case type =>
      have hread := (filtered_read hw hlen hy (Nat.succ_pos _)).trans (hbytes 0 (Nat.succ_pos _))
      rw [← Nat.add_zero (y * (s.lineBytes + 1)), hread]
      exact Nat.mod_eq_of_lt (by omega)
    case byte =>
      have hread := (filtered_read hw hlen hy (Nat.succ_lt_succ hk)).trans (hbytes (k + 1) (Nat.succ_lt_succ hk))
      rw [Nat.add_assoc _ 1 k, Nat.add_comm 1 k, hread]
      exact getD_filterLine_toNat hle s.byteWidth _ (by rwa [State.length_inBytes])
  case frame =>
    rw [Memory.read_writeBytes hw, if_neg (by omega)]

/-- Type None predicts 0 (46_filter R324). -/
theorem predicted_none (width : Nat) (line : List Byte) (prev : Option (List Byte)) (i : Nat) :
    predicted 0 width line prev i = 0 := rfl

/-- Settles O40 from O41: `ChooseType` answers 0, and with type 0 nothing is taken away. -/
theorem filterZeroCopies : Obligations.FilterZeroCopies := by
  intro s hr hreg hw hg hzero
  obtain ⟨m, w, types, hexec, hrow, hframe⟩ := filterWritesChosenTypes s hr hreg hw hg
  refine ⟨m, w, hexec, fun y hy => ?_, hframe⟩
  obtain ⟨-, ⟨w₁, w₂, hchoose⟩, htype, hbytes⟩ := hrow y hy
  have ht : types y = 0 := by
    rw [hzero] at hchoose
    exact (congrArg Prod.fst (Except.ok.inj hchoose)).symm
  rw [ht] at htype hbytes
  refine ⟨BitVec.eq_of_toNat_eq htype, fun j hj => BitVec.eq_of_toNat_eq ?_⟩
  have hbyte := hbytes j hj
  have hraw := (s.mem.read (s.src.toNat + (y * s.lineBytes + j))).isLt
  rw [Memory.getD_readBytes _ _ _ _ hj, predicted_none, sub_zero, Nat.add_assoc s.src.toNat] at hbyte
  omega

end Sys2Proof.Machine

/-! PROOFS. The CRC32 register bit by bit, and that each byte is absorbed one to one (47_crc32 R361, R365); the chunk
record of `CRCCHK` (47_crc32 R364). -/

namespace Sys2Proof.Machine

/-! ## The bitwise step (47_crc32 R361) -/

theorem getLsbD_crcShift (c : Word) (i : Nat) : (crcShift c).getLsbD i =
    (c.getLsbD (i + 1) ^^ (c.getLsbD 0 && (0xEDB88320 : Word).getLsbD i)) := by
  rw [crcShift]
  cases c.getLsbD 0 <;> simp [Nat.add_comm]

theorem crcShift_of_even {c : Word} (h : c.getLsbD 0 = false) : crcShift c = c >>> 1 :=
  if_neg (Bool.eq_false_iff.1 h)

/-- The polynomial has bit 31, which the shift leaves empty, so the bit shifted out is read back there. -/
theorem getLsbD_crcShift_31 (c : Word) : (crcShift c).getLsbD 31 = c.getLsbD 0 := by
  rw [getLsbD_crcShift, BitVec.getLsbD_of_ge c 32 le_rfl, show (0xEDB88320 : Word).getLsbD 31 = true by decide,
    Bool.and_true, Bool.false_xor]

theorem crcShift_xor (a b : Word) : crcShift (a ^^^ b) = crcShift a ^^^ crcShift b := by
  refine BitVec.eq_of_getLsbD_eq fun i _ => ?_
  simp only [BitVec.getLsbD_xor, getLsbD_crcShift, Bool.and_xor_distrib_right, Bool.xor_assoc, Bool.xor_left_comm]

theorem crcShift_injective : Function.Injective crcShift := by
  intro a b h
  have hlow : a.getLsbD 0 = b.getLsbD 0 := by rw [← getLsbD_crcShift_31, h, getLsbD_crcShift_31]
  refine BitVec.eq_of_getLsbD_eq fun i _ => ?_
  cases i with
  | zero => exact hlow
  | succ i =>
    have hbit : (crcShift a).getLsbD i = (crcShift b).getLsbD i := by rw [h]
    rw [getLsbD_crcShift, getLsbD_crcShift, hlow] at hbit
    exact Bool.xor_left_inj.1 hbit

/-! ## Eight steps: the table, and one byte (47_crc32 R360) -/

theorem crcTable_eq_iterate (n : Word) : crcTable n = crcShift^[8] n := rfl

theorem crcShift_iterate_xor (k : Nat) (a b : Word) :
    crcShift^[k] (a ^^^ b) = crcShift^[k] a ^^^ crcShift^[k] b := by
  induction k generalizing a b with
  | zero => rfl
  | succ k ih => simp only [Function.iterate_succ_apply, crcShift_xor, ih]

/-- While the bits shifted out are zero the polynomial is not applied. -/
theorem crcShift_iterate_of_low_zero {k : Nat} {c : Word} (h : ∀ i < k, c.getLsbD i = false) :
    crcShift^[k] c = c >>> k := by
  induction k with
  | zero => simp
  | succ k ih =>
    have hnext : (c >>> k).getLsbD 0 = false := (BitVec.getLsbD_ushiftRight c k 0).trans (h k k.lt_succ_self)
    rw [Function.iterate_succ_apply', ih fun i hi => h i (hi.trans k.lt_succ_self), crcShift_of_even hnext,
      BitVec.shiftRight_add]

/-- Eight steps are linear: the low byte goes through the table, and the bits above it only move down. -/
theorem crcShift_iterate_eight (c : Word) : crcShift^[8] c = crcTable (c &&& 0xFF) ^^^ (c >>> 8) := by
  have hones : ∀ i < 8, (0xFF : Word).getLsbD i = true := by decide
  have hzero : ∀ i < 8, (c &&& 0xFF ^^^ c).getLsbD i = false := fun i hi => by
    rw [BitVec.getLsbD_xor, BitVec.getLsbD_and, hones i hi, Bool.and_true, Bool.xor_self]
  have hshift : (c &&& 0xFF ^^^ c) >>> 8 = c >>> 8 := by
    simp [BitVec.ushiftRight_xor_distrib, BitVec.ushiftRight_and_distrib]
  calc crcShift^[8] c
    _ = crcShift^[8] ((c &&& 0xFF) ^^^ (c &&& 0xFF ^^^ c)) := by
      rw [← BitVec.xor_assoc, BitVec.xor_self, BitVec.zero_xor]
    _ = crcTable (c &&& 0xFF) ^^^ (c >>> 8) := by
      rw [crcShift_iterate_xor, crcShift_iterate_of_low_zero hzero, hshift, crcTable_eq_iterate]

theorem byte_setWidth_ushiftRight (b : Byte) : (b.setWidth 32 : Word) >>> 8 = 0#32 := by
  have := b.isLt
  bv_omega

theorem crcStep_eq_iterate (r : Word) (b : Byte) : crcStep r b = crcShift^[8] (r ^^^ b.setWidth 32) := by
  rw [crcShift_iterate_eight, BitVec.ushiftRight_xor_distrib, byte_setWidth_ushiftRight, BitVec.xor_zero, crcStep]

theorem crcRegister_eq_bitwise (bs : List Byte) :
    crcRegister bs = bs.foldl (fun r b => crcShift^[8] (r ^^^ b.setWidth 32)) 0xFFFFFFFF := by
  rw [crcRegister, funext₂ crcStep_eq_iterate]

/-! ## Each byte is absorbed one to one (47_crc32 R365) -/

theorem crcStep_injective_left (b : Byte) : Function.Injective (crcStep · b) := by
  intro r r' h
  simp only [crcStep_eq_iterate] at h
  exact (BitVec.xor_left_inj _).1 (crcShift_injective.iterate 8 h)

theorem crcStep_injective_right (r : Word) : Function.Injective (crcStep r) := by
  intro x y h
  rw [crcStep_eq_iterate, crcStep_eq_iterate] at h
  have hwide : (x.setWidth 32 : Word) = y.setWidth 32 := (BitVec.xor_right_inj _).1 (crcShift_injective.iterate 8 h)
  bv_omega

theorem foldl_crcStep_injective (bs : List Byte) : Function.Injective (bs.foldl crcStep) := by
  induction bs with
  | nil => exact Function.injective_id
  | cons b bs ih => exact ih.comp (crcStep_injective_left b)

theorem crc32_ne_of_byte_ne (before after : List Byte) {x y : Byte} (h : x ≠ y) :
    crc32 (before ++ x :: after) ≠ crc32 (before ++ y :: after) := by
  intro heq
  have hreg : crcRegister (before ++ x :: after) = crcRegister (before ++ y :: after) := (BitVec.xor_left_inj _).1 heq
  simp only [crcRegister, List.foldl_append, List.foldl_cons] at hreg
  exact h (crcStep_injective_right _ (foldl_crcStep_injective after hreg))

/-- Settles O50: the table is linear, and every step is one to one in the register and in the byte. -/
theorem crcDetectsOneByte : Obligations.CrcDetectsOneByte :=
  ⟨fun bs => congrArg (· ^^^ 0xFFFFFFFF) (crcRegister_eq_bitwise bs), by decide +kernel,
    fun before after _ _ => crc32_ne_of_byte_ne before after⟩

/-! ## The chunk record (47_crc32 R364) -/

theorem decode_chunk_of_short {src : Source} (h : src.len < 12 ∨ src.len - 12 < src.be32At 0) (p : EmptySlot)
    (bp : Nat) : decode p .chunk src bp = .error ⟨.endOfInput, 8 * src.len, bp⟩ := by
  rw [decode]
  by_cases hlen : src.len < 12
  · exact if_pos hlen
  · exact (if_neg hlen).trans (if_pos (h.resolve_left hlen))

theorem decode_chunk_of_long {src : Source} (hlen : 12 ≤ src.len) (h : src.be32At 0 ≤ src.len - 12) (p : EmptySlot)
    (bp : Nat) : decode p .chunk src bp = .ok (.chunk (BitVec.ofNat 32 (src.be32At 0))
      (BitVec.ofNat 32 (src.be32At 4)) (BitVec.ofNat 32 (src.be32At (8 + src.be32At 0))), bp) := by
  rw [decode]
  exact (if_neg (Nat.not_lt.2 hlen)).trans (if_neg (Nat.not_lt.2 h))

/-- A whole record is compared with the CRC32 of its type and data. -/
theorem chunkBody_of_long {len : Word} {s : State} (hlen : 12 ≤ s.slen.toNat) (h : len.toNat ≤ s.slen.toNat - 12)
    (crc : Word) : chunkBody len crc s =
      let covered := s.inBytes 4 (4 + len.toNat)
      let s' := { s with res0 := crc32 covered, work := { s.work with crcR := crcRegister covered } }
      if !s.ignoreCrc ∧ crc ≠ crc32 covered then s'.raiseInput .crcMismatch (8 + len.toNat) else s'.finish :=
  if_neg (not_or.2 ⟨Nat.not_lt.2 hlen, Nat.not_lt.2 h⟩)

theorem stopFetch_of_chunk {s : State} (h : s.engine = .chunk) (e : Stop) : s.stopFetch e =
    ({ s with dlen := 0, bp := BitVec.ofNat 35 e.bp }).raiseInput e.cause e.info := by
  rw [State.stopFetch, State.engineUses, h]
  rfl

/-- Settles O51: the decoder by the record's length, the body by the comparison. -/
theorem chunkCheck : Obligations.ChunkCheck := by
  refine ⟨fun s hr hreg => command_of_regionsOk .s id (fun s => { s with engine := .chunk }) hr hreg,
    fun p src bp => ⟨fun h => decode_chunk_of_short h p bp, fun hlen h => decode_chunk_of_long hlen h p bp⟩,
    fun len typ crc s hreg hlen h => ?compare, fun s e h => stopFetch_of_chunk h e, State.raiseInput_mem⟩
  case compare =>
    have run : exec (.chunk len typ crc) s = .next (chunkBody len crc s) := element_of_regionsOk hreg _
    rw [run, chunkBody_of_long hlen h]
    refine ⟨fun hok => congrArg _ (if_neg ?_), fun hi hne => congrArg _ (if_pos ⟨by rw [hi]; rfl, hne⟩)⟩
    rintro ⟨hi, hne⟩
    exact hok.elim (fun hign => by simp [hign] at hi) hne

end Sys2Proof.Machine

/-! PROOFS. How a command starts and ends, what is refused, and the commands that one body runs whole (48_commands R370 to
R377, R382 to R384, R388, R389). -/

namespace Sys2Proof.Machine

/-! ## Every instruction answers -/

/-- What a command answers in the one frame of all commands but `NOP` and `CLRERR` (48_commands R370). -/
def FromFrame (s : State) (r : Result) : Prop := ∃ uses prep fail body, r = commandOr s uses prep fail body

theorem command_fromFrame (s : State) (uses : Uses) (prep body : State → State) :
    FromFrame s (command s uses prep body) := ⟨_, _, _, _, rfl⟩

theorem userCommand_fromFrame (s : State) (body : State → State) : FromFrame s (userCommand s body) :=
  ⟨_, _, _, _, rfl⟩

theorem exec_fromFrame {i : Instr} (hi : (commandUses i).isSome = true) (s : State) : FromFrame s (exec i s) := by
  unfold exec
  cases i with
  | inflate | zlibd | deflate | zlibc | unfilter | filter | crc32 | crcchk | adler32 | hdec =>
    exact command_fromFrame _ _ _ _
  | hbl | hbf => exact userCommand_fromFrame _ _
  | _ => cases hi

theorem FromFrame.answers {s : State} {r : Result} (h : FromFrame s r) : ∃ t, r = .next t := by
  obtain ⟨uses, prep, fail, body, rfl⟩ := h
  rcases commandOr_cases s uses prep fail body with ⟨_, e⟩ | ⟨_, _, e⟩ | ⟨_, _, e⟩ | ⟨_, _, e⟩ <;> exact ⟨_, e⟩

theorem controlCommand_answers (s : State) (body : State → State) : ∃ t, controlCommand s body = .next t := by
  rcases controlCommand_cases s body with ⟨_, e⟩ | ⟨_, e⟩ <;> exact ⟨_, e⟩

theorem exec_command_answers {i : Instr} (hi : isCommand i = true) (s : State) : ∃ t, exec i s = .next t := by
  cases i with
  | nop => exact controlCommand_answers s id
  | clrerr => exact controlCommand_answers s State.clearError
  | _ => exact FromFrame.answers (exec_fromFrame (by exact hi) s)

/-- Regions that are legal for both uses are legal for an element that uses `S` only. -/
theorem regionsOk_s_of_st {s : State} (hr : s.regionsOk .st = true) : s.regionsOk .s = true := by
  obtain ⟨hs, -⟩ := (Bool.and_eq_true _ _).mp hr
  exact (Bool.and_true _).trans hs

theorem exec_element_answers {i : Instr} {s : State} (hi : isCommand i = false) (hr : s.regionsOk .st = true)
    (hs : isScanline i = true → s.scanlineOk = true) : ∃ t, exec i s = .next t := by
  cases i with
  | nop | clrerr | inflate | zlibd | deflate | zlibc | unfilter | filter | crc32 | crcchk | adler32 | hbl | hbf
  | hdec => cases hi
  | ftNone | ftSub | ftUp | ftAverage | ftPaeth => exact ⟨_, scanlineElement_of_ok (hs rfl) _⟩
  | chunk => exact ⟨_, if_pos (regionsOk_s_of_st hr)⟩
  | _ => exact ⟨_, if_pos hr⟩

/-- Settles O10: the frames of a meaning, of which only an element's tests its regions. -/
theorem everyInstructionAnswers : Obligations.EveryInstructionAnswers :=
  ⟨fun _ s hi => exec_command_answers hi s, fun _ _ hi hr hs => exec_element_answers hi hr hs⟩

/-! ## Slot `U` (10_state R30, 48_commands R388) -/

/-- Slot `U` and `STATUS.TREEV`. -/
def State.userSlot (s : State) : Tree × Bool := (s.u, s.treev)

theorem Effect.userSlot {Go : State → Prop} {s t : State} (e : Effect Go s t) : t.userSlot = s.userSlot := by
  cases e with
  | goesOn q _ => exact q.view State.userSlot
  | ends q => exact q.view State.userSlot
  | faults q c info => exact q.view State.userSlot

theorem command_userSlot {Go : State → Prop} {s t : State} {uses : Uses} {prep body : State → State}
    (h : command s uses prep body = .next t)
    (hb : (prep s.start).regionsOk uses = true → Effect Go (prep s.start) (body (prep s.start)))
    (hp : Quiet s.start (prep s.start) := by exact .silent) : t.userSlot = s.userSlot := by
  rcases commandOr_cases s uses prep (fun s => s.raiseUses uses .regionError 0) body with
    ⟨_, e⟩ | ⟨_, _, e⟩ | ⟨_, hok, e⟩ | ⟨_, _, e⟩ <;> cases e.symm.trans h
  · rfl
  · rfl
  · exact ((hb hok).of_quiet hp).userSlot
  · exact (Effect.raiseUses (Go := Go) hp uses _ _).userSlot

theorem exec_command_userSlot {i : Instr} {s t : State} (hi : (commandUses i).isSome = true) (hl : i ≠ .hbl)
    (hf : i ≠ .hbf) (h : exec i s = .next t) : t.userSlot = s.userSlot := by
  unfold exec at h
  cases i with
  | inflate => exact command_userSlot h fun _ => .goesOn (Go := fun _ => True) .silent trivial
  | zlibd => exact command_userSlot h fun _ => .goesOn (Go := fun _ => True) .silent trivial
  | deflate => exact command_userSlot h fun _ => deflateBody_effect _
  | zlibc => exact command_userSlot h fun _ => zlibcBody_effect _
  | unfilter => exact command_userSlot h unfilterBody_effect
  | filter => exact command_userSlot h fun _ => filterBody_effect _
  | crc32 => exact command_userSlot h fun _ => .ends (Go := Never) .silent
  | crcchk => exact command_userSlot h fun _ => .goesOn (Go := fun _ => True) .silent trivial
  | adler32 => exact command_userSlot h fun _ => .ends (Go := Never) .silent
  | hbl => exact absurd rfl hl
  | hbf => exact absurd rfl hf
  | hdec => exact command_userSlot h fun _ => hdecBody_effect _
  | _ => cases hi

theorem exec_userSlot {i : Instr} {s t : State} (hl : i ≠ .hbl) (hf : i ≠ .hbf) (h : exec i s = .next t) :
    t.userSlot = s.userSlot := by
  cases exec_effect h with
  | nop _ ht => obtain rfl | rfl := ht <;> rfl
  | clrerr _ ht => obtain rfl | rfl := ht <;> rfl
  | command hi _ => exact exec_command_userSlot hi hl hf h
  | element _ e => exact e.userSlot

/-- Settles O9: the slot is in the kept part of every meaning but those of `HBL` and `HBF`. -/
theorem userSlotKept : Obligations.UserSlotKept := fun _ _ _ hl hf h =>
  Prod.mk.inj (exec_userSlot hl hf h)

/-! ## `NOP`, `CLRERR` and refusal (48_commands R373, R383, R384) -/

theorem controlCommand_of_not_busy {s : State} (hb : s.busy = false) (body : State → State) :
    controlCommand s body = .next (body s).finish := by
  rw [controlCommand, hb]
  rfl

/-- Settles O11: `NOP` has an empty body. -/
theorem nopCompletes : Obligations.NopCompletes := fun s hb =>
  (controlCommand_of_not_busy hb id).trans (congrArg _ (finish_of_idle ((State.not_busy_iff s).1 hb)))

/-- Settles O12: the body of `CLRERR` clears the two registers. -/
theorem clrerrCompletes : Obligations.ClrerrCompletes := fun s hb =>
  (controlCommand_of_not_busy hb State.clearError).trans
    (congrArg _ (finish_of_idle (s := s.clearError) ((State.not_busy_iff s).1 hb)))

theorem FromFrame.of_err {s : State} {r : Result} (h : FromFrame s r) (hb : s.busy = false) (he : s.err ≠ 0) :
    r = .next { s with done := true } := by
  obtain ⟨uses, prep, fail, body, rfl⟩ := h
  rw [commandOr, hb, ← finish_of_idle ((State.not_busy_iff s).1 hb)]
  exact if_pos he

/-- A fault after the first records nothing (10_state R31). -/
theorem raiseIllegal_of_err {s : State} (hidle : s.engine = .idle) (he : s.err ≠ 0) (w : Word) :
    s.raiseIllegal w = { s with done := true } := by
  rw [State.raiseIllegal, if_neg he, State.recordFault, if_neg he, if_neg he, ← hidle]

/-- Settles O13: the frame of 48_commands R370 tests `ERR` first, and an illegal word's fault is not the first. -/
theorem refusedWhileErr : Obligations.RefusedWhileErr := by
  refine ⟨fun i s hi hb he => (exec_fromFrame hi s).of_err hb he, fun w s hd hb he => ?word⟩
  case word =>
    have hill := raiseIllegal_of_err ((State.not_busy_iff s).1 hb) he w
    simp [State.writeCsr, State.writeCmd, hb, hd, hill]

/-! ## `INFLATE` and `ZLIBD` (48_commands R376, R377) -/

/-- Settles O24: `BFINAL` is dropped at the start, and the body chooses the first phase. -/
theorem decompressionStarts : Obligations.DecompressionStarts := by
  refine fun s hr hreg => ⟨?inflate, ?zlibd⟩
  case inflate =>
    rw [← BitVec.ofNat_toNat]
    exact command_of_regionsOk .st State.dropFinal
      (fun s => { s with bp := BitVec.ofNat 35 s.arg0.toNat, engine := .inflate false .header }) hr hreg
  case zlibd =>
    exact command_of_regionsOk .st State.dropFinal (fun s => { s with engine := .inflate true .zHeader }) hr hreg

/-! ## `CRC32` and `ADLER32` (48_commands R382, R389) -/

/-- Settles O47: the body runs on the started state. -/
theorem crc32Completes : Obligations.Crc32Completes := fun _ hr hreg =>
  (command_of_regionsOk .s id crc32Body hr hreg).trans (congrArg _ (finish_of_idle (started_engine hr)))

/-- Settles O48: the body runs on the started state. -/
theorem adler32Completes : Obligations.Adler32Completes := fun _ hr hreg =>
  (command_of_regionsOk .s id adler32Body hr hreg).trans (congrArg _ (finish_of_idle (started_engine hr)))

/-! ## `HDEC` (48_commands R388) -/

section
variable {s : State}

theorem exec_hdec (hr : s.ready) (hreg : s.regionsOk .s = true) : exec .hdec s = .next (hdecBody s.started) :=
  command_of_regionsOk .s id hdecBody hr hreg

theorem hdecBody_of_no_tree (h : s.treev = false) : hdecBody s = s.raiseInput .treeNotValid 0 := by
  rw [hdecBody, h]
  rfl

theorem hdecBody_of_ok (h : s.treev = true) {symbol k : Nat}
    (hd : decodeSymbol s.cfg.emptySlot s.source s.u s.arg0.toNat = .ok (symbol, k)) :
    hdecBody s = State.finish { s with bp := BitVec.ofNat 35 k, res0 := BitVec.ofNat 32 symbol } := by
  rw [hdecBody, if_pos h, hd]

theorem hdecBody_of_error (h : s.treev = true) {e : Stop}
    (hd : decodeSymbol s.cfg.emptySlot s.source s.u s.arg0.toNat = .error e) : hdecBody s = s.raiseStop .s e := by
  rw [hdecBody, if_pos h, hd]

end

/-- Settles O23: whether there is a tree, and then what `DecodeSymbol` answers. -/
theorem hdecDecodes : Obligations.HdecDecodes := fun s hr hreg =>
  have run := exec_hdec hr hreg
  ⟨fun h => run.trans (congrArg _ (hdecBody_of_no_tree (s := s.started) h)),
    fun _ _ h hd => run.trans (congrArg _ ((hdecBody_of_ok (s := s.started) h hd).trans
      (finish_of_idle (started_engine hr)))),
    fun _ h hd => run.trans (congrArg _ (hdecBody_of_error (s := s.started) h hd))⟩

end Sys2Proof.Machine

/-! PROOFS. The tree image (20_memory R64), at which symbol a build fails, and what the tree is that a length set builds
(41_huffman R152 to R157). -/

namespace Sys2Proof.Machine

/-! ## The tree image (20_memory R64) -/

/-- Value `k` of a list of 16-bit values stands at byte `2 * k`, low byte first. -/
theorem getD_flatMap_le16bytes {α : Type} (f : α → Nat) (d : α) (l : List α) {k : Nat} (hk : k < l.length) :
    (l.flatMap fun x => le16bytes (f x)).getD (2 * k) 0 = BitVec.ofNat 8 (f (l.getD k d)) ∧
      (l.flatMap fun x => le16bytes (f x)).getD (2 * k + 1) 0 = BitVec.ofNat 8 (f (l.getD k d) / 256) := by
  induction l generalizing k with
  | nil => exact absurd hk (Nat.not_lt_zero k)
  | cons x l ih =>
    cases k with
    | zero => exact ⟨rfl, rfl⟩
    | succ k => exact ih (Nat.lt_of_succ_lt_succ hk)

section
variable {t : Tree}

theorem built_sizes (ht : t.built) : t.code.length = t.n ∧ t.tab.length = 2 * t.n := by
  obtain ⟨coded, nodes, b, hholds, htab, -⟩ := built_holds ht
  refine ⟨?code, htab ▸ hholds.tab⟩
  case code =>
    obtain ⟨lengths, maxBits, hbuild⟩ := ht
    rw [buildFromLengths] at hbuild
    split at hbuild <;> cases hbuild
    exact length_assignCodes _ _

theorem length_treeImage_eq (ht : t.built) : (treeImage t).length = 6 * t.n := by
  obtain ⟨hcode, htab⟩ := built_sizes ht
  rw [length_treeImage]
  omega

/-- The codes come first. -/
theorem getD_treeImage_code (ht : t.built) {k : Nat} (hk : k < t.n) :
    (treeImage t).getD (2 * k) 0 = BitVec.ofNat 8 (t.code.getD k 0) ∧
      (treeImage t).getD (2 * k + 1) 0 = BitVec.ofNat 8 (t.code.getD k 0 / 256) := by
  obtain ⟨hcode, -⟩ := built_sizes ht
  have hlen : (t.code.flatMap le16bytes).length = 2 * t.n := hcode ▸ length_flatMap_le16bytes t.code id
  rw [treeImage, List.getD_append _ _ _ _ (by omega), List.getD_append _ _ _ _ (by omega)]
  exact getD_flatMap_le16bytes id 0 t.code (by omega)

/-- The table follows, with `0xFFFF` for `EMPTY`. -/
theorem getD_treeImage_entry (ht : t.built) {k : Nat} (hk : k < 2 * t.n) :
    (treeImage t).getD (2 * t.n + 2 * k) 0 = BitVec.ofNat 8 ((t.tab.getD k none).getD 0xFFFF) ∧
      (treeImage t).getD (2 * t.n + 2 * k + 1) 0 = BitVec.ofNat 8 ((t.tab.getD k none).getD 0xFFFF / 256) := by
  obtain ⟨hcode, htab⟩ := built_sizes ht
  have hlen : (t.code.flatMap le16bytes).length = 2 * t.n := hcode ▸ length_flatMap_le16bytes t.code id
  rw [treeImage, Nat.add_assoc (2 * t.n), List.getD_append_right _ _ _ _ (by omega),
    List.getD_append_right _ _ _ _ (by omega), hlen, Nat.add_sub_cancel_left, Nat.add_sub_cancel_left]
  exact getD_flatMap_le16bytes (fun e : Option Nat => e.getD 0xFFFF) none t.tab (by omega)

end

/-! ## The built tree (41_huffman R150 to R157) -/

section
variable {lengths : List Nat} {maxBits : Nat}

/-- A build fails at the first symbol that cannot be inserted. -/
theorem buildFromLengths_eq_error_iff (h : ∀ l ∈ lengths, l ≤ maxBits) (e : Nat) :
    buildFromLengths lengths maxBits = .error e ↔
      e < lengths.length ∧ cannotInsert lengths e ∧ ∀ r, r < e → ¬ cannotInsert lengths r := by
  have hspec := buildFromLengths_spec h
  constructor
  · intro he
    rw [he] at hspec
    exact hspec
  · rintro ⟨hlt, hfail, hfirst⟩
    rcases hres : buildFromLengths lengths maxBits with e' | t
    · rw [hres] at hspec
      obtain ⟨-, hfail', hfirst'⟩ := hspec
      rcases Nat.lt_trichotomy e e' with hearlier | rfl | hlater
      · exact absurd hfail (hfirst' e hearlier)
      · rfl
      · exact absurd hfail' (hfirst e' hlater)
    · rw [hres] at hspec
      exact absurd hfail (hspec.1 e hlt)

theorem getD_map_range {α : Type} (f : Nat → α) (d : α) {n s : Nat} (hs : s < n) :
    ((List.range n).map f).getD s d = f s := by
  simp [List.getD_eq_getElem?_getD, hs]

/-- The nodes of a table are the decision nodes, but for the root when no symbol has a code. -/
theorem withRoot_of_getElem? {nodes : List (List Bool)} {i : Nat} {p : List Bool} (hp : nodes[i]? = some p) :
    withRoot nodes = nodes := withRoot_idem (List.ne_nil_of_mem (List.mem_of_getElem? hp))

/-- With no decision node there is no code. -/
theorem not_codedBelow_of_no_nodes {n : Nat} (h : decisionNodes lengths n = []) (s : Nat) (q : List Bool) :
    ¬ codedBelow lengths n s q := by
  rintro ⟨hs, h0, -⟩
  have hroot := mem_decisionNodes.2 ⟨s, hs, 0, Nat.pos_of_ne_zero h0, rfl⟩
  rw [h] at hroot
  exact List.not_mem_nil hroot

section
variable {b : TableBuild}

/-- A symbol whose code goes one bit on from a node stands in that node's slot for the bit. -/
theorem Holds.entry_code (h : Holds lengths.length (codedBelow lengths lengths.length)
      (withRoot (decisionNodes lengths lengths.length)) b) {i s : Nat} {p : List Bool} {x : Bool}
    (hp : (decisionNodes lengths lengths.length)[i]? = some p) (hs : s < lengths.length)
    (hcode : canonicalBits lengths s = p ++ [x]) : b.tab.getD (2 * i + x.toNat) none = some s := by
  rw [withRoot_of_getElem? hp] at h
  refine h.code i p x s hp ⟨hs, fun h0 => ?_, hcode.symm⟩
  have hlen := congrArg List.length hcode
  rw [length_canonicalBits, h0, List.length_append, List.length_singleton] at hlen
  omega

theorem Holds.entry_empty (h : Holds lengths.length (codedBelow lengths lengths.length)
      (withRoot (decisionNodes lengths lengths.length)) b) {i : Nat} {p : List Bool} {x : Bool}
    (hp : (decisionNodes lengths lengths.length)[i]? = some p)
    (hcode : ∀ s, s < lengths.length → canonicalBits lengths s ≠ p ++ [x])
    (hnode : p ++ [x] ∉ decisionNodes lengths lengths.length) : b.tab.getD (2 * i + x.toNat) none = none := by
  rw [withRoot_of_getElem? hp] at h
  exact h.empty i p x hp (fun s ⟨hs, _, hq⟩ => hcode s hs hq.symm) hnode

/-- Behind the decision nodes the table is empty, the root's slots too when no symbol has a code. -/
theorem Holds.entry_rest (h : Holds lengths.length (codedBelow lengths lengths.length)
      (withRoot (decisionNodes lengths lengths.length)) b) {k : Nat}
    (hk : 2 * (decisionNodes lengths lengths.length).length ≤ k) : b.tab.getD k none = none := by
  by_cases hnone : decisionNodes lengths lengths.length = []
  · have hcoded := not_codedBelow_of_no_nodes hnone
    rw [hnone] at h
    have slot (x : Bool) : b.tab.getD (2 * 0 + x.toNat) none = none :=
      h.empty 0 [] x rfl (fun s => hcoded s _) (by simp [withRoot])
    match k with
    | 0 => exact slot false
    | 1 => exact slot true
    | k + 2 => exact h.rest (k + 2) (Nat.le_add_left 2 k)
  · rw [withRoot_idem hnone] at h
    exact h.rest k hk

end

/-- What a length set builds: the canonical codes, and the table of their decision nodes. -/
theorem built_eq (h : ∀ l ∈ lengths, l ≤ maxBits) {t : Tree} (hb : buildFromLengths lengths maxBits = .ok t) :
    ∃ b, Holds lengths.length (codedBelow lengths lengths.length) (withRoot (decisionNodes lengths lengths.length)) b ∧
      t = ⟨lengths.length, maxBits, lengths, (List.range lengths.length).map (canonicalCode lengths), b.tab, true⟩ := by
  have hspec := buildFromLengths_spec h
  rw [hb] at hspec
  obtain ⟨-, -, htree⟩ := hspec
  exact htree

end

end Sys2Proof.Machine

/-! PROOFS. `HBL` and `HBF`: their checks in the order of 48_commands R386 and R387, and what they leave behind. -/

namespace Sys2Proof.Machine

/-! ## The end of both commands -/

section
variable {s : State}

theorem exec_hbl (hr : s.ready) (hreg : s.regionsOk .st = true) :
    exec .hbl s = .next (hblBody s.started.dropUser) := userCommand_of_regionsOk hblBody hr hreg

theorem exec_hbf (hr : s.ready) (hreg : s.regionsOk .st = true) :
    exec .hbf s = .next (hbfBody s.started.dropUser) := userCommand_of_regionsOk hbfBody hr hreg

/-- Memory with an image in the output region, if the host asked for one (48_commands R386, R387). -/
def State.withImage (s : State) (image : List Byte) : Memory :=
  if s.dcap = 0 then s.mem else s.mem.writeBytes s.dst.toNat image

theorem withImage_read (hw : s.mem.wf = true) (image : List Byte) (a : Nat) : (s.withImage image).read a =
    if s.dcap ≠ 0 ∧ s.dst.toNat ≤ a ∧ a < s.dst.toNat + image.length then image.getD (a - s.dst.toNat) 0
    else s.mem.read a := by
  unfold State.withImage
  by_cases h0 : s.dcap = 0
  · rw [if_pos h0, if_neg fun h => h.1 h0]
  · rw [if_neg h0, Memory.read_writeBytes hw]
    simp only [ne_eq, h0, not_false_eq_true, true_and]

theorem finishUser_of_idle (h : s.engine = .idle) (t : Tree) (image : List Byte) : s.finishUser t image = { s with
    done := true, u := t, treev := true, res0 := BitVec.ofNat 32 t.n, mem := s.withImage image
    dlen := if s.dcap = 0 then s.dlen else BitVec.ofNat 32 image.length } := by
  unfold State.finishUser State.withImage
  by_cases h0 : s.dcap = 0
  · rw [if_pos h0, if_pos h0, if_pos h0, State.finish, ← h]
  · rw [if_neg h0, if_neg h0, if_neg h0, State.finish, ← h]
    rfl

/-! ## `HBL` (48_commands R386) -/

theorem hblBody_of_badCount (h : s.slen.toNat < 1 ∨ 288 < s.slen.toNat) : hblBody s = s.raiseUser .badArg 1 :=
  if_pos h

theorem hblBody_of_badBits (h1 : 1 ≤ s.slen.toNat) (h288 : s.slen.toNat ≤ 288)
    (h : s.arg0.toNat < 1 ∨ 15 < s.arg0.toNat) : hblBody s = s.raiseUser .badArg 5 :=
  (if_neg (by omega)).trans (if_pos h)

/-- What `HBL` asks of its arguments before it looks at the lengths. -/
structure State.HblArgs (s : State) : Prop where
  count_pos : 1 ≤ s.slen.toNat
  count_le : s.slen.toNat ≤ 288
  bits_pos : 1 ≤ s.arg0.toNat
  bits_le : s.arg0.toNat ≤ 15

theorem State.HblArgs.not_bad (h : s.HblArgs) :
    ¬ (s.slen.toNat < 1 ∨ 288 < s.slen.toNat) ∧ ¬ (s.arg0.toNat < 1 ∨ 15 < s.arg0.toNat) := by
  obtain ⟨h1, h288, hb, h15⟩ := h
  omega

theorem any_length_iff : ((s.input.map BitVec.toNat).any fun l => s.arg0.toNat < l) = true ↔
    ∃ b ∈ s.input, s.arg0.toNat < b.toNat := by simp

theorem not_any_length (hl : ∀ b ∈ s.input, b.toNat ≤ s.arg0.toNat) :
    ¬ ((s.input.map BitVec.toNat).any fun l => s.arg0.toNat < l) = true := by
  rw [any_length_iff]
  rintro ⟨b, hb, hlt⟩
  exact absurd (hl b hb) (Nat.not_le.2 hlt)

/-- The room test of both commands, when it does not fail. -/
theorem not_noRoom {size : Nat} (hroom : s.dcap = 0 ∨ size ≤ s.dcap.toNat) : ¬ (s.dcap ≠ 0 ∧ s.dcap.toNat < size) :=
  fun hno => hroom.elim hno.1 (Nat.not_le.2 hno.2)

theorem hblBody_of_badLength (h : s.HblArgs) (hl : ∃ b ∈ s.input, s.arg0.toNat < b.toNat) :
    hblBody s = s.raiseUser .badArg 0 :=
  (if_neg h.not_bad.1).trans ((if_neg h.not_bad.2).trans (if_pos (any_length_iff.2 hl)))

theorem hblBody_of_noRoom (h : s.HblArgs) (hl : ∀ b ∈ s.input, b.toNat ≤ s.arg0.toNat) (h0 : s.dcap ≠ 0)
    (hroom : s.dcap.toNat < 6 * s.slen.toNat) : hblBody s = s.raiseUser .outputOverflow 0 :=
  (if_neg h.not_bad.1).trans ((if_neg h.not_bad.2).trans ((if_neg (not_any_length hl)).trans (if_pos ⟨h0, hroom⟩)))

theorem hblBody_of_error (h : s.HblArgs) (hl : ∀ b ∈ s.input, b.toNat ≤ s.arg0.toNat)
    (hroom : s.dcap = 0 ∨ 6 * s.slen.toNat ≤ s.dcap.toNat) {e : Nat}
    (hb : buildFromLengths (s.input.map BitVec.toNat) s.arg0.toNat = .error e) :
    hblBody s = s.raiseUser .huffTreeMalformed e := by
  simp only [hblBody, if_neg h.not_bad.1, if_neg h.not_bad.2, if_neg (not_any_length hl), if_neg (not_noRoom hroom), hb]

theorem hblBody_of_ok (h : s.HblArgs) (hl : ∀ b ∈ s.input, b.toNat ≤ s.arg0.toNat)
    (hroom : s.dcap = 0 ∨ 6 * s.slen.toNat ≤ s.dcap.toNat) {t : Tree}
    (hb : buildFromLengths (s.input.map BitVec.toNat) s.arg0.toNat = .ok t) :
    hblBody s = s.finishUser t (treeImage t) := by
  simp only [hblBody, if_neg h.not_bad.1, if_neg h.not_bad.2, if_neg (not_any_length hl), if_neg (not_noRoom hroom), hb]

/-! ## `HBF` (48_commands R387) -/

/-- The trimmed symbol count of `HBF` (41_huffman R171). -/
def State.symbolCount (s : State) : Nat := trimCodes (s.freqInput s.arg2.toNat) s.arg1.toNat s.arg2.toNat

/-- What `HBF` asks of its arguments before it looks at the frequencies. -/
structure State.HbfArgs (s : State) : Prop where
  codes_le : s.arg2.toNat ≤ 288
  min_ge : 2 ≤ s.arg1.toNat
  min_le : s.arg1.toNat ≤ s.arg2.toNat
  bits_pos : 1 ≤ s.arg0.toNat
  bits_le : s.arg0.toNat ≤ 15
  size : s.slen.toNat = 4 * s.arg2.toNat

theorem hbfBody_of_tooManyCodes (h : 288 < s.arg2.toNat) : hbfBody s = s.raiseUser .badArg 7 := if_pos h

theorem hbfBody_of_badMinimum (h288 : s.arg2.toNat ≤ 288)
    (h : s.arg1.toNat < 2 ∨ s.arg2.toNat < s.arg1.toNat) : hbfBody s = s.raiseUser .badArg 6 :=
  (if_neg (Nat.not_lt.2 h288)).trans (if_pos h)

theorem hbfBody_of_badBits (h288 : s.arg2.toNat ≤ 288) (h2 : 2 ≤ s.arg1.toNat) (hmin : s.arg1.toNat ≤ s.arg2.toNat)
    (h : s.arg0.toNat < 1 ∨ 15 < s.arg0.toNat) : hbfBody s = s.raiseUser .badArg 5 :=
  (if_neg (Nat.not_lt.2 h288)).trans ((if_neg (by omega)).trans (if_pos h))

theorem hbfBody_of_badSize (h288 : s.arg2.toNat ≤ 288) (h2 : 2 ≤ s.arg1.toNat) (hmin : s.arg1.toNat ≤ s.arg2.toNat)
    (hb : 1 ≤ s.arg0.toNat) (h15 : s.arg0.toNat ≤ 15) (h : s.slen.toNat ≠ 4 * s.arg2.toNat) :
    hbfBody s = s.raiseUser .badArg 1 :=
  (if_neg (Nat.not_lt.2 h288)).trans ((if_neg (by omega)).trans ((if_neg (by omega)).trans (if_pos h)))

theorem State.HbfArgs.not_bad (h : s.HbfArgs) : ¬ 288 < s.arg2.toNat ∧
    ¬ (s.arg1.toNat < 2 ∨ s.arg2.toNat < s.arg1.toNat) ∧ ¬ (s.arg0.toNat < 1 ∨ 15 < s.arg0.toNat) ∧
    ¬ s.slen.toNat ≠ 4 * s.arg2.toNat := by
  obtain ⟨h288, h2, hmin, hb, h15, hsize⟩ := h
  omega

theorem hbfBody_of_tooFewBits (h : s.HbfArgs) (hlimit : 2 ^ s.arg0.toNat < s.symbolCount) :
    hbfBody s = s.raiseUser .badArg 5 := by
  obtain ⟨hcodes, hmin, hbits, hsize⟩ := h.not_bad
  rw [State.symbolCount] at hlimit
  simp only [hbfBody, if_neg hcodes, if_neg hmin, if_neg hbits, if_neg hsize, if_pos hlimit]

theorem hbfBody_of_noRoom (h : s.HbfArgs) (hlimit : s.symbolCount ≤ 2 ^ s.arg0.toNat) (h0 : s.dcap ≠ 0)
    (hroom : s.dcap.toNat < 7 * s.symbolCount) : hbfBody s = s.raiseUser .outputOverflow 0 := by
  obtain ⟨hcodes, hmin, hbits, hsize⟩ := h.not_bad
  rw [State.symbolCount] at hlimit hroom
  simp only [hbfBody, if_neg hcodes, if_neg hmin, if_neg hbits, if_neg hsize, if_neg (Nat.not_lt.2 hlimit)]
  exact if_pos ⟨h0, hroom⟩

theorem hbfBody_of_ok (h : s.HbfArgs) (hlimit : s.symbolCount ≤ 2 ^ s.arg0.toNat)
    (hroom : s.dcap = 0 ∨ 7 * s.symbolCount ≤ s.dcap.toNat) {t : Tree} {b : Bpm}
    (hb : buildFromFrequencies (s.freqInput s.arg2.toNat) s.arg1.toNat s.arg2.toNat s.arg0.toNat = .ok (t, b)) :
    hbfBody s = State.finishUser { s with work := { s.work with bpm := b } } t
      (t.len.map (BitVec.ofNat 8) ++ treeImage t) := by
  obtain ⟨hcodes, hmin, hbits, hsize⟩ := h.not_bad
  rw [State.symbolCount] at hlimit hroom
  simp only [hbfBody, if_neg hcodes, if_neg hmin, if_neg hbits, if_neg hsize, if_neg (Nat.not_lt.2 hlimit),
    if_neg (not_noRoom hroom), hb]

end

/-! ## The obligations -/

/-- Settles O21: the body of `HBL` check by check, the image byte by byte, and the tree by what its table holds. -/
theorem hblBuilds : Obligations.HblBuilds := by
  refine ⟨fun s hr hreg => ?checks, fun s t hr hreg hw h1 h288 hb h15 hl hroom hbuild => ?filled,
    fun t ht => ⟨length_treeImage_eq ht, fun _ => getD_treeImage_code ht, fun _ => getD_treeImage_entry ht⟩,
    fun lengths maxBits h => ⟨buildFromLengths_eq_error_iff h, builds_iff h⟩,
    fun lengths maxBits t h hbuild => ?tree⟩
  case checks =>
    have fault {c : Cause} {info : Nat} (h : hblBody s.started.dropUser = s.started.dropUser.raiseUser c info) :
        exec .hbl s = .next (s.started.raiseUser c info) := (exec_hbl hr hreg).trans (congrArg _ h)
    refine ⟨fun h => fault (hblBody_of_badCount h), fun h1 h288 => ⟨fun h => fault (hblBody_of_badBits h1 h288 h),
      fun hb h15 => ?lengths⟩⟩
    case lengths =>
      have hargs : s.started.dropUser.HblArgs := ⟨h1, h288, hb, h15⟩
      exact ⟨fun hl => fault (hblBody_of_badLength hargs hl),
        fun hl => ⟨fun h0 hroom => fault (hblBody_of_noRoom hargs hl h0 hroom),
          fun hroom e he => fault (hblBody_of_error hargs hl hroom he)⟩⟩
  case filled =>
    have hn : t.n = s.slen.toNat := by
      obtain ⟨b, -, rfl⟩ := built_eq (by simpa using hl) hbuild
      simp
    have hlen : (treeImage t).length = 6 * s.slen.toNat := hn ▸ length_treeImage_eq ⟨_, _, hbuild⟩
    have hres : BitVec.ofNat 32 t.n = s.slen := by rw [hn, BitVec.ofNat_toNat, BitVec.setWidth_eq]
    refine ⟨s.withImage (treeImage t), ?_, hlen, fun a => hlen ▸ withImage_read hw (treeImage t) a⟩
    rw [← hlen, ← hres]
    exact (exec_hbl hr hreg).trans (congrArg _ ((hblBody_of_ok (s := s.started.dropUser) ⟨h1, h288, hb, h15⟩ hl hroom
      hbuild).trans (finishUser_of_idle (started_engine hr) t _)))
  case tree =>
    have hkraft := ((builds_iff h).1 ⟨t, hbuild⟩).1
    obtain ⟨b, hholds, rfl⟩ := built_eq h hbuild
    refine ⟨rfl, rfl, rfl, rfl, rfl, hholds.tab, fun s r hs hr hcs hcr hlt => ?order,
      fun i p x hp => ⟨fun s => hholds.entry_code hp, fun j hj => ?node, hholds.entry_empty hp⟩,
      fun k => hholds.entry_rest⟩
    case order =>
      simp only [getD_map_range _ _ hs, getD_map_range _ _ hr]
      exact canonicalCode_order h hkraft hs hr hcs hcr hlt
    case node =>
      rw [withRoot_of_getElem? hp] at hholds
      exact hholds.node i p x j hp hj

/-- Settles O22: the body of `HBF` check by check; the trimming and the code lengths are what the builder gives. -/
theorem hbfBuilds : Obligations.HbfBuilds := by
  refine ⟨fun s hr hreg => ?checks,
    fun s t b hr hreg hw h288 h2 hmin hb h15 hsize hlimit hroom hbuild => ?filled,
    fun freq minCodes maxCodes maxBits h2 hmin hbits => ⟨trimCodes_spec freq hmin, fun hlimit => ?lengths⟩⟩
  case checks =>
    have fault {c : Cause} {info : Nat} (h : hbfBody s.started.dropUser = s.started.dropUser.raiseUser c info) :
        exec .hbf s = .next (s.started.raiseUser c info) := (exec_hbf hr hreg).trans (congrArg _ h)
    refine ⟨fun h => fault (hbfBody_of_tooManyCodes h),
      fun h288 => ⟨fun h => fault (hbfBody_of_badMinimum h288 h), fun h2 hmin =>
        ⟨fun h => fault (hbfBody_of_badBits h288 h2 hmin h), fun hb h15 =>
          ⟨fun h => fault (hbfBody_of_badSize h288 h2 hmin hb h15 h), fun hsize => ?room⟩⟩⟩⟩
    case room =>
      have hargs : s.started.dropUser.HbfArgs := ⟨h288, h2, hmin, hb, h15, hsize⟩
      exact ⟨fun hlimit => fault (hbfBody_of_tooFewBits hargs hlimit),
        fun hlimit h0 hroom => fault (hbfBody_of_noRoom hargs hlimit h0 hroom)⟩
  case filled =>
    obtain ⟨t', b', hb', hbuilt, hn, hlengths⟩ := buildFromFrequencies_spec (freq := s.freqInput s.arg2.toNat)
      h2 hmin hb hlimit
    cases hbuild.symm.trans hb'
    have hlen : (t.len.map (BitVec.ofNat 8) ++ treeImage t).length = 7 * t.n := by
      rw [List.length_append, List.length_map, length_treeImage_eq ⟨_, _, hbuilt⟩, hlengths.length, ← hn]
      omega
    refine ⟨s.withImage (t.len.map (BitVec.ofNat 8) ++ treeImage t), ?_, hn,
      fun a => hlen ▸ withImage_read hw _ a⟩
    rw [← hlen]
    have hend := finishUser_of_idle (s := { s.started.dropUser with work := { s.work with bpm := b } })
      (started_engine hr) t (t.len.map (BitVec.ofNat 8) ++ treeImage t)
    exact (exec_hbf hr hreg).trans (congrArg _ ((hbfBody_of_ok (s := s.started.dropUser)
      ⟨h288, h2, hmin, hb, h15, hsize⟩ hlimit hroom hbuild).trans hend))
  case lengths =>
    obtain ⟨t, b, hbuild, hbuilt, -, hlengths⟩ := buildFromFrequencies_spec (freq := freq) h2 hmin hbits hlimit
    exact ⟨t, b, hbuild, hbuilt, hlengths.length, hlengths.complete.bound, hlengths.complete.kraft, hlengths.none,
      hlengths.one, hlengths.many⟩

end Sys2Proof.Machine

/-! PROOFS. What a raise records and what it does to memory (60_exceptions R401, R402, R404), that a running command
meets no memory that does not exist (R408), and the reset event (70_reset R440, R441). -/

namespace Sys2Proof.Machine

/-! ## A running command (60_exceptions R408) -/

theorem not_command_of_isInflateElement {i : Instr} (h : isInflateElement i = true) :
    isCommand i = false ∧ isScanline i = false := by
  cases i with
  | nop | clrerr | inflate | zlibd | deflate | zlibc | unfilter | filter | crc32 | crcchk | adler32 | hbl | hbf | hdec
  | ftNone | ftSub | ftUp | ftAverage | ftPaeth => cases h
  | _ => exact ⟨rfl, rfl⟩

theorem isCommand_ftInstr (b : Byte) : isCommand (ftInstr b) = false := by
  unfold ftInstr
  split <;> rfl

section
variable {s : State} {y : Nat}

/-- The geometry of 46_filter R321 holds every scanline of the image inside both regions. -/
theorem scanlineOk_of_engineOk (hok : s.engineOk) (he : s.engine = .unfilter y) : s.scanlineOk = true := by
  simp only [State.engineOk, he] at hok
  obtain ⟨hreg, hy, hin, hout⟩ := hok
  have hline : s.scanline = y := by rw [State.scanline, he]
  have hsource : s.typeOffset + s.lineBytes + 1 ≤ s.slen.toNat :=
    calc s.typeOffset + s.lineBytes + 1 = (y + 1) * (s.lineBytes + 1) := by
          rw [State.typeOffset, hline, Nat.succ_mul, Nat.add_assoc]
      _ ≤ s.filtSize := Nat.mul_le_mul_right _ hy
      _ = s.slen.toNat := hin.symm
  have hdest : (s.scanline + 1) * s.lineBytes ≤ s.dcap.toNat :=
    calc (s.scanline + 1) * s.lineBytes = (y + 1) * s.lineBytes := by rw [hline]
      _ ≤ s.rawSize := Nat.mul_le_mul_right _ hy
      _ ≤ s.dcap.toNat := hout
  rw [State.scanlineOk, hreg, Bool.true_and, decide_eq_true_iff]
  exact ⟨hsource, hdest⟩

/-- In a state with the invariant no fetch meets memory that does not exist (20_memory R69). -/
theorem fetchOk_of_engineOk (hok : s.engineOk) : s.fetchOk = true := by
  cases he : s.engine with
  | idle => rw [State.fetchOk, he]
  | chunk =>
    simp only [State.engineOk, he] at hok
    rw [State.fetchOk, he]
    exact hok
  | unfilter y =>
    rw [State.fetchOk, he]
    exact scanlineOk_of_engineOk hok he
  | inflate z p =>
    simp only [State.engineOk, he] at hok
    rw [State.fetchOk, he]
    exact hok.1

theorem regionsOk_of_scanlineOk (h : s.scanlineOk = true) : s.regionsOk .st = true := by
  rw [State.scanlineOk, Bool.and_eq_true] at h
  exact h.1

/-- A fetch that meets no absent memory has tested all that the element it finds relies on. -/
theorem exec_fetched_answers {ctx : Ctx} {i : Instr} {k : Nat} (hf : s.fetchOk = true) (hc : s.context = some ctx)
    (hd : decode s.cfg.emptySlot ctx s.source s.bp.toNat = .ok (i, k)) : ∃ t, exec i (s.advance k) = .next t := by
  cases he : s.engine with
  | idle =>
    rw [(context_eq_none_iff s).mpr ((State.not_busy_iff s).mpr he)] at hc
    cases hc
  | inflate z p =>
    rw [State.fetchOk, he] at hf
    obtain ⟨hl, hk⟩ := context_of_inflate he hc
    obtain ⟨hcommand, hscanline⟩ := not_command_of_isInflateElement (decode_inflate hd hl hk)
    exact exec_element_answers (s := s.advance k) hcommand hf fun h => Bool.noConfusion (h.symm.trans hscanline)
  | unfilter y =>
    rw [State.fetchOk, he] at hf
    simp only [State.context, he] at hc
    cases hc
    rw [decode_scanline] at hd
    cases hd
    exact exec_element_answers (s := s.advance _) (isCommand_ftInstr _) (regionsOk_of_scanlineOk hf) fun _ => hf
  | chunk =>
    rw [State.fetchOk, he] at hf
    simp only [State.context, he] at hc
    cases hc
    obtain ⟨len, typ, crc, rfl, -⟩ := decode_chunk_ok hd
    exact ⟨_, element_of_regionsOk (s := s.advance k) (uses := .s) hf (chunkBody len crc)⟩

end

/-- Settles O5: the invariant's regions and geometry let every fetch through, and a fetched element answers. -/
theorem engineNeverFaults : Obligations.EngineNeverFaults := by
  intro s hs
  rcases fetch_cases s with ⟨hf, -⟩ | ⟨-, hc, -⟩ | ⟨ctx, i, k, hf, hc, hd, -⟩ | ⟨ctx, e, hf, hc, hd, -⟩
  · exact Bool.noConfusion ((fetchOk_of_engineOk hs.engine).symm.trans hf)
  · exact ⟨s, engineStep_of_not_busy ((context_eq_none_iff s).mp hc)⟩
  · rw [engineStep_of_decode hf hc hd]
    exact exec_fetched_answers hf hc hd
  · exact ⟨s.stopFetch e, engineStep_of_decode_error hf hc hd⟩

/-! ## Raising a fault (60_exceptions R401, R402, R404) -/

/-- What settling the output region leaves in each byte, whichever the free choice takes (60_exceptions R404). -/
theorem settleOutput_read {s : State} (hw : s.mem.wf = true) (a : Nat) :
    (¬ s.inT a → s.settleOutput.mem.read a = s.mem.read a) ∧
      (s.settleOutput.mem.read a = s.mem.read a ∨ s.settleOutput.mem.read a = s.saved.read a) := by
  rw [State.settleOutput_mem, Memory.read_settle hw]
  split
  · next h => exact ⟨fun hout => absurd ⟨h.1, h.2.1⟩ hout, .inr rfl⟩
  · exact ⟨fun _ => rfl, .inl rfl⟩

/-- Settles O19: a raise settles the output region and changes memory nowhere else. -/
theorem raiseMemory : Obligations.RaiseMemory := fun _ _ _ a hw => settleOutput_read hw a

/-- Settles O17: the table of 60_exceptions R401, row by row. -/
theorem faultCodes : Obligations.FaultCodes := by
  unfold Obligations.FaultCodes
  decide

/-- Settles O18: each raise writes what 60_exceptions R402 names, and the slot of a failed build is dropped. -/
theorem raiseRecords : Obligations.RaiseRecords := by
  refine ⟨fun _ _ _ => rfl, fun _ _ _ => rfl, fun _ => rfl, fun s f => ⟨rfl, ?ll, ?d, ?cl⟩, fun _ _ _ => rfl,
    fun _ _ _ => ⟨rfl, rfl⟩⟩
  all_goals
    intro h
    rw [State.raiseFailure_work, h]
    rfl

/-! ## The reset event (70_reset R440, R441) -/

/-- A block that is idle or runs `CRCCHK` has no output region to settle (48_commands R374). -/
theorem resetEvent_mem_of_no_output {s : State} (h : s.busy = false ∨ s.engine = .chunk) :
    s.resetEvent.mem = s.mem := by
  have hcond : (s.busy && s.engineUses == .st) = false := by
    rcases h with hidle | hchunk
    · rw [hidle, Bool.false_and]
    · rw [State.engineUses, hchunk]
      exact Bool.and_false _
  rw [State.resetEvent, hcond]
  rfl

theorem resetEvent_mem_cases (s : State) :
    s.resetEvent.mem = s.mem ∨ s.resetEvent.mem = s.settleOutput.mem := by
  unfold State.resetEvent
  dsimp only
  split
  · exact .inr rfl
  · exact .inl rfl

/-- Settles O3: the registers are those of the reset state, and memory is settled as after a fault or left alone. -/
theorem resetEventResets : Obligations.ResetEventResets := by
  intro s
  obtain ⟨hx, hbp, hpos, hwbp, -, hstatus, herr, herrInfo, hctrl, -, -, -, -, hbusy⟩ := resetState
  refine ⟨s.resetEvent, rfl, hx, hbp, hpos, hwbp, hstatus, herr, herrInfo, hctrl, rfl, rfl, rfl, rfl, hbusy,
    resetEvent_mem_of_no_output, fun hw a => ?memory⟩
  case memory =>
    rcases resetEvent_mem_cases s with h | h <;> rw [h]
    · exact ⟨fun _ => rfl, .inl rfl⟩
    · exact settleOutput_read hw a

end Sys2Proof.Machine
